-- ==== Sys2Proof/Word.lean ====
section
/-! DEFINITION. The word types of the Bolpoca (R2, R42) and their plainest arithmetic: the widths the manual names, and
little-endian grouping of bytes into words (R2). -/
namespace Sys2Proof

/-- One byte of memory or scratchpad. -/
abbrev Byte := BitVec 8
/-- One element of a v register (R42), and one word of any of the three streams (R47). -/
abbrev Word := BitVec 32
/-- One s register (R42), one virtual address (R109), one link (R18). -/
abbrev Word64 := BitVec 64
/-- One accumulator element in AX (R193). -/
abbrev Acc := BitVec 48
/-- A set of lanes of one group, bit i for lane i (R17). -/
abbrev Mask := BitVec 64

/-- The value of little-endian bytes (R2). -/
def leNat : List Byte → Nat
  | [] => 0
  | b :: bs => b.toNat + 256 * leNat bs

/-- The `n` little-endian bytes of a value (R2). -/
def natLE : Nat → Nat → List Byte
  | 0, _ => []
  | n + 1, v => BitVec.ofNat 8 v :: natLE n (v / 256)

/-- Bits [hi:lo] of a value, as a number (R2). -/
def bitsOf (v hi lo : Nat) : Nat := v / 2 ^ lo % 2 ^ (hi + 1 - lo)

/-- The signed value of the low `n` bits of `v`. -/
def sextNat (n v : Nat) : Int := if v % 2 ^ n < 2 ^ (n - 1) then (v % 2 ^ n : Nat) else (v % 2 ^ n : Nat) - (2 ^ n : Nat)

/-- The number an integer takes in `n` bits (two's complement, wrapping). -/
def wrapNat (n : Nat) (z : Int) : Nat := (z % (2 ^ n : Nat)).toNat

end Sys2Proof
end

