-- ==== Sys2Proof/Machine/Float.lean ====
section
/-! DEFINITION. Binary floating point as the manual defines it (R74, R189, R193): exact values, one rounding, canonical NaNs.
Every result is computed from the exact value with integers and rounded once. -/
namespace Sys2Proof.Machine

/-- Rounding modes (R104, R106, R197). -/
inductive RMode where
  | rne | rtz | rup | rdn
  deriving DecidableEq, Repr

/-- The mode of a two-bit code: 0 RNE, 1 RTZ, 2 RUP, 3 RDN (R106, R197). -/
def RMode.ofCode : Nat → RMode
  | 0 => .rne
  | 1 => .rtz
  | 2 => .rup
  | _ => .rdn

/-- A binary format: exponent and fraction bits (R189). -/
structure FFmt where
  eb : Nat
  fb : Nat
  deriving DecidableEq, Repr

def f32 : FFmt := ⟨8, 23⟩
def f16 : FFmt := ⟨5, 10⟩
def b16 : FFmt := ⟨8, 7⟩
def axFmt : FFmt := ⟨8, 39⟩

/-- Bits of a code. -/
def FFmt.width (f : FFmt) : Nat := 1 + f.eb + f.fb
/-- Exponent bias. -/
def FFmt.bias (f : FFmt) : Nat := 2 ^ (f.eb - 1) - 1
/-- Exponent of the least normal value. -/
def FFmt.emin (f : FFmt) : Int := 1 - (f.bias : Int)
/-- The code of +∞. -/
def FFmt.infCode (f : FFmt) : Nat := (2 ^ f.eb - 1) * 2 ^ f.fb
/-- The canonical NaN (R74, R193). -/
def FFmt.nanCode (f : FFmt) : Nat := f.infCode + 2 ^ (f.fb - 1)
/-- A code with a sign. -/
def FFmt.signed (f : FFmt) (neg : Bool) (c : Nat) : Nat := if neg then 2 ^ (f.eb + f.fb) + c else c

/-- What a code stands for: a NaN (signalling or not), an infinity, or (−1)^neg × m × 2^e. -/
inductive FVal where
  | nan (signalling : Bool)
  | inf (neg : Bool)
  | num (neg : Bool) (m : Nat) (e : Int)
  deriving DecidableEq, Repr

/-- The value of a code (R189). -/
def FFmt.dec (f : FFmt) (c : Nat) : FVal :=
  let neg := c / 2 ^ (f.eb + f.fb) % 2 == 1
  let ex := c / 2 ^ f.fb % 2 ^ f.eb
  let fr := c % 2 ^ f.fb
  if ex = 2 ^ f.eb - 1 then
    (if fr = 0 then .inf neg else .nan (fr / 2 ^ (f.fb - 1) == 0))
  else if ex = 0 then .num neg fr (f.emin - (f.fb : Int))
  else .num neg (2 ^ f.fb + fr) ((ex : Int) - (f.bias : Int) - (f.fb : Int))

def FVal.isNaN : FVal → Bool
  | .nan _ => true
  | _ => false

def FVal.isSNaN : FVal → Bool
  | .nan s => s
  | _ => false

def FVal.isZero : FVal → Bool
  | .num _ m _ => m == 0
  | _ => false

def FVal.neg : FVal → FVal
  | .nan s => .nan s
  | .inf b => .inf !b
  | .num b m e => .num (!b) m e

/-- The value times 2^k. -/
def FVal.scale (k : Int) : FVal → FVal
  | .num b m e => .num b m (e + k)
  | x => x

/-- The value of an integer. -/
def FVal.ofInt (z : Int) : FVal := .num (decide (z < 0)) z.natAbs 0

/-- Whether a rounding goes up in magnitude: quotient n, remainder r of d, sign. -/
def roundsUp (mode : RMode) (neg : Bool) (n r d : Nat) : Bool :=
  match mode with
  | .rne => d < 2 * r || (2 * r == d && n % 2 == 1)
  | .rtz => false
  | .rup => !neg && r != 0
  | .rdn => neg && r != 0

/-- num/den × 2^e as an integer quotient, remainder and divisor after scaling by 2^-u. -/
def scaledQuot (num den : Nat) (k : Int) : Nat × Nat × Nat :=
  let nn := num * 2 ^ k.toNat
  let dd := den * 2 ^ (-k).toNat
  (nn / dd, nn % dd, dd)

/-- floor(log2(num/den)). -/
def ratLog2 (num den : Nat) : Int :=
  let k : Int := (Nat.log2 num : Int) - (Nat.log2 den : Int)
  if den * 2 ^ k.toNat ≤ num * 2 ^ (-k).toNat then k else k - 1

/-- What a value that overflows becomes: what IEEE 754 gives under the mode, the largest finite value of its sign, or ±∞ (R74, R104,
R195). -/
inductive OnOverflow where
  | ieee | largest | infinity
  deriving DecidableEq, Repr

/-- A finite non-zero exact value num/den × 2^e rounded into a format (R74): the code, and whether it overflowed. -/
def FFmt.roundRat (f : FFmt) (mode : RMode) (big : OnOverflow) (neg : Bool) (num den : Nat) (e : Int) : Nat × Bool :=
  let ex := max (ratLog2 num den + e) f.emin
  let (n, r, d) := scaledQuot num den (e - (ex - (f.fb : Int)))
  let n := if roundsUp mode neg n r d then n + 1 else n
  let c := (ex + (f.bias : Int) - 1).toNat * 2 ^ f.fb + n
  if f.infCode ≤ c then
    let toMax := match big, mode with
      | .largest, _ => true
      | .infinity, _ => false
      | .ieee, .rne => false
      | .ieee, .rtz => true
      | .ieee, .rup => neg
      | .ieee, .rdn => !neg
    (f.signed neg (if toMax then f.infCode - 1 else f.infCode), true)
  else (f.signed neg c, false)

/-- A value rounded into a format: the code, and whether a finite value overflowed. -/
def FFmt.enc (f : FFmt) (mode : RMode) (big : OnOverflow) : FVal → Nat × Bool
  | .nan _ => (f.nanCode, false)
  | .inf neg => (f.signed neg f.infCode, false)
  | .num neg m e => if m = 0 then (f.signed neg 0, false) else f.roundRat mode big neg m 1 e

/-- A value rounded to nearest even (R74). -/
def FFmt.rne (f : FFmt) (x : FVal) : Nat := (f.enc .rne .ieee x).1

/-- The exact sum, and whether it is an invalid operation (R74, R101). -/
def FVal.add (x y : FVal) : FVal × Bool :=
  match x, y with
  | .nan s, .nan t => (.nan false, s || t)
  | .nan s, _ => (.nan false, s)
  | _, .nan t => (.nan false, t)
  | .inf a, .inf b => if a = b then (.inf a, false) else (.nan false, true)
  | .inf a, _ => (.inf a, false)
  | _, .inf b => (.inf b, false)
  | .num a m e, .num b n k =>
    let lo := min e k
    let xm : Int := (m * 2 ^ (e - lo).toNat : Nat)
    let ym : Int := (n * 2 ^ (k - lo).toNat : Nat)
    let z := (if a then -xm else xm) + (if b then -ym else ym)
    if z = 0 then (.num (a && b && m == 0 && n == 0) 0 lo, false) else (.num (decide (z < 0)) z.natAbs lo, false)

/-- The exact product (R74). -/
def FVal.mul (x y : FVal) : FVal × Bool :=
  match x, y with
  | .nan s, .nan t => (.nan false, s || t)
  | .nan s, _ => (.nan false, s)
  | _, .nan t => (.nan false, t)
  | .inf a, .inf b => (.inf (a != b), false)
  | .inf a, .num b n _ => if n = 0 then (.nan false, true) else (.inf (a != b), false)
  | .num a m _, .inf b => if m = 0 then (.nan false, true) else (.inf (a != b), false)
  | .num a m e, .num b n k => (.num (a != b) (m * n) (e + k), false)

/-- The exact product and sum of a fused multiply-add; 0 × ∞ is invalid whatever the addend (R74). -/
def FVal.fma (x y z : FVal) : FVal × Bool :=
  let (p, i) := x.mul y
  let (r, j) := p.add z
  (r, i || j || z.isSNaN)

/-- x / y rounded once (R101). -/
def FFmt.div (f : FFmt) (x y : FVal) : Nat × Bool :=
  match x, y with
  | .nan s, .nan t => (f.nanCode, s || t)
  | .nan s, _ => (f.nanCode, s)
  | _, .nan t => (f.nanCode, t)
  | .inf _, .inf _ => (f.nanCode, true)
  | .inf a, .num b _ _ => (f.signed (a != b) f.infCode, false)
  | .num a _ _, .inf b => (f.signed (a != b) 0, false)
  | .num a m e, .num b n k =>
    if n = 0 then (if m = 0 then (f.nanCode, true) else (f.signed (a != b) f.infCode, false))
    else if m = 0 then (f.signed (a != b) 0, false)
    else ((f.roundRat .rne .ieee (a != b) m n (e - k)).1, false)

/-- x < y for numbers and infinities; −0 equals +0 (R102). -/
def FVal.key : FVal → Int × Int × Nat
  | .nan _ => (0, 0, 0)
  | .inf neg => (if neg then -2 else 2, 0, 0)
  | .num neg m e => (if m = 0 then 0 else if neg then -1 else 1, e, m)

/-- Exact comparison of two values that are not NaN. -/
def FVal.lt (x y : FVal) : Bool :=
  match x, y with
  | .num a m e, .num b n k =>
    let lo := min e k
    let xm : Int := (m * 2 ^ (e - lo).toNat : Nat)
    let ym : Int := (n * 2 ^ (k - lo).toNat : Nat)
    decide ((if a then -xm else xm) < (if b then -ym else ym))
  | x, y => decide (x.key.1 < y.key.1)

/-- Exact equality of two values that are not NaN. -/
def FVal.eqv (x y : FVal) : Bool := !x.lt y && !y.lt x

/-- minimumNumber and maximumNumber of two codes (R101): the other operand where one is NaN; −0 below +0. -/
def FFmt.minMax (f : FFmt) (isMax : Bool) (x y : Nat) : Nat × Bool :=
  let a := f.dec x
  let b := f.dec y
  let inv := a.isSNaN || b.isSNaN
  if a.isNaN && b.isNaN then (f.nanCode, inv)
  else if a.isNaN then (y, inv)
  else if b.isNaN then (x, inv)
  else
    let xNeg := x / 2 ^ (f.eb + f.fb) % 2 == 1
    let aFirst := a.lt b || (a.eqv b && xNeg)
    (if aFirst == isMax then y else x, inv)

/-- Add, subtract, multiply and fused multiply-add of codes, rounded once (R74, R101, R103). -/
def FFmt.add (f : FFmt) (x y : Nat) : Nat × Bool := let (v, i) := (f.dec x).add (f.dec y); (f.rne v, i)
def FFmt.sub (f : FFmt) (x y : Nat) : Nat × Bool := let (v, i) := (f.dec x).add (f.dec y).neg; (f.rne v, i)
def FFmt.mul (f : FFmt) (x y : Nat) : Nat × Bool := let (v, i) := (f.dec x).mul (f.dec y); (f.rne v, i)
def FFmt.fma (f : FFmt) (x y z : Nat) : Nat × Bool :=
  let (v, i) := (f.dec x).fma (f.dec y) (f.dec z)
  (f.rne v, i)

/-! ## Integers from values -/

/-- A finite value rounded to an integer under a mode. -/
def roundInt (mode : RMode) (neg : Bool) (m : Nat) (e : Int) : Int :=
  let (n, r, d) := scaledQuot m 1 e
  let n := if roundsUp mode neg n r d then n + 1 else n
  if neg then -(n : Int) else n

/-- An integer clamped to a range. -/
def clampInt (lo hi z : Int) : Int := if z < lo then lo else if hi < z then hi else z

/-- A value converted to an integer of a range (R104, R195): with `sat`, NaN gives 0 and others clamp; without, the code
`bad`. The flag says the value was NaN or out of range. -/
def toRange (mode : RMode) (sat : Bool) (lo hi bad : Int) : FVal → Int × Bool
  | .nan _ => (if sat then 0 else bad, true)
  | .inf neg => (if sat then (if neg then lo else hi) else bad, true)
  | .num neg m e =>
    let z := roundInt mode neg m e
    if lo ≤ z && z ≤ hi then (z, false) else (if sat then clampInt lo hi z else bad, true)

/-- The integral value nearest in a mode, keeping the sign of zero (R106). -/
def FFmt.toIntegral (f : FFmt) (mode : RMode) (c : Nat) : Nat × Bool :=
  match f.dec c with
  | .nan s => (f.nanCode, s)
  | .inf _ => (c, false)
  | .num neg m e =>
    if 0 ≤ e then (c, false)
    else
      let z := roundInt mode neg m e
      (f.rne (.num neg z.natAbs 0), false)

/-! ## Square roots -/

/-- Integer square root by bits, from the top: `n` bits of root. -/
def isqrtGo (v : Nat) : Nat → Nat → Nat
  | 0, r => r
  | k + 1, r =>
    let r' := r + 2 ^ k
    isqrtGo v k (if r' * r' ≤ v then r' else r)

/-- floor(√v). -/
def isqrt (v : Nat) : Nat := isqrtGo v (Nat.log2 v / 2 + 1) 0

/-- √x rounded once (R105). -/
def FFmt.sqrt (f : FFmt) (c : Nat) : Nat × Bool :=
  match f.dec c with
  | .nan s => (f.nanCode, s)
  | .inf true => (f.nanCode, true)
  | .inf false => (f.infCode, false)
  | .num neg m e =>
    if m = 0 then (c, false)
    else if neg then (f.nanCode, true)
    else
      let (m, e) := if e % 2 = 0 then (m, e) else (2 * m, e - 1)
      let big := m * 2 ^ (2 * (f.fb + 4))
      let r := isqrt big
      let sticky := if r * r = big then 0 else 1
      ((f.roundRat .rne .ieee false (2 * r + sticky) 1 (e / 2 - ((f.fb : Int) + 4) - 1)).1, false)

/-- 1/√x rounded once (R105). -/
def FFmt.rsqrt (f : FFmt) (c : Nat) : Nat × Bool :=
  match f.dec c with
  | .nan s => (f.nanCode, s)
  | .inf true => (f.nanCode, true)
  | .inf false => (0, false)
  | .num neg m e =>
    if m = 0 then (f.signed neg f.infCode, false)
    else if neg then (f.nanCode, true)
    else
      let (m, e) := if e % 2 = 0 then (m, e) else (2 * m, e - 1)
      let k := f.fb + 4 + f.fb
      let r := isqrt (2 ^ (2 * k) / m)
      let sticky := if r * r * m = 2 ^ (2 * k) then 0 else 1
      ((f.roundRat .rne .ieee false (2 * r + sticky) 1 (-(e / 2) - (k : Int) - 1)).1, false)

/-- 1/x rounded once (R105). -/
def FFmt.rcp (f : FFmt) (c : Nat) : Nat × Bool := f.div (.num false 1 0) (f.dec c)

/-! ## Correctly rounded transcendental functions (R105)

A function is evaluated in fixed point at `p` fraction bits with a bound on its error, and both ends of the enclosure are
rounded; where the two roundings differ, it is evaluated again with more bits. -/

/-- Σ t^k/k! from k, scaled by 2^p: the term, then the rest. -/
def expSeries (p : Nat) (t : Int) : Nat → Nat → Int → Int
  | 0, _, _ => 0
  | n + 1, k, term => term + expSeries p t n (k + 1) (term * t / (2 ^ p : Nat) / ((k + 1 : Nat) : Int))

/-- e^t for a small fixed-point t. -/
def expFix (p : Nat) (t : Int) : Int := expSeries p t (p / 2 + 8) 0 (2 ^ p : Nat)

/-- Σ of the atanh series of u: u + u³/3 + …, scaled by 2^p. -/
def atanhSeries (p : Nat) (u2 : Int) : Nat → Nat → Int → Int
  | 0, _, _ => 0
  | n + 1, k, pw => pw / ((2 * k + 1 : Nat) : Int) + atanhSeries p u2 n (k + 1) (pw * u2 / (2 ^ p : Nat))

/-- atanh of a fixed-point u with |u| ≤ 1/3. -/
def atanhFix (p : Nat) (u : Int) : Int := atanhSeries p (u * u / (2 ^ p : Nat)) (p / 2 + 8) 0 u

/-- ln 2 = 2 atanh(1/3). -/
def ln2Fix (p : Nat) : Int := 2 * atanhFix p ((2 ^ p : Nat) / 3)

/-- Σ of the arctangent series of 1/q. -/
def atanInv (p q : Nat) : Nat → Nat → Int → Int
  | 0, _, _ => 0
  | n + 1, k, pw =>
    (if k % 2 = 0 then pw else -pw) / ((2 * k + 1 : Nat) : Int) + atanInv p q n (k + 1) (pw / ((q * q : Nat) : Int))

/-- π = 16 atan(1/5) − 4 atan(1/239). -/
def piFix (p : Nat) : Int :=
  16 * atanInv p 5 (p / 4 + 8) 0 ((2 ^ p / 5 : Nat) : Int) - 4 * atanInv p 239 (p / 15 + 8) 0 ((2 ^ p / 239 : Nat) : Int)

/-- Σ of an alternating factorial series: sine from k = 1, cosine from k = 0. -/
def trigSeries (p : Nat) (t2 : Int) : Nat → Nat → Int → Int
  | 0, _, _ => 0
  | n + 1, k, term =>
    term + trigSeries p t2 n (k + 2) (-(term * t2 / (2 ^ p : Nat)) / (((k + 1) * (k + 2) : Nat) : Int))

/-- m × 2^e in fixed point with p fraction bits, rounded down. -/
def fixOf (p : Nat) (m : Nat) (e : Int) : Int :=
  let k := e + (p : Int)
  if 0 ≤ k then (m * 2 ^ k.toNat : Nat) else (m / 2 ^ (-k).toNat : Nat)

/-- Both ends of an enclosure (value ± err) × 2^k rounded; some code where they agree. -/
def FFmt.agree (f : FFmt) (neg : Bool) (v err : Int) (k : Int) : Option Nat :=
  if v ≤ err then none
  else
    let lo := (f.roundRat .rne .ieee neg (v - err).toNat 1 k).1
    let hi := (f.roundRat .rne .ieee neg (v + err).toNat 1 k).1
    if lo = hi then some lo else none

/-- Evaluates with more and more bits until an enclosure decides; the last enclosure's middle if none does. -/
def ziv (g : Nat → Option Nat) (last : Nat) : List Nat → Nat
  | [] => last
  | p :: ps => match g p with
    | some c => c
    | none => ziv g last ps

/-- The precisions tried, in fraction bits. -/
def zivBits : List Nat := [112, 176, 304, 560]

/-- 2^x for x = ±m × 2^e, not an integer, −152 < x < 130. -/
def exp2At (f : FFmt) (neg : Bool) (m : Nat) (e : Int) (p : Nat) : Option Nat :=
  let x := (if neg then -fixOf p m e else fixOf p m e)
  let n := x / (2 ^ p : Nat)
  let fr := x - n * (2 ^ p : Nat)
  let t := fr * ln2Fix p / (2 ^ p : Nat)
  f.agree false (expFix p t) (2 ^ 16 : Nat) (n - (p : Int))

/-- 2^x correctly rounded (R105). -/
def FFmt.exp2 (f : FFmt) (c : Nat) : Nat × Bool :=
  match f.dec c with
  | .nan s => (f.nanCode, s)
  | .inf neg => (if neg then 0 else f.infCode, false)
  | .num neg m e =>
    if m = 0 then (f.rne (.num false 1 0), false)
    else
      let z := roundInt .rdn neg m e
      if 200 ≤ z then (f.infCode, false)
      else if z < -200 then (0, false)
      else if z = roundInt .rup neg m e then ((f.roundRat .rne .ieee false 1 1 z).1, false)
      else (ziv (exp2At f neg m e) (f.rne (.num false 1 0)) zivBits, false)

/-- log2 of m × 2^e, not a power of two. -/
def log2At (f : FFmt) (m : Nat) (e : Int) (p : Nat) : Option Nat :=
  let lg := Nat.log2 m
  -- y = m / 2^lg in [1, 2); halved where it exceeds 4/3, so that values near 1 keep their bits
  let up := 4 * 2 ^ lg < 3 * m
  let k : Int := e + (lg : Int) + (if up then 1 else 0)
  let den := if up then 2 ^ (lg + 1) else 2 ^ lg
  let u := ((m : Int) - (den : Int)) * (2 ^ p : Nat) / ((m : Int) + (den : Int))
  let l := 2 * atanhFix p u * (2 ^ p : Nat) / ln2Fix p
  let v := k * (2 ^ p : Nat) + l
  if v < 0 then f.agree true (-v) (2 ^ 16 : Nat) (-(p : Int)) else f.agree false v (2 ^ 16 : Nat) (-(p : Int))

/-- log2 x correctly rounded (R105). -/
def FFmt.log2 (f : FFmt) (c : Nat) : Nat × Bool :=
  match f.dec c with
  | .nan s => (f.nanCode, s)
  | .inf true => (f.nanCode, true)
  | .inf false => (f.infCode, false)
  | .num neg m e =>
    if m = 0 then (f.signed true f.infCode, false)
    else if neg then (f.nanCode, true)
    else if 2 ^ Nat.log2 m = m then (f.rne (FVal.ofInt (e + (Nat.log2 m : Int))), false)
    else (ziv (log2At f m e) 0 zivBits, false)

/-- The sine (or cosine) of m × 2^e: exact reduction by π/2 with 160 bits beyond the working precision. -/
def trigAt (f : FFmt) (cosine neg : Bool) (m : Nat) (e : Int) (p : Nat) : Option Nat :=
  let q := p + 160
  let pi := piFix (q + 16) / (2 ^ 16 : Nat)
  let x := fixOf q m e
  let n := (2 * x + pi / 2) / pi
  let r := (x - n * pi / 2) / (2 ^ 160 : Nat)
  let k := (n + (if cosine then 1 else 0)) % 4
  let t2 := r * r / (2 ^ p : Nat)
  let v := if k % 2 = 0 then trigSeries p t2 (p / 4 + 8) 1 r else trigSeries p t2 (p / 4 + 8) 0 (2 ^ p : Nat)
  let v := if k < 2 then v else -v
  let v := if neg && !cosine then -v else v
  if v < 0 then f.agree true (-v) (2 ^ 16 : Nat) (-(p : Int)) else f.agree false v (2 ^ 16 : Nat) (-(p : Int))

/-- sin x correctly rounded (R105). Below 2^−40 the result is the nearest value to x itself. -/
def FFmt.sin (f : FFmt) (c : Nat) : Nat × Bool :=
  match f.dec c with
  | .nan s => (f.nanCode, s)
  | .inf _ => (f.nanCode, true)
  | .num neg m e =>
    if m = 0 then (c, false)
    else if (Nat.log2 m : Int) + e < -40 then (c, false)
    else (ziv (trigAt f false neg m e) c zivBits, false)

/-- cos x correctly rounded (R105). -/
def FFmt.cos (f : FFmt) (c : Nat) : Nat × Bool :=
  match f.dec c with
  | .nan s => (f.nanCode, s)
  | .inf _ => (f.nanCode, true)
  | .num neg m e =>
    let one := f.rne (.num false 1 0)
    if m = 0 then (one, false)
    else if (Nat.log2 m : Int) + e < -40 then (one, false)
    else (ziv (trigAt f true neg m e) one zivBits, false)

/-- v^(2^n) in fixed point. -/
def squareFix (p : Nat) : Nat → Int → Int
  | 0, v => v
  | n + 1, v => squareFix p n (v * v / (2 ^ p : Nat))

/-- tanh of m × 2^e below 16: 1 − 2/(e^2x + 1), from e^(2x/64) to the 64th power. -/
def tanhAt (f : FFmt) (neg : Bool) (m : Nat) (e : Int) (p : Nat) : Option Nat :=
  let q := p + 64
  let ex := squareFix q 6 (expFix q (fixOf q m (e + 1) / 64))
  let one : Int := (2 ^ q : Nat)
  let v := (ex - one) * one / (ex + one)
  f.agree neg v (2 ^ 24 : Nat) (-(q : Int))

/-- tanh x correctly rounded (R105). Below 2^−40 the result is the nearest value to x itself, from 16 it is ±1. -/
def FFmt.tanh (f : FFmt) (c : Nat) : Nat × Bool :=
  match f.dec c with
  | .nan s => (f.nanCode, s)
  | .inf neg => (f.signed neg (f.rne (.num false 1 0)), false)
  | .num neg m e =>
    if m = 0 then (c, false)
    else if (Nat.log2 m : Int) + e < -40 then (c, false)
    else if 4 ≤ (Nat.log2 m : Int) + e then (f.signed neg (f.rne (.num false 1 0)), false)
    else (ziv (tanhAt f neg m e) (f.signed neg (f.rne (.num false 1 0))) zivBits, false)

end Sys2Proof.Machine
end

