-- ==== Sys2Proof/Machine/Formats.lean ====
section
/-! DEFINITION. Format slots and the formats they bind (R189 to R197), conversion through a slot (R104, R195, R216), the
matrix engine's products and single sum (R199, R200), and the element arithmetic of bank programs (R163 to R165). -/
namespace Sys2Proof.Machine

/-- The formats of a slot word (R197); `reserved` is a code of 8 to 15. -/
inductive SlotFmt where
  | f32 | f16 | b16 | i8 | i32 | q4 | l6 | fx64 | reserved
  deriving DecidableEq, Repr

/-- A slot word's fields (R197). -/
structure Slot where
  fmt : SlotFmt
  scale : Int
  mode : RMode
  sat : Bool
  deriving DecidableEq, Repr

/-- The format of a code (R197). -/
def SlotFmt.ofCode : Nat → SlotFmt
  | 0 => .f32 | 1 => .f16 | 2 => .b16 | 3 => .i8 | 4 => .i32 | 5 => .q4 | 6 => .l6 | 7 => .fx64 | _ => .reserved

/-- A slot word read (R197). -/
def Slot.ofWord (w : Word) : Slot :=
  { fmt := SlotFmt.ofCode (bitsOf w.toNat 3 0), scale := sextNat 8 (bitsOf w.toNat 11 4),
    mode := RMode.ofCode (bitsOf w.toNat 14 13), sat := bitsOf w.toNat 15 15 == 1 }

/-- Bits of one element (R189). -/
def SlotFmt.bits : SlotFmt → Nat
  | .f32 => 32 | .f16 => 16 | .b16 => 16 | .i8 => 8 | .i32 => 32 | .q4 => 4 | .l6 => 6 | .fx64 => 64 | .reserved => 0

/-- The floating format of a slot format. -/
def SlotFmt.float : SlotFmt → Option FFmt
  | .f32 => some Machine.f32
  | .f16 => some Machine.f16
  | .b16 => some Machine.b16
  | _ => none

/-- Table T of R199. -/
def l6Table : Nat → Nat
  | 0 => 0x800000
  | 1 => 0x9837F0
  | 2 => 0xB504F3
  | _ => 0xD744FD

/-- The value of an L6 code at scale 0 (R191). -/
def l6Val (c : Nat) : FVal :=
  let l := c % 32
  if l = 0 then .num false 0 0
  else
    let n : Int := (l : Int) - 16
    .num (c / 32 % 2 == 1) (l6Table (n % 4).toNat) (n / 4 - 23)

/-- The value of a Q4 code at scale 0; the reserved code decodes as 0 (R190). -/
def q4Val (c : Nat) : FVal := if c % 16 = 8 then .num false 0 0 else FVal.ofInt (sextNat 4 c)

/-- A code read through a slot: the decoded code times 2^S, held exactly (R196). -/
def Slot.dec (s : Slot) (c : Nat) : FVal :=
  match s.fmt with
  | .f32 => (Machine.f32.dec (c % 2 ^ 32)).scale s.scale
  | .f16 => (Machine.f16.dec (c % 2 ^ 16)).scale s.scale
  | .b16 => (Machine.b16.dec (c % 2 ^ 16)).scale s.scale
  | .i8 => (FVal.ofInt (sextNat 8 c)).scale s.scale
  | .i32 => (FVal.ofInt (sextNat 32 c)).scale s.scale
  | .q4 => (q4Val c).scale s.scale
  | .l6 => (l6Val c).scale s.scale
  | .fx64 => (FVal.ofInt (sextNat 64 c)).scale s.scale
  | .reserved => .num false 0 0

/-- Conversion into Q4 of a value already scaled by 2^−S: the code, and whether it was a NaN (R190). -/
def q4Enc : FVal → Nat × Bool
  | .nan _ => (0, true)
  | .inf neg => (if neg then 9 else 7, false)
  | .num neg m e => (wrapNat 4 (clampInt (-7) 7 (roundInt .rne neg m e)), false)

/-- m^8 × 2^(8e) reaches 2^k. -/
def pow8Ge (m : Nat) (e k : Int) : Bool :=
  let d := 8 * e - k
  decide (2 ^ (-d).toNat ≤ m ^ 8 * 2 ^ d.toNat)

/-- Conversion into L6 of a value already scaled by 2^−S (R192): each boundary is compared exactly. -/
def l6Enc : FVal → Nat × Bool
  | .nan _ => (0, true)
  | .inf neg => ((if neg then 32 else 0) + 31, false)
  | .num neg m e =>
    let l := ((List.range 31).filter fun i : Nat => pow8Ge m e (2 * ((i : Int) + 1) - 33)).length
    (if l = 0 then 0 else (if neg then 32 else 0) + l, false)

/-- Conversion into FX64 under a slot's scale and mode; the flag is an overflow (R194). -/
def fx64Enc (s : Slot) (x : FVal) : Int × Bool :=
  let lo : Int := -(2 ^ 63 : Nat)
  let hi : Int := (2 ^ 63 : Nat) - 1
  toRange s.mode true lo hi 0 (x.scale (-s.scale))

/-- An overflow into a slot's format (R195): the largest finite value under sat, else ±∞, whatever the mode. -/
def Slot.onOverflow (s : Slot) : OnOverflow := if s.sat then .largest else .infinity

/-- An overflow of FCVT into F16 or B16 (R104): the largest finite value under sat, else what IEEE 754 gives under the mode. -/
def Slot.onOverflowHalf (s : Slot) : OnOverflow := if s.sat then .largest else .ieee

/-- Conversion by FCVT kind 0x08 (R104): the code, and whether the operation was invalid. -/
def Slot.encFcvt (s : Slot) (x : FVal) : Nat × Bool :=
  let y := x.scale (-s.scale)
  match s.fmt with
  | .f32 => ((Machine.f32.enc s.mode s.onOverflow y).1, x.isSNaN)
  | .f16 => ((Machine.f16.enc s.mode s.onOverflow y).1, x.isSNaN)
  | .b16 => ((Machine.b16.enc s.mode s.onOverflow y).1, x.isSNaN)
  | .i8 => let (z, i) := toRange s.mode s.sat (-128) 127 (-128) y; (wrapNat 8 z, i)
  | .i32 => let (z, i) := toRange s.mode s.sat (-(2 ^ 31 : Nat)) ((2 ^ 31 : Nat) - 1) (-(2 ^ 31 : Nat)) y; (wrapNat 32 z, i)
  | .q4 => q4Enc y
  | .l6 => l6Enc y
  | _ => (0, false)

/-- Conversion by MST (R195, R226): integers saturate and NaN gives 0, whatever the saturate bit. -/
def Slot.encMst (s : Slot) (x : FVal) : Nat :=
  let y := x.scale (-s.scale)
  match s.fmt with
  | .i8 => wrapNat 8 (toRange s.mode true (-128) 127 0 y).1
  | .i32 => wrapNat 32 (toRange s.mode true (-(2 ^ 31 : Nat)) ((2 ^ 31 : Nat) - 1) 0 y).1
  | _ => (s.encFcvt x).1

/-- FCVT (R54, R104): the result and whether it was invalid; the slot gives the mode and saturation, and for kinds 8 and
9 the format and scale. Into F32 it rounds under the mode alone (R196). -/
def fcvt (kind : Nat) (s : Slot) (x : Nat) : Nat × Bool :=
  match kind with
  | 0 =>
    let (z, i) := toRange s.mode s.sat (-(2 ^ 31 : Nat)) ((2 ^ 31 : Nat) - 1) (-(2 ^ 31 : Nat)) (f32.dec x)
    (wrapNat 32 z, i)
  | 1 => ((f32.enc s.mode .ieee (FVal.ofInt (sextNat 32 x))).1, false)
  | 2 =>
    let (z, i) := toRange s.mode s.sat 0 ((2 ^ 32 : Nat) - 1) ((2 ^ 32 : Nat) - 1) (f32.dec x)
    (wrapNat 32 z, i)
  | 3 => ((f32.enc s.mode .ieee (FVal.ofInt (x % 2 ^ 32 : Nat))).1, false)
  | 4 => ((f16.enc s.mode s.onOverflowHalf (f32.dec x)).1, (f32.dec x).isSNaN)
  | 5 => (f32.rne (f16.dec (x % 2 ^ 16)), (f16.dec (x % 2 ^ 16)).isSNaN)
  | 6 => ((b16.enc s.mode s.onOverflowHalf (f32.dec x)).1, (f32.dec x).isSNaN)
  | 7 => (f32.rne (b16.dec (x % 2 ^ 16)), (b16.dec (x % 2 ^ 16)).isSNaN)
  | 8 => s.encFcvt (f32.dec x)
  | _ =>
    let v := s.dec x
    ((f32.enc s.mode .ieee v).1, v.isSNaN)

/-! ## Reduce-stores (R216) -/

/-- An integer clamped to 64 bits, and whether it was clamped. -/
def sat64 (z : Int) : Int × Bool :=
  let lo : Int := -(2 ^ 63 : Nat)
  let hi : Int := (2 ^ 63 : Nat) - 1
  (clampInt lo hi z, decide (z < lo ∨ hi < z))

/-- One element of a reduce-store: destination word m, source value v; the new word and whether it overflowed. A sum that is exactly zero
has the sign of R101, under every mode: R216 gives none (DEDUCED, log 28). -/
def reduceElem (s : Slot) (m : Nat) (v : FVal) : Nat × Bool :=
  match s.fmt with
  | .fx64 =>
    let (n, o1) := fx64Enc s v
    let (z, o2) := sat64 (sextNat 64 m + n)
    (wrapNat 64 z, o1 || o2)
  | .f32 => let (x, _) := (s.dec m).add v; f32.enc s.mode s.onOverflow (x.scale (-s.scale))
  | .b16 => let (x, _) := (s.dec m).add v; b16.enc s.mode s.onOverflow (x.scale (-s.scale))
  | _ => (m, false)

/-! ## The matrix engine (R199, R200) -/

/-- K of an allowed pair of slot formats (R199). -/
def mmaK (a b : SlotFmt) : Option Nat :=
  match a, b with
  | .f16, .f16 | .f16, .b16 | .b16, .f16 | .b16, .b16 => some 32
  | .i8, .i8 => some 64
  | .q4, .q4 => some 128
  | .l6, .l6 => some 128
  | _, _ => none

/-- K of an A slot format (R224). -/
def tileK : SlotFmt → Option Nat
  | .f16 | .b16 => some 32
  | .i8 => some 64
  | .q4 | .l6 => some 128
  | _ => none

/-- The product of two elements read through their slots (R199, R200 rules 1 and 2). -/
def mmaTerm (a b : Slot) (ca cb : Nat) : FVal :=
  match a.fmt with
  | .l6 =>
    let la := ca % 32
    let lb := cb % 32
    if la = 0 || lb = 0 then .num false 0 0
    else
      let n : Int := (la : Int) + (lb : Int) - 32
      .num ((ca / 32 % 2 == 1) != (cb / 32 % 2 == 1)) (l6Table (n % 4).toNat) (n / 4 - 23 + a.scale + b.scale)
  | _ => if (a.dec ca).isZero then .num false 0 0 else ((a.dec ca).mul (b.dec cb)).1

/-- floor(log2|t|) of a non-zero finite value. -/
def FVal.log2 : FVal → Option Int
  | .num _ m e => if m = 0 then none else some ((Nat.log2 m : Int) + e)
  | _ => none

/-- The exact sum of finite values, as an integer times 2^lo, where lo is at most every exponent. -/
def sumAt (lo : Int) (ts : List FVal) : Int :=
  ts.foldl (fun acc t => match t with
    | .num neg m e => let v : Int := (m * 2 ^ (e - lo).toNat : Nat); if neg then acc - v else acc + v
    | _ => acc) 0

/-- The least exponent of finite values. -/
def minExp (ts : List FVal) : Int :=
  ts.foldl (fun acc t => match t with | .num _ _ e => min acc e | _ => acc) 0

/-- The single rounding of an accumulator element (R200): the products and the element's old code. -/
def sumOnce (products : List FVal) (old : Nat) : Nat :=
  let terms := axFmt.dec old :: products
  let live := terms.filter fun t => !t.isZero
  if live.any FVal.isNaN then axFmt.nanCode
  else
    let pos := live.any fun t => decide (t = .inf false)
    let neg := live.any fun t => decide (t = .inf true)
    if pos && neg then axFmt.nanCode
    else if pos then axFmt.infCode
    else if neg then axFmt.signed true axFmt.infCode
    else match live with
      | [] => old
      | t0 :: _ =>
        let e := live.foldl (fun acc t => match t.log2 with | some k => max acc k | none => acc) ((t0.log2).getD 0)
        let isLarge := fun t : FVal => match t.log2 with | some k => decide (e - 64 ≤ k) | none => false
        let lo := minExp live
        let l := sumAt lo (live.filter isLarge)
        let rest := sumAt lo (live.filter fun t => !isLarge t)
        if l = 0 then (if rest < 0 then axFmt.signed true 0 else 0)
        else
          let tiny : Int := if rest = 0 then 0 else if (rest < 0) = (l < 0) then 1 else -1
          let m : Int := (l.natAbs * 2 ^ 64 : Nat) + tiny
          (axFmt.roundRat .rne .ieee (decide (l < 0)) m.toNat 1 (lo - 64)).1

/-! ## Bank-program elements (R163 to R165) -/

/-- The element types of bank programs (R58). -/
inductive BType where
  | f32 | f16 | b16 | i32 | i16 | i8
  deriving DecidableEq, Repr

/-- The type of a code; 6 and 7 are reserved and never decoded (R58). -/
def BType.ofCode : Nat → BType
  | 0 => .f32 | 1 => .f16 | 2 => .b16 | 3 => .i32 | 4 => .i16 | _ => .i8

/-- Bytes of one element. -/
def BType.bytes : BType → Nat
  | .f32 => 4 | .f16 => 2 | .b16 => 2 | .i32 => 4 | .i16 => 2 | .i8 => 1

/-- The floating format of a type. -/
def BType.float : BType → Option FFmt
  | .f32 => some Machine.f32
  | .f16 => some Machine.f16
  | .b16 => some Machine.b16
  | _ => none

/-- The result of an integer operation saturated to the type (R163). -/
def BType.satInt (t : BType) (z : Int) : Nat :=
  let n := 8 * t.bytes
  wrapNat n (clampInt (-(2 ^ (n - 1) : Nat)) ((2 ^ (n - 1) : Nat) - 1) z)

/-- The signed value of an element of an integer type. -/
def BType.int (t : BType) (c : Nat) : Int := sextNat (8 * t.bytes) c

/-- A two-operand operation: exact on values for float types, exact on integers for integer types (R163). -/
def bank2 (t : BType) (fv : FVal → FVal → FVal × Bool) (iv : Int → Int → Int) (a b : Nat) : Nat :=
  match t.float with
  | some f => f.rne (fv (f.dec a) (f.dec b)).1
  | none => t.satInt (iv (t.int a) (t.int b))

/-- An operation with a constant, an F32 value or a signed 32-bit value (R163). -/
def bankConst (t : BType) (fv : FVal → FVal → FVal × Bool) (iv : Int → Int → Int) (a : Nat) (c : Word) : Nat :=
  match t.float with
  | some f => f.rne (fv (f.dec a) (Machine.f32.dec c.toNat)).1
  | none => t.satInt (iv (t.int a) (sextNat 32 c.toNat))

/-- Maximum or minimum (R164). -/
def bankMinMax (t : BType) (isMax : Bool) (a b : Nat) : Nat :=
  match t.float with
  | some f => (f.minMax isMax a b).1
  | none => t.satInt (if isMax then max (t.int a) (t.int b) else min (t.int a) (t.int b))

/-- A bound of XCLMP rounded or saturated into the type (R164). -/
def bankBound (t : BType) (c : Word) : Nat :=
  match t.float with
  | some f => f.rne (Machine.f32.dec c.toNat)
  | none => t.satInt (sextNat 32 c.toNat)

/-- XCLMP of one element (R164). -/
def bankClamp (t : BType) (a : Nat) (lo hi : Word) : Nat :=
  bankMinMax t false (bankMinMax t true a (bankBound t lo)) (bankBound t hi)

/-- XCVT of one element from type t to type u (R165). -/
def bankCvt (t u : BType) (a : Nat) : Nat :=
  match t.float, u.float with
  | some f, some g => g.rne (f.dec a)
  | some f, none =>
    let n := 8 * u.bytes
    wrapNat n (toRange .rne true (-(2 ^ (n - 1) : Nat)) ((2 ^ (n - 1) : Nat) - 1) 0 (f.dec a)).1
  | none, some g => g.rne (FVal.ofInt (t.int a))
  | none, none => u.satInt (t.int a)

end Sys2Proof.Machine
end

