-- ==== Sys2Proof/Config.lean ====
section
/-! DEFINITION. What one implementation fixes and what the manual leaves free: the free values (opaque, no body: nothing
can prove a value of one), and the constants the manual states once for the whole part. -/
namespace Sys2Proof.Config

/-- A byte the manual leaves undefined (R226, R237, R238, R247), by the number of a draw and a place in it (DESIGN CHOICE, log 7). -/
opaque freeByte : Nat → Nat → Sys2Proof.Byte
/-- A byte of an A tile that R204 leaves undefined (DESIGN CHOICE, log 7). -/
opaque freeTileByte : Nat → Nat → Sys2Proof.Byte
/-- One of two outcomes the manual allows and this model does not fix (DESIGN CHOICE, log 7). -/
opaque freeBit : Nat → Nat → Bool
/-- Bytes that every report of one part shares: the digests of its four images, the public half of its record key, its certificate (R361;
DESIGN CHOICE, log 7). -/
opaque partByte : Nat → Nat → Sys2Proof.Byte
/-- Bytes of the SHA-512 digest of a run of bytes (R361; DESIGN CHOICE, log 7). -/
opaque digestByte : List Sys2Proof.Byte → Nat → Sys2Proof.Byte
/-- Bytes of a signature of a run of bytes, by the number of its draw: the padding of a signature is the signer's own (R333, R361; DESIGN
CHOICE, log 7). -/
opaque signByte : Nat → List Sys2Proof.Byte → Nat → Sys2Proof.Byte
/-- A number the manual leaves open: a reading, a choice among several, a value (DESIGN CHOICE, log 7). -/
opaque freeNat : Nat → Nat → Nat

/-- The lengths in bytes of the fields of an attestation report whose lengths the manual does not give (R361; DESIGN CHOICE, log 7): 0 the
record key, 1 the certificate, 2 the signature. -/
opaque attestSize : Nat → Nat

/-- A package number names a package that is present in the system (R355; DESIGN CHOICE, log 7). -/
opaque present : Nat → Bool

/-- Which of the translations that R117 allows an access uses, by the time, the virtual address and how many changes it need not have
noticed (DESIGN CHOICE, log 6). -/
opaque freePick : Nat → Nat → Nat → Nat

/-- A core's front end reaches the slab of another core of its cluster, by their logical numbers, to bind it in a yoke (R12, R307: the
manual does not say which slabs are within reach; DESIGN CHOICE, log 27). -/
opaque reaches : Nat → Nat → Bool

/-- Units of global time in one nanosecond (R3, R347: 250 ps each). -/
def unitsPerNs : Nat := 4
/-- Units of global time in one microsecond. -/
def unitsPerUs : Nat := 4000
/-- Lease durations of R119, in units of 250 ps; class 3 is reserved (R116). -/
def leaseUnits : Nat → Nat
  | 0 => 2000
  | 1 => 16000
  | _ => 256000
/-- Skew bounds of R150, in units of 250 ps, by scope code. -/
def skewUnits : Nat → Nat
  | 0 => 0
  | 1 => 8
  | 2 => 8
  | 3 => 8
  | _ => 100
/-- Counters hold at most 62 (R15). -/
def counterMax : Nat := 62
/-- A frontier holds at most 16 entries (R20). -/
def frontierMax : Nat := 16
/-- DRAM bytes of the package (R110). -/
def dramBytes : Nat := 0xC000000000
/-- First local address of the register window (R110). -/
def windowBase : Nat := 0x7C000000000
/-- Bytes of the local space (R109). -/
def localBytes : Nat := 2 ^ 43
/-- Row indices of a pseudo-channel (R112). -/
def rowIndices : Nat := 24576
/-- Bytes of a DRAM row (R112). -/
def rowBytes : Nat := 2048
/-- Largest number of instructions a sibling issues after the halt broadcast (R275). -/
def skidMax : Nat := 8
/-- Lines of 32 bytes that a core's own L1 array holds, and that a lent scratchpad unit adds (R1, R121). -/
def l1Lines : Nat := 20480
def unitLines : Nat := 128
/-- Sectors of 1 KiB that a slice of the LLC holds (R1, R123). -/
def sliceSectors : Nat := 65536
/-- Outstanding memory requests of one core (R1, R117). -/
def coreRequestMax : Nat := 4096
/-- Outstanding bank commands of one group (R160). -/
def bankCmdMax : Nat := 8
/-- Ballast and reservation figures (R307): 1,000 µs of global time. -/
def reserveUnits : Nat := 4000000
/-- One power window of R341: 100 µs. -/
def powerWindowUnits : Nat := 400000

end Sys2Proof.Config
end

