-- ==== Sys2Proof/Machine/Sparse.lean ====
section
/-! DEFINITION. Sparse data by key, in one canonical form: a list of (key, value) pairs with strictly rising keys. For
bytes, words and accumulators no entry equals zero, which is what an unlisted key reads as; so equal contents are equal
lists. `Table` holds records by number in the same order, without a default. -/
namespace Sys2Proof.Machine

/-- Values of `w` bits by key; an unlisted key reads 0. -/
abbrev SMap (w : Nat) := List (Nat × BitVec w)

/-- The value at a key. -/
def smGet {w : Nat} : SMap w → Nat → BitVec w
  | [], _ => 0
  | (k', v') :: m, k => if k' = k then v' else smGet m k

/-- The map less one key. -/
def smDel {w : Nat} : SMap w → Nat → SMap w
  | [], _ => []
  | (k', v') :: m, k => if k' = k then m else if k < k' then (k', v') :: m else (k', v') :: smDel m k

/-- The map with a non-zero value at a key. -/
def smPut {w : Nat} : SMap w → Nat → BitVec w → SMap w
  | [], k, v => [(k, v)]
  | (k', v') :: m, k, v =>
    if k < k' then (k, v) :: (k', v') :: m
    else if k' = k then (k, v) :: m
    else (k', v') :: smPut m k v

/-- The map with a value at a key; a zero removes the entry. -/
def smSet {w : Nat} (m : SMap w) (k : Nat) (v : BitVec w) : SMap w :=
  if v = 0 then smDel m k else smPut m k v

/-- All keys of the map exceed `lo`, and the map is canonical. -/
def smWfFrom {w : Nat} : Option Nat → SMap w → Bool
  | _, [] => true
  | lo, (k, v) :: m => (match lo with | none => true | some l => decide (l < k)) && decide (v ≠ 0) && smWfFrom (some k) m

/-- The canonical form: strictly rising keys, no zero. -/
def smWf {w : Nat} (m : SMap w) : Bool := smWfFrom none m

/-- The map with every key of `ks` cleared. -/
def smClear {w : Nat} (m : SMap w) (ks : List Nat) : SMap w := ks.foldl smDel m

/-- The values of `n` rising keys from `k`. -/
def smRange {w : Nat} (m : SMap w) (k : Nat) : Nat → List (BitVec w)
  | 0 => []
  | n + 1 => smGet m k :: smRange m (k + 1) n

/-- The map with a run of values written at rising keys from `k`. -/
def smWrite {w : Nat} (m : SMap w) (k : Nat) : List (BitVec w) → SMap w
  | [] => m
  | v :: vs => smWrite (smSet m k v) (k + 1) vs

/-- The map less the keys `lo` to `hi - 1`. -/
def smCut {w : Nat} (m : SMap w) (lo hi : Nat) : SMap w := m.filter fun p => p.1 < lo || hi ≤ p.1

/-- Records by number. -/
abbrev Table (α : Type) := List (Nat × α)

/-- The record of a number. -/
def tabGet {α : Type} : Table α → Nat → Option α
  | [], _ => none
  | (k', v) :: m, k => if k' = k then some v else tabGet m k

/-- The table with a record at a number. -/
def tabPut {α : Type} : Table α → Nat → α → Table α
  | [], k, v => [(k, v)]
  | (k', v') :: m, k, v =>
    if k < k' then (k, v) :: (k', v') :: m
    else if k' = k then (k, v) :: m
    else (k', v') :: tabPut m k v

/-- The table less one number. -/
def tabDel {α : Type} (m : Table α) (k : Nat) : Table α := m.filter fun p => p.1 ≠ k

/-- The least number above every number of the table. -/
def tabNext {α : Type} (m : Table α) : Nat := m.foldl (fun a p => max a (p.1 + 1)) 0

/-- The table with a record changed. -/
def tabMod {α : Type} (m : Table α) (k : Nat) (f : α → α) : Table α :=
  m.map fun p => if p.1 = k then (p.1, f p.2) else p

/-- The `i`-th element of a list changed. -/
def listMod {α : Type} : List α → Nat → (α → α) → List α
  | [], _, _ => []
  | x :: xs, 0, f => f x :: xs
  | x :: xs, i + 1, f => x :: listMod xs i f

end Sys2Proof.Machine
end

