-- ==== Sys2Proof/Syntax.lean ====
section
/-! DEFINITION. Syntax: one constructor of Instr for each row of spec/opcode_table.json. Group-stream words (R50 to R55),
matrix-stream words (R56), bank-program words (R58), copy-ring entries (R60, R208, R237) and the events of the part
(95_what_each_step_holds.md). Register fields keep their encoded width; WellFormed says which values the map admits. -/
namespace Sys2Proof

/-- A v-register field: 0 to 127, read through the window (R42, R43). -/
abbrev VReg := BitVec 7
/-- An s-register field: 0 to 63 (R42). -/
abbrev SReg := BitVec 7
/-- A k-register field of three bits (R42). -/
abbrev KReg := BitVec 3
/-- A route selector (R46). -/
abbrev Route := BitVec 3
/-- The priority and the offset of a BR-format word (R49). -/
structure Branch where
  prio : BitVec 8
  off : BitVec 15
  deriving DecidableEq, Repr

/-- Names one group of one gang: the model's number of the gang, then sr.team and sr.group (R7). -/
structure GRef where
  gang : Nat
  team : Nat
  grp : Nat
  deriving DecidableEq, Repr

/-- Names one team of one gang. -/
structure TRef where
  gang : Nat
  team : Nat
  deriving DecidableEq, Repr

/-- Names one node instance: the model's number of the replay, then the node (R315). -/
structure NRef where
  replay : Nat
  node : Nat
  deriving DecidableEq, Repr

/-- Who owns a copy engine: a team (R205) or a COPY or COLL node (R295). -/
inductive EngineRef where
  | team (t : TRef)
  | node (n : NRef)
  deriving DecidableEq, Repr

/-- Who waits under a watchdog (R38, R39, R207, R220). -/
inductive Waiter where
  | group (g : GRef)
  | seq (t : TRef)
  | engine (t : TRef)
  deriving DecidableEq, Repr

/-- A copy-ring entry less its code byte (R208, R237): eight little-endian words. -/
structure Entry where
  flags : BitVec 8
  point : BitVec 8
  slots : BitVec 8
  src : BitVec 64
  dst : BitVec 64
  rows : BitVec 32
  rowBytes : BitVec 16
  stride : BitVec 16
  stampOff : BitVec 32
  deriving DecidableEq, Repr

/-- Memory widths of R55. -/
abbrev MWidth := BitVec 3

/-- What a scan of a core found (R329). -/
inductive ScanResult where
  | pass
  | halfA
  | halfB
  | storeA
  | storeB
  | bothHalves
  | frontEnd
  | dieFault (cause : BitVec 32)
  deriving DecidableEq, Repr

/-- Where an uncorrectable error arises (R325). -/
inductive ErrSite where
  | dramRow (stack pc row bank : Nat) (line : Nat)
  | llcLine (line : Nat)
  | provLine (line : Nat)
  | team (t : TRef)
  deriving DecidableEq, Repr

/-- What the peer's side of a collective step brings (R246, R247): the peer's coordinate and the tag, rows and row bytes, its operation,
the slot word of an add, and its data, none where it only receives. -/
structure PeerStep where
  peer : Nat
  tag : Nat
  rows : Nat
  rowBytes : Nat
  op : Nat
  slot : Nat
  data : List Byte
  deriving DecidableEq, Repr

/-- What a remote agent asks of this package's home (R355): a load; a store; an atomic of the first table or, where `x`, of the second
(R147); CCLEAN, CINV or, with both, CCLINV of a line (R151); the monitor of an MWAIT by its condition code and its scope (R149), and its
end without completion. -/
inductive RemoteOp where
  | load (width : Nat)
  | store (bytes : List Byte)
  | atom (x : Bool) (op : Nat) (y z : Word)
  | maintain (clean discard : Bool)
  | monitor (cond : BitVec 3) (y : Nat) (scope : BitVec 2)
  | disarm
  deriving DecidableEq, Repr

inductive Instr where
  -- SYS, major 0x01 (R51)
  | trap (code : BitVec 16)
  | cclr (bit : BitVec 5)
  | srd (d : BitVec 7) (toV : Bool) (sr : BitVec 8)
  | swr (a : SReg) (sr : BitVec 8)
  | boost (d a : SReg) (bin : BitVec 3)
  -- branches, majors 0x02 to 0x06
  | br (b : Branch)
  | bt (k : KReg) (b : Branch)
  | bf (k : KReg) (b : Branch)
  | call (b : Branch)
  | bx (a : SReg)
  | wait (loads stores copies tiles : BitVec 6)
  -- SYNC, major 0x08 (R52)
  | rinit (p : BitVec 5) (e : BitVec 8)
  | arv (p : BitVec 5)
  | rwait (p : BitVec 5)
  | qwait (q : BitVec 3) (d : SReg)
  | qrel (q : BitVec 3)
  | fence (scope : BitVec 3) (kind : BitVec 3)
  -- major 0x0A and ROUTE
  | wbase (n : BitVec 7)
  | opf (a b : VReg)
  | route (n : BitVec 3) (ka : BitVec 2) (ma : BitVec 7) (kb : BitVec 2) (mb : BitVec 7)
  -- vector integer, majors 0x0C to 0x13
  | iadd (d a b : VReg) (rt : Route)
  | isub (d a b : VReg) (rt : Route)
  | imul (d a b : VReg) (rt : Route)
  | imulh (d a b : VReg) (rt : Route)
  | imin (d a b : VReg) (rt : Route)
  | imax (d a b : VReg) (rt : Route)
  | iminu (d a b : VReg) (rt : Route)
  | imaxu (d a b : VReg) (rt : Route)
  | and (d a b : VReg) (rt : Route)
  | or (d a b : VReg) (rt : Route)
  | xor (d a b : VReg) (rt : Route)
  | andn (d a b : VReg) (rt : Route)
  | shl (d a b : VReg) (rt : Route)
  | shr (d a b : VReg) (rt : Route)
  | sar (d a b : VReg) (rt : Route)
  | rot (d a b : VReg) (rt : Route)
  | imad (d a b : VReg) (rt : Route)
  | imadw (d a b : VReg) (rt : Route)
  | isad (d a b : VReg) (rt : Route)
  | isel (d a b : VReg) (k : KReg)
  | clz (d a : VReg) (rt : Route)
  | popc (d a : VReg) (rt : Route)
  | brev (d a : VReg) (rt : Route)
  | iabs (d a : VReg) (rt : Route)
  | bfx (d a b : VReg) (rt : Route)
  | bfi (d a b : VReg) (rt : Route)
  | icmp (k : KReg) (cond : BitVec 4) (a b : VReg) (rt : Route)
  -- immediates, majors 0x14 to 0x1B
  | iaddi (d a : VReg) (imm : BitVec 12)
  | andi (d a : VReg) (imm : BitVec 12)
  | ori (d a : VReg) (imm : BitVec 12)
  | xori (d a : VReg) (imm : BitVec 12)
  | shi (d a : VReg) (kind : BitVec 2) (n : BitVec 5)
  | movi (d : VReg) (imm : BitVec 19)
  | movh (d : VReg) (imm : BitVec 19)
  | lea (d a : VReg) (imm : BitVec 12)
  -- scalar, majors 0x1C to 0x21
  | sadd (d a b : SReg)
  | ssub (d a b : SReg)
  | smul (d a b : SReg)
  | sand (d a b : SReg)
  | sor (d a b : SReg)
  | sxor (d a b : SReg)
  | sshl (d a b : SReg)
  | sshr (d a b : SReg)
  | saddi (d a : SReg) (imm : BitVec 12)
  | smovi (d : SReg) (imm : BitVec 19)
  | scmp (k : KReg) (cond : BitVec 4) (a b : SReg)
  | smovh (d : SReg) (imm : BitVec 19)
  -- vector-scalar, moves, lanes, majors 0x22 to 0x24
  | iadds (d a : VReg) (b : SReg) (rt : Route)
  | imuls (d a : VReg) (b : SReg) (rt : Route)
  | fmuls (d a : VReg) (b : SReg) (rt : Route)
  | ffmas (d a : VReg) (b : SReg) (rt : Route)
  | vbcst (d : VReg) (a : SReg)
  | vpick (d : SReg) (a : VReg) (lane : BitVec 7)
  | movk (d a : BitVec 7)
  | vlane (d : VReg)
  | lshf (d a b : VReg)
  | lvote (d : SReg) (a : VReg) (kind : BitVec 3)
  | lred (d a : VReg) (op : BitVec 3)
  | lscan (d a : VReg) (op : BitVec 3)
  -- floating point, majors 0x26 to 0x2E
  | fadd (d a b : VReg) (rt : Route)
  | fsub (d a b : VReg) (rt : Route)
  | fmul (d a b : VReg) (rt : Route)
  | fmin (d a b : VReg) (rt : Route)
  | fmax (d a b : VReg) (rt : Route)
  | ffma (d a b : VReg) (rt : Route)
  | fcpys (d a b : VReg) (rt : Route)
  | fdiv (d a b : VReg) (rt : Route)
  | fcmp (k : KReg) (cond : BitVec 4) (a b : VReg) (rt : Route)
  | hadd2 (d a b : VReg) (rt : Route)
  | hmul2 (d a b : VReg) (rt : Route)
  | hfma2 (d a b : VReg) (rt : Route)
  | hmax2 (d a b : VReg) (rt : Route)
  | badd2 (d a b : VReg) (rt : Route)
  | bmul2 (d a b : VReg) (rt : Route)
  | bfma2 (d a b : VReg) (rt : Route)
  | bmax2 (d a b : VReg) (rt : Route)
  | fcvt (d a : VReg) (kind : BitVec 7) (slot : BitVec 3)
  | frcp (d a : VReg) (rt : Route)
  | frsq (d a : VReg) (rt : Route)
  | fsqrt (d a : VReg) (rt : Route)
  | fexp2 (d a : VReg) (rt : Route)
  | flog2 (d a : VReg) (rt : Route)
  | fsin (d a : VReg) (rt : Route)
  | fcos (d a : VReg) (rt : Route)
  | ftanh (d a : VReg) (rt : Route)
  | frnd (d a : VReg) (rt : Route) (mode : BitVec 2)
  -- memory, majors 0x2F to 0x3E
  | xsig (d : SReg) (row : BitVec 9) (col : BitVec 10)
  | ld (d a : VReg) (w : MWidth) (hint : BitVec 2) (off : BitVec 7)
  | st (d a : VReg) (w : MWidth) (hint : BitVec 2) (off : BitVec 7)
  | lds (d a : VReg) (w : MWidth) (off : BitVec 7)
  | sts (d a : VReg) (w : MWidth) (off : BitVec 7)
  | lda (d a : VReg) (w : MWidth) (scope : BitVec 3) (off : BitVec 4)
  | stl (d a : VReg) (w : MWidth) (scope : BitVec 3) (off : BitVec 4)
  | atom (d a b : VReg) (op : BitVec 3) (scope : BitVec 2)
  | atomx (d a b : VReg) (op : BitVec 3) (scope : BitVec 2)
  | red (a b : VReg) (op : BitVec 3) (scope : BitVec 2)
  | mwait (a b : VReg) (cond : BitVec 3) (scope : BitVec 2)
  | cclean (a b : VReg)
  | cinv (a b : VReg)
  | cclinv (a b : VReg)
  | pref (a b : VReg)
  | smap (a b : VReg)
  | sunmap (b : VReg)
  | sflush (b : VReg)
  | swreg (d : SReg) (a : VReg)
  | swdel (b : SReg)
  | swpos (d : SReg) (a : VReg)
  | swwait (a : VReg)
  | bkcmd (a : VReg)
  | ladpush (a b : VReg)
  | laddone (b : VReg)
  | ladstat (d : SReg) (rung : BitVec 7)
  | ldt (d a : VReg) (n : BitVec 7)
  | stt (d a : VReg) (n : BitVec 7)
  -- matrix stream (R56)
  | mzero (z : BitVec 3)
  | mlda (ta : BitVec 2) (q : BitVec 3) (slot : BitVec 3)
  | mma (z : BitVec 3) (ta : BitVec 2) (q : BitVec 3) (sa sb : BitVec 3) (reuse : Bool)
  | mstScratch (z : BitVec 3) (slot : BitVec 3) (off : BitVec 21)
  | mstRing (z : BitVec 3) (slot : BitVec 3) (q : BitVec 3)
  | mrel (q : BitVec 3)
  | marv (p : BitVec 5)
  | mwt (p : BitVec 5)
  | mloop (count : BitVec 12) (len : BitVec 8)
  | mgang (mask : BitVec 4)
  -- bank programs (R58)
  | xld (xd : BitVec 2) (row : BitVec 2)
  | xst (row : BitVec 2) (xa : BitVec 2)
  | xadd (t : BitVec 3) (xd xa xb : BitVec 2)
  | xsub (t : BitVec 3) (xd xa xb : BitVec 2)
  | xmul (t : BitVec 3) (xd xa xb : BitVec 2)
  | xfma (t : BitVec 3) (xd xa xb : BitVec 2)
  | xscl (t : BitVec 3) (xd xa : BitVec 2) (c : BitVec 3)
  | xaddc (t : BitVec 3) (xd xa : BitVec 2) (c : BitVec 3)
  | xmax (t : BitVec 3) (xd xa xb : BitVec 2)
  | xmin (t : BitVec 3) (xd xa xb : BitVec 2)
  | xclmp (t : BitVec 3) (xd xa : BitVec 2) (c : BitVec 3)
  | xcvt (t : BitVec 3) (xd xa : BitVec 2) (u : BitVec 3)
  | xrsq (t : BitVec 3) (xd xa : BitVec 2)
  | xsel (t : BitVec 3) (xd xa xb : BitVec 2)
  | xzero (xd : BitVec 2)
  -- copy-ring entries (R60)
  | cp (e : Entry)
  | cpt (e : Entry)
  | cpg (e : Entry)
  | cps (e : Entry)
  | cpf (e : Entry)
  | cpr (e : Entry)
  | cpm (e : Entry)
  | cpc (e : Entry)
  | cpn (e : Entry)
  | unknownCommandEntry (code : BitVec 8) (e : Entry)
  -- events of the engines, the homes and the groups
  | copyEntryComplete (x : EngineRef)
  | picotDrain (cluster slot team : Nat)
  | loadComplete (g : GRef) (k : Nat)
  | storeComplete (g : GRef) (k : Nat)
  | stashLazyWriteback (t : TRef) (off : Nat)
  | remoteThresholdExpiry (g : GRef)
  | watchdogExpiry (w : Waiter)
  | teamStopOutcome (t : TRef)
  | contextTermination (ctx : Nat)
  -- placement
  | gangPlace (q cluster : Nat) (cores : List Nat)
  | gangReservation (q cluster : Nat)
  | compaction (t : TRef) (core base : Nat)
  | gangSave (gang : Nat)
  | gangRestore (gang cluster : Nat) (cores : List Nat)
  | ladderStarvationExpiry (ladder rung : Nat)
  -- the sweep
  | sweepVisit (pc : Nat)
  | registrationAccept (k : Nat)
  | swposAnswer (k : Nat)
  | bankStripeApply (cmd stripe : Nat)
  -- containment and repair
  | poisonConsumed (g : GRef)
  | shepherdScan (core : Nat) (r : ScanResult)
  | shepherdSkip (core : Nat)
  | uncorrectableError (site : ErrSite)
  | memoryStackUnreadable (stack : Nat)
  | vacate (v : Word64)
  -- graphs
  | nodeLaunch (n : NRef)
  | nodeCopy (n : NRef)
  | nodeSweep (n : NRef)
  | nodeBank (n : NRef)
  | nodeLadder (n : NRef)
  | nodeColl (n : NRef)
  | nodeWaitext (n : NRef)
  | nodeSignal (n : NRef)
  | nodeCommit (n : NRef)
  | replayStart (handle : Nat)
  | gload (v : Word64)
  | kick (v : Word64)
  | evict (v : Word64)
  | evictWithdraw (v : Word64)
  | inval (v : Word64)
  | mapRequest (v : Word64)
  | unmapRequest (v : Word64)
  | ctxCreate (v : Word64)
  | ctxTerminate (v : Word64)
  | clusterMapWrite (l : Nat) (v : Word)
  -- clocks, power and heat
  | clockChange (cluster : Nat)
  | clockStable (cluster : Nat)
  | powerWindowEnd (mW : Nat)
  | boostLeaseEnd (ctx cluster : Nat)
  | computeThermalPoint (sensor : Nat) (temp : BitVec 16)
  | memoryThermalPoint (stack : Nat) (temp : BitVec 16)
  -- host, fabric and boot
  | doorbell (n : Nat) (v : Word64)
  | noticeBaseWrite (v : Word64)
  | noticeTailWrite (v : Word64)
  | hostMemWrite (addr : Nat) (bytes : List Byte)
  | registerWrite (off width : Nat) (v : Word64)
  | pageMigration (ctx va frame : Nat)
  | domainBoundChange (sync : Bool)
  | llcEviction (line : Nat)
  | l1LineDrop (core line : Nat)
  | linkRecoveryStart (coord : Nat)
  | linkRouteReturn (coord : Nat)
  | peerUnreachable (coord : Nat)
  | fabricPortChange (port : Nat) (up : Bool)
  | remoteAccess (pkg addr : Nat) (op : RemoteOp)
  | signalDelivery (ctx : Nat) (payload : Word64) (coord : BitVec 19)
  | signalDeliveryDiscard (k : Nat)
  | sigq (v : Word64)
  | collectivePeerData (x : EngineRef) (step : PeerStep)
  | cpcAbort (ctx pkg : Nat)
  | attestCtl (v : Word64)
  -- the rows without operands, of every family above: last, for Lean compiles constructors with operands below tag 245 only
  | nop
  | yield
  | exit
  | pchk
  | tret
  | ret
  | racq
  | rrel
  | ladesc
  | mend
  | xend
  | invalidationComplete
  | unmapComplete
  | boostRefill
  | boot
  deriving DecidableEq, Repr

end Sys2Proof
end

