-- ==== Sys2Proof/Machine/State.lean ====
section
/-! DEFINITION. The state of one Bolpoca package as plain data, and State.reset. Memory and the homes are keyed by the whole
57-bit physical address (R109), so the memory of another package of the domain is a home like any other. -/
namespace Sys2Proof.Machine

/-! ## Groups -/

/-- One frontier entry (R17): priority, PC, lanes. -/
structure FEntry where
  prio : BitVec 8
  pc : BitVec 56
  mask : Mask
  deriving DecidableEq, Repr

/-- One route slot (R45): a kind and a value for source a, and for source b. -/
structure RouteSlot where
  ka : BitVec 2
  ma : BitVec 7
  kb : BitVec 2
  mb : BitVec 7
  deriving DecidableEq, Repr

/-- A condition of MWAIT or WAITEXT (R149, R295). -/
inductive WCond where
  | eq | ne | geu | seq
  deriving DecidableEq, Repr

/-- What a blocking wait waits for (R38, R285). -/
inductive WaitKind where
  | rwait (point phase : Nat)
  | mwait (addr : Nat) (cond : WCond) (y : Nat) (scope : BitVec 2)
  | qwait (ring : Nat)
  | racq
  | swwait (row : Nat) (regs : List Nat) (periodic : Option Nat) (skipped ended : Bool) (last : Nat)
  | ladpush (ladder n : Nat)
  | remoteLoad
  | pchk
  | mlda (ring : Nat)
  | mst (ring : Nat)
  deriving DecidableEq, Repr

/-- A blocking wait in progress: since when, how long its watchdog has been paused, and when its condition came to hold. -/
structure Wait where
  kind : WaitKind
  began : Nat
  paused : Nat
  satAt : Option Nat
  deriving DecidableEq, Repr

/-- A lane's read that has not been served yet (R177, R181, R349, R355, R356): physical address, memory type, bytes, the registers
it fills (key: register × 64 + lane), the lease class under which it fills its core's L1, where it does, and its virtual address, which is
translated again where the load is issued again (R276). -/
structure LoadReq where
  pa : Nat
  width : Nat
  keys : List Nat
  mtype : Nat := 0
  lease : Option Nat := none
  va : Nat := 0
  deriving DecidableEq, Repr

/-- An access behind the load counter (R15, R138): its number, the register words it will write, the destination
registers, when it was issued, the time at which its home served it, the reads still held, the count of its atomics still
held, the other packages it is sent to, whether it is outstanding beyond the threshold (R38), whether it
discards the lines it reads (R140), the memory requests it counts for (R1), whether it reads scratchpad (R37), and whether it has been
issued again after a stop or a save, its reads still to be translated (R276). -/
structure PendLoad where
  id : Nat
  writes : List (Nat × Word)
  regs : List Nat
  issued : Nat
  servedAt : Nat
  todo : List LoadReq
  holds : Nat
  acquire : Bool
  remote : List Nat
  beyond : Bool
  lastUse : Bool := false
  reqs : Nat := 0
  scratch : Bool := false
  again : Bool := false
  deriving DecidableEq, Repr

/-- An access behind the store counter: its number, its completion time so far, how much of it is still held or
unacknowledged (R138, R157, R162, R168), the other packages it is sent to, the memory requests it
counts for (R1), and whether an arrival must follow it: a scratchpad store, or a store at team scope (R37). -/
structure PendStore where
  id : Nat
  done : Nat
  holds : Nat
  remote : List Nat
  reqs : Nat := 0
  team : Bool := false
  deriving DecidableEq, Repr

/-- An access behind the tile counter (R153): its number, and how many of its words a home still holds (R182). -/
structure PendTile where
  writes : List (Nat × Word)
  regs : List Nat
  id : Nat := 0
  holds : Nat := 0
  deriving DecidableEq, Repr

/-- What a ladder body holds (R250, R251): its ladder and rung, its frame words, each lane's item, and the lanes whose item
has left. -/
structure Body where
  ladder : Nat
  rung : Nat
  words : Nat
  items : List (Nat × Nat)
  left : Mask
  deriving DecidableEq, Repr

/-- One group (R14, R44). `reading`: the front-end cycles that the read of its current instruction's vector sources still takes, once
it has begun (R16, R25); `point`: the rendezvous point of its latest WDOG or RZVINIT (R271). `blocks` holds the first unit of each
register block on the group's core and, where a yoke splits the block, 192 times its first unit on the yoked core that carries the
upper lanes besides (R12, R308). `frames`: the frame words, by lane, that LADPUSH or LADESC read as it issued, while it waits for its
release or for its window (R264, R265). `cancelled`: the remote loads that a stop or a save has cancelled, which are issued again as the
group resumes (R276, R285). `results`: the registers that its instructions have written and whose results are not usable yet, each with the
front-end cycles until it is (R15, R33): v registers by number, s registers from 256, k registers from 512; `staged`: the registers that OPF
stages, each with the cycles until it has entered the queue (R16). -/
structure Group where
  width : Nat
  copyRole : Bool
  frontier : List FEntry
  live : Mask
  v : SMap 32
  s : SMap 64
  k : SMap 64
  routes : Table RouteSlot
  wbase : Nat
  owned : Nat
  blocks : List Nat
  queue : List Nat
  loads : List PendLoad
  stores : List PendStore
  tiles : List PendTile
  copies : Nat
  bankCmds : Nat
  cause : BitVec 32
  skid : Nat
  epc : Word64
  lct : Nat
  acq : Nat
  bubbles : Word64
  aging : Nat
  agedAt : Option Nat
  yielded : Bool
  phases : Table Nat
  wait : Option Wait
  parked : Bool
  halted : Bool
  frozen : Option (List FEntry)
  pendingS : BitVec 64
  body : Option Body
  retired : Bool
  reading : Option Nat := none
  point : Option Nat := none
  frames : Option (List (Nat × List Word)) := none
  cancelled : List PendLoad := []
  results : List (Nat × Nat) := []
  staged : List (Nat × Nat) := []
  deriving DecidableEq, Repr

/-! ## Teams -/

/-- One rendezvous point (R34 to R36); E = 0 is uninitialised. -/
structure Point where
  e : Nat
  count : Nat
  phase : Nat
  bitmap : BitVec 32
  deriving DecidableEq, Repr

/-- One stage ring (R211, R213): declared place, and the state the team keeps. -/
structure Ring where
  base : Nat
  slotBytes : Nat
  slots : Nat
  next : Nat
  take : Nat
  filled : Nat
  free : Nat
  taken : List Nat
  phases : BitVec 16
  deriving DecidableEq, Repr

/-- Where a taken entry stands. -/
inductive Progress where
  | done (status : Nat)
  | suspended (sector : Nat) (page : Bool)
  | cpcWait (sent : List Byte)
  | multicast (status : Nat)
  deriving DecidableEq, Repr

/-- A taken copy-ring entry not yet completed (R207, R209): its index, code, fields, publisher, progress, the time from
which every write of it is visible, the ring slot it claimed, until that is filled, the number of its writes that a home may hold, and, where it was
suspended, the source bytes still to be written that it has read, by index (R176, R239; for a CPC with its peer's side, what it writes
into its buffer); the lines that it owns and has not written (R177); its index table as read at the take (R242); whether an element of it has
overflowed so far (R216); and whether it has written a line of another package (R179). -/
structure InFlight where
  idx : Nat
  code : Nat
  ent : Entry
  pub : Nat
  prog : Progress
  visAt : Nat
  slot : Option (Nat × Nat)
  id : Nat
  pre : List (Nat × Byte)
  owned : List Nat := []
  table : Option (List Nat) := none
  ov : Bool := false
  far : Bool := false
  deriving DecidableEq, Repr

/-- The copy engine of a team or of a graph node (R205 to R209). -/
structure Engine where
  published : Nat
  takenIdx : Nat
  completed : Nat
  pubs : List Nat
  flight : List InFlight
  waiting : Option Nat
  deriving DecidableEq, Repr

/-- One level of MLOOP (R229): first word of the block, the word after it, turns still to run. -/
structure LoopLevel where
  first : BitVec 56
  stop : BitVec 56
  left : Nat
  deriving DecidableEq, Repr

/-- The uniform sequencer (R217 to R229). -/
structure Seq where
  present : Bool
  running : Bool
  pc : BitVec 56
  loops : List LoopLevel
  mask : BitVec 4
  phases : Table Nat
  wait : Option Wait
  deriving DecidableEq, Repr

/-- A stash mapping (R122): scratchpad block, global page (virtual and physical), and for each of its 128 lines whether it is filled and dirty. -/
structure Stash where
  off : Nat
  va : Nat
  addr : Nat
  filled : BitVec 128
  dirty : BitVec 128
  deriving DecidableEq, Repr

/-- A stop of a team (R275): the stopping group (255: no live group), the causes, the time, the point it concerns and that point's
phase, the groups that had retired before it, sr.cause of the stopping group at the stop (R271), whether no handler may run for it (R277,
R281), when the record of its outcome is visible, once that is written, the causes that were set after a save had begun (R283), and the
diagnostic record as it was taken once every sibling had stopped (R271). -/
structure Stop where
  group : Nat
  causes : BitVec 32
  time : Nat
  point : Option Nat
  phase : Nat
  gone : BitVec 32
  shown : BitVec 32
  report : Bool
  written : Option Nat
  late : BitVec 32 := 0
  taken : Option (List Byte) := none
  deriving DecidableEq, Repr

/-- A picot drain that waits for its ring after its gang was saved (R215, R287): the ring, the data, the publishing team and
the index of its entry. -/
structure Drain where
  ring : Nat
  data : List Byte
  pub : Nat
  idx : Nat
  deriving DecidableEq, Repr

/-- One team (R8, R10, R34, R205, R211). -/
structure Team where
  groups : List Group
  scratch : SMap 8
  scratchBytes : Nat
  points : List Point
  rings : List Ring
  engine : Engine
  seq : Seq
  ta : SMap 8
  taFmt : List (Option Nat)
  z : SMap 48
  skips : Word64
  stash : List Stash
  stop : Option Stop
  handler : Option Nat
  drains : List Drain
  scratchAt : List Nat
  retired : Bool
  deriving DecidableEq, Repr

/-- The launch record as the part reads it (R302). -/
structure Launch where
  addr : Nat
  entry : Nat
  stream : Nat
  width : Nat
  groups : Nat
  teams : Nat
  pair : Bool
  yoke : Nat
  contain : Bool
  idem : Bool
  fpinv : Bool
  prio : Nat
  maxBlocks : Nat
  entryPrio : BitVec 8
  roles : BitVec 32
  gridGangs : Nat
  scratch : Nat
  watchdog : Nat
  ringEntries : Nat
  ringBase : Nat
  notify : Nat
  paramBytes : Nat
  stages : List (Nat × Nat × Nat)
  slots : List Word
  stampPage : Nat
  handler : Nat
  handlerArea : Nat
  params : List Byte
  wellFormed : Bool
  deriving DecidableEq, Repr

/-- Where a gang is placed (R307): logical cluster, the core of each team, and the cores its yokes bind. -/
structure Place where
  cluster : Nat
  cores : List Nat
  yoked : List Nat
  deriving DecidableEq, Repr

/-- Life of a gang. -/
inductive GangState where
  | queued
  | resident
  | saved
  | retired
  deriving DecidableEq, Repr

/-- Who has marked a gang for eviction, and may withdraw its mark alone: the shepherd (R327), the power controller's first step (R341), or
another (R282, R343, R348). -/
inductive Marker where
  | other | shepherd | power
  deriving DecidableEq, Repr

/-- One gang (R6, R27, R282, R314); `marks` says who has marked it, `fetched` lists the 64 KiB
pages, by virtual address, that it has fetched from (R70). -/
structure Gang where
  ctx : Nat
  launch : Launch
  index : Nat
  node : Option NRef
  queue : Nat
  state : GangState
  place : Option Place
  ids : Option (Nat × List Nat)
  marked : Bool
  marks : List Marker
  reported : Bool
  age : Nat
  queuedAt : Nat
  teams : List Team
  fetched : List Nat := []
  deriving DecidableEq, Repr

/-! ## Homes, caches and translation -/

/-- A write placed in a line's order and not yet folded into the line (R168): its bytes by offset, its completion time,
its writer, who else counts as its issuer (0 the group alone, 1 its team, 2 its gang: a narrow line; 3 every agent: a stash line, whose
bytes every read obtained while it was dirty, R122), the node
whose provisional line it publishes, every group of which counts as its issuer (R318, R320), and whether a copy engine wrote
it, so that reads of the line wait for it (R177). -/
structure LineWrite where
  bytes : List (Nat × Byte)
  done : Nat
  writer : Option GRef
  reach : Nat
  node : Option NRef
  engine : Bool := false
  deriving DecidableEq, Repr

/-- The home of one 32-byte NORMAL line (R123, R168). -/
structure Home where
  llc : Option (List Byte)
  dirty : Bool
  lease : Nat
  last : Nat
  writes : List LineWrite
  deriving DecidableEq, Repr

/-- An L1 copy under a lease (R119, R120), with the lent scratchpad unit that holds it, where one does (R121). -/
structure L1Line where
  core : Nat
  line : Nat
  fill : Nat
  expiry : Nat
  data : List Byte
  unit : Option Nat := none
  deriving DecidableEq, Repr

/-- An L1 column copy (R124 to R126): sector, width, column offset, row group, its bytes in rising row, and the lent scratchpad
unit that holds it, where one does (R121). -/
structure ColCopy where
  core : Nat
  sector : Nat
  w : Nat
  c : Nat
  g : Nat
  data : List Byte
  unit : Option Nat := none
  deriving DecidableEq, Repr

/-- A narrow line (R145, R172): its holder (a core with a team, or with a gang), the dirty bytes by offset, the virtual address
through which it was last stored to (R182), and the lent scratchpad unit that holds it, where one does (R121). -/
structure Narrow where
  line : Nat
  core : Nat
  gang : Nat
  team : Option Nat
  who : GRef
  bytes : List (Nat × Byte)
  va : Nat := 0
  unit : Option Nat := none
  deriving DecidableEq, Repr

/-- A provisional line of a contained node (R316): the bytes it wrote, over the committed line, and those of its words that hold an
uncorrectable error (R325). One whose bytes have been published stays without any until its node has committed, so that writes from
outside stay held (R317); `id` is the number of its publication, where a locked page holds that (R182, R320). -/
structure Provisional where
  node : NRef
  line : Nat
  bytes : List (Nat × Byte)
  poison : List Nat := []
  id : Nat := 0
  deriving DecidableEq, Repr

/-- A write held at a home or drover until it may be placed (R182, R317, R349, R356): a store, a narrow store at a scope (R145), an
atomic. -/
inductive HeldOp where
  | store (bytes : List Byte)
  | narrow (scope : Nat) (bytes : List Byte)
  | atom (op : Nat) (x : Bool) (y z : Word) (key : Option Nat)
  deriving DecidableEq, Repr

/-- A held write: its virtual address and context for a second translation, its physical address, its issuer, the number of the
counter entry it keeps raised, and the memory type of its place where no page names it (R352). One without a context names its place
by the physical address alone; its context is one that no context record can name (R291). -/
structure Held where
  ctx : Nat
  va : Nat
  pa : Nat
  op : HeldOp
  who : Option GRef
  core : Nat
  id : Nat
  mtype : Nat := 0
  deriving DecidableEq, Repr

/-- A completed executable map (R68): context, virtual base, 64 KiB units, stream kind, the frame of each unit. -/
structure ExecMap where
  ctx : Nat
  vbase : Nat
  units : Nat
  frames : List (Nat × Nat)
  deriving DecidableEq, Repr

/-- One context (R291); `dying` from its termination until no write of it is in flight (R288). -/
structure Context where
  root : Nat
  area : Nat
  fold : Nat
  foldBytes : Nat
  sigq : Nat
  dying : Bool
  deriving DecidableEq, Repr

/-- A report area (R291): its local address, its slots, the number of the next record, and for each slot written the index
of the notice of the record last written there. It outlives its context (R273). -/
structure Area where
  addr : Nat
  slots : Nat
  next : Nat
  marks : Table Nat
  deriving DecidableEq, Repr

/-- A record and its notice that wait (R291, R354). -/
structure Notice where
  kind : Nat
  area : Option Nat
  ctx : Nat
  time : Nat
  detail : Nat
  record : List Byte
  deriving DecidableEq, Repr

/-! ## The sweep -/

/-- A descriptor as the part reads it (R154). -/
structure Descriptor where
  lead : Nat
  rows : Nat
  mode : Nat
  partners : Nat
  program : Nat
  offsets : List Int
  consts : List Word
  stamp : Nat
  seqno : Nat
  wellFormed : Bool
  deriving DecidableEq, Repr

/-- A row of the DRAM: stack, pseudo-channel, row index and bank, packed as the local address of its first byte. -/
abbrev RowAddr := Nat

/-- A registration (R129 to R132): its handle, context, mode, pseudo-channel, the run of ordinals of its lead rows,
partner offsets in row indices, program words, constants, the lead rows (by ordinal) applied under it with the time of the
latest application, those skipped (R135), and the SWEEP node that made it. -/
structure Registration where
  handle : Nat
  ctx : Nat
  mode : Nat
  pc : Nat
  firstOrd : Nat
  count : Nat
  offsets : List Int
  program : List Word
  consts : List Word
  applied : List (Nat × Nat)
  skipped : List Nat
  node : Option NRef
  deriving DecidableEq, Repr

/-- A request to a drover whose answer is written under the scoreboard (R156, R158): a registration from its descriptor
and program, by a group or a SWEEP node; the position at a row. -/
inductive DroverReq where
  | register (who : Option GRef) (node : Option NRef) (ctx d : Nat) (desc : Descriptor) (words : List Word)
  | position (who : GRef) (ctx d : Nat) (row : RowAddr)
  deriving DecidableEq, Repr

/-- A bank command in progress (R160, R161); `stamping` while its home holds its stamp's write. -/
structure BankCmd where
  ctx : Nat
  who : Option GRef
  node : Option NRef
  desc : Descriptor
  program : List Word
  done : List Nat
  fault : Bool
  stamping : Bool := false
  deriving DecidableEq, Repr

/-- The position of a drover in its sweep (R128): last completed ordinal, pass number. -/
structure Drover where
  ord : Nat
  pass : Nat
  deriving DecidableEq, Repr

/-- What an application is for: a visit of a lead row under a registration, or a stripe of a bank command. -/
inductive RestoreJob where
  | none
  | visit (handle pc ord : Nat)
  | stripe (cmd k : Nat)
  deriving DecidableEq, Repr

/-- The restore unit at work (R128, R134): the stripe's rows (their addresses and bytes), which of them were written, x0 to
x3, c0 to c7, the words still to run, and what the application is for. While `running`, the next step is its next word, so
that an application is one moment to every other agent. -/
structure Restore where
  rowAt : List RowAddr
  rows : List (SMap 8)
  written : List Bool
  x : List (SMap 8)
  c : List Word
  program : List Word
  running : Bool
  job : RestoreJob
  deriving DecidableEq, Repr

/-! ## Ladders and graphs -/

/-- One rung of a bound ladder (R253, R255, R259). -/
structure Rung where
  launch : Launch
  limit : Nat
  queue : List (List Word × Nat)
  partials : Nat
  full : Nat
  entered : Nat
  escalated : Nat
  formed : Nat
  deriving DecidableEq, Repr

/-- The items that one instruction retired, while the progress word does not cover them all (R252, R260): the number of their writes,
the items, the group, the time from which those of their writes that are placed are visible, and how many a home still holds. -/
structure Retiring where
  id : Nat
  items : List Nat
  who : GRef
  vis : Nat
  holds : Nat
  deriving DecidableEq, Repr

/-- A progress word on its way: its value, the number of its write, and the time from which it is visible, none while a home holds
it (R257). -/
structure Pass where
  value : Nat
  id : Nat
  at_ : Option Nat
  deriving DecidableEq, Repr

/-- A bound ladder (R254, R256, R257): `retired` holds what has retired and is not yet counted, oldest first; `counted` is the value of
the latest progress word written, `passes` those of them that are on their way, and `released` the latest that had been visible as the
ladder was last changed. -/
structure Ladder where
  ctx : Nat
  addr : Nat
  order : Nat
  words : Nat
  window : Nat
  result : Nat
  progress : Nat
  doneList : Nat
  lane : Nat
  rungs : List Rung
  nextIndex : Nat
  retired : List Retiring
  counted : Nat
  passes : List Pass
  released : Nat
  deriving DecidableEq, Repr

/-- A node of an uploaded graph (R293). -/
structure NodeRec where
  kind : Nat
  addr : Nat
  arming : List Byte
  deriving DecidableEq, Repr

structure Graph where
  ctx : Nat
  lane : Nat
  nodes : List NodeRec
  edges : List (Nat × Nat)
  kicks : List Nat
  seqno : Nat
  deriving DecidableEq, Repr

inductive NodeState where
  | waiting
  | started
  | committed
  | failed
  | cancelled
  deriving DecidableEq, Repr

/-- A node of a replay: its patched record and its life (R296, R297, R315, R322); the time from which the stamps written for it are
visible, and the numbers of those that a home still holds (R210, R295). -/
structure NodeInst where
  kind : Nat
  addr : Nat
  arming : List Byte
  state : NodeState
  start : Nat
  rollbacks : Nat
  escaped : Bool
  quota : Nat
  reason : Option Nat
  status : Nat
  peer : Nat
  gangsLeft : Nat
  doneAt : Option Nat
  engine : Engine
  stampAt : Nat := 0
  stampsHeld : List Nat := []
  deriving DecidableEq, Repr

structure Replay where
  handle : Nat
  ctx : Nat
  seqno : Nat
  ptab : Nat
  nodes : List NodeInst
  done : Bool
  killed : Bool
  cores : List Nat
  failedScan : Bool
  settled : Bool
  deriving DecidableEq, Repr

/-! ## Clusters, repair, fabric -/

/-- The registers of one physical cluster (R26, R337, R338, R340, R342). -/
structure ClusterRegs where
  policy : BitVec 2
  passPower : BitVec 2
  passTherm : BitVec 2
  passFloor : BitVec 2
  ratio : BitVec 2
  ratioCur : BitVec 2
  binBase : BitVec 3
  binCur : BitVec 3
  changing : Bool
  droop : BitVec 6
  deriving DecidableEq, Repr

/-- CLUSTER_MAP entry (R313); `moving` is the spare cluster to which the part moves it (R330). -/
structure MapEntry where
  hold : Bool
  phys : Nat
  moving : Option Nat
  deriving DecidableEq, Repr

/-- A physical core in service, repair and scanning (R326 to R330): whether it has retired, whether it passed its latest
scan, its mated halves (0 A, 1 B) with the donor slab of each, the slab bound to it, and since when the shepherd drains it. -/
structure CoreState where
  retired : Bool
  passed : Bool
  mated : List (Nat × Nat)
  slab : Nat
  draining : Option Nat
  deriving DecidableEq, Repr

structure BoostLease where
  ctx : Nat
  cluster : Nat
  bin : BitVec 3
  stop : Nat
  deriving DecidableEq, Repr

/-- An entry of the retirement record (R333). -/
structure Retire where
  kind : Nat
  stack : Nat
  pos : Nat
  detail : Nat
  time : Nat
  deriving DecidableEq, Repr

/-- A peer package in recovery (R347, R356), by its coordinate: since when, whether it is unreachable, and whether no route to
it carries flits. -/
structure Peer where
  since : Nat
  unreachable : Bool
  link : Bool
  deriving DecidableEq, Repr

/-- A signal not yet delivered (R357): its context and payload, the coordinate of the other package (of the target of one
that this package sent, of the sender of one that arrived), since when a full queue holds it, and its sender in this package
with the number of its store. -/
structure HeldSignal where
  ctx : Nat
  payload : Word64
  coord : BitVec 19
  since : Option Nat
  who : Option GRef
  node : Option NRef
  id : Nat
  deriving DecidableEq, Repr

/-- The registers of the window that are not per cluster (R291 to R294, R311 to R313, R334, R343 to R348, R353, R356,
R362). `noticeHead` counts the notices written; `noticeVis` holds, oldest first, the times at which NOTICE_HEAD takes those of them
that were not visible when the latest was written (R354); `msix` holds, newest first, the times at which MSI-X vector 0 has been sent (R352,
R354); `attestWait` is the address and the bytes of a report that its home does not take yet (R361, R362). -/
structure Regs where
  dbTarget : Table Word64
  noticeBase : Word64
  noticeHead : Nat
  noticeVis : List Nat
  noticeTail : Nat
  gstatBusy : Bool
  gstatHandle : Nat
  gstatKerr : Nat
  gstatLerr : Nat
  istatDone : Bool
  invalReq : Option (Nat × Nat × Nat)
  mapAddr : Word64
  mapBusy : Bool
  mapCode : Nat
  mapOffset : Nat
  ctxBusy : Bool
  ctxLast : Nat
  ctxResult : Nat
  clusterMap : List MapEntry
  pkgPower : Nat
  pkgLimit : Nat
  setpoint : Nat
  band : Nat
  pool : Nat
  cap : Nat
  refill : Nat
  sync : Bool
  syncSince : Nat
  skewDom : Nat
  skewPkg : Nat
  therm : Table (BitVec 16)
  quota : Nat
  drainLimit : Nat
  shepRun : Bool
  shepRotations : Nat
  shepSkipped : Nat
  shepCore : Nat
  errRollbacks : Nat
  errPoison : Nat
  repairSeq : Nat
  repairLast : Nat
  coordRow : Nat
  coordCol : Nat
  remoteThresh : Nat
  recoveryLimit : Nat
  linkUp : BitVec 18
  bootStage : Nat
  bootError : Nat
  nonce : List Byte
  attestAddr : Nat
  attestDone : Nat
  msix : List Nat := []
  attestWait : Option (Nat × List Byte) := none
  deriving DecidableEq, Repr

/-! ## The machine -/

/-- Which agent the next step belongs to: a front-end cycle of a core (cluster, core), a team's sequencer, a team's or
node's copy engine, or one of the part's events. -/
inductive Action where
  | cycle (cluster core : Nat)
  | seq (t : TRef)
  | engine (x : EngineRef)
  | event (i : Instr)
  deriving DecidableEq, Repr

/-- Which agent the instruction now executing belongs to. -/
inductive Focus where
  | none
  | group (g : GRef)
  | seq (t : TRef)
  | engine (x : EngineRef)
  | restore
  deriving DecidableEq, Repr

/-- A multicast holding slot in use (R214): the data, the teams still to be drained, the publishing team and the running
index of its entry, and whether its source has been read whole. -/
structure Picot where
  data : List Byte
  teams : List Nat
  ring : Nat
  pub : TRef
  idx : Nat
  ready : Bool := true
  deriving DecidableEq, Repr

/-- What bears on cached translations (R117, R312): a valid entry of a page table has been changed, by its address and the value it
had; or an invalidation has ended, by its context, its size and its base. -/
inductive TlbEvent where
  | changed (pte was : Nat)
  | ended (ctx size base : Nat)
  deriving DecidableEq, Repr

/-- The monitor of an MWAIT of another package on a word of this one (R149, R355). -/
structure Monitor where
  pkg : Nat
  addr : Nat
  cond : WCond
  y : Nat
  scope : BitVec 2
  deriving DecidableEq, Repr

/-- Memory, homes, caches and translation (`tlb`: newest first; R109 to R127, R166 to R186, R316). -/
structure MemSys where
  mem : List Host.Cell
  poison : List Nat
  llcPoison : List Nat
  homes : Table Home
  l1 : List L1Line
  cols : List ColCopy
  narrow : List Narrow
  provisional : List Provisional
  held : List Held
  dropped : BitVec 16
  unreadable : Table (List Nat)
  execMaps : List ExecMap
  unmaps : List (Nat × Nat × Nat)
  tlb : List TlbEvent
  contexts : Table Context
  monitors : List Monitor := []
  deriving DecidableEq, Repr

/-- The drovers, their registrations and the restore unit (R128 to R137, R156 to R161). -/
structure Sweep where
  drovers : Table Drover
  regs : List Registration
  reqs : List DroverReq
  cmds : Table BankCmd
  restore : Restore
  nextHandle : Nat
  deriving DecidableEq, Repr

/-- A front end's last issuer, whether it issued in the front end's previous cycle, the age of its gang as it issued (R28), and the
front-end cycles for which the slab's datapath is still occupied (R33). -/
structure Front where
  last : GRef
  prev : Bool
  age : Nat := 0
  busy : Nat := 0
  deriving DecidableEq, Repr

/-- Gangs, queues, ladders and graphs (R214, R249 to R261, R291 to R310). `lanes`: bit p is the lane that level p offers next
(R307); `fronts` is keyed by physical core. -/
structure Work where
  gangs : Table Gang
  queues : List (List Nat)
  lanes : BitVec 8
  fronts : Table Front
  reserved : Table Nat
  picots : Table (List (Option Picot))
  slabZ : Table (SMap 48)
  slabCtx : Table Nat
  ladders : Table Ladder
  graphs : Table Graph
  replays : Table Replay
  areas : Table Area
  notices : List Notice
  deriving DecidableEq, Repr

/-- Clocks, power, heat, repair, fabric and the registers of the window (R326 to R362). `goodHalves` lists the slab halves (slab, 0 for A
or 1 for B) that have passed their latest scan. -/
structure Plant where
  clusters : Table ClusterRegs
  cores : Table CoreState
  goodHalves : List (Nat × Nat)
  leases : List BoostLease
  powerStep : Nat
  ballast : Bool
  windowEnd : Nat
  refillAt : Nat
  thermStop : BitVec 8
  memState : Table Nat
  retireLog : List Retire
  peers : Table Peer
  signals : List HeldSignal
  aborts : List (Nat × Nat)
  dev : Regs
  deriving DecidableEq, Repr

/-- The package (one machine): global time, the order of events still to come, who is executing, and the four parts. -/
structure State where
  time : Nat
  fresh : Nat
  agenda : List (Nat × Action)
  focus : Focus
  mm : MemSys
  sw : Sweep
  wk : Work
  pl : Plant
  deriving DecidableEq, Repr

/-- Why the machine stops with a fault. No rule of the manual gives a fault that stops the package: every cause of R274
is taken as a stop of the team, which is a next state, and the removal of package power (R348) leaves the state after reset
with its retirement record. So no reason exists, and nothing raises one. -/
inductive Fault where
  deriving DecidableEq, Repr

/-- Why a step has no meaning. -/
inductive Refusal where
  /-- Raised by an arm of exec that is not modelled yet. Safe: nothing is claimed of it. -/
  | notModelled (mnemonic : String)
  /-- Raised by a word of a stream, or by a copy entry, that is executed while no agent of its kind is executing. A step does so only
  where an agenda names such a word as an event, which no agent of the part does. Safe: nothing is claimed of it. -/
  | noIssuer
  deriving DecidableEq, Repr

/-- No context: records give 1 to 65,535 (R291). -/
def noCtx : Nat := 65536

/-- An engine with nothing published. -/
def Engine.idle : Engine :=
  { published := 0, takenIdx := 0, completed := 0, pubs := [], flight := [], waiting := none }

/-- A restore unit at rest. -/
def Restore.idle : Restore :=
  { rowAt := [], rows := [], written := [], x := [[], [], [], []], c := [], program := [], running := false, job := .none }

/-- The registers of a cluster at reset (R26, R337, R338, R340, R342). -/
def ClusterRegs.reset : ClusterRegs :=
  { policy := 0, passPower := 0, passTherm := 0, passFloor := 0, ratio := 2, ratioCur := 2, binBase := 5, binCur := 5,
    changing := false, droop := 24 }

/-- The window's registers at reset. -/
def Regs.reset : Regs :=
  { dbTarget := [], noticeBase := 0, noticeHead := 0, noticeVis := [], noticeTail := 0, gstatBusy := false, gstatHandle := 0,
    gstatKerr := 0, gstatLerr := 0, istatDone := true, invalReq := none, mapAddr := 0, mapBusy := false, mapCode := 0,
    mapOffset := 0, ctxBusy := false, ctxLast := 0, ctxResult := 0,
    clusterMap := (List.range 72).map fun l => { hold := false, phys := 10 * (l / 9) + l % 9, moving := none },
    pkgPower := 0, pkgLimit := 3600, setpoint := 0, band := 100, pool := 50000, cap := 50, refill := 100,
    sync := false, syncSince := 0, skewDom := 100, skewPkg := 8, therm := [], quota := 16384, drainLimit := 1000, shepRun := true,
    shepRotations := 0, shepSkipped := 0, shepCore := 0, errRollbacks := 0, errPoison := 0, repairSeq := 0,
    repairLast := 0, coordRow := 0, coordCol := 0, remoteThresh := 2000, recoveryLimit := 500, linkUp := 0,
    bootStage := 0, bootError := 0, nonce := List.replicate 64 0, attestAddr := 0, attestDone := 0 }

/-- Memory and homes at reset: nothing listed. -/
def MemSys.reset : MemSys :=
  { mem := [], poison := [], llcPoison := [], homes := [], l1 := [], cols := [], narrow := [], provisional := [], held := [], dropped := 0,
    unreadable := [],
    execMaps := [], unmaps := [], tlb := [], contexts := [] }

/-- The drovers at reset: none listed stands at pass 0 with its last ordinal complete (DESIGN CHOICE, log 1). -/
def Sweep.reset : Sweep :=
  { drovers := [], regs := [], reqs := [], cmds := [], restore := Restore.idle, nextHandle := 1 }

/-- No work at reset. -/
def Work.reset : Work :=
  { gangs := [], queues := List.replicate 16 [], lanes := 0, fronts := [], reserved := [], picots := [], slabZ := [], slabCtx := [], ladders := [],
    graphs := [], replays := [], areas := [], notices := [] }

/-- Clocks, power, repair and fabric at reset. -/
def Plant.reset : Plant :=
  { clusters := [], cores := [], goodHalves := [], leases := [], powerStep := 0, ballast := false, windowEnd := Config.powerWindowUnits,
    refillAt := 4000000, thermStop := 0, memState := [], retireLog := [], peers := [], signals := [], aborts := [],
    dev := Regs.reset }

/-- The package right after reset: nothing booted, nothing mapped, nothing placed. -/
def State.reset : State :=
  { time := 0, fresh := 1, agenda := [], focus := .none, mm := MemSys.reset, sw := Sweep.reset, wk := Work.reset,
    pl := Plant.reset }

end Sys2Proof.Machine
end

