-- ==== Sys2Proof/Machine/Ops.lean ====
section
/-! DEFINITION. The named operations over the records of the state: finding and changing a group, a team, a gang; the
frontier (R17 to R21); the registers (R42, R43); the stop of a team, which is how this part takes an exception (R72, R274,
R275), and the return from a handler beside it (R78, R281). -/
namespace Sys2Proof.Machine

/-- What a meaning answers. -/
abbrev Out := Host.Outcome State Fault Refusal

/-! ## Records -/

/-- The team of a group. -/
def grefTeam (g : GRef) : TRef := { gang := g.gang, team := g.team }

/-- A group of a team. -/
def trefGroup (t : TRef) (n : Nat) : GRef := { gang := t.gang, team := t.team, grp := n }

/-- The gang of a number. -/
def findGang (s : State) (n : Nat) : Option Gang := tabGet s.wk.gangs n

/-- A team of a gang. -/
def findTeam (s : State) (t : TRef) : Option Team :=
  match findGang s t.gang with
  | some g => g.teams[t.team]?
  | none => none

/-- A group of a team. -/
def findGroup (s : State) (g : GRef) : Option Group :=
  match findTeam s (grefTeam g) with
  | some t => t.groups[g.grp]?
  | none => none

/-- The state with a gang changed. -/
def modGang (s : State) (n : Nat) (f : Gang → Gang) : State :=
  { s with wk := { s.wk with gangs := tabMod s.wk.gangs n f } }

/-- The state with a team changed. -/
def modTeam (s : State) (t : TRef) (f : Team → Team) : State :=
  modGang s t.gang fun g => { g with teams := listMod g.teams t.team f }

/-- The state with a group changed. -/
def modGroup (s : State) (g : GRef) (f : Group → Group) : State :=
  modTeam s (grefTeam g) fun t => { t with groups := listMod t.groups g.grp f }

/-- The state with a group replaced. -/
def setGroup (s : State) (g : GRef) (x : Group) : State := modGroup s g fun _ => x

/-- The meaning of a group-stream word: it acts for the group that is executing. -/
def onGroup (s : State) (f : GRef → Group → Out) : Out :=
  match s.focus with
  | .group g => match findGroup s g with
    | some x => f g x
    | none => .refused .noIssuer
  | _ => .refused .noIssuer

/-- The live groups of a team, by number. -/
def liveGroups (t : Team) : List Nat := (List.range t.groups.length).filter fun n =>
  match t.groups[n]? with
  | some x => !x.retired
  | none => false

/-- The gang of a group is marked by an eviction request (R282). -/
def isMarked (s : State) (g : GRef) : Bool := (findGang s g.gang).elim false fun gg => gg.marked

/-- A group comes to stand at a blocking point whose condition does not hold (R38); in a marked gang it parks there (R282).
A wait already in progress goes on. -/
def beginWait (s : State) (g : GRef) (x : Group) (k : WaitKind) : State :=
  setGroup s g
    { x with
      wait := match x.wait with
        | some w => some w
        | none => some { kind := k, began := s.time, paused := 0, satAt := none }
      parked := x.parked || isMarked s g }

/-- A blocking wait that completes: the record goes, the entry advances. -/
def endWait (x : Group) : Group := { x with wait := none }

/-- A fresh number, for a value the manual leaves free (DESIGN CHOICE, log 3). -/
def takeFresh (s : State) : Nat × State := (s.fresh, { s with fresh := s.fresh + 1 })

/-! ## The frontier (R17 to R21) -/

/-- The order of entries: higher priority first, then lower PC (R17). -/
def feBefore (x y : FEntry) : Bool :=
  decide (y.prio.toNat < x.prio.toNat) || (x.prio == y.prio && decide (x.pc.toNat < y.pc.toNat))

/-- An entry placed in a frontier; entries of equal priority and PC merge (R19). -/
def feInsert (e : FEntry) : List FEntry → List FEntry
  | [] => [e]
  | f :: fs =>
    if f.prio = e.prio ∧ f.pc = e.pc then { f with mask := f.mask ||| e.mask } :: fs
    else if feBefore e f then e :: f :: fs
    else f :: feInsert e fs

/-- The link of an entry: its priority in [63:56], its PC in [55:0] (R72). -/
def feLink (e : FEntry) : Word64 := BitVec.ofNat 64 (e.prio.toNat * 2 ^ 56 + e.pc.toNat)

/-- The priority and PC of a link (R18). -/
def linkPrio (l : Word64) : BitVec 8 := BitVec.ofNat 8 (l.toNat / 2 ^ 56)
def linkPc (l : Word64) : BitVec 56 := BitVec.ofNat 56 l.toNat

/-- The link of a group's current entry; 0 where the frontier is empty. -/
def curLink (x : Group) : Word64 :=
  match x.frontier with
  | e :: _ => feLink e
  | [] => 0

/-- The active mask (R17). -/
def active (x : Group) : Mask :=
  match x.frontier with
  | e :: _ => e.mask
  | [] => 0

/-- Lane i is in a mask. -/
def laneIn (m : Mask) (i : Nat) : Bool := m.getLsbD i

/-- The active lanes in rising order. -/
def activeLanes (x : Group) : List Nat := (List.range x.width).filter (laneIn (active x))

/-- The mask of a list of lanes. -/
def maskOf (ls : List Nat) : Mask := ls.foldl (fun m i => m ||| BitVec.ofNat 64 (2 ^ i)) 0

/-- The mask of all lanes of a width. -/
def fullMask (w : Nat) : Mask := BitVec.ofNat 64 (2 ^ w - 1)

/-- The current entry takes a priority and a PC (R18, R19). -/
def retarget (x : Group) (p : BitVec 8) (pc : BitVec 56) : Group :=
  match x.frontier with
  | e :: es => { x with frontier := feInsert { prio := p, pc := pc, mask := e.mask } es }
  | [] => x

/-- The current entry continues at the next PC. -/
def advance (x : Group) : Group :=
  match x.frontier with
  | e :: es => { x with frontier := feInsert { e with pc := e.pc + 4 } es }
  | [] => x

/-- The lanes of `m` leave the current entry for (p, pc); the rest continue at the next PC (R18). -/
def splitEntry (x : Group) (m : Mask) (p : BitVec 8) (pc : BitVec 56) : Group :=
  match x.frontier with
  | e :: es =>
    let rest := feInsert { e with pc := e.pc + 4, mask := e.mask &&& ~~~m } es
    { x with frontier := feInsert { prio := p, pc := pc, mask := m } rest }
  | [] => x

/-! ## Registers (R42, R43) -/

/-- The register of the 256-register space that a field names through the window (R43). -/
def physReg (x : Group) (r : VReg) : Nat := x.wbase + r.toNat

/-- The group owns the block of a register (R43). -/
def ownsReg (x : Group) (r : Nat) : Bool := decide (r / 64 < x.owned)

/-- A register of a lane. -/
def vRaw (x : Group) (r lane : Nat) : Word := smGet x.v (r * 64 + lane)

/-- A register of a lane, by field. -/
def vGet (x : Group) (r : VReg) (lane : Nat) : Word := vRaw x (physReg x r) lane

/-- A register pair of a lane, low register first. -/
def vGet64 (x : Group) (r : VReg) (lane : Nat) : Word64 :=
  BitVec.ofNat 64 ((vRaw x (physReg x r) lane).toNat + 2 ^ 32 * (vRaw x (physReg x r + 1) lane).toNat)

/-- The scalar register of a field; s0 reads 0 (R42). -/
def sGet (x : Group) (r : SReg) : Word64 := if r = 0 then 0 else smGet x.s r.toNat

/-- The group with a scalar register written; s0 discards (R42). -/
def sSet (x : Group) (r : SReg) (v : Word64) : Group :=
  if r = 0 then x else { x with s := smSet x.s r.toNat v }

/-- A k register of all lanes; k0 reads the active mask (R42). -/
def kGet (x : Group) (k : Nat) : Mask := if k = 0 then active x else smGet x.k k

/-- The group with a k register written. -/
def kSet (x : Group) (k : Nat) (m : Mask) : Group := if k = 0 then x else { x with k := smSet x.k k m }

/-- A register enters the operand prefetch queue as its newest entry (R16). -/
def enqueue (x : Group) (r : Nat) : Group :=
  let q := x.queue.filter (· ≠ r) ++ [r]
  { x with queue := q.drop (q.length - 8) }

/-- The group with register words written (key: register × 64 + lane), and the registers entered in the queue. -/
def vWrite (x : Group) (ws : List (Nat × Word)) (regs : List Nat) : Group :=
  regs.foldl enqueue { x with v := ws.foldl (fun m p => smSet m p.1 p.2) x.v }

/-! ## The stop of a team: taking an exception (R72, R274, R275) -/

def cRole : BitVec 32 := 1
def cFetch : BitVec 32 := 2
def cPage : BitVec 32 := 4
def cPerm : BitVec 32 := 8
def cAlign : BitVec 32 := 16
def cPoison : BitVec 32 := 32
def cFrontier : BitVec 32 := 64
def cWindow : BitVec 32 := 128
def cWdog : BitVec 32 := 256
def cRzvinit : BitVec 32 := 512
def cTrapi : BitVec 32 := 1024
def cHaltb : BitVec 32 := 2048
def cStamp : BitVec 32 := 4096
def cCollab : BitVec 32 := 8192
def cRemote : BitVec 32 := 16384
def cLadder : BitVec 32 := 32768
def cSweep : BitVec 32 := 65536
def cFpinv : BitVec 32 := 131072
def cSlot : BitVec 32 := 262144
def cQueue : BitVec 32 := 524288

/-- The causes of a group, HALTB aside (R277). -/
def ownCauses (x : Group) : BitVec 32 := x.cause &&& ~~~cHaltb

/-- The link that a sibling stops with: that of its current entry; a group that runs its team's handler keeps the link that the
handler's TRET takes (DEDUCED, log 55). -/
def stopLink (x : Group) : Word64 := if x.frozen.isSome then x.epc else curLink x

/-- The remote loads that are outstanding beyond the threshold are cancelled (R276, R285). -/
def cancelBeyond (x : Group) : Group :=
  { x with loads := x.loads.filter fun p => !p.beyond, cancelled := x.cancelled ++ x.loads.filter PendLoad.beyond }

/-- A group stops, with the link of its rule: it parks no longer, it keeps no frame words, and its remote loads beyond the threshold are
cancelled (R72, R275, R276). -/
def halt (link : Word64) (x : Group) : Group :=
  cancelBeyond { x with halted := true, epc := link, parked := false, frames := none }

/-- A sibling under the halt broadcast: HALTB is set; one that stands at a blocking wait, or whose frontier is empty, stops
at once with skid 0, holding the link of the wait; any other runs on into its skid (R275). -/
def haltSibling (x : Group) : Group :=
  if x.retired then x
  else if x.wait.isSome || x.parked then halt (stopLink x) { x with cause := x.cause ||| cHaltb, skid := 0 }
  else { x with cause := x.cause ||| cHaltb, skid := 0 }

/-- A sibling running in its skid stops, with the link of the instruction it would issue next (R72, R275). -/
def haltNow (x : Group) : Group := if x.retired || x.halted then x else halt (stopLink x) x

/-- The rendezvous point of the latest WDOG or RZVINIT that a group still holds (R271). -/
def heldPoint (x : Group) : Option Nat := if x.cause &&& (cWdog ||| cRzvinit) = 0 then none else x.point

/-- A group gets causes that concern a point. -/
def addCause (bits : BitVec 32) (point : Option Nat) (x : Group) : Group :=
  { x with cause := x.cause ||| bits, point := point.or (heldPoint x) }

/-- The stopping group, or a co-stopped one: its causes, its link, the point they concern, skid 0 (R72, R275). One that the halt broadcast
has stopped in the same lane cycle keeps its link. -/
def haltStopping (bits : BitVec 32) (link : Word64) (point : Option Nat) (x : Group) : Group :=
  let y := addCause bits point { x with cause := ownCauses x, skid := 0 }
  if x.retired then x else if x.halted then y else halt link y

/-- A point of a team; points not held are uninitialised. -/
def pointOf (t : Team) (p : Nat) : Point := (t.points[p]?).getD { e := 0, count := 0, phase := 0, bitmap := 0 }

/-- The groups of a team changed by number. -/
def mapGroups (t : Team) (f : Nat → Group → Group) : Team :=
  { t with groups := (List.range t.groups.length).filterMap fun m => (t.groups[m]?).map (f m) }

/-- The groups of a team that have retired, as a bitmap (R271). -/
def retiredMask (t : Team) : BitVec 32 :=
  (List.range t.groups.length).foldl (fun b n => if (t.groups[n]?).elim false Group.retired then b ||| BitVec.ofNat 32 (2 ^ n) else b) 0

/-- What a stop records: the stopping group, its causes, and the point that they concern, as it stands (R271). -/
def newStop (time n : Nat) (causes : BitVec 32) (point : Option Nat) (report : Bool) (t : Team) : Stop :=
  { group := n, causes := causes, time := time, point := point, phase := point.elim 0 fun p => (pointOf t p).phase, gone := retiredMask t,
    shown := (t.groups[n]?).elim causes ownCauses, report := report, written := none }

/-- The stop of a running team (R275): the stopping group `n` (255: no live group) with its causes and link, the groups that
are stopped with it, and the broadcast to every other live group. -/
def stopTeam (time : Nat) (n : Nat) (bits : BitVec 32) (link : Word64) (co : List Nat) (point : Option Nat) (t : Team) : Team :=
  let t' := mapGroups t fun m x =>
    if m = n then haltStopping bits link point x
    else if m ∈ co then haltStopping bits (curLink x) point x
    else haltSibling x
  { t' with stop := some (newStop time n bits point (n == 255) t') }

/-- Of two groups of a team whose causes come in one lane cycle, the stopping one (R275): where WDOG is one of the causes, the group
whose own watchdog has expired; else the lower. -/
def stopper (st : Stop) (n : Nat) (bits : BitVec 32) : Nat :=
  if st.causes &&& cWdog ≠ 0 && bits &&& cWdog = 0 then st.group
  else if st.causes &&& cWdog = 0 && bits &&& cWdog ≠ 0 then n
  else min st.group n

/-- Causes come in the lane cycle in which their team has stopped: the groups are co-stopped, and one of them is the stopping group
(R275). -/
def stopTogether (n : Nat) (bits : BitVec 32) (link : Word64) (co : List Nat) (point : Option Nat) (st : Stop) (t : Team) : Team :=
  let t' := mapGroups t fun m x =>
    if m = n then haltStopping bits link point x
    else if m ∈ co then haltStopping bits (curLink x) point x
    else x
  let k := stopper st n bits
  { t' with
    stop := some (if k = n then
        newStop st.time n (bits ||| if n = st.group then st.causes else 0) (point.or (if n = st.group then st.point else none)) false t'
      else { st with taken := none }) }

/-- A cause comes while the save of a report goes on: it is reported with the save, or ends the context (R283). -/
def stopAgain (n : Nat) (bits : BitVec 32) (point : Option Nat) (t : Team) (st : Stop) : Stop :=
  let own := if st.written.isSome then 0 else if st.report then st.causes else (t.groups[st.group]?).elim 0 ownCauses
  let k := if st.group = 255 || st.written.isSome then n else st.group
  { newStop st.time k (own ||| bits) (point.or (if k = st.group then st.point else none)) true t with late := st.late ||| bits }

/-- Causes for which the handler's group ends its handler (R281): the frontier is the frozen one again, and what is decided is the union of
the group's causes, but for a TRAP of the handler; those that come while a save goes on are late (R283). -/
def endHandler (n : Nat) (bits : BitVec 32) (link : Word64) (point : Option Nat) (saving : Bool) (t : Team) : Team :=
  let own := (t.groups[n]?).elim 0 ownCauses
  let counted := bits &&& ~~~cTrapi
  let t' := { t with
    handler := none
    groups := listMod t.groups n fun x =>
      halt link { addCause bits point x with frontier := (x.frozen).getD x.frontier, frozen := none, wait := none } }
  { t' with stop := t.stop.map fun st =>
      { newStop st.time n (own ||| counted) ((t'.groups[n]?).bind heldPoint) true t' with
        gone := st.gone, late := if saving then st.late ||| counted else st.late } }

/-- Taking an exception: cause bits set in a group, with the link its rule gives (R72, R274, R275). In a running team they
stop it. In the lane cycle in which the team has stopped they make a co-stopped group. In the group whose handler runs they end the
handler (R281). In a stopping sibling they end its skid (R275; sr.skid counts the instruction as it issues). In a stopped team or in
the fold they are recorded (R274); while the save of a report goes on they are reported with it (R283). -/
def raise (s : State) (g : GRef) (bits : BitVec 32) (link : Word64) (co : List Nat) (point : Option Nat) : State :=
  match findGang s g.gang with
  | none => s
  | some gg =>
    if gg.state ≠ .resident then modGroup s g fun x => { addCause bits point x with epc := link }
    else modTeam s (grefTeam g) fun t =>
      if t.handler = some g.grp then endHandler g.grp bits link point gg.reported t
      else match t.stop with
        | none => stopTeam s.time g.grp bits link co point t
        | some st =>
          if st.time = s.time && st.written.isNone && !st.report && t.handler.isNone then stopTogether g.grp bits link co point st t
          else
            { t with
              stop := some (if gg.reported then stopAgain g.grp bits point t st else st)
              groups := listMod t.groups g.grp fun x =>
                if x.halted || x.retired then addCause bits point x else halt link (addCause bits point x) }

/-- An instruction that is not performed: the cause is set, with the instruction's own link (R72). -/
def notPerformed (s : State) (g : GRef) (x : Group) (bits : BitVec 32) : Out :=
  .next (raise s g bits (curLink x) [] none)

/-- An instruction that is not performed because of a rendezvous point: the record names the point (R36, R271). -/
def refusedAt (s : State) (g : GRef) (x : Group) (p : Nat) : Out :=
  .next (raise s g cRzvinit (curLink x) [] (some p))

/-- An instruction that was performed and then sets a cause: the link is that of the entry advanced past it (R72). -/
def performedThen (s : State) (g : GRef) (x' : Group) (bits : BitVec 32) : Out :=
  .next (if bits = 0 then setGroup s g x' else raise (setGroup s g x') g bits (curLink x') [] none)

/-- The group that an engine's or the sequencer's cause goes to: the wanted one where it lives, else the lowest-numbered
live group (R219, R238). -/
def causeGroup (t : Team) (want : Nat) : Option Nat :=
  if want ∈ liveGroups t then some want else (liveGroups t).head?

/-- A cause that another agent of a team sets (R219, R238): in its group with the link of its current entry, or in no
group where none lives. -/
def raiseTeam (s : State) (t : TRef) (want : Nat) (bits : BitVec 32) (point : Option Nat) : State :=
  match findTeam s t with
  | none => s
  | some tm =>
    match causeGroup tm want with
    | some n =>
      raise s (trefGroup t n) bits ((tm.groups[n]?).elim 0 curLink) [] point
    | none =>
      match tm.stop, findGang s t.gang with
      | none, some gg =>
        if gg.state = .resident && !tm.retired then modTeam s t (stopTeam s.time 255 bits 0 [] point) else s
      | some st, some gg => modTeam s t fun tm =>
          { tm with stop := some (if gg.reported then stopAgain 255 bits point tm st
                                  else { st with causes := st.causes ||| bits, shown := st.shown ||| bits, point := point.or st.point, taken := none }) }
      | _, _ => s

/-- A cause of an access that issued earlier: it goes to the group, or where that has retired to the lowest-numbered live
group of its team. -/
def raiseLate (s : State) (g : GRef) (bits : BitVec 32) : State := raiseTeam s (grefTeam g) g.grp bits none

/-! ## The return from a handler (R78, R281) -/

/-- A group that resumes: it issues at its current entry; a wait is issued again as a new one, and so is a remote load that
the stop cancelled (R276). -/
def resumeGroup (time : Nat) (x : Group) : Group :=
  { x with
    halted := false, wait := none, cause := ownCauses x, cancelled := []
    loads := x.loads ++ x.cancelled.map fun p => { p with beyond := false, issued := time, again := true } }

/-- Every group of the team resumes, with its sequencer (R279, R281). -/
def resumeAll (time : Nat) (t : Team) : Team :=
  { t with handler := none, stop := none, seq := { t.seq with wait := none }
           groups := t.groups.map fun x => if x.retired then x else resumeGroup time x }

/-- The team resumes, or stops again at once where a group still holds a cause (R281). -/
def resumeTeam (time : Nat) (t : Team) : Team :=
  let t' := { t with handler := none, groups := t.groups.map fun x => { x with cause := ownCauses x } }
  match (liveGroups t').filter fun n => (t'.groups[n]?).elim false fun x => decide (x.cause ≠ 0) with
  | n :: _ =>
    let t'' := mapGroups t' fun m x =>
      if x.retired then x
      else { x with halted := true, epc := curLink x, skid := 0, cause := if m = n then x.cause else x.cause ||| cHaltb }
    { t'' with stop := some (newStop time n ((t''.groups[n]?).elim 0 Group.cause) ((t''.groups[n]?).bind heldPoint) false t'') }
  | [] => resumeAll time t'

/-- The frozen frontier with its current entry at the link in sr.epc (R78). -/
def thawed (x : Group) : Group :=
  match x.frozen with
  | some (e :: es) =>
    { x with frontier := feInsert { prio := linkPrio x.epc, pc := linkPc x.epc, mask := e.mask } es, frozen := none }
  | some [] => { x with frontier := [], frozen := none }
  | none => x

/-- The end of a handler: the team resumes; under the halt broadcast of a report it stays stopped until its gang is restored (R278,
R281). -/
def leaveHandler (time : Nat) (reported : Bool) (t : Team) : Team :=
  if reported then { t with handler := none, stop := t.stop.map fun st => newStop st.time 255 0 none true t }
  else resumeTeam time t

/-- The return from a team trap handler (R78, R281). -/
def handlerReturn (time n : Nat) (reported : Bool) (t : Team) : Team :=
  leaveHandler time reported { t with groups := listMod t.groups n thawed }

end Sys2Proof.Machine
end

