-- ==== Sys2Proof/Machine/Sites.lean ====
section
/-! DEFINITION. Where work stands: clusters and cores, the registers of a cluster (R26, R335 to R342), the buddy allocation
of register blocks and scratchpad (R308), passes (R30), compute stacks (R348), physical addresses and memory stacks (R109 to R112, R349),
peers (R356). -/
namespace Sys2Proof.Machine

/-! ## Clusters -/

/-- The registers of a physical cluster. -/
def clusterRegs (s : State) (c : Nat) : ClusterRegs := (tabGet s.pl.clusters c).getD ClusterRegs.reset

/-- The state with the registers of a physical cluster changed. -/
def modCluster (s : State) (c : Nat) (f : ClusterRegs → ClusterRegs) : State :=
  { s with pl := { s.pl with clusters := tabPut s.pl.clusters c (f (clusterRegs s c)) } }

/-- The window's registers. -/
def dev (s : State) : Regs := s.pl.dev

/-- The state with the window's registers changed. -/
def modDev (s : State) (f : Regs → Regs) : State := { s with pl := { s.pl with dev := f s.pl.dev } }

/-- The physical cluster of a logical one (R313). -/
def physCluster (s : State) (l : Nat) : Nat := ((dev s).clusterMap[l]?).elim l MapEntry.phys

/-- The compute stack of a physical cluster (R335). -/
def stackOf (c : Nat) : Nat := c / 10

/-- The STATE of a compute stack (R348): 3 while the stop point holds, else the demand its clusters carry. -/
def computeState (s : State) (st : Nat) : Nat :=
  if s.pl.thermStop.getLsbD st then 3 else (clusterRegs s (10 * st)).passTherm.toNat

/-- The highest bin among the live leases of a cluster (R337). -/
def leaseBin (s : State) (c : Nat) : Nat :=
  (s.pl.leases.filter fun l => l.cluster = c).foldl (fun m l => max m l.bin.toNat) 0

/-- The steps of the power controller that lower CUR (R341, step 4): past mark, refuse and two codes of POWER. -/
def binLowered (s : State) : Nat := s.pl.powerStep - 4

/-- The bin a cluster is to run at: max(BASE, LEASE), lowered as R341 and R348 require. -/
def wantBin (s : State) (c : Nat) : Nat :=
  let b := (clusterRegs s c).binBase.toNat
  let top := max b (leaseBin s c)
  let held := if 1 ≤ computeState s (stackOf c) then min top b else top
  held - binLowered s

/-- The ratio code a cluster is to run at: ½ while the hard point holds (R338). -/
def wantRatio (s : State) (c : Nat) : BitVec 2 :=
  if 2 ≤ computeState s (stackOf c) then 0 else (clusterRegs s c).ratio

/-- The POWER code the controller's steps demand (R341, step 3). -/
def powerCode (s : State) : Nat := min 2 (s.pl.powerStep - 2)

/-- PASS_COUNT.CUR of a cluster as a code: the largest of FLOOR, POWER and THERM (R340). THERM is 1 at the soft point and 2
from the hard point on (R348). -/
def passCode (s : State) (c : Nat) : Nat :=
  let r := clusterRegs s c
  max r.passFloor.toNat (max r.passPower.toNat (min 2 (computeState s (stackOf c))))

/-- The pass count in use. -/
def passCount (s : State) (c : Nat) : Nat := 2 ^ passCode s c

/-! ## Cores and places (R6, R11, R307) -/

/-- The core of a group: a paired team's groups 16 to 31 run on the upper core (R11). -/
def coreOf (gg : Gang) (team grp : Nat) : Nat :=
  match gg.place with
  | some p => (p.cores[team]?).getD 0 + (if gg.launch.pair && decide (16 ≤ grp) then 1 else 0)
  | none => 0

/-- The logical cluster a gang is placed on. -/
def clusterOf (gg : Gang) : Nat := (gg.place).elim 0 Place.cluster

/-- Bound lanes (R12). -/
def boundLanes (gg : Gang) : Nat := 32 * gg.launch.yoke

/-- The P of an instruction of a gang's groups (R30). -/
def passesOf (s : State) (gg : Gang) : Nat :=
  let w := gg.launch.width
  let b := boundLanes gg
  max ((w + b - 1) / b) (passCount s (physCluster s (clusterOf gg)))

/-- The resident gangs of a logical cluster. -/
def residents (s : State) (l : Nat) : List (Nat × Gang) :=
  s.wk.gangs.filter fun p => p.2.state = .resident && (p.2.place).elim false fun q => q.cluster == l

/-- The groups of a gang on a core, with their numbers. -/
def groupsOn (gg : Gang) (core : Nat) : List (Nat × Nat × Group) :=
  ((List.range gg.teams.length).flatMap fun t => match gg.teams[t]? with
    | some tm => (List.range tm.groups.length).filterMap fun n => (tm.groups[n]?).map fun x => (t, n, x)
    | none => []).filter fun p => coreOf gg p.1 p.2.1 == core

/-! ## Buddy allocation (R308): units of 4 KiB -/

/-- Units of one register block of a width: 256 × W bytes. -/
def blockUnits (w : Nat) : Nat := w / 16

/-- A block of a yoked team's groups stands half under each of two slabs: under the slab that carries the lane (R12). -/
def splitBlocks (l : Launch) : Bool := decide (2 ≤ l.yoke) && decide (32 < l.width)

/-- Units that a block takes on each slab that holds part of it. -/
def slabUnits (l : Launch) : Nat := blockUnits (if splitBlocks l then 32 else l.width)

/-- The core whose slab carries lanes 32 to 63 of a yoked team (R12). -/
def yokedCore (gg : Gang) (t : Nat) : Option Nat := gg.place.bind fun p => p.yoked[(gg.launch.yoke - 1) * t]?

/-- Units of a scratchpad range: the bytes rounded up to a power of two of at least 4 KiB (on each core of a pair: half). -/
def scratchUnits (bytes : Nat) (pair : Bool) : Nat :=
  let b := max 1 (if pair then (bytes + 1) / 2 else bytes)
  2 ^ (Nat.log2 ((b - 1) / 4096) + (if (b - 1) / 4096 = 0 then 0 else 1))

/-- The gangs that hold register blocks on a logical cluster: those resident, and those retired whose outstanding loads keep
their blocks (R21). -/
def holders (s : State) (l : Nat) : List (Nat × Gang) :=
  s.wk.gangs.filter fun p => (p.2.state == .resident || p.2.state == .retired) && (p.2.place).elim false fun q => q.cluster == l

/-- Register units of a core: three arenas of 256 KiB. -/
def regUnits : Nat := 192
/-- Scratchpad units of a core: one arena of 512 KiB. -/
def scratchArena : Nat := 128

/-- The register units taken on a core, as (start, length): those of the groups that run on it, and those of the yoked groups whose
upper lanes its slab carries (R12, R308). -/
def regsTaken (s : State) (l core : Nat) : List (Nat × Nat) :=
  (holders s l).flatMap fun p =>
    ((groupsOn p.2 core).flatMap fun q => q.2.2.blocks.map fun b => (b % regUnits, slabUnits p.2.launch)) ++
    if splitBlocks p.2.launch then
      ((List.range p.2.teams.length).filter fun t => yokedCore p.2 t == some core).flatMap fun t =>
        (p.2.teams[t]?).elim [] fun tm => tm.groups.flatMap fun x => x.blocks.map fun b => (b / regUnits, slabUnits p.2.launch)
    else []

/-- The scratchpad units taken on a core. -/
def scratchTaken (s : State) (l core : Nat) : List (Nat × Nat) :=
  (residents s l).flatMap fun p =>
    ((List.range p.2.teams.length).filterMap fun t => match p.2.teams[t]?, (p.2.place).bind fun q => q.cores[t]? with
      | some tm, some c =>
        if c ≤ core && core < c + tm.scratchAt.length then
          (tm.scratchAt[core - c]?).map fun u => (u, scratchUnits tm.scratchBytes p.2.launch.pair)
        else none
      | _, _ => none)

/-- A run of units is free. -/
def unitsFree (taken : List (Nat × Nat)) (u n : Nat) : Bool :=
  taken.all fun t => decide (u + n ≤ t.1 ∨ t.1 + t.2 ≤ u)

/-- The lowest naturally aligned free run of `n` units below `total` (the lowest is the model's choice: DESIGN CHOICE, log 10). -/
def findUnits (taken : List (Nat × Nat)) (total n : Nat) : Option Nat :=
  if n = 0 then some 0
  else ((List.range (total / n)).map (· * n)).find? fun u => unitsFree taken u n

/-- A free register block for a group: units of its core and, where a yoke splits the block, of the core whose slab carries its upper
lanes (R12, R43, R308). -/
def freeBlock (s : State) (g : GRef) : Option Nat :=
  (findGang s g.gang).bind fun gg =>
    let free := fun c => findUnits (regsTaken s (clusterOf gg) c) regUnits (slabUnits gg.launch)
    (free (coreOf gg g.team g.grp)).bind fun u =>
      if splitBlocks gg.launch then ((yokedCore gg g.team).bind free).map fun v => u + regUnits * v else some u

/-! ## Boost leases (R345, R346) -/

/-- The remaining microseconds of a lease. -/
def leaseLeft (s : State) (l : BoostLease) : Nat := (l.stop - s.time) / Config.unitsPerUs

/-- The leases of a context on a cluster end, and their remaining time returns to the pool (R345, R346). -/
def endLeases (s : State) (p : BoostLease → Bool) : State :=
  let back := (s.pl.leases.filter p).foldl (fun n l => n + leaseLeft s l) 0
  modDev { s with pl := { s.pl with leases := s.pl.leases.filter fun l => !p l } } fun r => { r with pool := r.pool + back }

/-! ## Physical addresses -/

/-- The package's own number (R355). -/
def ownPkg (s : State) : Nat := (dev s).coordRow % 16 * 1024 + (dev s).coordCol

/-- The PKG and LOCAL fields of a physical address (R109). -/
def pkgOf (pa : Nat) : Nat := pa / 2 ^ 43 % 2 ^ 14
def localOf (pa : Nat) : Nat := pa % 2 ^ 43

/-- A physical address from a package and a local address. -/
def physOf (pkg loc : Nat) : Nat := pkg * 2 ^ 43 + loc

/-- The package's own physical address of a local one. -/
def ownPhys (s : State) (loc : Nat) : Nat := physOf (ownPkg s) loc

/-- A physical address names another package. -/
def isRemote (s : State) (pa : Nat) : Bool := pkgOf pa != ownPkg s

/-- The local address lies in DRAM, or in the register window (R110). -/
def inDram (loc : Nat) : Bool := decide (loc < Config.dramBytes)
def inWindow (loc : Nat) : Bool := decide (Config.windowBase ≤ loc)

/-- The frame of a local address, and its place in the DRAM while no stack has been dropped (R112). -/
def frameOf (loc : Nat) : Nat := loc / 2 ^ 16

/-- The memory stacks that remain (R332). -/
def liveStacks (s : State) : List Nat := (List.range 16).filter fun i => !s.mm.dropped.getLsbD i

/-- The stack, pseudo-channel (0 to 511 within the package) and row index of a local address under the interleave set
(R112). -/
def stackAt (loc : Nat) : Nat := frameOf loc % 16
def channelAt (loc : Nat) : Nat := stackAt loc * 32 + frameOf loc / 16 % 32
def rowIndexAt (loc : Nat) : Nat := frameOf loc / 512
def bankAt (loc : Nat) : Nat := loc / 2048 % 32

/-- The local address of a row: pseudo-channel, row index, bank (R112). -/
def rowLocal (pc idx bank : Nat) : Nat := ((idx * 512 + pc % 32 * 16 + pc / 32) * 32 + bank) * 2048

/-- The sweep ordinal of a row (R128). -/
def ordinalAt (loc : Nat) : Nat := rowIndexAt loc * 32 + bankAt loc

/-- The state of a memory stack (R349). -/
def memStackState (s : State) (st : Nat) : Nat := (tabGet s.pl.memState st).getD 0

/-! ## Peers (R356) -/

/-- The package's own coordinate in the layout of FAB_COORD (R356). -/
def ownCoord (s : State) : Nat := (dev s).coordRow * 1024 + (dev s).coordCol

/-- The coordinate of a package of the issuer's own domain (R355). -/
def coordOf (s : State) (pkg : Nat) : Nat := ((dev s).coordRow / 16 * 16 + pkg / 1024) * 1024 + pkg % 1024

/-- A coordinate names a package that is present in the system. -/
def coordPresent (s : State) (c : Nat) : Bool := c == ownCoord s || Config.present c

/-- A package of the domain is present in the system. -/
def present (s : State) (pkg : Nat) : Bool := coordPresent s (coordOf s pkg)

/-- A peer stays unreachable. -/
def coordUnreachable (s : State) (c : Nat) : Bool := (tabGet s.pl.peers c).elim false Peer.unreachable
def unreachable (s : State) (pkg : Nat) : Bool := coordUnreachable s (coordOf s pkg)

/-- Accesses to a peer wait: it is in recovery, or the package itself is outside the domain bound (R347, R356). -/
def coordRecovering (s : State) (c : Nat) : Bool := c != ownCoord s && ((tabGet s.pl.peers c).isSome || !(dev s).sync)
def recovering (s : State) (pkg : Nat) : Bool := coordRecovering s (coordOf s pkg)

/-! ## A group's own place -/

/-- The context of a group, and its core within the package. -/
def ctxOf (s : State) (g : GRef) : Nat := (findGang s g.gang).elim 0 Gang.ctx
def coreIdOf (s : State) (g : GRef) : Nat :=
  (findGang s g.gang).elim 0 fun gg => 4 * physCluster s (clusterOf gg) + coreOf gg g.team g.grp

end Sys2Proof.Machine
end

