-- ==== Sys2Proof/Machine/Lines.lean ====
section
/-! DEFINITION. Memory by line: what an unlisted byte reads as, the home of a 32-byte line and its order of writes (R168),
narrow holders (R172), stash lines (R122), provisional lines (R316), L1 copies under leases (R119, R120), column copies
(R124 to R126), monitors (R149), poison (R325). -/
namespace Sys2Proof.Machine

/-- What a byte of memory that nothing has written reads as (DESIGN CHOICE, log 4). -/
def emptyByte : Byte := 0

/-- The part's record of executable maps holds a frame: its bytes are read-only to every agent, through whatever leaf (R69). -/
def execFrame (s : State) (pa : Nat) : Bool := s.mm.execMaps.any fun m => m.frames.any fun f => f.2 == pa / 65536

/-- A physical address lies on a memory stack at its 105 °C point: every access to it is held (R349). -/
def hotAt (s : State) (pa : Nat) : Bool := !isRemote s pa && memStackState s (stackAt (localOf pa)) == 4

/-- The canonical form of memory: strictly rising addresses, no entry equal to an unlisted byte. -/
def Memory.wf (m : List Host.Cell) : Bool := smWf m

/-- The state with its memory system changed. -/
def modMm (s : State) (f : MemSys → MemSys) : State := { s with mm := f s.mm }

/-- `n` bytes of DRAM, as it stands below every cache. -/
def dramRead (s : State) (pa n : Nat) : List Byte := smRange s.mm.mem pa n

/-- Bytes of the word addresses that a run of bytes covers whole lose their poison (R325). -/
def unpoison (ps : List Nat) (pa n : Nat) : List Nat := ps.filter fun w => !(decide (pa ≤ 4 * w) && decide (4 * w + 4 ≤ pa + n))

/-- Bytes written to DRAM. -/
def dramWrite (s : State) (pa : Nat) (bs : List Byte) : State :=
  modMm s fun m => { m with mem := smWrite m.mem pa bs, poison := unpoison m.poison pa bs.length }

/-! ## The home of a line (R168) -/

/-- A home that has served nothing yet. -/
def Home.fresh : Home := { llc := none, dirty := false, lease := 0, last := 0, writes := [] }

/-- Bytes set at offsets. -/
def applyBytes (l : List Byte) (bs : List (Nat × Byte)) : List Byte := bs.foldl (fun l p => l.set p.1 p.2) l

/-- The writes of an order that have become visible merge into the line. -/
def foldWrites (now : Nat) (base : List Byte) (h : Home) : List LineWrite → Home
  | [] => { h with writes := [] }
  | w :: ws =>
    if w.done ≤ now then
      foldWrites now base { h with llc := some (applyBytes (h.llc.getD base) w.bytes), dirty := true } ws
    else { h with writes := w :: ws }

/-- The bytes of a line in DRAM. -/
def dramLine (s : State) (line : Nat) : List Byte := dramRead s (32 * line) 32

/-- The home of a line at the present time. -/
def homeOf (s : State) (line : Nat) : Home :=
  match tabGet s.mm.homes line with
  | some h => foldWrites s.time (dramLine s line) h h.writes
  | none => Home.fresh

/-- The state with the home of a line set. -/
def putHome (s : State) (line : Nat) (h : Home) : State := modMm s fun m => { m with homes := tabPut m.homes line h }

/-- The node of a reader's gang. -/
def instOf (s : State) (r : Option GRef) : Option NRef :=
  r.bind fun g => (findGang s g.gang).bind Gang.node

/-! ## What the LLC holds (R1, R123, R166) -/

/-- The slice that a line belongs to: its package and its memory stack (R112, R123). -/
def sliceOf (line : Nat) : Nat := line / 2 ^ 38 * 16 + line / 2048 % 16

/-- The sectors of which a slice holds lines, in rising order: copies, or writes on their way to one. -/
def sliceHolds (s : State) (sl : Nat) : List Nat :=
  (s.mm.homes.filterMap fun p => if (p.2.llc.isSome || !p.2.writes.isEmpty) && sliceOf p.1 == sl then some (p.1 / 32) else none).eraseReps

/-- The LLC drops a line: dirty data reaches DRAM, and the sector's column copies go; while writes not yet visible stay in the line's
order, so does what the line holds without them (R123, R126, R168). -/
def evictLine (s : State) (line : Nat) : State :=
  let h := homeOf s line
  let s1 := if h.dirty then dramWrite s (32 * line) (h.llc.getD (dramLine s line)) else s
  modMm (putHome s1 line { h with llc := if h.writes.isEmpty then none else h.llc, dirty := false }) fun m =>
    { m with
      cols := m.cols.filter fun c => c.sector ≠ line / 32
      llcPoison := m.llcPoison.filter (· ≠ line) }

/-- The LLC may drop a line: no write of it is on its way, and its stack can be written (R168, R349). -/
def mayEvict (s : State) (line : Nat) : Bool := (homeOf s line).writes.isEmpty && !hotAt s (32 * line)

/-- The LLC keeps to the size of its slices: of one that holds more sectors than it has room for, the lowest are dropped (R1; which
it drops is the part's own choice: DESIGN CHOICE, log 61). -/
def trimLlc (s : State) : State :=
  if s.mm.homes.length ≤ Config.sliceSectors then s
  else ((s.mm.homes.map fun p => sliceOf p.1).eraseDups).foldl (fun s sl =>
    let held := sliceHolds s sl
    let drops := (held.filter fun sec => (List.range 32).all fun k => mayEvict s (32 * sec + k)).take (held.length - Config.sliceSectors)
    (drops.flatMap fun sec => (List.range 32).map fun k => 32 * sec + k).foldl evictLine s) s

/-- An access names a line: the LLC fills its copy from DRAM where it has none (R166). -/
def fillLlc (s : State) (line : Nat) : State :=
  if (homeOf s line).llc.isSome then s
  else
    let h := homeOf s line
    putHome s line { h with llc := some (dramLine s line) }

/-- A write counts as issued by a reader of a node (R168, R172, R318), or is the write-back of a stash line (R122). -/
def wroteFor (w : LineWrite) (r : Option GRef) (n : Option NRef) : Bool :=
  w.reach == 3 || (w.node.isSome && w.node == n) ||
  match w.writer, r with
  | some a, some b =>
    match w.reach with
    | 0 => a == b
    | 1 => a.gang == b.gang && a.team == b.team
    | _ => a.gang == b.gang
  | _, _ => false

/-- The writes of an order that a reader sees. -/
def seen (base : List Byte) (ws : List LineWrite) (p : LineWrite → Bool) : List Byte :=
  ws.foldl (fun l w => if p w then applyBytes l w.bytes else l) base

/-! ## Narrow, stash and provisional bytes -/

/-- The narrow bytes of a line (R172). -/
def narrowBytes (s : State) (line : Nat) : List (Nat × Byte) :=
  (s.mm.narrow.filter fun n => n.line = line).flatMap Narrow.bytes

/-- Every stash mapping of the package, with its team. -/
def allStash (s : State) : List (TRef × Stash) :=
  s.wk.gangs.flatMap fun p => (List.range p.2.teams.length).flatMap fun t =>
    ((p.2.teams[t]?).elim [] Team.stash).map fun m => ({ gang := p.1, team := t }, m)

/-- The mapping that holds a line, and the line's place in it (R122). -/
def stashAt (s : State) (line : Nat) : Option (TRef × Stash × Nat) :=
  ((allStash s).find? fun p => p.2.addr / 32 ≤ line && line < p.2.addr / 32 + 128).map fun p =>
    (p.1, p.2, line - p.2.addr / 32)

/-- The scratchpad bytes of a stash line. -/
def stashLine (s : State) (t : TRef) (m : Stash) (i : Nat) : List Byte :=
  (findTeam s t).elim [] fun tm => smRange tm.scratch (m.off + 32 * i) 32

/-- Bytes paired with their offsets in a line. -/
def offsets (bs : List Byte) : List (Nat × Byte) := (List.range bs.length).zip bs

/-- The dirty bytes of a stash line, where some team holds the line dirty. -/
def stashBytes (s : State) (line : Nat) : List (Nat × Byte) :=
  match stashAt s line with
  | some (t, m, i) => if m.dirty.getLsbD i then offsets (stashLine s t m i) else []
  | none => []

/-- The provisional bytes of a line that a reader sees: those of its own instance (R316). -/
def provBytes (s : State) (line : Nat) (r : Option GRef) : List (Nat × Byte) :=
  match instOf s r with
  | some n => (s.mm.provisional.filter fun p => p.line = line && p.node == n).flatMap Provisional.bytes
  | none => []

/-- A line as a read at the home returns it to a reader at the present time: the latest write visible or its own (R168),
with narrow and stash data obtained from their holders (R122, R172) and its own instance's provisional bytes (R316). -/
def lineView (s : State) (line : Nat) (r : Option GRef) : List Byte :=
  let h := homeOf s line
  let base := seen (h.llc.getD (dramLine s line)) h.writes fun w => wroteFor w r (instOf s r)
  applyBytes (applyBytes (applyBytes base (narrowBytes s line)) (stashBytes s line)) (provBytes s line r)

/-- A line as its order of writes leaves it, visible or not, as an atomic or a monitor of a reader takes it (R149, R175). -/
def lineLatest (s : State) (line : Nat) (r : Option GRef) : List Byte :=
  let h := homeOf s line
  let base := seen (h.llc.getD (dramLine s line)) h.writes fun _ => true
  applyBytes (applyBytes (applyBytes base (narrowBytes s line)) (stashBytes s line)) (provBytes s line r)

/-- `n` bytes within one line, by a view of the line. -/
def sliceLine (l : List Byte) (pa n : Nat) : List Byte := (l.drop (pa % 32)).take n

/-- `n` bytes within one line, read at the home. -/
def homeRead (s : State) (pa n : Nat) (r : Option GRef) : List Byte := sliceLine (lineView s (pa / 32) r) pa n

/-- Bytes at any address and of any length, read at the homes of their lines. -/
def homeBytes (s : State) (r : Option GRef) : Nat → Nat → List Byte
  | _, 0 => []
  | pa, n + 1 => ((lineView s (pa / 32) r)[pa % 32]?).getD 0 :: homeBytes s r (pa + 1) n

/-- A little-endian value of `n` bytes within one line, read at the home. -/
def homeNat (s : State) (pa n : Nat) : Nat := leNat (homeRead s pa n none)

/-! ## Leases and L1 copies (R119, R120) -/

/-- A lease granted on a line: it ends no later than the completion of a write that is not yet visible (R168). -/
def grantLease (s : State) (line dur : Nat) : State × Nat :=
  let h := homeOf s line
  let e := match h.writes with
    | w :: _ => min (s.time + dur) w.done
    | [] => s.time + dur
  (putHome s line { h with lease := max h.lease e }, e)

/-- The L1 copy that serves a plain load of a group on a core, if one does (R120). A line with a write of the group not yet
visible, one of which the group's instance has staged bytes, and one that the core holds narrow are read at the home, where
those bytes are seen (R172, R181, R316). -/
def l1Hit (s : State) (core line acq : Nat) (g : GRef) : Option L1Line :=
  if ((homeOf s line).writes.any fun w => wroteFor w (some g) (instOf s (some g))) || !(provBytes s line (some g)).isEmpty
      || s.mm.narrow.any fun n => n.line == line && n.core == core then none
  else s.mm.l1.find? fun c => c.core == core && c.line == line && decide (s.time < c.expiry) && decide (acq ≤ c.fill)

/-- A core's copy of a line is dropped. -/
def dropL1 (s : State) (core line : Nat) : State :=
  modMm s fun m => { m with l1 := m.l1.filter fun c => !(c.core == core && c.line == line) }

/-- A core's copies are dropped, so that its next loads go to the homes. -/
def dropCopies (s : State) (core : Nat) : State := modMm s fun m => { m with l1 := m.l1.filter fun c => c.core != core }

/-- The copies and narrow lines that a core holds in a place: its own array, or a lent unit (R121). -/
def l1Held (s : State) (core : Nat) (u : Option Nat) : Nat :=
  (s.mm.l1.filter fun c => c.core == core && c.unit == u).length + (s.mm.cols.filter fun c => c.core == core && c.unit == u).length +
    (s.mm.narrow.filter fun n => n.core == core && n.unit == u).length

/-- The scratchpad units of a core that no resident team has allocated: they are lent to its L1 (R121). -/
def lentUnits (s : State) (core : Nat) : List Nat :=
  match (List.range 72).find? fun l => physCluster s l == core / 4 with
  | some l => (List.range scratchArena).filter fun u => unitsFree (scratchTaken s l (core % 4)) u 1
  | none => []

/-- The place that a core's L1 gives a new line: its own array while that has room, then the lowest lent unit that has (R1, R121;
which place is the part's own choice: DESIGN CHOICE, log 61). -/
def l1Place (s : State) (core : Nat) : Option Nat :=
  if l1Held s core none < Config.l1Lines then none
  else (lentUnits s core).find? fun u => decide (l1Held s core (some u) < Config.unitLines)

/-- The newest copies of each core's own array that it has room for, from a list of copies newest first; `at_` gives a copy's core and
lent unit. -/
def keepNewest {α : Type} (at_ : α → Nat × Option Nat) (room : Nat → Nat) (kept : List α) : List α → List α
  | [] => kept.reverse
  | c :: cs =>
    if (at_ c).2.isNone && room (at_ c).1 ≤ (kept.filter fun d => at_ d == ((at_ c).1, none)).length then keepNewest at_ room kept cs
    else keepNewest at_ room (c :: kept) cs

/-- Each core's own array keeps to its size, beside the narrow lines it holds: the oldest clean copies go, row lines before column lines
(R1, R120, R125; which it drops is the part's own choice: DESIGN CHOICE, log 61). -/
def trimL1 (s : State) : State :=
  if s.mm.l1.length + s.mm.cols.length + s.mm.narrow.length ≤ Config.l1Lines then s
  else
    let narrow := fun (core : Nat) => (s.mm.narrow.filter fun n => n.core == core && n.unit.isNone).length
    let cols := keepNewest (fun c => (c.core, c.unit)) (fun core => Config.l1Lines - narrow core) [] s.mm.cols
    let others := fun (core : Nat) => narrow core + (cols.filter fun c => c.core == core && c.unit.isNone).length
    modMm s fun m => { m with cols := cols, l1 := keepNewest (fun c => (c.core, c.unit)) (fun core => Config.l1Lines - others core) [] m.l1 }

/-- A core's copy of a line is filled at the home under a lease; no lease is granted on a narrow line (R172), a view that holds
bytes only its reader may see is not kept. -/
def fillL1 (s0 : State) (core line dur : Nat) (r : Option GRef) : State :=
  let s := fillLlc s0 line
  let h := homeOf s line
  if !(narrowBytes s line).isEmpty || !(stashBytes s line).isEmpty || !(provBytes s line r).isEmpty
      || h.writes.any fun w => wroteFor w r (instOf s r) then s
  else
    let data := lineView s line r
    let p := grantLease s line dur
    let s' := dropL1 p.1 core line
    modMm s' fun m =>
      { m with l1 := { core := core, line := line, fill := s.time, expiry := p.2, data := data, unit := l1Place s' core } :: m.l1 }

/-! ## Monitors (R149) -/

/-- A condition of MWAIT or WAITEXT on the value at its address. -/
def condHolds (c : WCond) (m y : Nat) : Bool :=
  match c with
  | .eq => m % 2 ^ 32 == y
  | .ne => m % 2 ^ 32 != y
  | .geu => decide (y ≤ m % 2 ^ 32)
  | .seq => decide (y ≤ m % 2 ^ 48)

/-- Bytes a condition reads. -/
def condBytes : WCond → Nat
  | .seq => 8
  | _ => 4

/-- A wait whose monitor a value satisfies, from time `at`. -/
def wakeWait (line : Nat) (v : WCond → Nat → Nat) (since : Nat) (w : Wait) : Wait :=
  match w.kind, w.satAt with
  | .mwait addr c y _, none =>
    if addr / 32 = line && condHolds c (v c addr) y then { w with satAt := some since } else w
  | _, _ => w

/-- A WAITEXT node whose monitor a value satisfies (R295). -/
def wakeNode (line : Nat) (v : WCond → Nat → Nat) (since : Nat) (n : NodeInst) : NodeInst :=
  if n.kind = 7 && n.state == .started && n.doneAt.isNone then
    let a := leNat n.arming
    let c := match bitsOf a 95 64 with
      | 0 => WCond.eq
      | 1 => .ne
      | 2 => .geu
      | _ => .seq
    if n.status / 32 = line && condHolds c (v c n.status) (bitsOf a 191 128) then { n with doneAt := some since } else n
  else n

/-- The monitors on a line are evaluated after a write whose completion time is `since` (R149, R173): one of another package that the
value satisfies has completed (R355). Waits in the fold are not (R40). -/
def wakeMonitors (s : State) (line since : Nat) (view : Option GRef → List Byte) : State :=
  let val := fun (r : Option GRef) (c : WCond) (addr : Nat) => leNat (sliceLine (view r) addr (condBytes c))
  { s with
    mm := { s.mm with monitors := s.mm.monitors.filter fun k => k.addr / 32 ≠ line || !condHolds k.cond (val none k.cond k.addr) k.y }
    wk := { s.wk with
      gangs := s.wk.gangs.map fun p =>
        if p.2.state ≠ .resident then p
        else (p.1, { p.2 with teams := (List.range p.2.teams.length).filterMap fun t => (p.2.teams[t]?).map fun tm =>
          { tm with groups := (List.range tm.groups.length).filterMap fun n => (tm.groups[n]?).map fun x =>
            match x.wait with
            | some w =>
              if x.halted then x
              else { x with wait := some (wakeWait line (val (some { gang := p.1, team := t, grp := n })) since w) }
            | none => x } })
      replays := s.wk.replays.map fun p =>
        (p.1, { p.2 with nodes := p.2.nodes.map (wakeNode line (val none) since) }) } }

/-! ## Placing a write (R168) -/

/-- The byte offsets of a sector that a column copy holds (R124). -/
def columnOffsets (w c g : Nat) : List Nat :=
  (List.range (32 / w)).flatMap fun k => (List.range w).map fun j => 32 * (g * (32 / w) + k) + c + j

/-- Column copies that hold a changed byte of a line are recalled (R126). -/
def recallColumns (s : State) (line : Nat) (bs : List (Nat × Byte)) : State :=
  modMm s fun m => { m with cols := m.cols.filter fun c =>
    !(c.sector == line / 32 && (columnOffsets c.w c.c c.g).any fun o =>
        o / 32 == line % 32 && bs.any fun b => b.1 == o % 32) }

/-- A line that a copy engine owns and has not written, for an access of a number: an entry in flight that was taken before the access
still names it (R177). Of two entries that name a line, the one taken first owns it (R188; DEDUCED, log 23). -/
def ownedLine (s : State) (line before : Nat) : Bool :=
  let owns := fun (e : Engine) => e.flight.any fun f => decide (f.id < before) && f.owned.contains line
  (s.wk.gangs.any fun p => p.2.state == .resident && p.2.teams.any fun t => owns t.engine) ||
  s.wk.replays.any fun p => p.2.nodes.any fun n => owns n.engine

/-- An entry in flight has a number. -/
def inFlight (s : State) (id : Nat) : Bool :=
  (s.wk.gangs.any fun p => p.2.teams.any fun t => t.engine.flight.any fun f => f.id == id) ||
  s.wk.replays.any fun p => p.2.nodes.any fun n => n.engine.flight.any fun f => f.id == id

/-- A write of a copy engine to a line is still held at its home. -/
def engineWaits (s : State) (line : Nat) : Bool := s.mm.held.any fun h => h.pa / 32 == line && inFlight s h.id

/-- A copy engine owns a line, or its write of it is held or not yet visible: reads of the line wait (R177). -/
def engineHolds (s : State) (line : Nat) : Bool :=
  ownedLine s line s.fresh || engineWaits s line || (homeOf s line).writes.any LineWrite.engine

/-- The latest write in a line's order is marked as a copy engine's (R177). -/
def tagEngine (s : State) (line : Nat) : State :=
  let h := homeOf s line
  match h.writes.getLast? with
  | some w => putHome s line { h with writes := h.writes.dropLast ++ [{ w with engine := true }] }
  | none => s

/-- Poison of words that a write to a line covers whole ends (R325). -/
def unpoisonLine (ps : List Nat) (line : Nat) (bs : List (Nat × Byte)) : List Nat :=
  ps.filter fun w => !(w / 8 == line && (List.range 4).all fun j => bs.any fun b => b.1 == 4 * (w % 8) + j)

/-- Words of a line are poisoned where it is homed. -/
def poisonHome (s : State) (line : Nat) (ws : List Nat) : State :=
  modMm s fun m => { m with poison := m.poison ++ (ws.map (8 * line + ·)).filter fun w => !m.poison.contains w }

/-- The words of the LLC's copy of a line that hold an error which DRAM does not: a write makes the copy the only one (R325). -/
def copyPoison (m : MemSys) (line : Nat) : List Nat :=
  if line ∈ m.llcPoison then ((List.range 8).map (8 * line + ·)).filter fun w => !m.poison.contains w else []

/-- A write takes its place in a line's order: its completion time is the later of the previous write's and of the latest
lease granted; the write-back of a narrow line takes no lease into account (R168, R172). A line of an executable page stays as it is,
whoever writes (R69). -/
def orderQuiet (s : State) (line : Nat) (bs : List (Nat × Byte)) (who : Option GRef) (reach : Nat) (noLease : Bool) :
    State × Nat :=
  if execFrame s (32 * line) then (s, s.time)
  else
  let h := homeOf s line
  let d := max s.time (max h.last (if noLease then 0 else h.lease))
  let h' := { h with last := d, writes := h.writes ++ [{ bytes := bs, done := d, writer := who, reach := reach, node := none }] }
  let s1 := putHome (recallColumns s line bs) line h'
  (modMm s1 fun m => { m with poison := unpoisonLine (m.poison ++ copyPoison m line) line bs
                              llcPoison := m.llcPoison.filter (· ≠ line) }, d)

/-- A write takes its place in a line's order, and the monitors on the line are evaluated (R149, R168). -/
def orderWrite (s : State) (line : Nat) (bs : List (Nat × Byte)) (who : Option GRef) (reach : Nat) (noLease : Bool) :
    State × Nat :=
  let r := orderQuiet s line bs who reach noLease
  (wakeMonitors r.1 line r.2 fun q => lineLatest r.1 line q, r.2)

/-- The narrow holding of a line ends by write-back (R172). The home evaluated the monitors on the line as its data was stored
(R173), so none is woken now. -/
def recallNarrow (s : State) (line : Nat) : State × Nat :=
  match s.mm.narrow.find? fun n => n.line = line with
  | some n =>
    let s' := modMm s fun m => { m with narrow := m.narrow.filter fun n => n.line ≠ line }
    orderQuiet s' line n.bytes (some n.who) (if n.team.isSome then 1 else 2) true
  | none => (s, s.time)

/-- The lent units of a core go to a gang: narrow lines in them are written back, and clean copies are dropped (R121). -/
def drainLent (s : State) (core : Nat) (us : List Nat) : State :=
  let within := fun (c : Nat) (u : Option Nat) => c == core && u.elim false us.contains
  let s1 := (s.mm.narrow.filter fun n => within n.core n.unit).foldl (fun s n => (recallNarrow s n.line).1) s
  modMm s1 fun m =>
    { m with l1 := m.l1.filter fun c => !within c.core c.unit, cols := m.cols.filter fun c => !within c.core c.unit }

/-- The state with a stash mapping of a team changed. -/
def modStash (s : State) (t : TRef) (off : Nat) (f : Stash → Stash) : State :=
  modTeam s t fun tm => { tm with stash := tm.stash.map fun m => if m.off = off then f m else m }

/-- A bit of a set of stash lines. -/
def lineBit (i : Nat) : BitVec 128 := BitVec.ofNat 128 (2 ^ i)

/-- A dirty stash line is written back, in its line's order as any write is (R168); every read has obtained its bytes while it was dirty,
and goes on seeing them (R122, R181). The copy stays filled. -/
def cleanStash (s : State) (t : TRef) (m : Stash) (i : Nat) : State × Nat :=
  if m.dirty.getLsbD i then
    let data := offsets (stashLine s t m i)
    let s' := modStash s t m.off fun m => { m with dirty := m.dirty &&& ~~~lineBit i }
    orderWrite s' (m.addr / 32 + i) data (some (trefGroup t 0)) 3 false
  else (s, s.time)

/-- A write by another agent recalls the stash copy of a line, writing it back first where it is dirty (R122). -/
def recallStash (s : State) (line : Nat) : State :=
  match stashAt s line with
  | some (t, m, i) =>
    if m.filled.getLsbD i then
      let s' := (cleanStash s t m i).1
      modStash s' t m.off fun m => { m with filled := m.filled &&& ~~~lineBit i }
    else s
  | none => s

/-- Bytes of one line are placed at the home, after the line has been recalled from narrow and stash holders (R141). -/
def placeLine (s : State) (line : Nat) (bs : List (Nat × Byte)) (who : Option GRef) : State × Nat :=
  let s1 := recallStash (recallNarrow s line).1 line
  orderWrite s1 line bs who 0 false

/-- The bytes of a run at an address, by line. -/
def splitLines (pa : Nat) (bs : List Byte) : List (Nat × List (Nat × Byte)) :=
  let ps := (List.range bs.length).zip bs
  (List.range ((pa % 32 + bs.length + 31) / 32)).map fun k =>
    (pa / 32 + k, (ps.filter fun p => (pa + p.1) / 32 == pa / 32 + k).map fun p => ((pa + p.1) % 32, p.2))

/-- A run of bytes is placed at the homes of its lines; the completion time is the latest (R138). -/
def placeBytes (s : State) (pa : Nat) (bs : List Byte) (who : Option GRef) : State × Nat :=
  (splitLines pa bs).foldl (fun acc l =>
    let r := placeLine acc.1 l.1 l.2 who
    (r.1, max acc.2 r.2)) (s, s.time)

/-! ## Write-back and discard (R140, R151) -/

/-- The dirty data of a line, visible or not, reaches DRAM; copies stay, and until its writes are visible the LLC holds the line
without them (R151, R168). The completion time is that of the last write it carries. -/
def cleanLine (s : State) (line : Nat) : State × Nat :=
  let s0 := (recallNarrow s line).1
  let s1 := match stashAt s0 line with
    | some (t, m, i) => (cleanStash s0 t m i).1
    | none => s0
  let h := homeOf s1 line
  let data := lineLatest s1 line none
  let llc := if h.writes.isEmpty then h.llc else some (h.llc.getD (dramLine s1 line))
  if h.dirty || !h.writes.isEmpty then
    (dramWrite (putHome s1 line { h with llc := llc, dirty := false }) (32 * line) data, max s1.time h.last)
  else (s1, s1.time)

/-- Every cached copy of a line but those under lease is removed without write-back (R140, R151); where `keepStash`, a line
in a stash is left alone. -/
def discardLine (s : State) (line : Nat) (keepStash : Bool) : State :=
  if keepStash && (match stashAt s line with
      | some (_, m, i) => m.filled.getLsbD i
      | none => false) then s
  else
    let h := homeOf s line
    let s1 := modMm s fun m =>
      { m with
        narrow := m.narrow.filter fun n => n.line ≠ line
        cols := m.cols.filter fun c => c.sector ≠ line / 32
        homes := tabPut m.homes line { h with llc := none, dirty := false, writes := [] } }
    match stashAt s1 line with
    | some (t, m, i) =>
      modStash s1 t m.off fun m => { m with filled := m.filled &&& ~~~lineBit i, dirty := m.dirty &&& ~~~lineBit i }
    | none => s1

/-! ## Forced publish (R172) -/

/-- Narrow lines of `p` are written back, each at the later of its placement and the write before it; the time of the last. -/
def publishWhere (s : State) (p : Narrow → Bool) : State × Nat :=
  (s.mm.narrow.filter p).foldl (fun acc n =>
    let r := recallNarrow acc.1 n.line
    (r.1, max acc.2 r.2)) (s, s.time)

/-- The holder of a line lies outside a reader's team or gang (R144). -/
def outside (n : Narrow) (r : Option GRef) : Bool :=
  match r with
  | some g => g.gang != n.gang || (match n.team with
    | some t => t != g.team
    | none => false)
  | none => true

/-- The forced publish that an acquiring read of a line by a reader causes: every narrow line of an outside holder (R144). -/
def forcedPublish (s : State) (line : Nat) (r : Option GRef) : State × Nat :=
  match s.mm.narrow.find? fun n => n.line = line with
  | some n =>
    if outside n r then
      publishWhere s fun m => m.core == n.core && m.gang == n.gang && m.team == n.team
    else (s, s.time)
  | none => (s, s.time)

/-! ## Poison (R325) -/

/-- A word of a run of bytes holds an uncorrectable error in DRAM, or in the LLC's only copy of it. -/
def dramPoisoned (s : State) (pa n : Nat) : Bool := s.mm.poison.any fun w => decide (w * 4 < pa + n) && decide (pa < w * 4 + 4)

/-- A word of a run of bytes holds an uncorrectable error, at its home or in DRAM. -/
def poisoned (s : State) (pa n : Nat) : Bool :=
  dramPoisoned s pa n ||
  s.mm.llcPoison.any fun l => decide (l * 32 < pa + n) && decide (pa < l * 32 + 32)

/-- A reader's own data stands over a whole word: narrow, stash or provisional bytes, which no error below them reaches (R316,
R325). -/
def wordCovered (s : State) (r : Option GRef) (w : Nat) : Bool :=
  let bs := narrowBytes s (w / 8) ++ stashBytes s (w / 8) ++ provBytes s (w / 8) r
  (List.range 4).all fun j => bs.any fun b => b.1 == 4 * (w % 8) + j

/-- A word of a run of bytes, within a line, holds an error in the provisional line of a reader's own instance (R325). -/
def provPoisoned (s : State) (r : Option GRef) (pa n : Nat) : Bool :=
  (instOf s r).elim false fun i => s.mm.provisional.any fun p => p.node == i && p.line == pa / 32 &&
    p.poison.any fun w => decide (4 * w < pa % 32 + n) && decide (pa % 32 < 4 * w + 4)

/-- A reader would take an uncorrectable error from a run of bytes (R325). -/
def poisonedFor (s : State) (r : Option GRef) (pa n : Nat) : Bool :=
  provPoisoned s r pa n || poisoned s pa n && (List.range ((pa % 4 + n + 3) / 4)).any fun k =>
    poisoned s (4 * (pa / 4 + k)) 4 && !wordCovered s r (pa / 4 + k)

end Sys2Proof.Machine
end

