-- ==== Sys2Proof/Machine/Translate.lean ====
section
/-! DEFINITION. Page tables and translation (R113 to R117), the checks of an access against its leaf (R116, R118, R138), fetches (R69),
and scratchpad windows with their stash (R111, R122). -/
namespace Sys2Proof.Machine

/-! ## Leaves -/

/-- A leaf and the address it gives an access (R115): the physical address, the bytes of the page, the entry's own
address. -/
structure Leaf where
  pa : Nat
  size : Nat
  at_ : Nat
  mlock : Bool
  cont : Bool
  lease : Nat
  mtype : Nat
  kind : Nat
  x : Bool
  w : Bool
  deriving DecidableEq, Repr

/-- The bits of a virtual address that index a level, and the bytes a leaf of it maps (R113). -/
def levelIndex (lvl va : Nat) : Nat :=
  match lvl with
  | 0 => bitsOf va 56 48
  | 1 => bitsOf va 47 39
  | 2 => bitsOf va 38 30
  | 3 => bitsOf va 29 21
  | _ => bitsOf va 20 16
def levelSize (lvl : Nat) : Nat :=
  match lvl with
  | 2 => 2 ^ 30
  | 3 => 2 ^ 21
  | _ => 2 ^ 16

/-- The fields of a leaf entry at a level for a virtual address, or none where its bits or its level set PAGE (R113 to
R116). -/
def leafOf (lvl e pte va : Nat) : Option Leaf :=
  let size := levelSize lvl
  let frame := bitsOf e 56 16 * 2 ^ 16
  if lvl < 2 || bitsOf e 63 57 ≠ 0 || bitsOf e 15 13 ≠ 0 || bitsOf e 2 2 ≠ 0 || frame % size ≠ 0
      || bitsOf e 10 9 = 3 || bitsOf e 8 7 = 3 || (bitsOf e 8 7 = 1 && lvl ≠ 4) then none
  else some
    { pa := frame + va % size, size := size, at_ := pte, mlock := bitsOf e 12 12 == 1, cont := bitsOf e 11 11 == 1,
      lease := bitsOf e 10 9, mtype := bitsOf e 8 7, kind := bitsOf e 6 5, x := bitsOf e 4 4 == 1,
      w := bitsOf e 3 3 == 1 && bitsOf e 4 4 == 0 }

/-- The changes of table entries that an access of a context to an address need not have noticed, newest first: those since the
last invalidation that covers the address (R117, R312). -/
def openChanges (ctx va : Nat) : List TlbEvent → List (Nat × Nat)
  | [] => []
  | .ended c size base :: r => if c = ctx ∧ va / 2 ^ (16 + size) = base / 2 ^ size then [] else openChanges ctx va r
  | .changed a was :: r => (a, was) :: openChanges ctx va r

/-- The values that an entry has had and that agents may still use for an address of a context (R117, R312). -/
def oldEntries (ctx va pte : Nat) (evs : List TlbEvent) : List Nat :=
  ((openChanges ctx va evs).filter fun e => e.1 == pte).map Prod.snd

/-- The value of a table entry before the latest of a list of changes, newest first: as the table stands where none is of it. -/
def entryBefore (s : State) (pte : Nat) (evs : List (Nat × Nat)) : Nat :=
  match (evs.filter fun e => e.1 == pte).getLast? with
  | some e => e.2
  | none => homeNat s pte 8

/-- The changes that an access has not noticed: it uses the whole translation as it stood before them, old or new; which, is free
(R117; DESIGN CHOICE, log 6). -/
def unnoticed (s : State) (ctx va : Nat) : List (Nat × Nat) :=
  match openChanges ctx va s.mm.tlb with
  | [] => []
  | e :: es => (e :: es).take (Config.freePick s.time va (es.length + 1) % (es.length + 2))

/-- The walk from a table at a level over the tables as they stood before some changes (R113, R114, R117): `fuel` levels remain.
A table is read as DRAM at whatever physical address NEXT gives; the manual does not say what the walk's own read does in a reserved
range, in the register window or in another package (DESIGN CHOICE, log 62). -/
def walk (s : State) (va : Nat) (evs : List (Nat × Nat)) : Nat → Nat → Nat → Option Leaf
  | 0, _, _ => none
  | fuel + 1, lvl, table =>
    let pte := table + 8 * levelIndex lvl va
    let e := entryBefore s pte evs
    if e % 2 = 0 then none
    else if bitsOf e 1 1 = 1 then leafOf lvl e pte va
    else if lvl = 4 || bitsOf e 63 57 ≠ 0 || bitsOf e 7 2 ≠ 0 || (lvl < 3 && bitsOf e 11 8 ≠ 0) then none
    else walk s va evs fuel (lvl + 1) (bitsOf e 56 8 * 2 ^ 8)

/-- A frame of a dropped stack is a hole to a context, but where the stack was unreadable and the context mapped it then
(R332). -/
def isHole (s : State) (ctx pa : Nat) : Bool :=
  !isRemote s pa && inDram (localOf pa) && s.mm.dropped.getLsbD (stackAt (localOf pa)) &&
    !((tabGet s.mm.unreadable (stackAt (localOf pa))).elim false fun cs => decide (ctx ∈ cs))

/-- A word of a run of bytes holds an uncorrectable error, or lies on a stack that was dropped unreadable (R325, R332). -/
def errorAt (s : State) (pa n : Nat) : Bool :=
  poisoned s pa n ||
    (!isRemote s pa && inDram (localOf pa) && s.mm.dropped.getLsbD (stackAt (localOf pa)) &&
      (tabGet s.mm.unreadable (stackAt (localOf pa))).isSome)

/-- A reader would take an uncorrectable error from a run of bytes, or they lie on a stack that was dropped unreadable (R316, R325,
R332). -/
def errorFor (s : State) (r : Option GRef) (pa n : Nat) : Bool :=
  poisonedFor s r pa n ||
    (!isRemote s pa && inDram (localOf pa) && s.mm.dropped.getLsbD (stackAt (localOf pa)) &&
      (tabGet s.mm.unreadable (stackAt (localOf pa))).isSome)

/-- The page type matches its target, and the target exists (R110, R116, R332). -/
def leafFits (s : State) (ctx : Nat) (l : Leaf) : Bool :=
  let loc := localOf l.pa
  if l.mtype = 2 then inWindow loc else inDram loc && !isHole s ctx l.pa

/-- The leaf of a virtual address in a context as its entry has it; none sets PAGE (R109, R116). -/
def leafAsWritten (s : State) (ctx va : Nat) : Option Leaf :=
  if 2 ^ 57 ≤ va then none
  else match tabGet s.mm.contexts ctx with
    | none => none
    | some c => match walk s va (unnoticed s ctx va) 5 0 (ownPhys s c.root) with
      | some l => if leafFits s ctx l then some l else none
      | none => none

/-- The leaf that an access goes by: a frame that a completed map records is writable by none (R69). -/
def translate (s : State) (ctx va : Nat) : Option Leaf := (leafAsWritten s ctx va).map fun l => { l with w := l.w && !execFrame s l.pa }

/-- The entries of a run of `n` words that may be valid: those of which some byte is listed in memory, or held above it. Every other
entry reads as an unlisted byte does, and is not valid. -/
def listedEntries (s : State) (lo n : Nat) : List Nat :=
  let held := s.mm.homes.map Prod.fst ++ s.mm.narrow.map Narrow.line ++
    (allStash s).flatMap fun (p : TRef × Stash) => (List.range 128).map (p.2.addr / 32 + ·)
  let bytes := s.mm.mem.map Prod.fst ++ held.flatMap fun l => (List.range 4).map fun k => 32 * l + 8 * k
  ((bytes.filter fun a => decide (lo ≤ a) && decide (a < lo + 8 * n)).map fun a => (a - lo) / 8).eraseDups

/-- Every leaf below a table at a level (R113), each with the physical address of its page: `listed` gives the entries that may be
valid, and `read` the values of an entry, by the first virtual address it maps and its own address. -/
def leavesBelow (listed : Nat → Nat → List Nat) (read : Nat → Nat → List Nat) : Nat → Nat → Nat → Nat → List Leaf
  | 0, _, _, _ => []
  | fuel + 1, lvl, va, table =>
    (listed table (if lvl = 4 then 32 else 512)).flatMap fun i =>
      let at_ := va + i * 2 ^ (if lvl = 4 then 16 else 48 - 9 * lvl)
      (read at_ (table + 8 * i)).flatMap fun e =>
        if e % 2 = 0 then []
        else if bitsOf e 1 1 = 1 then (leafOf lvl e (table + 8 * i) 0).toList
        else if lvl = 4 || bitsOf e 63 57 ≠ 0 || bitsOf e 7 2 ≠ 0 || (lvl < 3 && bitsOf e 11 8 ≠ 0) then []
        else leavesBelow listed read fuel (lvl + 1) at_ (bitsOf e 56 8 * 2 ^ 8)

/-- The same, with the entries whose changes an agent need not have noticed (R117). -/
def possibleEntries (s : State) (lo n : Nat) : List Nat :=
  (listedEntries s lo n ++ s.mm.tlb.filterMap fun e => match e with
    | .changed a _ => if lo ≤ a ∧ a < lo + 8 * n then some ((a - lo) / 8) else none
    | .ended .. => none).eraseDups

/-- Every leaf of a context, as an access uses it. -/
def contextLeaves (s : State) (ctx : Nat) : List Leaf :=
  (tabGet s.mm.contexts ctx).elim [] fun c =>
    leavesBelow (possibleEntries s) (fun va pte => [entryBefore s pte (unnoticed s ctx va)]) 5 0 0 (ownPhys s c.root)

/-- Every leaf of a context, with those of before that an agent may still use (R117). -/
def allLeaves (s : State) (ctx : Nat) : List Leaf :=
  (tabGet s.mm.contexts ctx).elim [] fun c =>
    leavesBelow (possibleEntries s) (fun va pte => homeNat s pte 8 :: oldEntries ctx va pte s.mm.tlb) 5 0 0 (ownPhys s c.root)

/-- A physical address lies on a page that some context maps SWEPT: its drover orders every access
to it (R107, R118). -/
def sweptAt (s : State) (pa : Nat) : Bool :=
  s.mm.contexts.any fun c => (contextLeaves s c.1).any fun l => l.mtype == 1 && decide (l.pa ≤ pa) && decide (pa < l.pa + l.size)

/-! ## Changes of the tables (R117, R312) -/

/-- The values that an entry has had since the changes that some agent may not have noticed: a walk may still use them (R117). -/
def pastEntries (s : State) (pte : Nat) : List Nat :=
  s.mm.tlb.filterMap fun e => match e with
    | .changed a was => if a = pte then some was else none
    | .ended .. => none

/-- A word lies in a table that a walk from a table at a level reaches, by its entries as they stand or as they stood before a change
(R117). -/
def tableHas (s : State) (pte : Nat) : Nat → Nat → Nat → Bool
  | 0, _, _ => false
  | fuel + 1, lvl, table =>
    (decide (table ≤ pte) && decide (pte < table + 8 * (if lvl = 4 then 32 else 512))) ||
      (lvl != 4 && (possibleEntries s table 512).any fun i =>
        (homeNat s (table + 8 * i) 8 :: pastEntries s (table + 8 * i)).any fun e =>
          e % 2 == 1 && bitsOf e 1 1 == 0 && tableHas s pte fuel (lvl + 1) (bitsOf e 56 8 * 2 ^ 8))

/-- A word is an entry of a context's page tables. -/
def isEntry (s : State) (pte : Nat) : Bool := s.mm.contexts.any fun c => tableHas s pte 5 0 (ownPhys s c.2.root)

/-- The valid entries that a run of bytes written at a physical address changes. -/
def changedEntries (s : State) (pa : Nat) (bs : List Byte) : List TlbEvent :=
  (List.range ((pa % 8 + bs.length + 7) / 8)).filterMap fun k =>
    let w := pa / 8 * 8 + 8 * k
    let old := sliceLine (lineLatest s (w / 32) none) w 8
    let new := (List.range 8).map fun j => if pa ≤ w + j then (bs[w + j - pa]?).getD ((old[j]?).getD 0) else (old[j]?).getD 0
    if leNat old % 2 = 1 && leNat new != leNat old && isEntry s w then some (.changed w (leNat old)) else none

/-- System software writes bytes: agents may go on using the valid entries that it changes (R117). -/
def noteChanges (s : State) (pa : Nat) (bs : List Byte) : State :=
  modMm s fun m => { m with tlb := changedEntries s pa bs ++ m.tlb }

/-- An invalidation ends: no agent holds an entry of the context for the range, but one whose change is still on its way to its home
(R312). -/
def endInvalidation (s : State) (ctx size base : Nat) : State :=
  let late := s.mm.tlb.filter fun e => match e with
    | .changed a _ => !(homeOf s (a / 32)).writes.isEmpty || s.mm.held.any fun h => h.pa / 32 == a / 32
    | .ended .. => false
  modMm s fun m => { m with tlb := late ++ .ended ctx size base :: m.tlb }

/-- Bytes of NORMAL memory at a run of virtual addresses, page by page; none where a page cannot be read. -/
def virtPages (s : State) (ctx va n : Nat) : Nat → Option (List Byte)
  | 0 => some []
  | k + 1 => (virtPages s ctx va n k).bind fun bs =>
    let a := max va ((va / 65536 + k) * 65536)
    let e := min (va + n) ((va / 65536 + k + 1) * 65536)
    match translate s ctx a with
    | some l => if l.mtype = 0 then some (bs ++ homeBytes s none l.pa (e - a)) else none
    | none => none
def virtRead (s : State) (ctx va n : Nat) : Option (List Byte) :=
  if n = 0 then some [] else virtPages s ctx va n ((va % 65536 + n + 65535) / 65536)

/-! ## The checks of an access -/

/-- What an access does. -/
inductive Access where
  | load | store | atomic | column | mwait | clean | invalidate
  deriving DecidableEq, Repr

/-- Registers of the dispatch block are 64 bits wide, those of CLUSTER_MAP 32 (R291); elsewhere in the window widths of 32
and 64 bits are allowed (R118). -/
def deviceWidthOk (loc w : Nat) : Bool :=
  let off := loc - Config.windowBase
  if 0x100000 ≤ off && off < 0x200000 then
    if 0x100100 ≤ off && off < 0x100220 then w == 4 else if off < 0x100060 then w == 8 else w == 4 || w == 8
  else w == 4 || w == 8

/-- The cause that an access of a width sets by the leaf's type and rights (R69, R116, R118). -/
def leafCause (l : Leaf) (a : Access) (w : Nat) : BitVec 32 :=
  let isDev := l.mtype == 2
  match a with
  | .load => if isDev && !deviceWidthOk (localOf l.pa) w then cPerm else 0
  | .store => if !l.w || (isDev && !deviceWidthOk (localOf l.pa) w) then cPerm else 0
  | .atomic => if !l.w || isDev then cPerm else 0
  | .column => if l.mtype ≠ 0 then cPerm else 0
  | .mwait => if isDev then cPerm else 0
  | .clean => 0
  | .invalidate => if l.mtype = 0 && !l.w then cPerm else 0

/-- The causes of one lane's access, or the leaf it goes through (R138): alignment, translation, rights, and the package it
names (R355, R356). -/
def checkAccess (s : State) (ctx va w : Nat) (a : Access) : Except (BitVec 32) Leaf :=
  let mis : BitVec 32 := if va % w = 0 then 0 else cAlign
  match translate s ctx va with
  | none => .error (mis ||| cPage)
  | some l =>
    let bits := mis ||| leafCause l a w ||| (if !present s (pkgOf l.pa) || unreachable s (pkgOf l.pa) then cRemote else 0)
    if bits = 0 then .ok l else .error bits

/-- The causes of every lane's access together, or the leaves in order. -/
def checkAll (s : State) (ctx : Nat) (vas : List Nat) (w : Nat) (a : Access) : Except (BitVec 32) (List Leaf) :=
  vas.foldr (fun va acc => match checkAccess s ctx va w a, acc with
    | .ok l, .ok ls => .ok (l :: ls)
    | .ok _, .error b => .error b
    | .error b, .ok _ => .error b
    | .error b, .error b' => .error (b ||| b')) (.ok [])

/-- A sum of an address and a signed offset, in 64 bits (R138). -/
def addrPlus (base : Word64) (off : Int) : Nat := ((base.toNat + off) % (2 ^ 64 : Nat)).toNat

/-! ## Fetch (R24, R68, R69, R116) -/

/-- The part's record holds the frame of an executable address (R68). -/
def mapHolds (s : State) (ctx va pa : Nat) : Bool :=
  s.mm.execMaps.any fun m => m.ctx == ctx && decide (m.vbase ≤ va) && decide (va < m.vbase + m.units * 65536) &&
    m.frames.any fun f => f.1 == va / 65536 && f.2 == pa / 65536

/-- The word an agent fetches, or none where the fetch sets FETCH. The manual does not say what a fetch at an address that is not a
multiple of 4 does, which BX, RET and TRET can reach (R47), and it says of the sequencer alone (R219) that a page of another stream
kind sets FETCH: the model sets FETCH in each of these cases, for a group too (DESIGN CHOICE, log 62). -/
def fetchWord (s : State) (ctx va : Nat) (kind : Nat) : Option Word :=
  if va % 4 ≠ 0 then none
  else match translate s ctx va with
    | some l =>
      if l.x && l.mtype = 0 && l.kind = kind && mapHolds s ctx va l.pa then some (BitVec.ofNat 32 (homeNat s l.pa 4)) else none
    | none => none

/-- A fetch waits: the word's stack is at its 105 °C point, and every access to it but the sweep's is held (R349). -/
def fetchHeld (s : State) (ctx va : Nat) : Bool := (translate s ctx va).elim false fun l => hotAt s l.pa

/-! ## What holds write-backs (R182, R349) -/

/-- A virtual address of a context lies on a page under MLOCK. -/
def lockedPage (s : State) (ctx va : Nat) : Bool := (translate s ctx va).elim false Leaf.mlock

/-- A physical address lies on a page that some context has locked (R182). -/
def frameLocked (s : State) (pa : Nat) : Bool :=
  s.mm.contexts.any fun c => (contextLeaves s c.1).any fun l => l.mlock && decide (l.pa ≤ pa) && decide (pa < l.pa + l.size)

/-- A narrow line lies on a locked page. -/
def narrowLocked (s : State) (n : Narrow) : Bool := (findGang s n.gang).elim false fun gg => lockedPage s gg.ctx n.va

/-- The write-back of a narrow line is held: it lies on a locked page, or on a stack at its 105 °C point (R182, R349). -/
def narrowHeld (s : State) (n : Narrow) : Bool := narrowLocked s n || hotAt s (32 * n.line)

/-- The forced publish that an acquiring read of a line would cause waits (R144, R182, R349). -/
def publishHeld (s : State) (line : Nat) (r : Option GRef) : Bool :=
  match s.mm.narrow.find? fun n => n.line = line with
  | some n =>
    outside n r && s.mm.narrow.any fun m => m.core == n.core && m.gang == n.gang && m.team == n.team && narrowHeld s m
  | none => false

/-- A stash mapping of a team lies on a locked page. -/
def stashLocked (s : State) (u : TRef) (m : Stash) : Bool := (findGang s u.gang).elim false fun gg => lockedPage s gg.ctx m.va

/-- A dirty line of a stash mapping has its write-back held: its page is locked, its stack is at its 105 °C point, or a copy engine owns
the line (R177, R182, R349). -/
def stashHeld (s : State) (u : TRef) (m : Stash) : Bool :=
  m.dirty != 0 && (stashLocked s u m || hotAt s m.addr ||
    (List.range 128).any fun i => m.dirty.getLsbD i && (ownedLine s (m.addr / 32 + i) s.fresh || engineWaits s (m.addr / 32 + i)))

/-! ## Scratchpad (R111) -/

/-- Bytes of a team's allocation that offsets may name: the declared bytes rounded up to 4 KiB (R308). -/
def scratchLimit (t : Team) : Nat := (t.scratchBytes + 4095) / 4096 * 4096

/-- The team and byte that a scratchpad offset names, as seen from a team, or the cause it sets (R111). -/
def scratchAt (s : State) (t : TRef) (off w : Nat) : Except (BitVec 32) (TRef × Nat) :=
  let mis : BitVec 32 := if off % w = 0 then 0 else cAlign
  let win := off / 2 ^ 20 % 8
  let b := off % 2 ^ 20
  let tgt : Option TRef := if win = 0 then some t else if 4 ≤ win then some { t with team := win - 4 } else none
  match tgt with
  | none => .error (mis ||| cPerm)
  | some u => match findTeam s u with
    | none => .error (mis ||| cPerm)
    | some tm =>
      if off / 2 ^ 23 ≠ 0 || scratchLimit tm ≤ b then .error (mis ||| cPerm)
      else if mis = 0 then .ok (u, b) else .error mis

/-- The stash mapping of a team that holds an offset, and the line in it (R122). -/
def stashOf (t : Team) (off : Nat) : Option (Stash × Nat) :=
  (t.stash.find? fun m => m.off ≤ off && off < m.off + 4096).map fun m => (m, (off - m.off) / 32)

/-- The line of the package's memory that an offset of a team's scratchpad reaches through a stash mapping. -/
def stashedLine (s : State) (u : TRef) (off : Nat) : Option Nat :=
  ((findTeam s u).bind fun t => stashOf t off).map fun q => q.1.addr / 32 + q.2

/-- A stash line is filled. -/
def stashFilled (s : State) (u : TRef) (off : Nat) : Bool :=
  ((findTeam s u).bind fun t => stashOf t off).elim false fun q => q.1.filled.getLsbD q.2

/-- An access to a stash line waits while a copy engine owns the line or has a write of it held (R177); its first touch waits also while
a write of the line is on its way, while a narrow holder's data for it is held, or while the line's memory stack is (R122, R168, R172,
R182, R349). -/
def stashWaits (s : State) (u : TRef) (off : Nat) : Bool :=
  (stashedLine s u off).elim false fun line =>
    ownedLine s line s.fresh || engineWaits s line ||
    (!stashFilled s u off && (!(homeOf s line).writes.isEmpty || hotAt s (32 * line) || s.mm.narrow.any fun n => n.line == line && narrowHeld s n))

/-- First touch of a stash line fills it from the home, and the LLC with it, once a narrow holder's data for the line has been recalled
(R122, R166, R172). The reader's core drops its own copy of the line, so that no later load of the reader goes back behind what it has
seen here (R181). -/
def touchStash (s : State) (u : TRef) (off : Nat) (r : Option GRef) : State :=
  match (findTeam s u).bind fun t => stashOf t off with
  | some (m, i) =>
    let line := m.addr / 32 + i
    let s0 := r.elim s fun g => dropL1 s (coreIdOf s g) line
    if m.filled.getLsbD i then s0
    else
      let s1 := fillLlc (recallNarrow s0 line).1 line
      let s2 := modTeam s1 u fun t => { t with scratch := smWrite t.scratch (m.off + 32 * i) (lineView s1 line r) }
      modStash s2 u m.off fun m => { m with filled := m.filled ||| lineBit i }
  | none => s

/-- Bytes of a team's scratchpad. -/
def scratchRead (s : State) (u : TRef) (off n : Nat) : List Byte := (findTeam s u).elim [] fun t => smRange t.scratch off n

/-- Bytes written to a team's scratchpad; a stash line becomes dirty, the column copies that hold a changed byte are recalled, and
monitors on the line are evaluated (R122, R126, R149). -/
def scratchWrite (s : State) (u : TRef) (off : Nat) (bs : List Byte) : State :=
  let s1 := modTeam s u fun t => { t with scratch := smWrite t.scratch off bs }
  match (findTeam s u).bind fun t => stashOf t off with
  | some (m, i) =>
    let s2 := modStash s1 u m.off fun m => { m with filled := m.filled ||| lineBit i, dirty := m.dirty ||| lineBit i }
    let s3 := recallColumns s2 (m.addr / 32 + i) ((List.range bs.length).zip bs |>.map fun p => ((off + p.1) % 32, p.2))
    wakeMonitors s3 (m.addr / 32 + i) s3.time fun r => lineLatest s3 (m.addr / 32 + i) r
  | none => s1

end Sys2Proof.Machine
end

