-- ==== Sys2Proof/Machine/Stores.lean ====
section
/-! DEFINITION. Writes to memory by any agent: staging by contained node instances (R315 to R320), writes that a home or a
drover holds (R182, R317, R349, R356), SWEPT rows (R180), the order of a line (R168), and atomics (R146 to R148, R175). -/
namespace Sys2Proof.Machine

/-! ## Node instances -/

/-- A node of a replay. -/
def findNode (s : State) (n : NRef) : Option NodeInst := (tabGet s.wk.replays n.replay).bind fun r => r.nodes[n.node]?

/-- The state with a node of a replay changed. -/
def modNode (s : State) (n : NRef) (f : NodeInst → NodeInst) : State :=
  { s with wk := { s.wk with replays := tabMod s.wk.replays n.replay fun r => { r with nodes := listMod r.nodes n.node f } } }

/-- The contained instance, not escaped, that a writer belongs to (R315). -/
def containedOf (s : State) (who : Option GRef) : Option NRef :=
  match who.bind fun g => findGang s g.gang with
  | some gg =>
    if gg.launch.contain then
      match gg.node with
      | some n => if (findNode s n).elim true NodeInst.escaped then none else some n
      | none => none
    else none
  | none => none

/-- The provisional lines of an instance. -/
def provOf (s : State) (n : NRef) : List Provisional := s.mm.provisional.filter fun p => p.node == n

/-- A line is staged by an instance other than `n` (R317). -/
def stagedByOther (s : State) (n : Option NRef) (line : Nat) : Bool :=
  s.mm.provisional.any fun p => p.line == line && some p.node != n

/-! ## Holding -/

/-- A home or drover holds a write of a number to a physical address: its page is locked (R182), a copy engine owns its line (R177), its
stack stands at its 105 °C point (R349), or its package is in recovery (R356). -/
def homeBusy (s : State) (mlock : Bool) (pa id : Nat) : Bool :=
  mlock || ownedLine s (pa / 32) id || (if isRemote s pa then recovering s (pkgOf pa) else memStackState s (stackAt (localOf pa)) == 4)

/-- A write from outside every instance to a physical address is held: so it is at its home, or its line is staged by an instance
(R317). -/
def mustHold (s : State) (mlock : Bool) (pa id : Nat) : Bool := homeBusy s mlock pa id || stagedByOther s none (pa / 32)

/-- A group has a write of a line that is still held, issued before an access of a number (R181). -/
def heldFor (s : State) (who : Option GRef) (line before : Nat) : Bool :=
  who.isSome && s.mm.held.any fun h => h.who == who && h.pa / 32 == line && decide (h.id < before)

/-- A group has a load of a line that has not been served, issued before an access of a number (R181). -/
def unservedFor (s : State) (who : Option GRef) (line before : Nat) : Bool :=
  who.elim false fun g => (findGroup s g).elim false fun x =>
    x.loads.any fun p => decide (p.id < before) && p.todo.any fun r => r.pa / 32 == line

/-- An access of a group to a line, by its number, must follow an earlier one that waits (R181). -/
def follows (s : State) (who : Option GRef) (line id : Nat) : Bool := heldFor s who line id || unservedFor s who line id

/-- A write of a number waits: its home holds it, or it follows an earlier access of its group to the line that waits. A contained
instance's own staged lines hold none of its writes (R316). -/
def waitsToWrite (s : State) (mlock : Bool) (pa : Nat) (who : Option GRef) (id : Nat) : Bool :=
  (if (containedOf s who).isSome then homeBusy s mlock pa id else mustHold s mlock pa id) || follows s who (pa / 32) id

/-- The skew that a commit waits for, a release at dev scope: dom scope where lines of other packages have been written (R295, R296). -/
def commitSkew (s : State) : Nat := Config.skewUnits (if s.mm.homes.any fun p => isRemote s (32 * p.1) then 4 else 3)

/-- An engine's entries with a number are told of a write placed for them. -/
def settleEngine (id done : Nat) (e : Engine) : Engine :=
  { e with flight := e.flight.map fun f => if f.id = id then { f with visAt := max f.visAt done } else f }

/-- A node is told of a write placed for it: its engine's entries, a SIGNAL node's store, and a stamp that a home held; with the last
stamp visible its commit follows (R295, R296). -/
def settleNode (id done skew : Nat) (n : NodeInst) : NodeInst :=
  let held := n.stampsHeld.filter (· ≠ id)
  let at_ := if n.stampsHeld.contains id then max n.stampAt done else n.stampAt
  let stamped := n.stampsHeld.contains id && held.isEmpty && n.doneAt.isNone && n.engine.completed == n.engine.published
  { n with
    engine := settleEngine id done n.engine
    stampAt := at_
    stampsHeld := held
    doneAt := if (n.kind = 8 && n.state == .started && n.doneAt.isNone && n.status = id) then some (done + skew)
              else if stamped then some (at_ + skew) else n.doneAt }

/-- A ladder is told of a write placed for it: of a result or a done-list entry that a home held, or of a progress word (R252, R257). -/
def settleLadder (id done : Nat) (l : Ladder) : Ladder :=
  { l with
    retired := l.retired.map fun b => if b.id = id then { b with holds := b.holds - 1, vis := max b.vis done } else b
    passes := l.passes.map fun p => if p.id = id then { p with at_ := some done } else p }

/-- Every ladder is told of a write placed. -/
def settleLadders (s : State) (id done : Nat) : State :=
  let settle := settleLadder id done
  { s with wk := { s.wk with ladders := s.wk.ladders.map fun p => (p.1, settle p.2) } }

/-- The stamp of a bank command: its sequence number, and status OK or FAULT (R160, R236). -/
def bankStamp (c : BankCmd) : Nat := c.desc.seqno % 2 ^ 48 + (if c.fault then 2 ^ 48 else 0)

/-- A bank command ends with its stamp written, from the time at which that is visible: its group's count falls, or its node's commit
follows (R160, R296). -/
def endCmd (s : State) (id : Nat) (c : BankCmd) (done : Nat) : State :=
  let s1 := { s with sw := { s.sw with cmds := tabDel s.sw.cmds id } }
  let s2 := c.who.elim s1 fun g => modGroup s1 g fun x => { x with bankCmds := x.bankCmds - 1 }
  c.node.elim s2 fun n => modNode s2 n fun x =>
    { x with doneAt := some (done + commitSkew s2), reason := if c.fault then some 0 else none, status := bankStamp c }

/-- The bank command whose stamp a home held, by its number, ends. -/
def settleCmd (s : State) (id done : Nat) : State :=
  match tabGet s.sw.cmds id with
  | some c => if c.stamping then endCmd s id c done else s
  | none => s

/-- A load is told of an atomic placed for it, by its number. -/
def settleLoad (time id : Nat) (v : Option (Nat × Word)) (p : PendLoad) : PendLoad :=
  if p.id = id then { p with holds := p.holds - 1, writes := p.writes ++ v.toList, servedAt := max p.servedAt time } else p

/-- The pending store, tile transfer or load with a number is told of a write placed for it: its completion time and, for an atomic, the
old word and its register. Group number 255 stands for its team's copy engine; an engine of a graph, a SIGNAL node, and the stamp of a
bank command have no group. -/
def settlePend (s0 : State) (who : Option GRef) (id done : Nat) (v : Option (Nat × Word)) : State :=
  let s := settleLadders s0 id done
  match who with
  | none =>
    let settle := settleNode id done (commitSkew s)
    settleCmd { s with wk := { s.wk with replays := s.wk.replays.map fun p => (p.1, { p.2 with nodes := p.2.nodes.map settle }) } } id done
  | some g =>
    if g.grp = 255 then modTeam s (grefTeam g) fun t => { t with engine := settleEngine id done t.engine }
    else modGroup s g fun x =>
      { x with
        stores := x.stores.map fun p => if p.id = id then { p with done := max p.done done, holds := p.holds - 1 } else p
        tiles := x.tiles.map fun p => if p.id = id then { p with holds := p.holds - 1 } else p
        loads := x.loads.map (settleLoad s.time id v), cancelled := x.cancelled.map (settleLoad s.time id v) }

/-- A line's next write completes no earlier than a time: that of the writes before it in an order that R171 and R179 fix. -/
def notBefore (s : State) (pa t : Nat) : State :=
  let h := homeOf s (pa / 32)
  putHome s (pa / 32) { h with last := max h.last t }

/-! ## Placing -/

/-- An ordinary write reaches its home or drover now: the core's own L1 copy is dropped (R141), a SWEPT row is written at
once (R180), a NORMAL line takes the write into its order (R168). -/
def placeNow (s : State) (mtype pa : Nat) (bs : List Byte) (who : Option GRef) (core : Nat) : State × Nat :=
  if mtype = 1 then
    let s1 := dramWrite s pa bs
    (wakeMonitors s1 (pa / 32) s1.time fun _ => dramLine s1 (pa / 32), s1.time)
  else placeBytes (dropL1 s core (pa / 32)) pa bs who

/-- The operations of ATOM and RED, and of ATOMX (R147): the new word from the old, the operand and CAS's second word. -/
def atomNew (x : Bool) (op : Nat) (m y z : Word) : Word :=
  if x then
    match op with
    | 0 => y
    | 1 => if m = y then z else m
    | 2 => BitVec.ofNat 32 (f32.add m.toNat y.toNat).1
    | _ =>
      let lo := (b16.add (m.toNat % 2 ^ 16) (y.toNat % 2 ^ 16)).1
      let hi := (b16.add (m.toNat / 2 ^ 16) (y.toNat / 2 ^ 16)).1
      BitVec.ofNat 32 (lo + 2 ^ 16 * hi)
  else
    match op with
    | 0 => m + y
    | 1 => if m.slt y then m else y
    | 2 => if m.slt y then y else m
    | 3 => if m.ult y then m else y
    | 4 => if m.ult y then y else m
    | 5 => m &&& y
    | 6 => m ||| y
    | _ => m ^^^ y

/-- The word an atomic reads: the latest write in the line's order, visible or not; at a drover the row as it stands (R175). -/
def atomOld (s : State) (mtype pa : Nat) (who : Option GRef) : Word :=
  BitVec.ofNat 32 (leNat (if mtype = 1 then dramRead s pa 4 else sliceLine (lineLatest s (pa / 32) who) pa 4))

/-! ## Publishing (R318, R320) -/

/-- The latest write in a line's order is marked as one of an instance. -/
def tagWrite (s : State) (line : Nat) (n : NRef) : State :=
  let h := homeOf s line
  match h.writes.getLast? with
  | some w => putHome s line { h with writes := h.writes.dropLast ++ [{ w with node := some n }] }
  | none => s

/-- A completion time of an instance is one of each of its groups, so that a release of theirs waits for it (R171, R320; DEDUCED,
log 66); `f` says what else each group learns. -/
def noteInstance (s : State) (n : NRef) (t : Nat) (f : Group → Group) : State :=
  let group := fun (x : Group) => f { x with lct := max x.lct t }
  let gang := fun (gg : Gang) =>
    if gg.node = some n then { gg with teams := gg.teams.map fun u => { u with groups := u.groups.map group } } else gg
  { s with wk := { s.wk with gangs := s.wk.gangs.map fun p => (p.1, gang p.2) } }

/-- The publication of a line that a locked page held has been placed: the groups of its instance learn its completion time. -/
def settleInstance (s : State) (n : NRef) (id done : Nat) : State :=
  noteInstance s n done fun x => { x with stores := x.stores.filter fun p => p.id != id }

/-- One provisional line is published: each byte takes its place in its line's order as a write of the instance, with the poison of its
word (R318, R320, R325). A line of an executable page stays as it is (R69). -/
def publishLine (s : State) (p : Provisional) : State :=
  if execFrame s (32 * p.line) then s
  else
    let r := placeLine s p.line p.bytes none
    let s1 := poisonHome (tagWrite r.1 p.line p.node) p.line p.poison
    if p.id = 0 then s1 else settleInstance s1 p.node p.id r.2

/-- A provisional line can be published now: it still holds bytes, and its page is not locked (R182). -/
def publishable (s : State) (p : Provisional) : Bool := !p.bytes.isEmpty && !frameLocked s (32 * p.line)

/-- The provisional lines of an instance are published, but those that locked pages hold; each leaves its mark, which holds the writes
of others until the instance has ended (R317, R318). -/
def publishProv (s : State) (n : NRef) : State :=
  let go := (provOf s n).filter (publishable s)
  go.foldl publishLine (modMm s fun m => { m with provisional := m.provisional.map fun p =>
    if p ∈ go then { p with bytes := [], poison := [] } else p })

/-- The tags of an instance's published lines go; the writes held for them follow (R317). -/
def dropMarks (s : State) (n : NRef) : State :=
  modMm s fun m => { m with provisional := m.provisional.filter fun p => p.node != n || !p.bytes.isEmpty }

/-- The latest completion time of an instance's published bytes that are not yet visible. -/
def publishedAt (s : State) (n : NRef) : Nat :=
  (s.mm.homes.flatMap fun p => (homeOf s p.1).writes.filterMap fun w => if w.node = some n then some w.done else none).foldl max 0

/-- A completion time of an instance is one of each of its groups. -/
def noteCompletion (s : State) (n : NRef) (t : Nat) : State := noteInstance s n t id

/-- The publication of a line is held by a locked page: it keeps a store counter of each group of the instance raised (R182). -/
def holdLine (n : NRef) (s : State) (p : Provisional) : State :=
  let f := takeFresh s
  let s1 := modMm f.2 fun m => { m with provisional := m.provisional.map fun q => if q = p then { q with id := f.1 } else q }
  noteInstance s1 n 0 fun x =>
    if x.retired then x else { x with stores := x.stores ++ [{ id := f.1, done := s.time, holds := 1, remote := [] }] }

/-- An instance becomes escaped: its provisional lines are published at once (R319, R320). -/
def escapeNode (s : State) (n : NRef) : State :=
  if (findNode s n).elim true NodeInst.escaped then s
  else
    let s1 := dropMarks (publishProv (modNode s n fun x => { x with escaped := true }) n) n
    (provOf s1 n).foldl (holdLine n) (noteCompletion s1 n (publishedAt s1 n))

/-- The instance of a writer becomes escaped. -/
def escapeOf (s : State) (who : Option GRef) : State :=
  match instOf s who with
  | some n => escapeNode s n
  | none => s

/-- Provisional lines of instances that are no longer contained are published as soon as no locked page holds them (R182, R320). -/
def publishDue (s : State) : State :=
  if s.mm.provisional.isEmpty then s
  else (s.mm.provisional.map Provisional.node).eraseDups.foldl (fun s n =>
    if (findNode s n).elim true fun x => x.escaped || x.state == .failed then dropMarks (publishProv s n) n else s) s

/-! ## Staging (R316) -/

/-- A staged write would raise the instance's staged bytes above its quota, counted in whole lines (R319, R320). -/
def overQuota (s : State) (n : NRef) (line : Nat) : Bool :=
  let ls := (provOf s n).map Provisional.line
  decide ((findNode s n).elim 0 NodeInst.quota < 32 * (ls.length + (if line ∈ ls then 0 else 1)))

/-- The LLC writes a line's committed data back to DRAM where it is dirty (R316). -/
def preImage (s : State) (line : Nat) : State :=
  let h := homeOf s line
  if h.dirty then dramWrite (putHome s line { h with dirty := false }) (32 * line) (h.llc.getD (dramLine s line)) else s

/-- The bytes of a run within a line, by offset. -/
def lineBytes (pa : Nat) (bs : List Byte) : List (Nat × Byte) := (List.range bs.length).zip bs |>.map fun p => (pa % 32 + p.1, p.2)

/-- Bytes join a provisional line; stash copies and column copies that hold a changed byte are recalled, and before the first of them
what a narrow holder has of the line takes its place in the line's order (R122, R126, R172, R316). -/
def stageBytes (s : State) (n : NRef) (line : Nat) (bs : List (Nat × Byte)) : State :=
  let mine := (provOf s n).filter fun p => p.line == line
  let s0 := if mine.isEmpty then preImage (recallStash (recallNarrow s line).1 line) line else recallStash s line
  let keep := (mine.flatMap Provisional.bytes).filter fun p => !bs.any fun b => b.1 == p.1
  let bad := mine.flatMap Provisional.poison
  let s1 := modMm (recallColumns s0 line bs) fun m =>
    { m with provisional := (m.provisional.filter fun p => !(p.node == n && p.line == line)) ++
        [{ node := n, line := line, bytes := keep ++ bs
           poison := (unpoisonLine (bad.map (8 * line + ·)) line bs).map (· - 8 * line) }] }
  wakeMonitors s1 line s1.time fun r => lineLatest s1 line r

/-! ## One write (R141, R316 to R320) -/

/-- A write through a leaf makes the writer's contained instance escape: it goes to a page without CONT, to SWEPT or DEVICE memory or to
another package, to a line that another instance has staged, or above the quota (R319). -/
def escapesBy (s : State) (who : Option GRef) (l : Leaf) : Bool :=
  (containedOf s who).elim false fun n =>
    !(l.cont && l.mtype == 0 && !isRemote s l.pa) || stagedByOther s (some n) (l.pa / 32) || overQuota s n (l.pa / 32)

/-- What precedes a write through a leaf: the issuing core's own L1 copy goes (R141), and the instance escapes where the write makes
it (R320). -/
def enterWrite (s : State) (who : Option GRef) (core : Nat) (l : Leaf) : State :=
  let s1 := dropL1 s core (l.pa / 32)
  if escapesBy s1 who l then escapeOf s1 who else s1

/-- A write that nothing holds is staged, or placed; its completion time. One to a register of another package acts there (R355). -/
def performWrite (s : State) (mtype pa : Nat) (bs : List Byte) (who : Option GRef) (core : Nat) : State × Nat :=
  if mtype = 2 then (s, s.time)
  else match containedOf s who with
  | some n => (stageBytes s n (pa / 32) (lineBytes pa bs), s.time)
  | none => placeNow s mtype pa bs who core

/-- A write is held. -/
def holdWrite (s : State) (h : Held) : State := modMm s fun m => { m with held := m.held ++ [h] }

/-- One write of bytes within a line through a leaf of NORMAL or SWEPT memory, by any agent: it is held, or performed with its
completion time. `late` holds it with the other lanes of its SWEPT row (R107). -/
def storeLane (s0 : State) (ctx va : Nat) (l : Leaf) (bs : List Byte) (who : Option GRef) (core id : Nat) (late : Bool := false) :
    State × Option Nat :=
  let s := enterWrite s0 who core l
  if late || waitsToWrite s l.mlock l.pa who id then
    (holdWrite s { ctx := ctx, va := va, pa := l.pa, op := .store bs, who := who, core := core, id := id, mtype := l.mtype }, none)
  else
    let r := performWrite s l.mtype l.pa bs who core
    (r.1, some r.2)

/-- An atomic that nothing holds acts on its word, which no holder has any longer: the old word, and the completion time (R146, R175). -/
def performAtom (s0 : State) (mtype pa : Nat) (x : Bool) (op : Nat) (y z : Word) (who : Option GRef) (core : Nat) : State × Word × Nat :=
  let s := recallStash (recallNarrow s0 (pa / 32)).1 (pa / 32)
  let old := atomOld s mtype pa who
  let r := performWrite s mtype pa (natLE 4 (atomNew x op old y z).toNat) who core
  (r.1, old, r.2)

/-- One atomic on a word: the old word and the completion time, or none where it is held (R146, R175). -/
def atomLane (s0 : State) (ctx va : Nat) (l : Leaf) (x : Bool) (op : Nat) (y z : Word) (who : Option GRef) (core id : Nat)
    (key : Option Nat) (late : Bool := false) : State × Option (Word × Nat) :=
  let s := enterWrite s0 who core l
  if late || waitsToWrite s l.mlock l.pa who id then
    (holdWrite s { ctx := ctx, va := va, pa := l.pa, op := .atom op x y z key, who := who, core := core, id := id, mtype := l.mtype }, none)
  else
    let r := performAtom s l.mtype l.pa x op y z who core
    (r.1, some r.2)

/-- The SWEPT rows of which some lane's access waits: the drover serves none of the lanes of an instruction that fall in one of them until
it can serve them all (R107). -/
def lateRows (ls : List Leaf) (waits : Leaf → Bool) : List Nat :=
  (ls.filter fun l => l.mtype == 1 && waits l).map fun l => l.pa / 2048
def rowLate (rows : List Nat) (l : Leaf) : Bool := l.mtype == 1 && rows.contains (l.pa / 2048)

/-! ## Narrow stores (R145, R172, R173) -/

/-- The waiters of a line outside a holder, those of other packages among them, whose wait a value of the line satisfies and whose scope
asks for a forced publish (R173, R355). -/
def wantsPublish (s : State) (n : Narrow) : Bool :=
  (s.mm.monitors.any fun k => k.addr / 32 == n.line && k.scope != 0 &&
    condHolds k.cond (leNat (sliceLine (lineLatest s n.line none) k.addr (condBytes k.cond))) k.y) ||
  s.wk.gangs.any fun p => (List.range p.2.teams.length).any fun t => ((p.2.teams[t]?).elim [] Team.groups).zip
      (List.range 32) |>.any fun q =>
    match q.1.wait with
    | some { kind := .mwait addr c y sc, .. } =>
      let me : GRef := { gang := p.1, team := t, grp := q.2 }
      addr / 32 == n.line && sc != 0 && outside n (some me) &&
        condHolds c (leNat (sliceLine (lineLatest s n.line (some me)) addr (condBytes c))) y
    | _ => false

/-- The lines of a narrow line's holder. -/
def sameHolder (n m : Narrow) : Bool := m.core == n.core && m.gang == n.gang && m.team == n.team

/-- A narrow store of a group through a virtual address (R145, R172, R173): a line held by another holder is recalled first, and the
core's clean copy of the line goes. None where the forced publish that it brings about is held (R182, R349). -/
def narrowStore (s : State) (g : GRef) (core scope : Nat) (va pa : Nat) (bs : List Byte) : Option State :=
  let line := pa / 32
  let team := if scope ≤ 1 then some g.team else none
  let mine := s.mm.narrow.find? fun n => n.line == line && n.core == core && n.gang == g.gang && n.team == team
  let s1 := recallStash (if mine.isSome then s else (recallNarrow s line).1) line
  let new := lineBytes pa bs
  let old := (mine.elim [] Narrow.bytes).filter fun p => !new.any fun b => b.1 == p.1
  let s1 := dropL1 s1 core line
  let unit := match mine with
    | some m => m.unit
    | none => l1Place s1 core
  let n : Narrow := { line := line, core := core, gang := g.gang, team := team, who := g, bytes := old ++ new, va := va, unit := unit }
  let s2 := recallColumns (modMm s1 fun m => { m with narrow := (m.narrow.filter fun q => q.line ≠ line) ++ [n] }) line new
  if !wantsPublish s2 n then some (wakeMonitors s2 line s2.time fun q => lineLatest s2 line q)
  else if s2.mm.narrow.any fun m => sameHolder n m && narrowHeld s2 m then none
  else
    let r := publishWhere s2 (sameHolder n)
    some (wakeMonitors r.1 line r.2 fun q => lineLatest r.1 line q)

/-- A store at a scope through a place is held narrow by its core: grp, team or gang scope, a NORMAL line of the package, and not staged
(R145, R316). -/
def heldNarrow (s : State) (who : Option GRef) (scope mtype pa : Nat) : Bool :=
  decide (scope < 3) && mtype == 0 && !isRemote s pa && (containedOf s who).isNone

/-- A narrow store that nothing holds is performed: its completion time, or none where it waits for a forced publish. -/
def performNarrow (s : State) (g : GRef) (core scope va mtype pa : Nat) (bs : List Byte) : Option (State × Nat) :=
  if heldNarrow s (some g) scope mtype pa then (narrowStore s g core scope va pa bs).map fun t => (t, s.time)
  else some (performWrite s mtype pa bs (some g) core)

/-- One lane of an STL at grp, team or gang scope (R145). -/
def narrowLane (s0 : State) (ctx va : Nat) (l : Leaf) (scope : Nat) (bs : List Byte) (g : GRef) (core id : Nat) (late : Bool := false) :
    State × Option Nat :=
  let s := enterWrite s0 (some g) core l
  let hold := (holdWrite s { ctx := ctx, va := va, pa := l.pa, op := .narrow scope bs, who := some g, core := core, id := id, mtype := l.mtype }, none)
  if late || waitsToWrite s l.mlock l.pa (some g) id then hold
  else match performNarrow s g core scope va l.mtype l.pa bs with
    | some r => (r.1, some r.2)
    | none => hold

/-! ## Held writes proceed (R182) -/

/-- The leaf that a held write goes through now: it is translated again (R182). One that has no translation any longer, and one that names
a place by its physical address, keep their place. -/
def heldLeaf (s : State) (h : Held) : Leaf :=
  (translate s h.ctx h.va).getD
    { pa := h.pa, size := 65536, at_ := 0, mlock := h.ctx == noCtx && frameLocked s h.pa, cont := true, lease := 0, mtype := h.mtype, kind := 0,
      x := false, w := true }

/-- A held write waits on. -/
def heldWaits (s : State) (h : Held) : Bool :=
  let l := heldLeaf s h
  waitsToWrite s l.mlock l.pa h.who h.id

/-- A held write waits with another of its instruction that falls in the same SWEPT row (R107). -/
def heldRow (s : State) (hs : List Held) (h : Held) : Bool :=
  (heldLeaf s h).mtype == 1 && hs.any fun o =>
    o.id == h.id && o.who == h.who && (heldLeaf s o).pa / 2048 == (heldLeaf s h).pa / 2048 && heldWaits s o

/-- A write that an executable page refuses is not performed: its page has been mapped since it was issued (R69). -/
def refuseHeld (s : State) (h : Held) : State :=
  let s1 := settlePend s h.who h.id s.time none
  match h.who with
  | some g => if g.grp = 255 then s1 else raiseLate s1 g cPerm
  | none => s1

/-- A held write that nothing holds any longer is performed; none where it waits for a forced publish. -/
def performHeld (s : State) (h : Held) : Option State :=
  let l := heldLeaf s h
  let s1 := enterWrite s h.who h.core l
  match h.op with
  | .store bs => let r := performWrite s1 l.mtype l.pa bs h.who h.core; some (settlePend r.1 h.who h.id r.2 none)
  | .narrow sc bs => (h.who.bind fun g => performNarrow s1 g h.core sc h.va l.mtype l.pa bs).map fun r => settlePend r.1 h.who h.id r.2 none
  | .atom op x y z key =>
    let r := performAtom s1 l.mtype l.pa x op y z h.who h.core
    some (settlePend r.1 h.who h.id r.2.2 (key.map fun k => (k, r.2.1)))

/-- One held write: it proceeds, or stays held. -/
def releaseOne (hs : List Held) (s : State) (h : Held) : State :=
  let keep := modMm s fun m => { m with held := m.held ++ [{ h with pa := (heldLeaf s h).pa }] }
  if heldWaits s h || heldRow s hs h then keep
  else if execFrame s (heldLeaf s h).pa then refuseHeld s h
  else (performHeld s h).getD keep

/-- Held writes are performed, in the order in which they were held, where nothing holds them any longer (R182). -/
def releaseHeld (s : State) : State := s.mm.held.foldl (releaseOne s.mm.held) (modMm s fun m => { m with held := [] })

/-! ## Scratchpad stores into a stash (R122, R138) -/

/-- The leaf behind a scratchpad offset of a team that lies in a stash mapping, with its virtual address. -/
def stashLeaf (s : State) (u : TRef) (off : Nat) : Option (Nat × Leaf) :=
  match (findTeam s u).bind fun t => stashOf t off, findGang s u.gang with
  | some (m, _), some gg =>
    let va := m.va + (off - m.off)
    (translate s gg.ctx va).map fun l => (va, l)
  | _, _ => none

/-- A write through a stash line is held: its page is locked, its line is staged by another instance, or it follows an earlier access
that waits (R181, R182, R317). -/
def stashWriteWaits (s : State) (who : Option GRef) (id : Nat) (l : Leaf) : Bool :=
  l.mlock || ((containedOf s who).isNone && stagedByOther s none (l.pa / 32)) || follows s who (l.pa / 32) id

/-- Bytes within one stash line or outside every mapping are written to a team's scratchpad, by an access of a number. A store into a stash
line is a write of the page behind it: it makes a contained instance escape as such a write does (R138, R319), it is staged on a page
with CONT set (R316), or held there; answers whether it is held. -/
def scratchStore (s : State) (u : TRef) (off : Nat) (bs : List Byte) (who : Option GRef) (id : Nat) : State × Bool :=
  match stashLeaf s u off with
  | none => (scratchWrite s u off bs, false)
  | some (va, l) =>
    let core := who.elim 4096 (coreIdOf s)
    let s0 := enterWrite s who core l
    if stashWriteWaits s0 who id l then
      (holdWrite s0 { ctx := (findGang s u.gang).elim 0 Gang.ctx, va := va, pa := l.pa, op := .store bs, who := who, core := core, id := id }, true)
    else match containedOf s0 who with
      | some n => (stageBytes s0 n (l.pa / 32) (lineBytes l.pa bs), false)
      | none => (scratchWrite (touchStash s0 u off who) u off bs, false)

/-- Bytes of a team's scratchpad within one stash line or outside every mapping, a stash line filled first (R122). -/
def scratchLoad (s : State) (u : TRef) (off n : Nat) (who : Option GRef) : State × List Byte :=
  let s1 := touchStash s u off who
  (s1, scratchRead s1 u off n)

end Sys2Proof.Machine
end

