-- ==== Sys2Proof/Machine/Bank.lean ====
section
/-! DEFINITION. Bank-program words (R134, R163 to R165) on the restore unit: whole rows of 2 KiB, element by element. A row
is held sparsely; an element that no operand lists is computed from zeros, as any other. -/
namespace Sys2Proof.Machine

/-- The meaning of a bank word: it acts for the restore unit that is executing. -/
def onRestore (s : State) (f : Restore → Restore) : Out :=
  match s.focus with
  | .restore => .next { s with sw := { s.sw with restore := f s.sw.restore } }
  | _ => .refused .noIssuer

/-- A row register (R42). -/
def xGet (r : Restore) (n : BitVec 2) : SMap 8 := (r.x[n.toNat]?).getD []
/-- The unit with a row register written. -/
def xSet (r : Restore) (n : BitVec 2) (v : SMap 8) : Restore := { r with x := r.x.set n.toNat v }
/-- A constant (R134). -/
def cGet (r : Restore) (n : Nat) : Word := (r.c[n]?).getD 0

/-- Element k of `b` bytes of a row. -/
def elemAt (b : Nat) (r : SMap 8) (k : Nat) : Nat := leNat (smRange r (k * b) b)

/-- The elements that some operand row lists. -/
def touched (b : Nat) (rs : List (SMap 8)) : List Nat := (rs.flatMap fun r => r.map fun p => p.1 / b).eraseDups

/-- A row of `n` elements of `bo` bytes, each computed from the same element (of `bi` bytes) of the operand rows (R163). -/
def rowMap (bi bo n : Nat) (rs : List (SMap 8)) (f : List Nat → Nat) : SMap 8 :=
  let z := f (rs.map fun _ => 0)
  let ks := if z = 0 then (touched bi rs).filter fun k => decide (k < n) else List.range n
  ks.foldl (fun acc k => smWrite acc (k * bo) (natLE bo (f (rs.map fun r => elemAt bi r k)))) []

/-- An operation of one type over operand rows. -/
def elemOp (t : BitVec 3) (rs : List (SMap 8)) (f : BType → List Nat → Nat) : SMap 8 :=
  let ty := BType.ofCode t.toNat
  rowMap ty.bytes ty.bytes (2048 / ty.bytes) rs (f ty)

/-- The first, second and third of a list of elements. -/
def el (l : List Nat) (k : Nat) : Nat := (l[k]?).getD 0

/-- Two operand rows into xd. -/
def bankOp2 (s : State) (t : BitVec 3) (xd xa xb : BitVec 2) (f : BType → Nat → Nat → Nat) : Out :=
  onRestore s fun r => xSet r xd (elemOp t [xGet r xa, xGet r xb] fun ty l => f ty (el l 0) (el l 1))

/-- One operand row into xd. -/
def bankOp1 (s : State) (t : BitVec 3) (xd xa : BitVec 2) (f : Restore → BType → Nat → Nat) : Out :=
  onRestore s fun r => xSet r xd (elemOp t [xGet r xa] fun ty l => f r ty (el l 0))

/-- XLD: a row beyond the stripe loads zeros (R163). -/
def execXld (xd row : BitVec 2) (s : State) : Out := onRestore s fun r => xSet r xd ((r.rows[row.toNat]?).getD [])
/-- XST: to a row beyond the stripe it does nothing (R163). -/
def execXst (row xa : BitVec 2) (s : State) : Out :=
  onRestore s fun r =>
    { r with rows := r.rows.set row.toNat (xGet r xa), written := r.written.set row.toNat true }
def execXadd (t : BitVec 3) (xd xa xb : BitVec 2) (s : State) : Out :=
  bankOp2 s t xd xa xb fun ty a b => bank2 ty FVal.add (· + ·) a b
def execXsub (t : BitVec 3) (xd xa xb : BitVec 2) (s : State) : Out :=
  bankOp2 s t xd xa xb fun ty a b => bank2 ty (fun p q => p.add q.neg) (· - ·) a b
def execXmul (t : BitVec 3) (xd xa xb : BitVec 2) (s : State) : Out :=
  bankOp2 s t xd xa xb fun ty a b => bank2 ty FVal.mul (· * ·) a b
/-- XFMA: a × b + d, one rounding; float types only (R164). -/
def execXfma (t : BitVec 3) (xd xa xb : BitVec 2) (s : State) : Out :=
  onRestore s fun r => xSet r xd (elemOp t [xGet r xa, xGet r xb, xGet r xd] fun ty l =>
    match ty.float with
    | some f => (f.fma (el l 0) (el l 1) (el l 2)).1
    | none => 0)
def execXscl (t : BitVec 3) (xd xa : BitVec 2) (c : BitVec 3) (s : State) : Out :=
  bankOp1 s t xd xa fun r ty a => bankConst ty FVal.mul (· * ·) a (cGet r c.toNat)
def execXaddc (t : BitVec 3) (xd xa : BitVec 2) (c : BitVec 3) (s : State) : Out :=
  bankOp1 s t xd xa fun r ty a => bankConst ty FVal.add (· + ·) a (cGet r c.toNat)
def execXmax (t : BitVec 3) (xd xa xb : BitVec 2) (s : State) : Out :=
  bankOp2 s t xd xa xb fun ty a b => bankMinMax ty true a b
def execXmin (t : BitVec 3) (xd xa xb : BitVec 2) (s : State) : Out :=
  bankOp2 s t xd xa xb fun ty a b => bankMinMax ty false a b
def execXclmp (t : BitVec 3) (xd xa : BitVec 2) (c : BitVec 3) (s : State) : Out :=
  bankOp1 s t xd xa fun r ty a => bankClamp ty a (cGet r c.toNat) (cGet r (c.toNat + 1))
/-- XCVT: elements 0 to n − 1, n the count of the wider type; bytes of xd beyond them are 0 (R165). -/
def execXcvt (t : BitVec 3) (xd xa : BitVec 2) (u : BitVec 3) (s : State) : Out :=
  onRestore s fun r =>
    let a := BType.ofCode t.toNat
    let b := BType.ofCode u.toNat
    if t = u then xSet r xd (xGet r xa)
    else xSet r xd (rowMap a.bytes b.bytes (2048 / max a.bytes b.bytes) [xGet r xa] fun l => bankCvt a b (el l 0))
def execXrsq (t : BitVec 3) (xd xa : BitVec 2) (s : State) : Out :=
  bankOp1 s t xd xa fun _ ty a => match ty.float with
    | some f => (f.rsqrt a).1
    | none => 0
/-- XSEL: a where the sign bit of d is 1, else b (R164). -/
def execXsel (t : BitVec 3) (xd xa xb : BitVec 2) (s : State) : Out :=
  onRestore s fun r => xSet r xd (elemOp t [xGet r xa, xGet r xb, xGet r xd] fun ty l =>
    if el l 2 / 2 ^ (8 * ty.bytes - 1) % 2 = 1 then el l 0 else el l 1)
def execXzero (xd : BitVec 2) (s : State) : Out := onRestore s fun r => xSet r xd []

end Sys2Proof.Machine
end

