-- ==== Sys2Proof/Machine/Operands.lean ====
section
/-! DEFINITION. Every operand form: routes (R45, R46), reads across lanes (R73), immediates (R48), branch targets (R49), and
the shapes of the instructions that work on registers only (R71): a vector destination, a scalar destination, and the checks
of role (R9) and window (R43) before either. -/
namespace Sys2Proof.Machine

/-- The lane that a pattern of kind `k` and value `m` names for lane `i` of a group of width `w` (R45). -/
def patternLane (w k m i : Nat) : Nat :=
  match k with
  | 0 => (i + m) % w
  | 1 => m % w
  | 2 => i ^^^ (m % w)
  | _ => let n := min m w; n * (i / n) + n - 1 - i % n

/-- The lane that source a reads through a route selector (R46); slot 0 is identity. -/
def routeA (x : Group) (rt : Route) (i : Nat) : Nat :=
  match tabGet x.routes rt.toNat with
  | some r => patternLane x.width r.ka.toNat r.ma.toNat i
  | none => i

/-- The lane that source b reads through a route selector (R46). -/
def routeB (x : Group) (rt : Route) (i : Nat) : Nat :=
  match tabGet x.routes rt.toNat with
  | some r => patternLane x.width r.kb.toNat r.mb.toNat i
  | none => i

/-- A register of lane j as another lane reads it: 0 where j is out of range or has exited (R73). -/
def laneRead (x : Group) (r : VReg) (j : Nat) : Word :=
  if j < x.width && laneIn x.live j then vGet x r j else 0

/-- The value lane i reads in its a field. -/
def srcA (x : Group) (rt : Route) (r : VReg) (i : Nat) : Word := laneRead x r (routeA x rt i)
/-- The value lane i reads in its b field. -/
def srcB (x : Group) (rt : Route) (r : VReg) (i : Nat) : Word := laneRead x r (routeB x rt i)

/-! ## Immediates and targets (R48, R49) -/

/-- A 12-bit immediate, sign-extended to 32 bits. -/
def imm12s (i : BitVec 12) : Word := i.signExtend 32
/-- A 12-bit immediate, zero-extended to 32 bits. -/
def imm12z (i : BitVec 12) : Word := i.zeroExtend 32
/-- Bits [31:13] replaced by an unsigned 19-bit immediate. -/
def highImm (i : BitVec 19) (old : Word) : Word := BitVec.ofNat 32 (i.toNat * 2 ^ 13 + old.toNat % 2 ^ 13)
/-- Bits [31:13] of a scalar replaced; [63:32] and [12:0] kept. -/
def highImm64 (i : BitVec 19) (old : Word64) : Word64 :=
  BitVec.ofNat 64 (old.toNat / 2 ^ 32 * 2 ^ 32 + i.toNat * 2 ^ 13 + old.toNat % 2 ^ 13)
/-- The two words of a 64-bit value, low word first. -/
def words64 (v : Word64) : List Word := [v.truncate 32, (v >>> 32).truncate 32]
/-- The target of a BR-format word at a PC. -/
def targetOf (pc : BitVec 56) (b : Branch) : BitVec 56 := pc + (b.off.signExtend 56 <<< 2)

/-! ## The checks before an instruction (R9, R43, R71) -/

/-- Every register of `n` that starts at a field's register lies in an owned block. -/
def ownsRun (x : Group) (r : VReg) (n : Nat) : Bool :=
  (List.range n).all fun j => ownsReg x (physReg x r + j)

/-- The causes that keep an instruction from being performed: ROLE for a floating-point instruction of a copy-role group,
WINDOW for a register of an unowned block (R9, R71). -/
def regCauses (x : Group) (vec : Bool) (uses : List (VReg × Nat)) : BitVec 32 :=
  (if vec && x.copyRole then cRole else 0) ||| (if uses.all fun u => ownsRun x u.1 u.2 then 0 else cWindow)

/-- The launch of a group's gang enables FPINV (R74). -/
def fpinvOn (s : State) (g : GRef) : Bool := (findGang s g.gang).elim false fun gg => gg.launch.fpinv

/-- The causes of an instruction whose results are written: FPINV where a lane's operation was invalid (R74). -/
def fpCause (s : State) (g : GRef) (bad : Bool) : BitVec 32 := if bad && fpinvOn s g then cFpinv else 0

/-- The register words of a vector result: word j of lane i goes to register d + j (R71). -/
def laneWrites (x : Group) (d : VReg) (n : Nat) (f : Nat → List Word) : List (Nat × Word) :=
  (activeLanes x).flatMap fun i => (List.range n).map fun j => ((physReg x d + j) * 64 + i, ((f i)[j]?).getD 0)

/-- The registers of a run. -/
def regRun (x : Group) (d : VReg) (n : Nat) : List Nat := (List.range n).map fun j => physReg x d + j

/-- The group after a vector result of `n` registers: active lanes written, the entry advanced (R71). The registers enter the operand
prefetch queue when the result is usable (R16). -/
def vecResult (x : Group) (d : VReg) (n : Nat) (f : Nat → List Word) : Group :=
  vWrite (advance x) (laneWrites x d n f) []

/-- An instruction with a vector destination of `n` registers (R71): `f` gives each active lane's words, and whether the
lane's operation was invalid. -/
def vecOp (s : State) (vec : Bool) (uses : List (VReg × Nat)) (d : VReg) (n : Nat) (f : Group → Nat → List Word × Bool) : Out :=
  onGroup s fun g x =>
    let bits := regCauses x vec ((d, n) :: uses)
    if bits = 0 then
      performedThen s g (vecResult x d n fun i => (f x i).1) (fpCause s g ((activeLanes x).any fun i => (f x i).2))
    else notPerformed s g x bits

/-- An integer instruction of one register and two sources (R87). -/
def intOp (s : State) (d a b : VReg) (f : Group → Nat → Word) : Out :=
  vecOp s false [(a, 1), (b, 1)] d 1 fun x i => ([f x i], false)

/-- A floating-point instruction of one register and two sources (R101). -/
def fltOp (s : State) (d a b : VReg) (f : Group → Nat → Nat × Bool) : Out :=
  vecOp s true [(a, 1), (b, 1)] d 1 fun x i => ([BitVec.ofNat 32 (f x i).1], (f x i).2)

/-- An instruction that writes a k register in active lanes only (R71). -/
def kOp (s : State) (vec : Bool) (uses : List (VReg × Nat)) (k : KReg) (f : Group → Nat → Bool × Bool) : Out :=
  onGroup s fun g x =>
    let bits := regCauses x vec uses
    if bits = 0 then
      let set := maskOf ((activeLanes x).filter fun i => (f x i).1)
      let m := (kGet x k.toNat &&& ~~~active x) ||| set
      performedThen s g (kSet (advance x) k.toNat m) (fpCause s g ((activeLanes x).any fun i => (f x i).2))
    else notPerformed s g x bits

/-- An instruction that writes a scalar register once per issue (R71, R93). -/
def scalarOp (s : State) (uses : List (VReg × Nat)) (d : SReg) (f : Group → Word64) : Out :=
  onGroup s fun g x =>
    let bits := regCauses x false uses
    if bits = 0 then .next (setGroup s g (sSet (advance x) d (f x))) else notPerformed s g x bits

/-- A group whose record alone changes, its entry advanced by `f` itself. -/
def groupOp (s : State) (f : Group → Group) : Out := onGroup s fun g x => .next (setGroup s g (f x))

end Sys2Proof.Machine
end

