-- ==== Sys2Proof/Machine/Branch.lean ====
section
/-! DEFINITION. Branches: majors 0x02 to 0x06 (R18 to R20, R82, R83). -/
namespace Sys2Proof.Machine

/-- The PC of the current entry. -/
def curPc (x : Group) : BitVec 56 :=
  match x.frontier with
  | e :: _ => e.pc
  | [] => 0

/-- BT and BF (R18): the lanes of `m` branch to (p, T); where all do, the entry moves, where none does, it continues, else it
splits; a split that would give a 17th entry sets FRONTIER (R20). -/
def branchLanes (s : State) (m : Group → Mask) (b : Branch) : Out :=
  onGroup s fun g x =>
    let t := targetOf (curPc x) b
    let go := m x &&& active x
    if go = active x then .next (setGroup s g (retarget x b.prio t))
    else if go = 0 then .next (setGroup s g (advance x))
    else
      let x' := splitEntry x go b.prio t
      if x'.frontier.length ≤ Config.frontierMax then .next (setGroup s g x')
      else notPerformed s g x cFrontier

def execBr (b : Branch) (s : State) : Out := groupOp s fun x => retarget x b.prio (targetOf (curPc x) b)
def execBt (k : KReg) (b : Branch) (s : State) : Out := branchLanes s (fun x => kGet x k.toNat) b
def execBf (k : KReg) (b : Branch) (s : State) : Out := branchLanes s (fun x => ~~~kGet x k.toNat) b

/-- The link CALL writes: the current priority and the address of the word plus 4 (R49). -/
def callLink (x : Group) : Word64 :=
  match x.frontier with
  | e :: _ => feLink { e with pc := e.pc + 4 }
  | [] => 0

def execCall (b : Branch) (s : State) : Out :=
  groupOp s fun x => retarget (sSet x 63 (callLink x)) b.prio (targetOf (curPc x) b)
def execRet (s : State) : Out := groupOp s fun x => retarget x (linkPrio (sGet x 63)) (linkPc (sGet x 63))
def execBx (a : SReg) (s : State) : Out := groupOp s fun x => retarget x (linkPrio (sGet x a)) (linkPc (sGet x a))

end Sys2Proof.Machine
end

