-- ==== Sys2Proof/WellFormed.lean ====
section
/-! DEFINITION. The checks that decide which words may run (R42, R50 to R59, R67): the reason codes of the pricker, and for
each constructor the first of them that its fields break. Where a word breaks several limits, R67 does not say which code it has: the
model's order is DESIGN CHOICE, log 8. -/
namespace Sys2Proof

/-- The reason codes of R67. -/
inductive PrickCode where
  | rsvMaj | rsvSel | mbz | regFld | brk | target | immFld | sreg | combo | nest | bankLen | kind | req
  deriving DecidableEq, Repr

/-- The number of a reason code (R67). -/
def PrickCode.num : PrickCode → Nat
  | rsvMaj => 1 | rsvSel => 2 | mbz => 3 | regFld => 4 | brk => 5 | target => 6 | immFld => 7 | sreg => 8 | combo => 9
  | nest => 10 | bankLen => 11 | kind => 12 | req => 13

/-- The outcome of one check. -/
def chk (ok : Bool) (c : PrickCode) : Option PrickCode := if ok then none else some c

/-- The first check that fails. -/
def firstOf : List (Option PrickCode) → Option PrickCode
  | [] => none
  | some c :: _ => some c
  | none :: cs => firstOf cs

/-- A scalar field names s0 to s63 (R42). -/
def sOk (r : SReg) : Bool := r.toNat < 64
/-- An even register of a pair (R42). -/
def evenOk (r : BitVec 7) : Bool := r.toNat % 2 == 0
/-- The first register of a quad (R42). -/
def quadOk (r : BitVec 7) : Bool := r.toNat % 4 == 0

/-- Special registers of R44: the number is assigned. -/
def srKnown (n : BitVec 8) : Bool := n.toNat ≤ 0x10
/-- The 64-bit special registers of R44. -/
def srWide (n : BitVec 8) : Bool := n.toNat ∈ [0x07, 0x09, 0x0B, 0x0C, 0x0E, 0x0F]
/-- The special registers SWR may name (R80). -/
def srWritable (n : BitVec 8) : Bool := n.toNat ∈ [0x09, 0x0E, 0x0F]

/-- The registers of an access of width code `w` start where R55 asks. -/
def widthReg (w : MWidth) (d : VReg) : Bool :=
  if w.toNat = 3 then evenOk d else if w.toNat = 4 then quadOk d else true

/-- A value of mirror kind is a power of two from 2 to 64 (R45). -/
def mirrorOk (k : BitVec 2) (m : BitVec 7) : Bool := k.toNat != 3 || m.toNat ∈ [2, 4, 8, 16, 32, 64]

/-- Bank types that a float-only operation allows (R58). -/
def bankFloat (t : BitVec 3) : Bool := t.toNat < 3
/-- Bank types that exist (R58). -/
def bankType (t : BitVec 3) : Bool := t.toNat < 6

/-- The first rule of the maps that the fields of an instruction break; none where the pricker passes it. -/
def check : Instr → Option PrickCode
  | .cclr b => chk (b.toNat ≤ 19) .immFld
  | .srd d v sr =>
    if srKnown sr then
      (if v then chk (!srWide sr || evenOk d) .regFld else chk (sOk d) .regFld)
    else (if v then some .sreg else firstOf [chk (sOk d) .regFld, some .sreg])
  | .swr a sr => firstOf [chk (sOk a) .regFld, chk (srWritable sr) .sreg]
  | .boost d a _ => chk (sOk d && sOk a) .regFld
  | .bx a => chk (sOk a) .regFld
  | .rinit p e => chk (p.toNat < 24 && e.toNat != 0) .immFld
  | .arv p | .rwait p | .marv p | .mwt p => chk (p.toNat < 24) .immFld
  | .qwait _ d => chk (sOk d) .regFld
  | .fence sc k => chk (sc.toNat < 6 && k.toNat < 2) .rsvSel
  | .wbase n => chk (n.toNat ≤ 4) .immFld
  | .route n ka ma kb mb => chk (n.toNat != 0 && mirrorOk ka ma && mirrorOk kb mb) .immFld
  | .imadw d _ _ _ => chk (evenOk d) .regFld
  | .icmp k c _ _ _ => firstOf [chk (c.toNat < 10) .rsvSel, chk (k.toNat != 0) .regFld]
  | .fcmp k c _ _ _ => firstOf [chk (c.toNat < 8) .rsvSel, chk (k.toNat != 0) .regFld]
  | .lea d a _ => chk (evenOk d && evenOk a) .regFld
  | .sadd d a b | .ssub d a b | .smul d a b | .sand d a b | .sor d a b | .sxor d a b | .sshl d a b | .sshr d a b =>
    chk (sOk d && sOk a && sOk b) .regFld
  | .saddi d a _ => chk (sOk d && sOk a) .regFld
  | .smovi d _ | .smovh d _ => chk (sOk d) .regFld
  | .scmp k c a b => firstOf [chk (c.toNat < 10) .rsvSel, chk (k.toNat != 0 && sOk a && sOk b) .regFld]
  | .iadds _ _ b _ | .imuls _ _ b _ | .fmuls _ _ b _ | .ffmas _ _ b _ => chk (sOk b) .regFld
  | .vbcst _ a => chk (sOk a) .regFld
  | .vpick d _ l => firstOf [chk (sOk d) .regFld, chk (l.toNat < 64) .immFld]
  | .movk d a => chk (d.toNat != 0 && d.toNat < 8 && a.toNat < 8) .regFld
  | .lvote d _ k => firstOf [chk (k.toNat < 3) .rsvSel, chk (sOk d) .regFld]
  | .fcvt _ _ k _ => chk (k.toNat < 10) .rsvSel
  | .xsig d _ _ => chk (sOk d) .regFld
  | .ld d a w h _ =>
    firstOf [chk (w.toNat < 5) .rsvSel, chk (evenOk a && widthReg w d) .regFld, chk (h.toNat != 3 || w.toNat < 3) .combo]
  | .st d a w h _ =>
    firstOf [chk (w.toNat < 5) .rsvSel, chk (evenOk a && widthReg w d) .regFld, chk (h.toNat % 2 == 0) .combo]
  | .lds d _ w _ | .sts d _ w _ => firstOf [chk (w.toNat < 5) .rsvSel, chk (widthReg w d) .regFld]
  | .lda d a w sc _ | .stl d a w sc _ =>
    firstOf [chk (w.toNat < 5 && sc.toNat < 6) .rsvSel, chk (evenOk a && widthReg w d) .regFld]
  | .atom _ a _ _ _ => chk (evenOk a) .regFld
  | .atomx _ a b op _ => firstOf [chk (op.toNat < 4) .rsvSel, chk (evenOk a && (op.toNat != 1 || evenOk b)) .regFld]
  | .red a _ _ _ => chk (evenOk a) .regFld
  | .mwait a b c _ => firstOf [chk (c.toNat < 4) .rsvSel, chk (evenOk a && (c.toNat != 3 || evenOk b)) .regFld]
  | .cclean a _ | .cinv a _ | .cclinv a _ | .pref a _ | .smap a _ => chk (evenOk a) .regFld
  | .swreg d a | .swpos d a => chk (sOk d && evenOk a) .regFld
  | .swdel b => chk (sOk b) .regFld
  | .swwait a | .bkcmd a => chk (evenOk a) .regFld
  | .ladpush a b => chk (evenOk a && quadOk b) .regFld
  | .ladstat d n => firstOf [chk (sOk d && evenOk d) .regFld, chk (n.toNat < 4) .immFld]
  | .ldt d _ _ | .stt d _ _ => chk (quadOk d) .regFld
  | .mloop c l => chk (c.toNat != 0 && l.toNat != 0) .immFld
  | .mgang m => chk (m.toNat != 0) .immFld
  | .xadd t _ _ _ | .xsub t _ _ _ | .xmul t _ _ _ | .xmax t _ _ _ | .xmin t _ _ _ | .xsel t _ _ _ =>
    chk (bankType t) .rsvSel
  | .xscl t _ _ _ | .xaddc t _ _ _ => chk (bankType t) .rsvSel
  | .xfma t _ _ _ | .xrsq t _ _ => firstOf [chk (bankType t) .rsvSel, chk (bankFloat t) .combo]
  | .xclmp t _ _ c => firstOf [chk (bankType t) .rsvSel, chk (c.toNat % 2 == 0) .immFld]
  | .xcvt t _ _ u => chk (bankType t && bankType u) .rsvSel
  | _ => none

/-- An instruction that the pricker passes (R67). -/
def WellFormed (i : Instr) : Prop := check i = none

end Sys2Proof
end

