-- ==== Sys2Proof/Decode.lean ====
section
/-! DEFINITION. Decoding, total on any bytes, refusing by reason code (R67): the group stream (R50 to R55), the matrix
stream (R56), bank programs (R58) and copy-ring entries (R60, R208, R237); then the encoder written from the same maps.
The streams share their words, so the stream kind of the page says which map applies. -/
namespace Sys2Proof

/-- The `n` bits of a word from bit `lo`. -/
def fld (n lo w : Nat) : BitVec n := BitVec.ofNat n (w / 2 ^ lo)

/-- The stream kinds of R115. -/
inductive StreamKind where
  | group | matrix | bank
  deriving DecidableEq, Repr

/-- Bits [lo+n-1:lo] of a word are zero. -/
def zeroAt (lo n w : Nat) : Bool := w / 2 ^ lo % 2 ^ n == 0

/-- A parse that holds only where a must-be-zero field is zero (R67, MBZ); where a word breaks a limit of its other fields too, MBZ is
its code (DESIGN CHOICE, log 8). -/
def mbzThen (z : Bool) (i : Instr) : Except PrickCode Instr := if z then .ok i else .error .mbz

/-- The d, a and b fields and the route selector of the RRR format (R47). -/
def rrr (f : VReg → VReg → VReg → Route → Instr) (w : Nat) : Except PrickCode Instr :=
  .ok (f (fld 7 19 w) (fld 7 12 w) (fld 7 5 w) (fld 3 2 w))

/-- RRR with b zero (R89, R105). -/
def rr0 (f : VReg → VReg → Route → Instr) (w : Nat) : Except PrickCode Instr :=
  mbzThen (zeroAt 5 7 w) (f (fld 7 19 w) (fld 7 12 w) (fld 3 2 w))

/-- RRR with [4:2] zero. -/
def rrrZ (f : VReg → VReg → VReg → Instr) (w : Nat) : Except PrickCode Instr :=
  mbzThen (zeroAt 2 3 w) (f (fld 7 19 w) (fld 7 12 w) (fld 7 5 w))

/-- RI (R47). -/
def ri (f : VReg → VReg → BitVec 12 → Instr) (w : Nat) : Except PrickCode Instr :=
  .ok (f (fld 7 19 w) (fld 7 12 w) (fld 12 0 w))

/-- RL (R47). -/
def rl (f : VReg → BitVec 19 → Instr) (w : Nat) : Except PrickCode Instr := .ok (f (fld 7 19 w) (fld 19 0 w))

/-- The priority and offset of a BR-format word (R49). -/
def branchOf (w : Nat) : Branch := { prio := fld 8 15 w, off := fld 15 0 w }

/-- A choice by the minor [1:0] of four members. -/
def minor4 (w : Nat) (m0 m1 m2 m3 : Except PrickCode Instr) : Except PrickCode Instr :=
  match w % 4 with
  | 0 => m0
  | 1 => m1
  | 2 => m2
  | _ => m3

/-- SYS, major 0x01 (R51). -/
def parseSys (w : Nat) : Except PrickCode Instr :=
  match w / 2 ^ 22 % 16 with
  | 0 => mbzThen (zeroAt 0 22 w) .nop
  | 1 => mbzThen (zeroAt 0 22 w) .yield
  | 2 => mbzThen (zeroAt 0 22 w) .exit
  | 3 => mbzThen (zeroAt 0 22 w) .pchk
  | 4 => mbzThen (zeroAt 16 6 w) (.trap (fld 16 0 w))
  | 5 => mbzThen (zeroAt 0 22 w) .tret
  | 6 => mbzThen (zeroAt 5 17 w) (.cclr (fld 5 0 w))
  | 7 => mbzThen (zeroAt 8 6 w) (.srd (fld 7 15 w) (w / 2 ^ 14 % 2 == 1) (fld 8 0 w))
  | 8 => mbzThen (zeroAt 8 7 w) (.swr (fld 7 15 w) (fld 8 0 w))
  | 9 => mbzThen (zeroAt 0 5 w) (.boost (fld 7 15 w) (fld 7 8 w) (fld 3 5 w))
  | _ => .error .rsvSel

/-- SYNC, major 0x08 (R52). -/
def parseSync (w : Nat) : Except PrickCode Instr :=
  match w / 2 ^ 23 % 8 with
  | 0 => mbzThen (zeroAt 0 10 w) (.rinit (fld 5 18 w) (fld 8 10 w))
  | 1 => mbzThen (zeroAt 0 18 w) (.arv (fld 5 18 w))
  | 2 => mbzThen (zeroAt 0 18 w) (.rwait (fld 5 18 w))
  | 3 => mbzThen (zeroAt 0 13 w) (.qwait (fld 3 20 w) (fld 7 13 w))
  | 4 => mbzThen (zeroAt 0 20 w) (.qrel (fld 3 20 w))
  | _ => .error .rsvSel

/-- Major 0x0A (R85). -/
def parseBlocks (w : Nat) : Except PrickCode Instr :=
  minor4 w
    (mbzThen (zeroAt 2 10 w && zeroAt 19 7 w) (.wbase (fld 7 12 w)))
    (mbzThen (zeroAt 2 24 w) .racq)
    (mbzThen (zeroAt 2 24 w) .rrel)
    (mbzThen (zeroAt 2 3 w && zeroAt 19 7 w) (.opf (fld 7 12 w) (fld 7 5 w)))

/-- The M format of LD and ST (R55). -/
def memHint (f : VReg → VReg → MWidth → BitVec 2 → BitVec 7 → Instr) (w : Nat) : Except PrickCode Instr :=
  .ok (f (fld 7 19 w) (fld 7 12 w) (fld 3 9 w) (fld 2 7 w) (fld 7 0 w))

/-- The M format of LDS and STS, whose hint must be 0 (R55; COMBO). -/
def memScratch (f : VReg → VReg → MWidth → BitVec 7 → Instr) (w : Nat) : Except PrickCode Instr :=
  if w / 2 ^ 9 % 8 < 5 then
    if widthReg (fld 3 9 w) (fld 7 19 w) then
      if zeroAt 7 2 w then .ok (f (fld 7 19 w) (fld 7 12 w) (fld 3 9 w) (fld 7 0 w)) else .error .combo
    else .error .regFld
  else .error .rsvSel

/-- The M format of LDA and STL (R55). -/
def memScope (f : VReg → VReg → MWidth → BitVec 3 → BitVec 4 → Instr) (w : Nat) : Except PrickCode Instr :=
  if w / 2 ^ 9 % 8 < 5 && w / 2 ^ 4 % 8 < 6 then
    mbzThen (zeroAt 7 2 w) (f (fld 7 19 w) (fld 7 12 w) (fld 3 9 w) (fld 3 4 w) (fld 4 0 w))
  else .error .rsvSel

/-- Major 0x3C, selector [4:0] (R50). -/
def parseSweep (w : Nat) : Except PrickCode Instr :=
  match w % 32 with
  | 0 => mbzThen (zeroAt 5 7 w) (.swreg (fld 7 19 w) (fld 7 12 w))
  | 1 => mbzThen (zeroAt 12 14 w) (.swdel (fld 7 5 w))
  | 2 => mbzThen (zeroAt 5 7 w) (.swpos (fld 7 19 w) (fld 7 12 w))
  | 3 => mbzThen (zeroAt 5 7 w && zeroAt 19 7 w) (.swwait (fld 7 12 w))
  | 4 => mbzThen (zeroAt 5 7 w && zeroAt 19 7 w) (.bkcmd (fld 7 12 w))
  | _ => .error .rsvSel

/-- A comparison: k at [25:23], condition at [22:19] (R91, R94, R102). -/
def parseCmp (nc : Nat) (f : KReg → BitVec 4 → VReg → VReg → Route → Instr) (w : Nat) : Except PrickCode Instr :=
  if w / 2 ^ 19 % 16 < nc then
    mbzThen (zeroAt 0 2 w) (f (fld 3 23 w) (fld 4 19 w) (fld 7 12 w) (fld 7 5 w) (fld 3 2 w))
  else .error .rsvSel

/-- The fields of a group-stream word, by its major (R50). -/
def parseGroup (w : Nat) : Except PrickCode Instr :=
  match w / 2 ^ 26 with
  | 0x01 => parseSys w
  | 0x02 => if zeroAt 23 3 w then .ok (.br (branchOf w)) else .error .brk
  | 0x03 => .ok (.bt (fld 3 23 w) (branchOf w))
  | 0x04 => .ok (.bf (fld 3 23 w) (branchOf w))
  | 0x05 => if zeroAt 23 3 w then .ok (.call (branchOf w)) else .error .brk
  | 0x06 =>
    match w % 4 with
    | 0 => mbzThen (zeroAt 2 24 w) .ret
    | 1 => mbzThen (zeroAt 2 10 w && zeroAt 19 7 w) (.bx (fld 7 12 w))
    | _ => .error .rsvSel
  | 0x07 => mbzThen (zeroAt 0 2 w) (.wait (fld 6 20 w) (fld 6 14 w) (fld 6 8 w) (fld 6 2 w))
  | 0x08 => parseSync w
  | 0x09 =>
    if w / 2 ^ 23 % 8 < 6 && w / 2 ^ 20 % 8 < 2 then mbzThen (zeroAt 0 20 w) (.fence (fld 3 23 w) (fld 3 20 w))
    else .error .rsvSel
  | 0x0A => parseBlocks w
  | 0x0B => mbzThen (zeroAt 0 5 w) (.route (fld 3 23 w) (fld 2 21 w) (fld 7 14 w) (fld 2 12 w) (fld 7 5 w))
  | 0x0C => minor4 w (rrr .iadd w) (rrr .isub w) (rrr .imul w) (rrr .imulh w)
  | 0x0D => minor4 w (rrr .imin w) (rrr .imax w) (rrr .iminu w) (rrr .imaxu w)
  | 0x0E => minor4 w (rrr .and w) (rrr .or w) (rrr .xor w) (rrr .andn w)
  | 0x0F => minor4 w (rrr .shl w) (rrr .shr w) (rrr .sar w) (rrr .rot w)
  | 0x10 => minor4 w (rrr .imad w) (rrr .imadw w) (rrr .isad w) (rrr .isel w)
  | 0x11 => minor4 w (rr0 .clz w) (rr0 .popc w) (rr0 .brev w) (rr0 .iabs w)
  | 0x12 => minor4 w (rrr .bfx w) (rrr .bfi w) (.error .rsvSel) (.error .rsvSel)
  | 0x13 => parseCmp 10 .icmp w
  | 0x14 => ri .iaddi w
  | 0x15 => ri .andi w
  | 0x16 => ri .ori w
  | 0x17 => ri .xori w
  | 0x18 => mbzThen (zeroAt 5 5 w) (.shi (fld 7 19 w) (fld 7 12 w) (fld 2 10 w) (fld 5 0 w))
  | 0x19 => rl .movi w
  | 0x1A => rl .movh w
  | 0x1B => ri .lea w
  | 0x1C => minor4 w (rrrZ .sadd w) (rrrZ .ssub w) (rrrZ .smul w) (rrrZ .sand w)
  | 0x1D => minor4 w (rrrZ .sor w) (rrrZ .sxor w) (rrrZ .sshl w) (rrrZ .sshr w)
  | 0x1E => ri .saddi w
  | 0x1F => rl .smovi w
  | 0x20 =>
    if w / 2 ^ 19 % 16 < 10 then mbzThen (zeroAt 0 5 w) (.scmp (fld 3 23 w) (fld 4 19 w) (fld 7 12 w) (fld 7 5 w))
    else .error .rsvSel
  | 0x21 => rl .smovh w
  | 0x22 => minor4 w (rrr .iadds w) (rrr .imuls w) (rrr .fmuls w) (rrr .ffmas w)
  | 0x23 =>
    minor4 w
      (mbzThen (zeroAt 2 10 w) (.vbcst (fld 7 19 w) (fld 7 12 w)))
      (mbzThen (zeroAt 2 3 w) (.vpick (fld 7 19 w) (fld 7 12 w) (fld 7 5 w)))
      (mbzThen (zeroAt 2 10 w) (.movk (fld 7 19 w) (fld 7 12 w)))
      (mbzThen (zeroAt 2 17 w) (.vlane (fld 7 19 w)))
  | 0x24 =>
    minor4 w (rrrZ .lshf w)
      (if w / 2 ^ 2 % 8 < 3 then mbzThen (zeroAt 5 7 w) (.lvote (fld 7 19 w) (fld 7 12 w) (fld 3 2 w)) else .error .rsvSel)
      (rr0 .lred w) (rr0 .lscan w)
  | 0x26 => minor4 w (rrr .fadd w) (rrr .fsub w) (rrr .fmul w) (rrr .fmin w)
  | 0x27 => minor4 w (rrr .fmax w) (rrr .ffma w) (rrr .fcpys w) (rrr .fdiv w)
  | 0x28 => parseCmp 8 .fcmp w
  | 0x29 => minor4 w (rrr .hadd2 w) (rrr .hmul2 w) (rrr .hfma2 w) (rrr .hmax2 w)
  | 0x2A => minor4 w (rrr .badd2 w) (rrr .bmul2 w) (rrr .bfma2 w) (rrr .bmax2 w)
  | 0x2B =>
    if w / 2 ^ 5 % 128 < 10 then mbzThen (zeroAt 0 2 w) (.fcvt (fld 7 19 w) (fld 7 12 w) (fld 7 5 w) (fld 3 2 w))
    else .error .rsvSel
  | 0x2C => minor4 w (rr0 .frcp w) (rr0 .frsq w) (rr0 .fsqrt w) (rr0 .fexp2 w)
  | 0x2D => minor4 w (rr0 .flog2 w) (rr0 .fsin w) (rr0 .fcos w) (rr0 .ftanh w)
  | 0x2E => mbzThen (zeroAt 5 7 w) (.frnd (fld 7 19 w) (fld 7 12 w) (fld 3 2 w) (fld 2 0 w))
  | 0x2F => .ok (.xsig (fld 7 19 w) (fld 9 10 w) (fld 10 0 w))
  | 0x30 => memHint .ld w
  | 0x31 => memHint .st w
  | 0x32 => memScratch .lds w
  | 0x33 => memScratch .sts w
  | 0x34 => memScope .lda w
  | 0x35 => memScope .stl w
  | 0x36 => .ok (.atom (fld 7 19 w) (fld 7 12 w) (fld 7 5 w) (fld 3 2 w) (fld 2 0 w))
  | 0x37 => .ok (.atomx (fld 7 19 w) (fld 7 12 w) (fld 7 5 w) (fld 3 2 w) (fld 2 0 w))
  | 0x38 => mbzThen (zeroAt 19 7 w) (.red (fld 7 12 w) (fld 7 5 w) (fld 3 2 w) (fld 2 0 w))
  | 0x39 =>
    if w / 2 ^ 2 % 8 < 4 then mbzThen (zeroAt 19 7 w) (.mwait (fld 7 12 w) (fld 7 5 w) (fld 3 2 w) (fld 2 0 w))
    else .error .rsvSel
  | 0x3A =>
    minor4 w
      (mbzThen (zeroAt 2 3 w && zeroAt 19 7 w) (.cclean (fld 7 12 w) (fld 7 5 w)))
      (mbzThen (zeroAt 2 3 w && zeroAt 19 7 w) (.cinv (fld 7 12 w) (fld 7 5 w)))
      (mbzThen (zeroAt 2 3 w && zeroAt 19 7 w) (.cclinv (fld 7 12 w) (fld 7 5 w)))
      (mbzThen (zeroAt 2 3 w && zeroAt 19 7 w) (.pref (fld 7 12 w) (fld 7 5 w)))
  | 0x3B =>
    minor4 w
      (mbzThen (zeroAt 2 3 w && zeroAt 19 7 w) (.smap (fld 7 12 w) (fld 7 5 w)))
      (mbzThen (zeroAt 2 3 w && zeroAt 12 14 w) (.sunmap (fld 7 5 w)))
      (mbzThen (zeroAt 2 3 w && zeroAt 12 14 w) (.sflush (fld 7 5 w)))
      (.error .rsvSel)
  | 0x3C => parseSweep w
  | 0x3D =>
    minor4 w
      (mbzThen (zeroAt 2 3 w && zeroAt 19 7 w) (.ladpush (fld 7 12 w) (fld 7 5 w)))
      (mbzThen (zeroAt 2 24 w) .ladesc)
      (mbzThen (zeroAt 2 3 w && zeroAt 12 14 w) (.laddone (fld 7 5 w)))
      (mbzThen (zeroAt 2 3 w && zeroAt 12 7 w) (.ladstat (fld 7 19 w) (fld 7 5 w)))
  | 0x3E =>
    minor4 w
      (mbzThen (zeroAt 2 3 w) (.ldt (fld 7 19 w) (fld 7 12 w) (fld 7 5 w)))
      (mbzThen (zeroAt 2 3 w) (.stt (fld 7 19 w) (fld 7 12 w) (fld 7 5 w)))
      (.error .rsvSel) (.error .rsvSel)
  | _ => .error .rsvMaj

/-- The fields of a matrix-stream word (R56). -/
def parseMatrix (w : Nat) : Except PrickCode Instr :=
  match w / 2 ^ 28 with
  | 0x0 => mbzThen (zeroAt 0 28 w) .mend
  | 0x1 => mbzThen (zeroAt 0 25 w) (.mzero (fld 3 25 w))
  | 0x2 => mbzThen (zeroAt 0 20 w) (.mlda (fld 2 26 w) (fld 3 23 w) (fld 3 20 w))
  | 0x3 =>
    mbzThen (zeroAt 0 13 w)
      (.mma (fld 3 25 w) (fld 2 23 w) (fld 3 20 w) (fld 3 17 w) (fld 3 14 w) (w / 2 ^ 13 % 2 == 1))
  | 0x4 =>
    if w / 2 ^ 21 % 2 = 0 then .ok (.mstScratch (fld 3 25 w) (fld 3 22 w) (fld 21 0 w))
    else mbzThen (zeroAt 0 18 w) (.mstRing (fld 3 25 w) (fld 3 22 w) (fld 3 18 w))
  | 0x5 => mbzThen (zeroAt 0 25 w) (.mrel (fld 3 25 w))
  | 0x6 => mbzThen (zeroAt 0 23 w) (.marv (fld 5 23 w))
  | 0x7 => mbzThen (zeroAt 0 23 w) (.mwt (fld 5 23 w))
  | 0x8 => mbzThen (zeroAt 0 8 w) (.mloop (fld 12 16 w) (fld 8 8 w))
  | 0x9 => mbzThen (zeroAt 0 24 w) (.mgang (fld 4 24 w))
  | _ => .error .rsvMaj

/-- A bank word with xd, xa and xb (R58): its zero fields are looked at before its type, so a word that breaks both limits is refused
under MBZ (R67 does not say which code such a word has; DESIGN CHOICE, log 8). -/
def bank3 (f : BitVec 3 → BitVec 2 → BitVec 2 → BitVec 2 → Instr) (w : Nat) : Except PrickCode Instr :=
  mbzThen (zeroAt 0 18 w) (f (fld 3 24 w) (fld 2 22 w) (fld 2 20 w) (fld 2 18 w))

/-- A bank word with xd, xa and the [17:15] field (R58): its zero fields are looked at before its type (DESIGN CHOICE, log 8). -/
def bankC (f : BitVec 3 → BitVec 2 → BitVec 2 → BitVec 3 → Instr) (w : Nat) : Except PrickCode Instr :=
  mbzThen (zeroAt 0 15 w && zeroAt 18 2 w) (f (fld 3 24 w) (fld 2 22 w) (fld 2 20 w) (fld 3 15 w))

/-- The fields of a bank-program word (R58); where a word breaks several limits, its zero fields decide the code (DESIGN CHOICE, log 8). -/
def parseBank (w : Nat) : Except PrickCode Instr :=
  match w / 2 ^ 27 with
  | 0x00 => mbzThen (zeroAt 0 27 w) .xend
  | 0x01 => mbzThen (zeroAt 0 13 w && zeroAt 15 7 w && zeroAt 24 3 w) (.xld (fld 2 22 w) (fld 2 13 w))
  | 0x02 => mbzThen (zeroAt 0 13 w && zeroAt 15 5 w && zeroAt 22 5 w) (.xst (fld 2 13 w) (fld 2 20 w))
  | 0x03 => bank3 .xadd w
  | 0x04 => bank3 .xsub w
  | 0x05 => bank3 .xmul w
  | 0x06 => bank3 .xfma w
  | 0x07 => bankC .xscl w
  | 0x08 => bankC .xaddc w
  | 0x09 => bank3 .xmax w
  | 0x0A => bank3 .xmin w
  | 0x0B => bankC .xclmp w
  | 0x0C => bankC .xcvt w
  | 0x0D => mbzThen (zeroAt 0 20 w) (.xrsq (fld 3 24 w) (fld 2 22 w) (fld 2 20 w))
  | 0x0E => bank3 .xsel w
  | 0x0F => mbzThen (zeroAt 0 22 w && zeroAt 24 3 w) (.xzero (fld 2 22 w))
  | _ => .error .rsvMaj

/-- The fields of a word under one stream kind. -/
def parseWord : StreamKind → Nat → Except PrickCode Instr
  | .group, w => parseGroup w
  | .matrix, w => parseMatrix w
  | .bank, w => parseBank w

/-- The instruction of a word under one stream kind, or the reason the pricker refuses it (R67). -/
def decodeWord (k : StreamKind) (w : Word) : Except PrickCode Instr :=
  match parseWord k w.toNat with
  | .error c => .error c
  | .ok i => match check i with
    | none => .ok i
    | some c => .error c

/-- The copy-ring entry of 32 little-endian bytes, as a number (R60, R208, R237). -/
def entryOf (v : Nat) : Entry :=
  { flags := fld 8 8 v, point := fld 8 16 v, slots := fld 8 24 v, src := fld 64 32 v, dst := fld 64 96 v,
    rows := fld 32 160 v, rowBytes := fld 16 192 v, stride := fld 16 208 v, stampOff := fld 32 224 v }

/-- The command of a copy-ring entry by its code (R60). -/
def entryInstr (code : Nat) (e : Entry) : Instr :=
  match code with
  | 1 => .cp e
  | 2 => .cpt e
  | 3 => .cpg e
  | 4 => .cps e
  | 5 => .cpf e
  | 6 => .cpr e
  | 7 => .cpm e
  | 8 => .cpc e
  | 9 => .cpn e
  | _ => .unknownCommandEntry (BitVec.ofNat 8 code) e

/-- The command of 32 bytes of a copy ring, as a number. -/
def decodeEntry (v : Nat) : Instr := entryInstr (v % 256) (entryOf v)

/-- The instruction of the bytes of one word: fewer than four bytes hold no word (R47). -/
def decodeBytes (k : StreamKind) (bs : List Byte) : Except PrickCode Instr :=
  if bs.length < 4 then .error .rsvMaj else decodeWord k (BitVec.ofNat 32 (leNat (bs.take 4)))

/-- The stream a word is read in where the opcode table alone names it: the group stream where that map admits it, else
the matrix stream, else a bank program (DESIGN CHOICE, log 9). -/
def tableKind (w : Nat) : StreamKind :=
  match decodeWord .group (BitVec.ofNat 32 w) with
  | .ok _ => .group
  | .error _ => match decodeWord .matrix (BitVec.ofNat 32 w) with
    | .ok _ => .matrix
    | .error _ => .bank

/-- The instruction of the opcode table's bits: a word of one of the three streams, or the 32 bytes of a copy entry. -/
def decodeTableWord (nbits w : Nat) : Option Instr :=
  if 32 < nbits then some (decodeEntry w)
  else if nbits = 0 then none
  else match decodeBytes (tableKind w) (natLE 4 w) with
    | .ok i => some i
    | .error _ => none

/-! ## The encoder -/

/-- RRR (R47). -/
def encRrr (maj d a b r m : Nat) : Nat := maj * 2 ^ 26 + d * 2 ^ 19 + a * 2 ^ 12 + b * 2 ^ 5 + r * 4 + m

/-- RI (R47). -/
def encRi (maj d a imm : Nat) : Nat := maj * 2 ^ 26 + d * 2 ^ 19 + a * 2 ^ 12 + imm

/-- RL (R47). -/
def encRl (maj d imm : Nat) : Nat := maj * 2 ^ 26 + d * 2 ^ 19 + imm

/-- BR (R47). -/
def encBr (maj k : Nat) (b : Branch) : Nat := maj * 2 ^ 26 + k * 2 ^ 23 + b.prio.toNat * 2 ^ 15 + b.off.toNat

/-- M (R47). -/
def encM (maj d a w h off : Nat) : Nat := maj * 2 ^ 26 + d * 2 ^ 19 + a * 2 ^ 12 + w * 2 ^ 9 + h * 2 ^ 7 + off

/-- SYS (R51). -/
def encSys (sel low : Nat) : Nat := 2 ^ 26 + sel * 2 ^ 22 + low

/-- SYNC (R52). -/
def encSync (sel low : Nat) : Nat := 8 * 2 ^ 26 + sel * 2 ^ 23 + low

/-- A bank word (R58). -/
def encBank (op t xd xa xb c row : Nat) : Nat :=
  op * 2 ^ 27 + t * 2 ^ 24 + xd * 2 ^ 22 + xa * 2 ^ 20 + xb * 2 ^ 18 + c * 2 ^ 15 + row * 2 ^ 13

/-- A copy entry (R208, R237). -/
def encEntry (code : Nat) (e : Entry) : Nat :=
  code + e.flags.toNat * 2 ^ 8 + e.point.toNat * 2 ^ 16 + e.slots.toNat * 2 ^ 24 + e.src.toNat * 2 ^ 32
    + e.dst.toNat * 2 ^ 96 + e.rows.toNat * 2 ^ 160 + e.rowBytes.toNat * 2 ^ 192 + e.stride.toNat * 2 ^ 208
    + e.stampOff.toNat * 2 ^ 224

/-- The word of a three-register instruction. -/
def e3 (maj m : Nat) (d a b : VReg) (rt : Route) : Nat := encRrr maj d.toNat a.toNat b.toNat rt.toNat m

/-- The word of a two-register instruction. -/
def e2 (maj m : Nat) (d a : VReg) (rt : Route) : Nat := encRrr maj d.toNat a.toNat 0 rt.toNat m

/-- The word of an instruction of one of the three streams, as a number; 0 where the row is no word. -/
def encodeWord : Instr → Nat
  | .nop => encSys 0 0
  | .yield => encSys 1 0
  | .exit => encSys 2 0
  | .pchk => encSys 3 0
  | .trap c => encSys 4 c.toNat
  | .tret => encSys 5 0
  | .cclr b => encSys 6 b.toNat
  | .srd d v sr => encSys 7 (d.toNat * 2 ^ 15 + (if v then 1 else 0) * 2 ^ 14 + sr.toNat)
  | .swr a sr => encSys 8 (a.toNat * 2 ^ 15 + sr.toNat)
  | .boost d a bin => encSys 9 (d.toNat * 2 ^ 15 + a.toNat * 2 ^ 8 + bin.toNat * 2 ^ 5)
  | .br b => encBr 2 0 b
  | .bt k b => encBr 3 k.toNat b
  | .bf k b => encBr 4 k.toNat b
  | .call b => encBr 5 0 b
  | .ret => encRrr 6 0 0 0 0 0
  | .bx a => encRrr 6 0 a.toNat 0 0 1
  | .wait l s c t => 7 * 2 ^ 26 + l.toNat * 2 ^ 20 + s.toNat * 2 ^ 14 + c.toNat * 2 ^ 8 + t.toNat * 2 ^ 2
  | .rinit p e => encSync 0 (p.toNat * 2 ^ 18 + e.toNat * 2 ^ 10)
  | .arv p => encSync 1 (p.toNat * 2 ^ 18)
  | .rwait p => encSync 2 (p.toNat * 2 ^ 18)
  | .qwait q d => encSync 3 (q.toNat * 2 ^ 20 + d.toNat * 2 ^ 13)
  | .qrel q => encSync 4 (q.toNat * 2 ^ 20)
  | .fence sc k => 9 * 2 ^ 26 + sc.toNat * 2 ^ 23 + k.toNat * 2 ^ 20
  | .wbase n => encRrr 10 0 n.toNat 0 0 0
  | .racq => encRrr 10 0 0 0 0 1
  | .rrel => encRrr 10 0 0 0 0 2
  | .opf a b => encRrr 10 0 a.toNat b.toNat 0 3
  | .route n ka ma kb mb =>
    11 * 2 ^ 26 + n.toNat * 2 ^ 23 + ka.toNat * 2 ^ 21 + ma.toNat * 2 ^ 14 + kb.toNat * 2 ^ 12 + mb.toNat * 2 ^ 5
  | .iadd d a b rt => e3 12 0 d a b rt
  | .isub d a b rt => e3 12 1 d a b rt
  | .imul d a b rt => e3 12 2 d a b rt
  | .imulh d a b rt => e3 12 3 d a b rt
  | .imin d a b rt => e3 13 0 d a b rt
  | .imax d a b rt => e3 13 1 d a b rt
  | .iminu d a b rt => e3 13 2 d a b rt
  | .imaxu d a b rt => e3 13 3 d a b rt
  | .and d a b rt => e3 14 0 d a b rt
  | .or d a b rt => e3 14 1 d a b rt
  | .xor d a b rt => e3 14 2 d a b rt
  | .andn d a b rt => e3 14 3 d a b rt
  | .shl d a b rt => e3 15 0 d a b rt
  | .shr d a b rt => e3 15 1 d a b rt
  | .sar d a b rt => e3 15 2 d a b rt
  | .rot d a b rt => e3 15 3 d a b rt
  | .imad d a b rt => e3 16 0 d a b rt
  | .imadw d a b rt => e3 16 1 d a b rt
  | .isad d a b rt => e3 16 2 d a b rt
  | .isel d a b k => e3 16 3 d a b k
  | .clz d a rt => e2 17 0 d a rt
  | .popc d a rt => e2 17 1 d a rt
  | .brev d a rt => e2 17 2 d a rt
  | .iabs d a rt => e2 17 3 d a rt
  | .bfx d a b rt => e3 18 0 d a b rt
  | .bfi d a b rt => e3 18 1 d a b rt
  | .icmp k c a b rt => 19 * 2 ^ 26 + k.toNat * 2 ^ 23 + c.toNat * 2 ^ 19 + a.toNat * 2 ^ 12 + b.toNat * 2 ^ 5 + rt.toNat * 4
  | .iaddi d a i => encRi 20 d.toNat a.toNat i.toNat
  | .andi d a i => encRi 21 d.toNat a.toNat i.toNat
  | .ori d a i => encRi 22 d.toNat a.toNat i.toNat
  | .xori d a i => encRi 23 d.toNat a.toNat i.toNat
  | .shi d a k n => encRi 24 d.toNat a.toNat (k.toNat * 2 ^ 10 + n.toNat)
  | .movi d i => encRl 25 d.toNat i.toNat
  | .movh d i => encRl 26 d.toNat i.toNat
  | .lea d a i => encRi 27 d.toNat a.toNat i.toNat
  | .sadd d a b => e3 28 0 d a b 0
  | .ssub d a b => e3 28 1 d a b 0
  | .smul d a b => e3 28 2 d a b 0
  | .sand d a b => e3 28 3 d a b 0
  | .sor d a b => e3 29 0 d a b 0
  | .sxor d a b => e3 29 1 d a b 0
  | .sshl d a b => e3 29 2 d a b 0
  | .sshr d a b => e3 29 3 d a b 0
  | .saddi d a i => encRi 30 d.toNat a.toNat i.toNat
  | .smovi d i => encRl 31 d.toNat i.toNat
  | .scmp k c a b => 32 * 2 ^ 26 + k.toNat * 2 ^ 23 + c.toNat * 2 ^ 19 + a.toNat * 2 ^ 12 + b.toNat * 2 ^ 5
  | .smovh d i => encRl 33 d.toNat i.toNat
  | .iadds d a b rt => e3 34 0 d a b rt
  | .imuls d a b rt => e3 34 1 d a b rt
  | .fmuls d a b rt => e3 34 2 d a b rt
  | .ffmas d a b rt => e3 34 3 d a b rt
  | .vbcst d a => encRrr 35 d.toNat a.toNat 0 0 0
  | .vpick d a l => encRrr 35 d.toNat a.toNat l.toNat 0 1
  | .movk d a => encRrr 35 d.toNat a.toNat 0 0 2
  | .vlane d => encRrr 35 d.toNat 0 0 0 3
  | .lshf d a b => e3 36 0 d a b 0
  | .lvote d a k => e2 36 1 d a k
  | .lred d a op => e2 36 2 d a op
  | .lscan d a op => e2 36 3 d a op
  | .fadd d a b rt => e3 38 0 d a b rt
  | .fsub d a b rt => e3 38 1 d a b rt
  | .fmul d a b rt => e3 38 2 d a b rt
  | .fmin d a b rt => e3 38 3 d a b rt
  | .fmax d a b rt => e3 39 0 d a b rt
  | .ffma d a b rt => e3 39 1 d a b rt
  | .fcpys d a b rt => e3 39 2 d a b rt
  | .fdiv d a b rt => e3 39 3 d a b rt
  | .fcmp k c a b rt => 40 * 2 ^ 26 + k.toNat * 2 ^ 23 + c.toNat * 2 ^ 19 + a.toNat * 2 ^ 12 + b.toNat * 2 ^ 5 + rt.toNat * 4
  | .hadd2 d a b rt => e3 41 0 d a b rt
  | .hmul2 d a b rt => e3 41 1 d a b rt
  | .hfma2 d a b rt => e3 41 2 d a b rt
  | .hmax2 d a b rt => e3 41 3 d a b rt
  | .badd2 d a b rt => e3 42 0 d a b rt
  | .bmul2 d a b rt => e3 42 1 d a b rt
  | .bfma2 d a b rt => e3 42 2 d a b rt
  | .bmax2 d a b rt => e3 42 3 d a b rt
  | .fcvt d a k s => encRrr 43 d.toNat a.toNat k.toNat s.toNat 0
  | .frcp d a rt => e2 44 0 d a rt
  | .frsq d a rt => e2 44 1 d a rt
  | .fsqrt d a rt => e2 44 2 d a rt
  | .fexp2 d a rt => e2 44 3 d a rt
  | .flog2 d a rt => e2 45 0 d a rt
  | .fsin d a rt => e2 45 1 d a rt
  | .fcos d a rt => e2 45 2 d a rt
  | .ftanh d a rt => e2 45 3 d a rt
  | .frnd d a rt m => e2 46 m.toNat d a rt
  | .xsig d r c => 47 * 2 ^ 26 + d.toNat * 2 ^ 19 + r.toNat * 2 ^ 10 + c.toNat
  | .ld d a w h o => encM 48 d.toNat a.toNat w.toNat h.toNat o.toNat
  | .st d a w h o => encM 49 d.toNat a.toNat w.toNat h.toNat o.toNat
  | .lds d a w o => encM 50 d.toNat a.toNat w.toNat 0 o.toNat
  | .sts d a w o => encM 51 d.toNat a.toNat w.toNat 0 o.toNat
  | .lda d a w sc o => encM 52 d.toNat a.toNat w.toNat 0 (sc.toNat * 2 ^ 4 + o.toNat)
  | .stl d a w sc o => encM 53 d.toNat a.toNat w.toNat 0 (sc.toNat * 2 ^ 4 + o.toNat)
  | .atom d a b op sc => e3 54 sc.toNat d a b op
  | .atomx d a b op sc => e3 55 sc.toNat d a b op
  | .red a b op sc => encRrr 56 0 a.toNat b.toNat op.toNat sc.toNat
  | .mwait a b c sc => encRrr 57 0 a.toNat b.toNat c.toNat sc.toNat
  | .cclean a b => encRrr 58 0 a.toNat b.toNat 0 0
  | .cinv a b => encRrr 58 0 a.toNat b.toNat 0 1
  | .cclinv a b => encRrr 58 0 a.toNat b.toNat 0 2
  | .pref a b => encRrr 58 0 a.toNat b.toNat 0 3
  | .smap a b => encRrr 59 0 a.toNat b.toNat 0 0
  | .sunmap b => encRrr 59 0 0 b.toNat 0 1
  | .sflush b => encRrr 59 0 0 b.toNat 0 2
  | .swreg d a => encRrr 60 d.toNat a.toNat 0 0 0
  | .swdel b => encRrr 60 0 0 b.toNat 0 1
  | .swpos d a => encRrr 60 d.toNat a.toNat 0 0 2
  | .swwait a => encRrr 60 0 a.toNat 0 0 3
  | .bkcmd a => encRrr 60 0 a.toNat 0 1 0
  | .ladpush a b => encRrr 61 0 a.toNat b.toNat 0 0
  | .ladesc => encRrr 61 0 0 0 0 1
  | .laddone b => encRrr 61 0 0 b.toNat 0 2
  | .ladstat d n => encRrr 61 d.toNat 0 n.toNat 0 3
  | .ldt d a n => encRrr 62 d.toNat a.toNat n.toNat 0 0
  | .stt d a n => encRrr 62 d.toNat a.toNat n.toNat 0 1
  | .mend => 0
  | .mzero z => 1 * 2 ^ 28 + z.toNat * 2 ^ 25
  | .mlda ta q s => 2 * 2 ^ 28 + ta.toNat * 2 ^ 26 + q.toNat * 2 ^ 23 + s.toNat * 2 ^ 20
  | .mma z ta q sa sb r =>
    3 * 2 ^ 28 + z.toNat * 2 ^ 25 + ta.toNat * 2 ^ 23 + q.toNat * 2 ^ 20 + sa.toNat * 2 ^ 17 + sb.toNat * 2 ^ 14
      + (if r then 1 else 0) * 2 ^ 13
  | .mstScratch z s o => 4 * 2 ^ 28 + z.toNat * 2 ^ 25 + s.toNat * 2 ^ 22 + o.toNat
  | .mstRing z s q => 4 * 2 ^ 28 + z.toNat * 2 ^ 25 + s.toNat * 2 ^ 22 + 2 ^ 21 + q.toNat * 2 ^ 18
  | .mrel q => 5 * 2 ^ 28 + q.toNat * 2 ^ 25
  | .marv p => 6 * 2 ^ 28 + p.toNat * 2 ^ 23
  | .mwt p => 7 * 2 ^ 28 + p.toNat * 2 ^ 23
  | .mloop c l => 8 * 2 ^ 28 + c.toNat * 2 ^ 16 + l.toNat * 2 ^ 8
  | .mgang m => 9 * 2 ^ 28 + m.toNat * 2 ^ 24
  | .xend => 0
  | .xld xd r => encBank 1 0 xd.toNat 0 0 0 r.toNat
  | .xst r xa => encBank 2 0 0 xa.toNat 0 0 r.toNat
  | .xadd t d a b => encBank 3 t.toNat d.toNat a.toNat b.toNat 0 0
  | .xsub t d a b => encBank 4 t.toNat d.toNat a.toNat b.toNat 0 0
  | .xmul t d a b => encBank 5 t.toNat d.toNat a.toNat b.toNat 0 0
  | .xfma t d a b => encBank 6 t.toNat d.toNat a.toNat b.toNat 0 0
  | .xscl t d a c => encBank 7 t.toNat d.toNat a.toNat 0 c.toNat 0
  | .xaddc t d a c => encBank 8 t.toNat d.toNat a.toNat 0 c.toNat 0
  | .xmax t d a b => encBank 9 t.toNat d.toNat a.toNat b.toNat 0 0
  | .xmin t d a b => encBank 10 t.toNat d.toNat a.toNat b.toNat 0 0
  | .xclmp t d a c => encBank 11 t.toNat d.toNat a.toNat 0 c.toNat 0
  | .xcvt t d a u => encBank 12 t.toNat d.toNat a.toNat 0 u.toNat 0
  | .xrsq t d a => encBank 13 t.toNat d.toNat a.toNat 0 0 0
  | .xsel t d a b => encBank 14 t.toNat d.toNat a.toNat b.toNat 0 0
  | .xzero d => encBank 15 0 d.toNat 0 0 0 0
  | _ => 0

/-- The code byte of a copy-ring entry (R60). -/
def entryCode : Instr → Option (Nat × Entry)
  | .cp e => some (1, e)
  | .cpt e => some (2, e)
  | .cpg e => some (3, e)
  | .cps e => some (4, e)
  | .cpf e => some (5, e)
  | .cpr e => some (6, e)
  | .cpm e => some (7, e)
  | .cpc e => some (8, e)
  | .cpn e => some (9, e)
  | .unknownCommandEntry c e => some (c.toNat, e)
  | _ => none

/-- The stream whose words hold an instruction; none for copy entries and events. -/
def streamOf : Instr → Option StreamKind
  | .mend | .mzero _ | .mlda _ _ _ | .mma _ _ _ _ _ _ | .mstScratch _ _ _ | .mstRing _ _ _ | .mrel _ | .marv _ | .mwt _
  | .mloop _ _ | .mgang _ => some .matrix
  | .xend | .xld _ _ | .xst _ _ | .xadd _ _ _ _ | .xsub _ _ _ _ | .xmul _ _ _ _ | .xfma _ _ _ _ | .xscl _ _ _ _
  | .xaddc _ _ _ _ | .xmax _ _ _ _ | .xmin _ _ _ _ | .xclmp _ _ _ _ | .xcvt _ _ _ _ | .xrsq _ _ _ | .xsel _ _ _ _
  | .xzero _ => some .bank
  | i => if encodeWord i = 0 then none else some .group

/-- The bytes of an instruction as memory holds them (R2): four for a word, 32 for a copy entry, none for an event. -/
def encode (i : Instr) : List Byte :=
  match entryCode i with
  | some (c, e) => natLE 32 (encEntry c e)
  | none => match streamOf i with
    | some _ => natLE 4 (encodeWord i)
    | none => []

end Sys2Proof
end

