-- ==== Sys2Proof/Machine/Reports.lean ====
section
/-! DEFINITION. What the part writes for system software: notices and the report areas (R291, R354), the retirement record
(R333), and the contexts themselves (R291). -/
namespace Sys2Proof.Machine

/-- The state with the window's work changed. -/
def modWk (s : State) (f : Work → Work) : State := { s with wk := f s.wk }

/-! ## Writes that name a place by its physical address (R352, R355) -/

/-- A home holds a write that names a physical address, whatever page it lies on (R177, R182, R317, R349). -/
def homeHolds (s : State) (pa : Nat) : Bool := mustHold s (frameLocked s pa) pa s.fresh

/-- One line of such a write: an executable page stays as it is (R69); else the write is held at its home or drover, or placed in
its line's order, or, on a page that a context maps SWEPT, written at the row (R107, R180); its completion time where it is not held. -/
def outsideLine (s : State) (line : Nat) (bs : List (Nat × Byte)) : State × Nat :=
  let pa := 32 * line + (bs.head?).elim 0 Prod.fst
  let mt := if sweptAt s pa then 1 else 0
  if execFrame s pa then (s, s.time)
  else if homeHolds s pa then
    (holdWrite s { ctx := noCtx, va := 0, pa := pa, op := .store (bs.map Prod.snd), who := none, core := 4096, id := 0, mtype := mt }, s.time)
  else placeNow s mt pa (bs.map Prod.snd) none 4096

/-- A run of bytes written at a local address by the part itself or from outside: the latest completion time of what is not held. -/
def sysWriteAt (s : State) (loc : Nat) (bs : List Byte) : State × Nat :=
  (splitLines (ownPhys s loc) bs).foldl (fun acc l => let r := outsideLine acc.1 l.1 l.2; (r.1, max acc.2 r.2)) (s, s.time)
def sysWrite (s : State) (loc : Nat) (bs : List Byte) : State := (sysWriteAt s loc bs).1

/-- The home of some line of a run of bytes at a local address holds writes. -/
def sysHolds (s : State) (loc n : Nat) : Bool :=
  (List.range ((loc % 32 + n + 31) / 32)).any fun k => homeHolds s (ownPhys s (loc / 32 * 32 + 32 * k))

/-- `n` bytes at a local physical address, as their homes hold them. -/
def sysRead (s : State) (loc n : Nat) : List Byte := homeBytes s none (ownPhys s loc) n

/-! ## Notices (R353, R354) -/

/-- The ring's fields in NOTICE_BASE. -/
def noticeEn (r : Regs) : Bool := r.noticeBase.getLsbD 59
def noticeSize (r : Regs) : Nat := 2 ^ (bitsOf r.noticeBase.toNat 63 60 + 4)
def noticeAddr (r : Regs) : Nat := bitsOf r.noticeBase.toNat 42 6 * 64

/-- NOTICE_TAIL has passed the notice of an index (R291); both count modulo 2^32. -/
def tailPassed (r : Regs) (idx : Nat) : Bool := decide ((r.noticeTail + 2 ^ 32 - idx % 2 ^ 32 - 1) % 2 ^ 32 < 2 ^ 31)

/-- The ring has room for a notice. -/
def noticeRoom (r : Regs) : Bool :=
  noticeEn r && decide ((r.noticeHead + 2 ^ 32 - r.noticeTail % 2 ^ 32) % 2 ^ 32 < noticeSize r)

/-- The slot of the next record of an area, where the host has consumed the record last written there (R291). -/
def freeSlot (s : State) (id : Nat) : Option (Area × Nat) :=
  (tabGet s.wk.areas id).bind fun a =>
    let k := a.next % max a.slots 1
    match tabGet a.marks k with
    | some idx => if tailPassed (dev s) idx then some (a, k) else none
    | none => some (a, k)

/-- The bytes of a notice (R354). -/
def noticeBytes (n : Notice) (addr : Nat) : List Byte :=
  natLE 2 n.kind ++ natLE 2 0 ++ natLE 4 n.ctx ++ natLE 8 n.time ++ natLE 8 addr ++ natLE 8 n.detail

/-- The advances of HEAD that are still to come (R354). -/
def headPending (s : State) : List Nat := (dev s).noticeVis.filter fun t => decide (s.time < t)

/-- NOTICE_HEAD as it reads now: HEAD counts a notice once its entry is visible (R354). -/
def headRead (s : State) : Nat := ((dev s).noticeHead + 2 ^ 32 - (headPending s).length) % 2 ^ 32

/-- The entry of the ring that the next notice takes. -/
def nextEntryAt (r : Regs) : Nat := noticeAddr r + 32 * (r.noticeHead % noticeSize r)

/-- HEAD takes the notices that have become visible; as it passes TAIL, so that the host has a notice to consume where it had none, MSI-X
vector 0 is sent (R352, R354; DEDUCED, log 30). -/
def advanceHead (s : State) : State :=
  let r := dev s
  let n := r.noticeVis.length
  let passed := ((List.range n).zip r.noticeVis).filter fun p => decide (p.2 ≤ s.time)
  let sent := passed.filter fun p => (r.noticeHead + 2 ^ 32 - (n - p.1)) % 2 ^ 32 == r.noticeTail
  if passed.isEmpty then s
  else modDev s fun r => { r with noticeVis := headPending s, msix := (sent.map Prod.snd).reverse ++ r.msix }

/-- A notice is written, no earlier than a time; HEAD advances with a write of its own at sys scope after it, in the order of the
notices. -/
def putNotice (s0 : State) (n : Notice) (addr after : Nat) : State :=
  let s := advanceHead s0
  let r := dev s
  let loc := nextEntryAt r
  let w := sysWriteAt (notBefore s (ownPhys s loc) after) loc (noticeBytes n addr)
  let due := max (w.2 + Config.skewUnits 5) ((headPending s).getLast?.getD 0)
  modDev w.1 fun r => { r with noticeHead := (r.noticeHead + 1) % 2 ^ 32, noticeVis := r.noticeVis ++ [due] }

/-- The oldest waiting notice is written where the ring and the report area have room and their homes take it, its record first and visible
at dev scope before it (R182, R273). -/
def writeNotice (s : State) (n : Notice) : Option State :=
  if !noticeRoom (dev s) || sysHolds s (nextEntryAt (dev s)) 32 then none
  else match n.area with
    | none => some (putNotice s n 0 s.time)
    | some id => match freeSlot s id with
      | none => none
      | some (a, k) =>
        let addr := a.addr + 8832 * k
        if sysHolds s addr n.record.length then none else
        let a' : Area := { a with next := a.next + 1, marks := tabPut a.marks k (dev s).noticeHead }
        let r := sysWriteAt s addr n.record
        let s1 := modWk r.1 fun w => { w with areas := tabPut w.areas id a' }
        some (putNotice s1 n addr (r.2 + Config.skewUnits 3))

/-- Waiting notices are written in order, as far as room allows. -/
def flushNotices (s : State) : List Notice → State
  | [] => modWk s fun w => { w with notices := [] }
  | n :: ns => match writeNotice s n with
    | some s' => flushNotices s' ns
    | none => modWk s fun w => { w with notices := n :: ns }

/-- An event gives a notice; events 3 to 6 have no record and no context (R354). -/
def giveNotice (s : State) (kind : Nat) (area : Option Nat) (ctx detail : Nat) (record : List Byte) : State :=
  let n : Notice := { kind := kind, area := area, ctx := ctx, time := s.time, detail := detail, record := record }
  flushNotices s (s.wk.notices ++ [n])

def execNoticeBaseWrite (v : Word64) (s : State) : Out :=
  let size := bitsOf v.toNat 63 60
  let size' := if size ≤ 12 then size else bitsOf (dev s).noticeBase.toNat 63 60
  let kept := size' * 2 ^ 60 + bitsOf v.toNat 59 59 * 2 ^ 59 + bitsOf v.toNat 42 6 * 2 ^ 6
  let s1 := modDev s fun r => { r with noticeBase := BitVec.ofNat 64 kept, noticeHead := 0, noticeVis := [] }
  let s2 := modWk s1 fun w => { w with areas := w.areas.map fun p => (p.1, { p.2 with marks := [] }) }
  .next (flushNotices s2 s2.wk.notices)

def execNoticeTailWrite (v : Word64) (s : State) : Out :=
  let s1 := modDev (advanceHead s) fun r => { r with noticeTail := v.toNat % 2 ^ 32 }
  .next (flushNotices s1 s1.wk.notices)

/-! ## The retirement record (R333) -/

/-- An entry is appended to the retirement record: its sequence rises, and a notice is given. -/
def retireAppend (s : State) (kind stack pos detail : Nat) : State :=
  let e : Retire := { kind := kind, stack := stack, pos := pos, detail := detail, time := s.time }
  let s1 := modDev { s with pl := { s.pl with retireLog := s.pl.retireLog ++ [e] } } fun r =>
    { r with repairSeq := r.repairSeq + 1 }
  giveNotice s1 5 none 0 ((dev s1).repairSeq % 2 ^ 48) []

/-- One entry of the record as bytes. -/
def retireBytes (e : Retire) : List Byte := natLE 1 e.kind ++ natLE 1 e.stack ++ natLE 2 e.pos ++ natLE 4 e.detail ++ natLE 8 e.time

/-- The retirement record in the on-package flash, without its signature. -/
def recordBody (s : State) : List Byte :=
  natLE 4 0x52544D52 ++ natLE 4 s.pl.retireLog.length ++ natLE 8 (dev s).repairSeq ++ s.pl.retireLog.flatMap retireBytes

/-- The whole record: signed anew with each append, so that its signature is one of its bytes (R333). -/
def recordBytes (s : State) : List Byte :=
  recordBody s ++ (List.range 512).map (Config.signByte 0 (recordBody s))

/-! ## Poison consumed (R325) -/

/-- The DRAM rows of the package, by local address, in which a run of bytes meets a poisoned word. -/
def poisonRows (s : State) (pa n : Nat) : List Nat :=
  if isRemote s pa then []
  else ((s.mm.poison.filter fun w => decide (w * 4 < pa + n) && decide (pa < w * 4 + 4)).map fun w =>
    localOf (w * 4) / 2048 * 2048).eraseDups

/-- A consumption of poison counts, and a DRAM row that it meets moves to a spare row of its bank and enters the retirement record
(R325). -/
def noteRowConsumption (s : State) (pa n : Nat) : State :=
  let s1 := modDev s fun r => { r with errPoison := r.errPoison + 1 }
  (poisonRows s pa n).foldl (fun s r => retireAppend s 7 (stackAt r) (channelAt r % 32) (bankAt r * 32768 + rowIndexAt r)) s1

/-- The source of poison that a reader above the LLC consumes is dealt with: the LLC drops its clean copies that hold an error, and the rows
follow (R325). -/
def noteConsumption (s : State) (pa n : Nat) : State :=
  let hit := fun (l : Nat) => s.mm.llcPoison.contains l && decide (l * 32 < pa + n) && decide (pa < l * 32 + 32)
  noteRowConsumption (modMm s fun m => { m with
    llcPoison := m.llcPoison.filter fun l => !hit l
    homes := m.homes.map fun p => if hit p.1 && !p.2.dirty then (p.1, { p.2 with llc := none }) else p }) pa n

/-! ## Contexts (R291) -/

/-- The report area of a context. -/
def areaOf (s : State) (ctx : Nat) : Option Nat := (tabGet s.mm.contexts ctx).map Context.area

/-- The limits of a context record. -/
def contextOk (v : Nat) : Bool :=
  decide (1 ≤ bitsOf v 15 0) && bitsOf v 63 16 == 0 &&
  bitsOf v 127 64 % 4096 == 0 && inDram (bitsOf v 127 64) &&
  bitsOf v 191 128 % 256 == 0 && decide (bitsOf v 191 128 + bitsOf v 223 192 ≤ Config.dramBytes) &&
  decide (8832 ≤ bitsOf v 223 192) && bitsOf v 255 224 == 0 &&
  bitsOf v 319 256 % 65536 == 0 && inDram (bitsOf v 319 256) && bitsOf v 383 320 % 65536 == 0 && v / 2 ^ 384 == 0

/-- A local address lies in DRAM that can be read. -/
def localReadable (s : State) (loc n : Nat) : Bool :=
  inDram loc && !s.mm.dropped.getLsbD (stackAt loc) && !errorAt s (ownPhys s loc) n

/-- The result of creating a context from a record at a local address, and the state (R291). A new context has no translation from
before (DEDUCED, log 6). -/
def makeContext (s : State) (loc : Nat) : Nat × State :=
  if !localReadable s loc 64 then (5, s)
  else
    let v := leNat (sysRead s loc 64)
    let n := bitsOf v 15 0
    if !contextOk v then (1, s)
    else if (tabGet s.mm.contexts n).isSome then (2, s)
    else if 1024 ≤ s.mm.contexts.length then (4, s)
    else
      let id := tabNext s.wk.areas
      let a : Area := { addr := bitsOf v 191 128, slots := bitsOf v 223 192 / 8832, next := 0, marks := [] }
      let c : Context := { root := bitsOf v 127 64, area := id, fold := bitsOf v 319 256, foldBytes := bitsOf v 383 320, sigq := 0, dying := false }
      (0, modMm (modWk s fun w => { w with areas := tabPut w.areas id a }) fun m =>
        { m with contexts := tabPut m.contexts n c, tlb := .ended n 41 0 :: m.tlb })

/-- The fields of CTXDEF (R291). -/
def ctxOp (v : Word64) : Nat := bitsOf v.toNat 63 62
def ctxNum (v : Word64) : Nat := bitsOf v.toNat 61 46
def ctxAddr (v : Word64) : Nat := bitsOf v.toNat 42 6 * 64
/-- A write to CTXDEF is taken: BUSY is 0 and no must-be-zero bit is set. -/
def ctxTaken (s : State) (v : Word64) : Bool :=
  !(dev s).ctxBusy && bitsOf v.toNat 45 43 == 0 && bitsOf v.toNat 5 0 == 0

def execCtxCreate (v : Word64) (s : State) : Out :=
  if ctxTaken s v && ctxOp v == 0 && ctxNum v == 0 then
    let n := bitsOf (leNat (sysRead s (ctxAddr v) 64)) 15 0
    let r := makeContext s (ctxAddr v)
    .next (modDev r.2 fun d => { d with ctxLast := n, ctxResult := r.1 })
  else .next s

/-- CTXDEF with operation 1: the termination of the context itself is CONTEXT_TERMINATION, until which BUSY reads 1. -/
def execCtxTerminate (v : Word64) (s : State) : Out :=
  if ctxTaken s v && ctxOp v == 1 && bitsOf v.toNat 42 6 == 0 then
    let live := (tabGet s.mm.contexts (ctxNum v)).isSome
    .next (modDev s fun d => { d with ctxLast := ctxNum v, ctxBusy := live, ctxResult := if live then d.ctxResult else 3 })
  else .next s

end Sys2Proof.Machine
end

