-- ==== Sys2Proof/Machine/Maps.lean ====
section
/-! DEFINITION. Executable maps: the pricker (R57, R59, R67), map and unmap requests (R68, R70, R292). -/
namespace Sys2Proof.Machine

/-! ## The pricker (R67) -/

/-- What the scan carries from word to word: the last words of the MLOOP blocks that enclose the word, innermost first, and
the words of the bank program since its last XEND. -/
structure Scan where
  loops : List Nat
  run : Nat
  deriving DecidableEq, Repr

/-- The code of a branch whose target, as a byte offset in the request, lies outside it. -/
def branchCode (total off : Nat) (b : Branch) : Option PrickCode :=
  let t : Int := (off : Int) + 4 * b.off.toInt
  chk (decide (0 ≤ t) && decide (t < 4 * (total : Int))) .target

/-- The code of an MLOOP at word `i`: its block in the request, its depth, its place in the block around it (R57). -/
def loopCode (total i len : Nat) (loops : List Nat) : Option PrickCode :=
  firstOf [chk (decide (i + len < total)) .target, chk (decide (loops.length < 4)) .nest,
           chk (match loops with | [] => true | e :: _ => decide (i + len ≤ e)) .nest]

/-- One group-stream word. -/
def prickGroup (total i w : Nat) : Option PrickCode :=
  match decodeWord .group (BitVec.ofNat 32 w) with
  | .error c => some c
  | .ok (.br b) | .ok (.call b) | .ok (.bt _ b) | .ok (.bf _ b) => branchCode total (4 * i) b
  | .ok _ => none

/-- One matrix-stream word: the limits of its own fields are looked at before its block, so an MLOOP that breaks both is refused under
IMMFLD (R67 does not say which code such a word has; DESIGN CHOICE, log 8). -/
def prickMatrix (total i w : Nat) (sc : Scan) : Option PrickCode × Scan :=
  let loops := sc.loops.filter fun e => decide (i ≤ e)
  match decodeWord .matrix (BitVec.ofNat 32 w) with
  | .error c => (some c, sc)
  | .ok (.mloop _ len) => (loopCode total i len.toNat loops, { sc with loops := (i + len.toNat) :: loops })
  | .ok _ => (none, { sc with loops := loops })

/-- One bank-program word (R59). -/
def prickBank (total i w : Nat) (sc : Scan) : Option PrickCode × Scan :=
  match decodeWord .bank (BitVec.ofNat 32 w) with
  | .error c => (some c, sc)
  | .ok .xend => (none, { sc with run := 0 })
  | .ok _ => (chk (decide (sc.run + 1 < 16) && decide (i + 1 < total)) .bankLen, { sc with run := sc.run + 1 })

/-- The `n` words of a page from word `i` of the request: the lowest failing word and its code, or what the scan carries on. -/
def prickPage (s : State) (kind total pa : Nat) : Nat → Nat → Scan → Except (Nat × PrickCode) Scan
  | 0, _, sc => .ok sc
  | n + 1, i, sc =>
    let w := homeNat s (pa + 4 * (i % 16384)) 4
    let r : Option PrickCode × Scan := match kind with
      | 0 => (prickGroup total i w, sc)
      | 1 => prickMatrix total i w sc
      | 2 => prickBank total i w sc
      | _ => (some .kind, sc)
    match r.1 with
    | some c => .error (4 * i, c)
    | none => prickPage s kind total pa n (i + 1) r.2

/-- The pages of a request in order. -/
def prickAll (s : State) (total : Nat) : List Leaf → Nat → Scan → Option (Nat × PrickCode)
  | [], _, _ => none
  | l :: ls, u, sc => match prickPage s l.kind total l.pa 16384 (16384 * u) sc with
    | .error e => some e
    | .ok sc' => prickAll s total ls (u + 1) sc'

/-! ## Requests (R68, R292) -/

/-- Two executable ranges of a context overlap at a unit. -/
def mapped (s : State) (ctx va : Nat) : Bool :=
  s.mm.execMaps.any fun m => m.ctx == ctx && decide (m.vbase ≤ va) && decide (va < m.vbase + m.units * 65536)

/-- The leaf of one unit of a map request, where it meets R68. -/
def mapLeaf (s : State) (ctx vbase units u : Nat) : Option Leaf :=
  let va := vbase + 65536 * u
  match leafAsWritten s ctx va with
  | some l =>
    let start := va - va % l.size
    if l.w || l.x || l.mtype ≠ 0 || mapped s ctx va || start < vbase || vbase + 65536 * units < start + l.size then none
    else some l
  | none => none

/-- The leaves of a request, or the first unit that breaks it. -/
def mapLeaves (s : State) (ctx vbase units : Nat) : Nat → Except Nat (List Leaf)
  | 0 => .ok []
  | n + 1 => match mapLeaf s ctx vbase units (units - (n + 1)) with
    | none => .error (units - (n + 1))
    | some l => match mapLeaves s ctx vbase units n with
      | .error u => .error u
      | .ok ls => .ok (l :: ls)

/-- X of a leaf entry is written by the part (R68, R115). -/
def setX (s : State) (pte : Nat) (x : Bool) : State :=
  let e := homeNat s pte 8
  let e' := e / 32 * 32 + (if x then 16 else 0) + e % 16
  (orderWrite s (pte / 32) ((List.range 8).zip (natLE 8 e') |>.map fun p => (pte % 32 + p.1, p.2)) none 0 true).1

/-- The fields of MAPREQ. -/
def mapCtx (v : Word64) : Nat := bitsOf v.toNat 63 48
def mapUnits (v : Word64) : Nat := bitsOf v.toNat 23 0
/-- A write to MAPREQ is taken (R292). -/
def mapTaken (s : State) (v : Word64) : Bool :=
  !(dev s).mapBusy && decide (0 < mapUnits v) && bitsOf v.toNat 46 24 == 0

/-- MAPSTAT after a request that has completed. -/
def mapResult (s : State) (code off : Nat) : State :=
  modDev s fun d => { d with mapBusy := false, mapCode := code, mapOffset := off }

/-- A map of a range: refused, failed at a word, or done with X set and the frames recorded (R68). -/
def mapRange (s : State) (ctx vbase units : Nat) : State :=
  match mapLeaves s ctx vbase units units with
  | .error u => mapResult s PrickCode.req.num (65536 * u)
  | .ok ls => match prickAll s (16384 * units) ls 0 { loops := [], run := 0 } with
    | some (off, c) => mapResult s c.num off
    | none =>
      let s1 := (ls.map Leaf.at_).eraseDups.foldl (fun s p => setX s p true) s
      let frames := (List.range units).zip ls |>.map fun p => (vbase / 65536 + p.1, p.2.pa / 65536)
      let m : ExecMap := { ctx := ctx, vbase := vbase, units := units, frames := frames }
      mapResult (modMm s1 fun k => { k with execMaps := k.execMaps ++ [m] }) 0 0

/-- MAP_REQUEST: a write to MAPREQ with UNMAP clear. -/
def execMapRequest (v : Word64) (s : State) : Out :=
  if mapTaken s v && bitsOf v.toNat 47 47 == 0 then
    .next (mapRange s (mapCtx v) (bitsOf (dev s).mapAddr.toNat 56 16 * 65536) (mapUnits v))
  else .next s

/-- UNMAP_REQUEST: a write to MAPREQ with UNMAP set waits until UNMAP_COMPLETE; a range that no completed map holds is
refused (R68, R70). A completed map holds a range that is exactly its own (DESIGN CHOICE, log 73). -/
def execUnmapRequest (v : Word64) (s : State) : Out :=
  if mapTaken s v && bitsOf v.toNat 47 47 == 1 then
    let b := bitsOf (dev s).mapAddr.toNat 56 16 * 65536
    if s.mm.execMaps.any fun m => m.ctx == mapCtx v && m.vbase == b && m.units == mapUnits v then
      .next (modDev (modMm s fun m => { m with unmaps := m.unmaps ++ [(mapCtx v, b, mapUnits v)] }) fun d => { d with mapBusy := true })
    else .next (mapResult s PrickCode.req.num 0)
  else .next s

/-- An address lies in a range of units. -/
def inRange (b units a : Nat) : Bool := decide (b ≤ a) && decide (a < b + units * 65536)

/-- A gang that has started and not retired fetches from a range (R70): it has fetched from it, or by its launch record, or by where its
streams stand, it may. -/
def fetchesFrom (gg : Gang) (b units : Nat) : Bool :=
  (gg.state == .resident || gg.state == .saved) &&
  (inRange b units gg.launch.entry || (gg.launch.stream != 0 && inRange b units gg.launch.stream) ||
   (gg.launch.handler != 0 && inRange b units gg.launch.handler) ||
   gg.fetched.any (fun k => inRange b units (65536 * k)) ||
   gg.teams.any fun t => (t.seq.running && inRange b units t.seq.pc.toNat) ||
     t.groups.any fun x => !x.retired && (x.frontier ++ x.frozen.getD []).any fun e => inRange b units e.pc.toNat)

/-- UNMAP_COMPLETE: once every gang fetching from the range has retired, X is cleared and the record goes (R70). -/
def execUnmapComplete (s : State) : Out :=
  match s.mm.unmaps with
  | [] => .next s
  | (ctx, b, units) :: rest =>
    if s.wk.gangs.any fun p => p.2.ctx == ctx && fetchesFrom p.2 b units then .next s
    else
      let ptes := ((List.range units).filterMap fun u => (translate s ctx (b + 65536 * u)).map Leaf.at_).eraseDups
      let s1 := ptes.foldl (fun s p => setX s p false) s
      let s2 := modMm s1 fun m => { m with
        unmaps := rest
        execMaps := m.execMaps.filter fun k => !(k.ctx == ctx && k.vbase == b && k.units == units) }
      .next (mapResult s2 0 0)

end Sys2Proof.Machine
end

