-- ==== Sys2Proof/Machine/Sync.lean ====
section
/-! DEFINITION. Rendezvous points (R34 to R37) and stage rings (R211 to R213), and the instructions of major 0x08 (R230 to
R235). -/
namespace Sys2Proof.Machine

/-! ## Rendezvous points -/

/-- One arrival (R34): the group's bit, the count, and the phase where the count reaches E. -/
def arrive (p : Point) (grp : Option Nat) : Point :=
  let b := match grp with
    | some g => p.bitmap ||| BitVec.ofNat 32 (2 ^ g)
    | none => p.bitmap
  if p.count + 1 = p.e then { p with count := 0, bitmap := 0, phase := p.phase + 1 }
  else { p with count := p.count + 1, bitmap := b }

/-- The team with a point changed. -/
def modPoint (t : Team) (p : Nat) (f : Point → Point) : Team := { t with points := listMod t.points p f }

/-- The phase that a wait on a point awaits, given the source's recorded phase; none where it completes at once (R35). -/
def awaited (p : Point) (recorded : Option Nat) : Option Nat :=
  match recorded with
  | some r => if r + 1 = p.phase then none else some p.phase
  | none => some p.phase

/-- A wait is an RWAIT, or an MWT, on a point. -/
def waitsOn (p : Nat) (w : Option Wait) : Bool :=
  match w with
  | some { kind := .rwait p' _, .. } => p' == p
  | _ => false

/-- Some group, or the sequencer, waits on a point (R36): a wait that a stop has ended does not count (R275). -/
def pointWaited (t : Team) (p : Nat) : Bool :=
  (t.groups.any fun x => !x.retired && !x.halted && waitsOn p x.wait) || waitsOn p t.seq.wait

/-- RINIT on a point (R36): the team, or none where it is refused. -/
def rinitTeam (t : Team) (p e : Nat) : Option Team :=
  let q := pointOf t p
  let fresh : Point := { e := e, count := 0, phase := 0, bitmap := 0 }
  if q.e = 0 then some (modPoint t p fun _ => fresh)
  else if q.e = e then some t
  else if q.count = 0 && !pointWaited t p then
    some { modPoint t p fun _ => fresh with
           groups := t.groups.map fun x => { x with phases := tabDel x.phases p }
           seq := { t.seq with phases := tabDel t.seq.phases p } }
  else none

def execRinit (p : BitVec 5) (e : BitVec 8) (s : State) : Out :=
  onGroup s fun g x =>
    match (findTeam s (grefTeam g)).bind fun t => rinitTeam t p.toNat e.toNat with
    | some t => .next (modGroup (modTeam s (grefTeam g) fun _ => t) g advance)
    | none => refusedAt s g x p.toNat

/-- The point of a group's team. -/
def pointAt (s : State) (g : GRef) (p : Nat) : Point :=
  match findTeam s (grefTeam g) with
  | some t => pointOf t p
  | none => { e := 0, count := 0, phase := 0, bitmap := 0 }

/-- A group has a scratchpad access, or a store at team scope, that is still held: an arrival follows it (R37; DEDUCED, log 63). -/
def arrivalHeld (x : Group) : Bool :=
  (x.stores.any fun p => p.team && decide (0 < p.holds)) || (x.tiles.any fun p => decide (0 < p.holds)) ||
    x.loads.any fun p => p.scratch && !p.todo.isEmpty

def execArv (p : BitVec 5) (s : State) : Out :=
  onGroup s fun g x =>
    let q := pointAt s g p.toNat
    if q.e = 0 then refusedAt s g x p.toNat
    else if arrivalHeld x then .next s
    else
      let s' := setGroup s g { advance x with phases := tabPut x.phases p.toNat q.phase }
      .next (modTeam s' (grefTeam g) fun t => modPoint t p.toNat fun r => arrive r (some g.grp))

/-- A completed acquire: sr.acq is the present time (R37, R170). -/
def acquire (s : State) (x : Group) : Group := { x with acq := s.time }

/-- The phase that an RWAIT of a group awaits: that of its wait in progress, else that of R35. -/
def rwaitPhase (q : Point) (x : Group) (p : Nat) : Option Nat :=
  match x.wait with
  | some { kind := .rwait _ ph, .. } => if ph < q.phase then none else some ph
  | _ => awaited q (tabGet x.phases p)

def execRwait (p : BitVec 5) (s : State) : Out :=
  onGroup s fun g x =>
    let q := pointAt s g p.toNat
    if q.e = 0 then refusedAt s g x p.toNat
    else match rwaitPhase q x p.toNat with
      | none => .next (setGroup s g (acquire s (advance (endWait x))))
      | some ph => .next (beginWait s g x (.rwait p.toNat ph))

/-! ## Stage rings -/

/-- A ring of a team; a ring that is not declared has no slots. -/
def ringOf (t : Team) (q : Nat) : Ring :=
  (t.rings[q]?).getD { base := 0, slotBytes := 0, slots := 0, next := 0, take := 0, filled := 0, free := 0, taken := [],
                       phases := 0 }

/-- The team with a ring changed. -/
def modRing (t : Team) (q : Nat) (f : Ring → Ring) : Team := { t with rings := listMod t.rings q f }

/-- A producer claims the next slot (R211). -/
def ringClaim (r : Ring) : Ring := { r with free := r.free - 1, next := (r.next + 1) % r.slots }

/-- A slot's fill: the phase bit toggles and filled rises (R178, R211). -/
def ringFill (slot : Nat) (r : Ring) : Ring :=
  { r with filled := r.filled + 1, phases := r.phases ^^^ BitVec.ofNat 16 (2 ^ slot) }

/-- A consumer takes the slot at next take (R212). -/
def ringTake (r : Ring) : Ring :=
  { r with filled := r.filled - 1, take := (r.take + 1) % r.slots, taken := r.taken ++ [r.take] }

/-- The value QWAIT writes: slot + 256 × phase (R212). -/
def ringNumber (r : Ring) : Word64 :=
  BitVec.ofNat 64 (r.take + (if r.phases.getLsbD r.take then 256 else 0))

/-- A release of the oldest taken slot, or none where no slot is taken (R213). -/
def ringRelease (r : Ring) : Option Ring :=
  match r.taken with
  | _ :: ts => some { r with taken := ts, free := r.free + 1 }
  | [] => none

/-- The slots a producer may claim: none while a drain out of the fold has the first claim (R287). -/
def ringFree (t : Team) (q : Nat) : Nat := if t.drains.any fun d => d.ring == q then 0 else (ringOf t q).free

/-- The scratchpad offset of a slot. -/
def slotOffset (r : Ring) (slot : Nat) : Nat := r.base + slot * r.slotBytes

/-- A slot filled with data by a producer that claims it (R211). -/
def fillSlot (t : Team) (q : Nat) (data : List Byte) : Team :=
  let r := ringOf t q
  { modRing t q fun r => ringFill r.next (ringClaim r) with scratch := smWrite t.scratch (slotOffset r r.next) data }

/-- Drains out of the fold are written into their rings as slots come free (R215, R287). -/
def fillDrains (t : Team) : List Drain → Team
  | [] => t
  | d :: ds =>
    if 0 < (ringOf t d.ring).free && !(t.drains.takeWhile (· ≠ d)).any (fun e => e.ring == d.ring) then
      fillDrains { fillSlot t d.ring d.data with drains := t.drains.erase d } ds
    else fillDrains t ds

/-- A release of a ring's slot, after which a drain out of the fold may take it (R213, R287). -/
def releaseSlot (t : Team) (q : Nat) (r : Ring) : Team :=
  let t' := modRing t q fun _ => r
  fillDrains t' t'.drains

/-- When each consumer of a ring that waits began, with its rank: the sequencer 0, group g at g + 1 (R212, R234). -/
def ringWaiters (t : Team) (q : Nat) : List (Nat × Nat) :=
  (match t.seq.wait with
    | some { kind := .mlda q', began := b, .. } => if q' = q then [(b, 0)] else []
    | _ => []) ++
  (List.range t.groups.length).filterMap fun n => match t.groups[n]? with
    | some x => match x.wait with
      | some { kind := .qwait q', began := b, .. } => if q' = q && !x.halted && !x.parked then some (b, n + 1) else none
      | _ => none
    | none => none

/-- A consumer may take a slot now: one is filled, and no other consumer's wait is ahead of its own (R212, R234). -/
def mayTake (t : Team) (q rank began : Nat) : Bool :=
  decide (0 < (ringOf t q).filled) &&
  (ringWaiters t q).all fun w => w.2 == rank || decide (began < w.1 ∨ (began = w.1 ∧ rank < w.2))

/-- When a group's wait began; now where it does not wait. -/
def waitBegan (s : State) (w : Option Wait) : Nat := (w.map Wait.began).getD s.time

def execQrel (q : BitVec 3) (s : State) : Out :=
  onGroup s fun g x =>
    match (findTeam s (grefTeam g)).bind fun t => ringRelease (ringOf t q.toNat) with
    | none => notPerformed s g x cQueue
    | some r => .next (modTeam (modGroup s g advance) (grefTeam g) fun t => releaseSlot t q.toNat r)

end Sys2Proof.Machine
end

