-- ==== Sys2Proof/Machine/Waits.lean ====
section
/-! DEFINITION. When the condition of a blocking wait holds (R38, R285), and what an eviction request marks and parks
(R282). -/
namespace Sys2Proof.Machine

/-- The items released from a ladder's window by a time: those that a visible progress word has passed (R257). -/
def releasedAt (time : Nat) (l : Ladder) : Nat :=
  ((l.passes.filter fun p => p.at_.elim false fun t => decide (t ≤ time)).map Pass.value).foldl max l.released

/-- Items in flight on a ladder (R257). -/
def inFlightItems (time : Nat) (l : Ladder) : Nat := l.nextIndex - releasedAt time l

/-- When each group that waits to push into a ladder began, with its place: waits that a stop has ended, and those in the
fold, do not count (R257, R268). -/
def pushWaiters (s : State) (l : Nat) : List (Nat × GRef) :=
  s.wk.gangs.flatMap fun p =>
    if p.2.state ≠ .resident then []
    else (List.range p.2.teams.length).flatMap fun t => match p.2.teams[t]? with
      | some tm => (List.range tm.groups.length).filterMap fun n => match tm.groups[n]? with
        | some x => match x.wait with
          | some { kind := .ladpush l' _, began := b, .. } =>
            if l' = l && !x.halted then some (b, { gang := p.1, team := t, grp := n }) else none
          | _ => none
        | none => none
      | none => []

/-- One place comes before another, where two waits began together. -/
def grefBefore (a b : GRef) : Bool :=
  decide (a.gang < b.gang) || (a.gang == b.gang && (decide (a.team < b.team) || (a.team == b.team && decide (a.grp < b.grp))))

/-- A push of n items by a group whose wait began at a time enters: they fit, and no earlier wait on the ladder remains
(R257). -/
def pushFits (s : State) (id : Nat) (l : Ladder) (g : GRef) (began n : Nat) : Bool :=
  decide (inFlightItems s.time l + n ≤ l.window) &&
  (pushWaiters s id).all fun w => w.2 == g || decide (began < w.1) || (began == w.1 && grefBefore g w.2)

/-- The condition of a group's wait holds. -/
def waitMet (s : State) (g : GRef) (x : Group) (w : Wait) : Bool :=
  match w.kind with
  | .rwait p ph => decide (ph < (pointAt s g p).phase)
  | .mwait .. => w.satAt.elim false fun t => decide (t ≤ s.time)
  | .qwait q => (findTeam s (grefTeam g)).elim false fun t => mayTake t q (g.grp + 1) w.began
  | .racq => (freeBlock s g).isSome
  | .swwait _ regs per _ _ _ => regs.isEmpty && per.isNone
  | .ladpush l n => (tabGet s.wk.ladders l).elim true fun q => pushFits s l q g w.began n
  | .remoteLoad => x.loads.all fun p => !p.beyond
  | _ => false

/-- The condition of a sequencer's wait holds (R220). -/
def seqMet (t : Team) (w : Wait) : Bool :=
  match w.kind with
  | .rwait p ph => decide (ph < (pointOf t p).phase)
  | .mlda q => mayTake t q 0 w.began
  | .mst q => decide (0 < ringFree t q)
  | _ => true

/-- A group of a marked gang parks where it stands at a blocking point whose condition does not hold (R282). -/
def parkAt (s : State) (g : GRef) (x : Group) : Group :=
  match x.wait with
  | some w => if x.retired || x.halted || waitMet s g x w then x else { x with parked := true }
  | none => x

/-- A gang is marked. -/
def markGang (by_ : Marker) (s : State) (n : Nat) : State :=
  modGang s n fun gg =>
    { gg with
      marked := true
      marks := if by_ ∈ gg.marks then gg.marks else by_ :: gg.marks
      teams := (List.range gg.teams.length).filterMap fun t => (gg.teams[t]?).map fun tm =>
        { tm with groups := (List.range tm.groups.length).filterMap fun i =>
            (tm.groups[i]?).map (parkAt s { gang := n, team := t, grp := i }) } }

/-- A group that stands at no wait, with a remote load outstanding beyond its threshold, stands at that blocking point (R38). -/
def awaitRemote (time : Nat) (x : Group) : Group :=
  if x.wait.isNone && !x.retired && !x.halted && x.loads.any PendLoad.beyond then
    { x with wait := some { kind := .remoteLoad, began := time, paused := 0, satAt := none } }
  else x

/-- A parked group goes on: after PCHK, or back to its wait (R282). -/
def unpark (time : Nat) (x : Group) : Group :=
  match x.parked, x.wait with
  | true, some { kind := .pchk, .. } => awaitRemote time { advance x with parked := false, wait := none }
  | true, _ => { x with parked := false }
  | false, _ => x

/-- A gang's marks are withdrawn (R282). -/
def unmarkGang (s : State) (n : Nat) : State :=
  modGang s n fun gg =>
    { gg with marked := false, marks := [], teams := gg.teams.map fun t => { t with groups := t.groups.map (unpark s.time) } }

/-- One marker withdraws its mark: the gang stays marked while another has marked it. -/
def withdrawMark (by_ : Marker) (s : State) (n : Nat) : State :=
  match findGang s n with
  | none => s
  | some gg =>
    if !gg.marks.contains by_ then s
    else if gg.marks.all (· == by_) then unmarkGang s n
    else modGang s n fun gg => { gg with marks := gg.marks.filter (· != by_) }

/-- Gangs marked or unmarked by number. -/
def markAll (by_ : Marker) (s : State) (p : Nat × Gang → Bool) : State :=
  ((s.wk.gangs.filter fun q => q.2.state == .resident && p q).map Prod.fst).foldl (markGang by_) s
def unmarkAll (s : State) (p : Nat × Gang → Bool) : State :=
  ((s.wk.gangs.filter fun q => q.2.state == .resident && q.2.marked && p q).map Prod.fst).foldl unmarkGang s

/-- The gangs that a write to EVICT names (R311). -/
def evictNames (v : Nat) (p : Nat × Gang) : Bool :=
  p.2.ctx == bitsOf v 63 48 && (bitsOf v 47 47 == 1 || clusterOf p.2 == bitsOf v 46 40)

def execEvict (v : Word64) (s : State) : Out :=
  if bitsOf v.toNat 38 0 = 0 ∧ bitsOf v.toNat 39 39 = 0 then .next (markAll .other s (evictNames v.toNat)) else .next s

def execEvictWithdraw (v : Word64) (s : State) : Out :=
  if bitsOf v.toNat 38 0 = 0 ∧ bitsOf v.toNat 39 39 = 1 then .next (unmarkAll s (evictNames v.toNat)) else .next s

end Sys2Proof.Machine
end

