-- ==== Sys2Proof/Machine/Control.lean ====
section
/-! DEFINITION. The window's registers through which system software works the part (R291, R311 to R313, R332, R334, R335,
R353, R356, R357, R362), graphs apart. -/
namespace Sys2Proof.Machine

/-! ## Invalidation (R312) -/

def execInval (v : Word64) (s : State) : Out :=
  let size := bitsOf v.toNat 47 42
  let base := bitsOf v.toNat 41 0
  if (dev s).istatDone && decide (size ≤ 41) && base % 2 ^ size == 0 then
    .next (modDev s fun r => { r with istatDone := false, invalReq := some (bitsOf v.toNat 63 48, size, base) })
  else .next s

/-- An access of a context that may have used an entry of a range has not been placed at its home, nor is it held there under MLOCK
(R312): a read that has not been served, but one behind a held write of its group, or a write held for another reason. -/
def invalWaits (s : State) (ctx size base : Nat) : Bool :=
  (s.wk.gangs.any fun p => p.2.ctx == ctx && p.2.state == .resident &&
    (List.range p.2.teams.length).any fun t => (p.2.teams[t]?).elim false fun tm => (List.range tm.groups.length).any fun n =>
      (tm.groups[n]?).elim false fun x => x.loads.any fun l => l.todo.any fun r =>
        !heldFor s (some { gang := p.1, team := t, grp := n }) (r.pa / 32) l.id) ||
  s.mm.held.any fun h => h.ctx == ctx && decide (base * 65536 ≤ h.va) && decide (h.va < base * 65536 + 2 ^ (size + 16)) &&
    !lockedPage s ctx h.va

/-- INVALIDATION_COMPLETE: no agent holds an older translation of the range, and every access that used one has been placed; writes
that MLOCK no longer holds are placed (R182, R312). -/
def execInvalidationComplete (s : State) : Out :=
  if (dev s).istatDone then .next s
  else
    let s1 := releaseHeld ((dev s).invalReq.elim s fun q => endInvalidation s q.1 q.2.1 q.2.2)
    if (dev s).invalReq.elim false fun q => invalWaits s1 q.1 q.2.1 q.2.2 then .next s
    else .next (modDev s1 fun r => { r with istatDone := true, invalReq := none })

/-! ## CLUSTER_MAP (R313) -/

/-- EMPTY: no gang, yoke or running handler on a logical cluster. -/
def clusterEmpty (s : State) (l : Nat) : Bool := (residents s l).isEmpty

/-- The entry of a logical cluster. -/
def mapEntry (s : State) (l : Nat) : MapEntry := ((dev s).clusterMap[l]?).getD { hold := false, phys := l, moving := none }

/-- The value an entry reads. -/
def mapWord (s : State) (l : Nat) : Nat :=
  let e := mapEntry s l
  (if e.hold then 2 ^ 31 else 0) + (if clusterEmpty s l then 2 ^ 30 else 0) + e.phys

/-- The retirement record lists the drop of a compute stack: its clusters stay held (R331). -/
def stackDropped (s : State) (st : Nat) : Bool := s.pl.retireLog.any fun e => e.kind == 5 && e.stack == st

def execClusterMapWrite (l : Nat) (v : Word) (s : State) : Out :=
  let e := mapEntry s l
  let p := bitsOf v.toNat 6 0
  let others := (List.range 72).all fun k => k == l || ((mapEntry s k).phys != p && (mapEntry s k).moving != some p)
  let ok := e.hold && clusterEmpty s l && others && decide (p < 80)
  let q := if ok then p else e.phys
  let e' : MapEntry := { hold := bitsOf v.toNat 31 31 == 1 || stackDropped s (stackOf q), phys := q, moving := none }
  if e.moving.isSome then .next s
  else .next (modDev s fun r => { r with clusterMap := r.clusterMap.set l e' })

/-! ## Memory stacks (R332) -/

/-- Some translation still names a frame of a stack, in a table or in what agents may still use of it (R117). -/
def stackMapped (s : State) (st : Nat) : Bool :=
  s.mm.contexts.any fun c => (allLeaves s c.1).any fun l =>
    l.mtype != 2 && !isRemote s l.pa && (decide (65536 < l.size) || stackAt (localOf l.pa) == st)

/-- Sweep registrations or ladders are homed in a stack. -/
def stackHomes (s : State) (st : Nat) : Bool :=
  s.sw.regs.any (fun r => r.pc / 32 == st) ||
  s.wk.ladders.any fun p => (translate s p.2.ctx p.2.addr).elim false fun l => stackAt (localOf l.pa) == st

/-- A stack leaves the machine. -/
def dropStack (s : State) (st detail : Nat) : State :=
  retireAppend (modMm s fun m => { m with dropped := m.dropped ||| BitVec.ofNat 16 (2 ^ st) }) 6 st 0 detail

def execVacate (v : Word64) (s : State) : Out :=
  let st := bitsOf v.toNat 3 0
  if v.toNat / 16 ≠ 0 then .next s
  else if s.mm.dropped.getLsbD st then .next (modDev s fun r => { r with repairLast := 0 })
  else if stackMapped s st then .next (modDev s fun r => { r with repairLast := 1 })
  else if stackHomes s st then .next (modDev s fun r => { r with repairLast := 2 })
  else .next (dropStack (modDev s fun r => { r with repairLast := 0 }) st 0)

/-- MEMORY_STACK_UNREADABLE: the stack is dropped at once; its frames read as poison to the contexts that live now (R332). -/
def execMemoryStackUnreadable (stack : Nat) (s : State) : Out :=
  if 16 ≤ stack || s.mm.dropped.getLsbD stack then .next s
  else .next (dropStack (modMm s fun m => { m with unreadable := tabPut m.unreadable stack (m.contexts.map Prod.fst) }) stack 1)

/-! ## Doorbells (R353) and signal queues (R357) -/

/-- A 64-bit store by the part to a virtual address on a writable NORMAL page, where there is one. -/
def storeVirt (s : State) (ctx va : Nat) (bs : List Byte) : Option State :=
  match translate s ctx va with
  | some l => if l.mtype = 0 && l.w then some (storeLane s ctx va l bs none 4096 0).1 else none
  | none => none

def execDoorbell (n : Nat) (v : Word64) (s : State) : Out :=
  let t := ((tabGet (dev s).dbTarget n).getD 0).toNat
  if n < 64 && t % 2 == 1 then
    .next ((storeVirt s (bitsOf t 63 48) (bitsOf t 47 3 * 8) (natLE 8 v.toNat)).getD s)
  else .next s

def execSigq (v : Word64) (s : State) : Out :=
  if bitsOf v.toNat 5 0 = 0 then
    .next (modMm s fun m => { m with contexts := tabMod m.contexts (bitsOf v.toNat 63 48) fun c =>
      { c with sigq := bitsOf v.toNat 47 6 * 64 } })
  else .next s

/-! ## Attestation (R361, R362) -/

/-- Bytes that every report of the part shares: the digests of its images (0), the public half of its record key (1), its certificate (2);
every boot derives the same keys (R361). -/
def partBytes (k n : Nat) : List Byte := (List.range n).map (Config.partByte k)

/-- The SHA-512 digest of a run of bytes. -/
def digestOf (bs : List Byte) : List Byte := (List.range 64).map (Config.digestByte bs)

/-- The attestation report but for its signature, in the order of R361: magic, nonce, the digests of the images and of the retirement
record, the record key, the sequence, global time, the certificate. -/
def attestBody (s : State) : List Byte :=
  natLE 4 0x41545351 ++ (dev s).nonce ++ partBytes 0 256 ++ digestOf (recordBytes s) ++ partBytes 1 (Config.attestSize 0) ++
  natLE 8 (dev s).repairSeq ++ natLE 8 s.time ++ partBytes 2 (Config.attestSize 1)

/-- The attestation report, signed with the identity key. -/
def attestReport (s : State) : List Byte :=
  attestBody s ++ (List.range (Config.attestSize 2)).map (Config.signByte s.fresh (attestBody s))

/-- BUSY of ATTEST_CTL: a report is not yet visible at sys scope (R362). -/
def attestBusy (s : State) : Bool := (dev s).attestWait.isSome || decide (s.time < (dev s).attestDone)

/-- A report that waits is written where its home takes it. -/
def writeReport (s : State) : State :=
  match (dev s).attestWait with
  | none => s
  | some (addr, bs) =>
    if sysHolds s addr bs.length then s
    else
      let r := sysWriteAt s addr bs
      modDev r.1 fun d => { d with attestWait := none, attestDone := r.2 + Config.skewUnits 5 }

def execAttestCtl (v : Word64) (s : State) : Out :=
  if v.toNat % 2 = 1 && !attestBusy s then
    .next (writeReport (modDev (takeFresh s).2 fun d => { d with attestWait := some (d.attestAddr, attestReport s) }))
  else .next s

/-! ## Registers that hold what is written (R26, R334 to R345, R353, R356, R362) -/

/-- A field that keeps its value where a write is outside its limits. -/
def within (lo hi v old : Nat) : Nat := if lo ≤ v && v ≤ hi then v else old

/-- A code of two bits whose value 3 is reserved. -/
def code3 (v : Nat) (old : BitVec 2) : BitVec 2 := if v % 4 = 3 then old else BitVec.ofNat 2 v

/-- The clusters of a stack or the package see their clocks change later (CLOCK_CHANGE); a register of a cluster block is
written (R26, R335 to R342). -/
def clusterWrite (s : State) (c off v : Nat) : State :=
  match off with
  | 0x000 => modCluster s c fun r => { r with policy := if 2 ≤ v % 4 then r.policy else BitVec.ofNat 2 v }
  | 0x008 => modCluster s c fun r => { r with passFloor := code3 (v / 4) r.passFloor }
  | 0x010 => modCluster s c fun r => { r with ratio := code3 v r.ratio }
  | 0x018 => modCluster s c fun r => { r with binBase := BitVec.ofNat 3 v }
  | 0x020 => modCluster s c fun r => { r with droop := BitVec.ofNat 6 (within 8 32 (v % 64) r.droop.toNat) }
  | _ => s

/-- A register of a cluster block as it reads. -/
def clusterRead (s : State) (c off : Nat) : Nat :=
  let r := clusterRegs s c
  match off with
  | 0x000 => r.policy.toNat
  | 0x008 => r.passPower.toNat * 64 + min 2 (computeState s (stackOf c)) * 16 + r.passFloor.toNat * 4 + passCode s c
  | 0x010 => r.ratioCur.toNat * 4 + r.ratio.toNat
  | 0x018 => r.binCur.toNat * 256 + leaseBin s c * 16 + r.binBase.toNat
  | 0x020 => r.droop.toNat
  | _ => 0

/-- A register of the power block is written (R343, R344). -/
def powerWrite (s : State) (off v : Nat) : State :=
  match off with
  | 0x008 => modDev s fun r => { r with pkgLimit := within 1000 3600 (v % 65536) r.pkgLimit }
  | 0x010 => modDev s fun r => { r with setpoint := within 0 r.pkgLimit (v % 65536) r.setpoint }
  | 0x018 => modDev s fun r => { r with band := within 10 1000 (v % 65536) r.band }
  | 0x020 => modDev s fun r => { r with cap := v / 65536 % 65536, refill := v % 65536 }
  | _ => s

/-- The STATE of a sensor (R348, R349): a compute die reads its stack's, a memory sensor its stack's. -/
def sensorState (s : State) (n : Nat) : Nat := if n < 24 then computeState s (n / 3) else memStackState s (n - 24)

/-- A register of the power block as it reads (R343 to R349). -/
def powerRead (s : State) (off : Nat) : Nat :=
  let r := dev s
  match off with
  | 0x000 => r.pkgPower
  | 0x008 => r.pkgLimit
  | 0x010 => r.setpoint
  | 0x018 => r.band
  | 0x020 => r.pool % 2 ^ 32 * 2 ^ 32 + r.cap * 2 ^ 16 + r.refill
  | 0x028 => s.time % 2 ^ 64
  | 0x030 => (if r.sync then 2 ^ 32 else 0) + r.skewDom * 2 ^ 16 + r.skewPkg
  | o =>
    if 0x040 ≤ o && o < 0x180 && o % 8 == 0 then
      let n := (o - 0x040) / 8
      sensorState s n * 2 ^ 28 + ((tabGet r.therm n).getD 0).toNat
    else 0

/-- A register of the repair block is written (R334). -/
def repairWrite (s : State) (off v : Nat) : State :=
  match off with
  | 0x000 => modDev s fun r => { r with quota := v % 2 ^ 24 }
  | 0x008 => modDev s fun r => { r with drainLimit := v / 65536 % 65536, shepRun := v % 2 == 1 }
  | _ => s

/-- A register of the repair block as it reads. -/
def repairRead (s : State) (off : Nat) : Nat :=
  let r := dev s
  match off with
  | 0x000 => r.quota
  | 0x008 => r.drainLimit * 65536 + (if r.shepRun then 1 else 0)
  | 0x010 => r.shepRotations % 2 ^ 32 * 2 ^ 32 + r.shepSkipped % 65536 * 65536 + r.shepCore
  | 0x018 => r.errRollbacks % 2 ^ 32 * 2 ^ 32 + r.errPoison % 2 ^ 32
  | 0x028 => r.repairSeq % 2 ^ 48 * 65536 + r.repairLast
  | _ => 0

/-- A register of the fabric block is written (R356). -/
def fabricWrite (s : State) (off v : Nat) : State :=
  match off with
  | 0x008 => modDev s fun r => { r with remoteThresh := v % 2 ^ 32 }
  | 0x010 => modDev s fun r => { r with recoveryLimit := within 10 1000000 (v % 2 ^ 32) r.recoveryLimit }
  | _ => s

/-- A register of the fabric block as it reads. -/
def fabricRead (s : State) (off : Nat) : Nat :=
  let r := dev s
  match off with
  | 0x000 => ownCoord s
  | 0x008 => r.remoteThresh
  | 0x010 => r.recoveryLimit
  | 0x020 => r.linkUp.toNat
  | _ => 0

/-- A register of the management block is written (R362): `w` bytes of it. -/
def managementWrite (s : State) (off w v : Nat) : State :=
  if 0x100 ≤ off && off < 0x140 then
    modDev s fun r => { r with nonce := (r.nonce.take (off - 0x100) ++ natLE w v ++ r.nonce.drop (off - 0x100 + w)).take 64 }
  else if off = 0x140 then modDev s fun r => { r with attestAddr := bitsOf v 42 6 * 64 }
  else s

/-- A register of the management block as it reads. -/
def managementRead (s : State) (off : Nat) : Nat :=
  let r := dev s
  match off with
  | 0x000 => r.bootStage * 2 ^ 48 + r.bootError
  | 0x140 => r.attestAddr
  | 0x148 => if attestBusy s then 1 else 0
  | o => if 0x100 ≤ o && o < 0x140 then leNat ((r.nonce.drop (o / 8 * 8 - 0x100)).take 8) else 0

/-- A register of the host block is written: the targets of doorbells (R353). -/
def hostWrite (s : State) (off v : Nat) : State :=
  if off < 0x400 && off % 16 == 0 then
    modDev s fun r => { r with dbTarget := tabPut r.dbTarget (off / 16) (BitVec.ofNat 64 (v / 8 * 8 + v % 2)) }
  else s

/-- A register of the host block as it reads. -/
def hostRead (s : State) (off : Nat) : Nat :=
  let r := dev s
  if off < 0x400 then (if off % 16 = 0 then ((tabGet r.dbTarget (off / 16)).getD 0).toNat else 0)
  else match off with
    | 0x400 => r.noticeBase.toNat
    | 0x408 => headRead s
    | 0x410 => r.noticeTail
    | _ => 0

end Sys2Proof.Machine
end

