-- ==== Sys2Proof/Machine/Records.lean ====
section
/-! DEFINITION. Launch records (R5, R205, R211, R302, R303), graph objects (R293, R294), their arming data (R295), and the
registers GLOAD and KICK (R294, R298). -/
namespace Sys2Proof.Machine

/-! ## Launch records (R302) -/

/-- The yoke width of a flags byte. -/
def yokeOf (flags : Nat) : Nat :=
  match bitsOf flags 2 1 with
  | 0 => 1
  | 1 => 2
  | 2 => 4
  | _ => 0

/-- Stage ring q of a record: base, bytes of a slot, slots; an undeclared ring has no slots. -/
def stageOf (v q : Nat) : Nat × Nat × Nat :=
  let b := 8 * (0x38 + 8 * q)
  if bitsOf v (b + 55) (b + 48) = 0 then (0, 0, 0)
  else (bitsOf v (b + 31) b, 32 * bitsOf v (b + 47) (b + 32), bitsOf v (b + 55) (b + 48))

/-- Two runs of bytes have none in common. -/
def apart (a n b m : Nat) : Bool := decide (a + n ≤ b) || decide (b + m ≤ a) || n == 0 || m == 0

/-- The declared stage rings lie in the allocation, and no ring overlaps another (R205, R211). -/
def ringsOk (rs : List (Nat × Nat × Nat)) (limit entries base notify : Nat) : Bool :=
  (rs.all fun r => r.2.2 == 0 || (decide (2 ≤ r.2.2) && decide (r.2.2 ≤ 16) && decide (32 ≤ r.2.1) && decide (r.2.1 ≤ 65536) &&
    decide (r.1 + r.2.1 * r.2.2 ≤ limit))) &&
  ((List.range 8).all fun i => (List.range 8).all fun j => i == j ||
    apart ((rs[i]?).getD (0, 0, 0)).1 (((rs[i]?).getD (0, 0, 0)).2.1 * ((rs[i]?).getD (0, 0, 0)).2.2)
      ((rs[j]?).getD (0, 0, 0)).1 (((rs[j]?).getD (0, 0, 0)).2.1 * ((rs[j]?).getD (0, 0, 0)).2.2)) &&
  (entries == 0 ||
    (decide (8 ≤ entries) && decide (entries ≤ 256) && base % 32 == 0 && notify % 4 == 0 &&
     decide (base + 32 * entries ≤ limit) && decide (notify + 8 ≤ limit) &&
     rs.all fun r => apart base (32 * entries) r.1 (r.2.1 * r.2.2) && apart notify 8 r.1 (r.2.1 * r.2.2)))

/-- A launch record read from its bytes, record and parameter block, at a virtual address; `wellFormed` says that it keeps
the limits of R5, R197, R205, R211 and R302. -/
def launchOf (addr : Nat) (bs : List Byte) : Launch :=
  let v := leNat (bs.take 256)
  let b := fun (off n : Nat) => bitsOf v (8 * (off + n) - 1) (8 * off)
  let flags := b 0x13 1
  let pair := flags % 2 == 1
  let w := b 0x10 1
  let gs := b 0x11 1
  let ts := b 0x12 1
  let y := yokeOf flags
  let scratch := b 0x20 4
  let limit := (scratch + 4095) / 4096 * 4096
  let params := b 0x34 4
  let rs := (List.range 8).map (stageOf v)
  let slots := (List.range 8).map fun k => b (0x80 + 4 * k) 4
  { addr := addr, entry := b 0x00 8, stream := b 0x08 8, width := w, groups := gs, teams := ts, pair := pair, yoke := y,
    contain := bitsOf flags 3 3 == 1, idem := bitsOf flags 4 4 == 1, fpinv := bitsOf flags 5 5 == 1, prio := b 0x14 1,
    maxBlocks := b 0x15 1, entryPrio := BitVec.ofNat 8 (b 0x16 1), roles := BitVec.ofNat 32 (b 0x18 4), gridGangs := b 0x1C 4,
    scratch := scratch, watchdog := b 0x24 4, ringEntries := b 0x28 2, ringBase := b 0x2C 4, notify := b 0x30 4,
    paramBytes := params, stages := rs, slots := slots.map (BitVec.ofNat 32), stampPage := b 0xA0 8, handler := b 0xA8 8,
    handlerArea := b 0xB0 8, params := (bs.drop 256).take params
    wellFormed :=
      addr % 256 == 0 && decide (256 + params ≤ bs.length) && (w == 16 || w == 32 || w == 64) &&
      (if pair then decide (2 ≤ gs) && decide (gs ≤ 32) && y == 1 && decide (2 * ts ≤ 4)
       else decide (1 ≤ gs) && decide (gs ≤ 16) && y != 0 && decide (ts * y ≤ 4)) &&
      (ts == 1 || ts == 2 || ts == 4) && bitsOf flags 7 6 == 0 && decide (b 0x14 1 ≤ 7) && decide (b 0x15 1 ≤ 3) &&
      b 0x17 1 == 0 && b 0x18 4 / 2 ^ gs == 0 && decide (1 ≤ b 0x1C 4) && decide (b 0x1C 4 ≤ 16777216) &&
      decide (scratch ≤ if pair then 1048576 else 524288) && decide (1 ≤ b 0x24 4) && b 0x2A 2 == 0 &&
      decide (params ≤ 4096) && decide (params ≤ scratch) && ringsOk rs limit (b 0x28 2) (b 0x2C 4) (b 0x30 4) &&
      ((List.range 8).all fun q => b (0x38 + 8 * q + 7) 1 == 0) && b 0x78 8 == 0 &&
      (slots.all fun k => k / 65536 == 0 && bitsOf k 12 12 == 0) && b 0xA0 8 % 65536 == 0 &&
      (if b 0xA8 8 = 0 then b 0xB0 8 == 0 else b 0xB0 8 % 256 == 0) && b 0xB8 72 == 0 }

/-- An address lies on an executable page of a stream kind (R302, R303). -/
def onKind (s : State) (ctx va kind : Nat) : Bool :=
  (translate s ctx va).elim false fun l => l.x && l.mtype == 0 && l.kind == kind && mapHolds s ctx va l.pa

/-- A launch record is accepted in a context: its limits hold, and its entries lie on pages of their stream kinds (R303). -/
def launchOk (s : State) (ctx : Nat) (l : Launch) : Bool :=
  l.wellFormed && onKind s ctx l.entry 0 && (l.stream == 0 || onKind s ctx l.stream 1) &&
  (l.handler == 0 || onKind s ctx l.handler 0)

/-! ## Arming data (R295) -/

/-- Copy entries of COPY and COLL arming data lie after the stamp page address. -/
def entryCount (bs : List Byte) : Nat := (bs.length - 8) / 32
/-- Entry `e` of the arming data. -/
def entryBytes (bs : List Byte) (e : Nat) : List Byte := (bs.drop (8 + 32 * e)).take 32

/-- Arming data keeps the limits written in the table of R295. -/
def armingOk (kind : Nat) (bs : List Byte) : Bool :=
  let v := leNat bs
  let n := bs.length
  let entries := decide (40 ≤ n) && (n - 8) % 32 == 0 && decide (entryCount bs ≤ 256)
  match kind with
  | 1 => decide (256 ≤ n)
  | 2 => entries
  | 3 => n == 72
  | 4 => n == 128 && bitsOf v 103 96 == 3
  | 5 => n == 40 && decide (bitsOf v 63 0 ≤ 1)
  | 6 => entries && (List.range (entryCount bs)).all fun e => leNat ((entryBytes bs e).take 1) == 8
  | 7 =>
    let c := bitsOf v 95 64
    let val := bitsOf v 191 128
    n == 24 && decide (c ≤ 3) && decide (1 ≤ bitsOf v 127 96) && bitsOf v 63 0 % (if c = 3 then 8 else 4) == 0 &&
      decide (val < if c = 3 then 2 ^ 48 else 2 ^ 32)
  | 8 => n == 24 && decide (bitsOf v 63 0 ≤ 1)
  | _ => false

/-! ## Graph objects (R293, R294) -/

/-- A graph's header from its 64 bytes: none where a limit breaks. -/
def headerOk (v : Nat) : Bool :=
  let nodes := bitsOf v 95 64
  let edges := bitsOf v 127 96
  let nt := bitsOf v 191 128
  let et := bitsOf v 255 192
  let n := bitsOf v 319 256
  bitsOf v 31 0 == 0x014F4748 && bitsOf v 47 32 == 1 && decide (bitsOf v 55 48 ≤ 1) && bitsOf v 63 56 == 0 &&
  decide (1 ≤ nodes) && decide (nodes ≤ 65536) && decide (edges ≤ 262144) && nt % 32 == 0 && et % 8 == 0 &&
  decide (n ≤ 2 ^ 28) && v / 2 ^ 320 == 0 && decide (64 ≤ n) && decide (nt + 32 * nodes ≤ n) && decide (et + 8 * edges ≤ n)

/-- A node of the object's bytes, or the result that refuses it: 2 for its record, 4 for its arming data. -/
def nodeOf (base : Nat) (bs : List Byte) (nt k : Nat) : Except Nat NodeRec :=
  let v := leNat ((bs.drop (nt + 32 * k)).take 32)
  let kind := bitsOf v 7 0
  let len := bitsOf v 63 32
  let off := bitsOf v 127 64
  if kind = 0 || 8 < kind || bitsOf v 31 8 ≠ 0 || v / 2 ^ 128 ≠ 0 || off % 64 ≠ 0 || bs.length < off + len then .error 2
  else
    let a := (bs.drop off).take len
    if armingOk kind a then .ok { kind := kind, addr := base + off, arming := a } else .error 4

/-- The nodes of an object in order; where several refuse it, the lowest result. -/
def nodesOf (base : Nat) (bs : List Byte) (nt n : Nat) : Except Nat (List NodeRec) :=
  (List.range n).foldr (fun k acc => match nodeOf base bs nt k, acc with
    | .ok x, .ok xs => .ok (x :: xs)
    | .ok _, .error e => .error e
    | .error e, .ok _ => .error e
    | .error e, .error e' => .error (min e e')) (.ok [])

/-- The edges of an object. -/
def edgesOf (bs : List Byte) (et n : Nat) : List (Nat × Nat) :=
  (List.range n).map fun k =>
    let v := leNat ((bs.drop (et + 8 * k)).take 8)
    (bitsOf v 31 0, bitsOf v 63 32)

/-- A graph object at a virtual address of a context, or the result LERR that refuses it. -/
def readGraph (s : State) (ctx addr : Nat) : Except Nat Graph :=
  match virtRead s ctx addr 64 with
  | none => .error 5
  | some h =>
    let v := leNat h
    if addr % 64 ≠ 0 || !headerOk v then .error 1
    else
      let n := bitsOf v 319 256
      if 2 ^ 48 < addr + n then .error 5
      else match virtRead s ctx addr n with
        | none => .error 5
        | some bs =>
          let es := edgesOf bs (bitsOf v 255 192) (bitsOf v 127 96)
          let edgeBad := !es.all fun e => decide (e.1 < e.2) && decide (e.2 < bitsOf v 95 64)
          match nodesOf addr bs (bitsOf v 191 128) (bitsOf v 95 64) with
          | .error e => .error (if edgeBad then min e 3 else e)
          | .ok ns =>
            if edgeBad then .error 3
            else .ok { ctx := ctx, lane := bitsOf v 55 48, nodes := ns, edges := es, kicks := [], seqno := 0 }

/-- The lowest handle that is free (DESIGN CHOICE, log 10). -/
def freeHandle (s : State) : Option Nat :=
  ((List.range 65535).map (· + 1)).find? fun h => (tabGet s.wk.graphs h).isNone

/-- A context lives, and is not being terminated (R288). -/
def contextLives (s : State) (ctx : Nat) : Bool := (tabGet s.mm.contexts ctx).elim false fun c => !c.dying

/-- GLOAD (R294): the whole object is checked and copied. A context that is being terminated takes no upload: its graphs have ended
(R288), and the object counts as one that cannot be translated (DEDUCED, log 69). -/
def execGload (v : Word64) (s : State) : Out :=
  if (dev s).gstatBusy then .next s
  else match (if contextLives s (bitsOf v.toNat 63 48) then readGraph s (bitsOf v.toNat 63 48) (bitsOf v.toNat 47 0) else .error 5) with
    | .error e => .next (modDev s fun r => { r with gstatLerr := e })
    | .ok g => match freeHandle s with
      | none => .next (modDev s fun r => { r with gstatLerr := 6 })
      | some h =>
        .next (modDev (modWk s fun w => { w with graphs := tabPut w.graphs h g }) fun r => { r with gstatLerr := 0, gstatHandle := h })

/-- KICK (R298): a replay joins its graph's queue, or KERR says why not. -/
def execKick (v : Word64) (s : State) : Out :=
  let h := bitsOf v.toNat 63 48
  match tabGet s.wk.graphs h with
  | none => .next (modDev s fun r => { r with gstatKerr := 1 })
  | some g =>
    if bitsOf v.toNat 5 0 ≠ 0 then .next (modDev s fun r => { r with gstatKerr := 2 })
    else if 64 ≤ g.kicks.length then .next (modDev s fun r => { r with gstatKerr := 3 })
    else .next (modWk s fun w => { w with graphs := tabPut w.graphs h { g with kicks := g.kicks ++ [bitsOf v.toNat 47 6 * 64] } })

end Sys2Proof.Machine
end

