-- ==== Sys2Proof/Machine/Window.lean ====
section
/-! DEFINITION. The register window (R110, R118, R351): the blocks and their registers, as the groups and the host read and
write them. -/
namespace Sys2Proof.Machine

/-- The state of a meaning that always answers one. -/
def outState (s : State) : Out → State
  | .next t => t
  | _ => s

/-- A register of the dispatch block as it reads (R291, R292, R294, R311 to R313). -/
def dispatchRead (s : State) (off : Nat) : Nat :=
  let r := dev s
  match off with
  | 0x008 => (if r.gstatBusy then 2 ^ 63 else 0) + r.gstatHandle * 2 ^ 32 + r.gstatKerr * 2 ^ 16 + r.gstatLerr
  | 0x020 => if s.wk.gangs.any fun p => p.2.state == .resident && p.2.marked then 1 else 0
  | 0x030 => if r.istatDone then 1 else 0
  | 0x048 => (if r.mapBusy then 2 ^ 63 else 0) + r.mapCode * 2 ^ 48 + r.mapOffset % 2 ^ 48
  | 0x058 => (if r.ctxBusy then 2 ^ 63 else 0) + r.ctxLast % 65536 * 2 ^ 32 + r.ctxResult
  | o => if 0x100 ≤ o && o < 0x220 then mapWord s ((o - 0x100) / 4) else 0

/-- A register of the dispatch block is written. -/
def dispatchWrite (s : State) (off : Nat) (v : Word64) : State :=
  match off with
  | 0x000 => outState s (execGload v s)
  | 0x010 => outState s (execKick v s)
  | 0x018 => outState s (if v.getLsbD 39 then execEvictWithdraw v s else execEvict v s)
  | 0x028 => outState s (execInval v s)
  | 0x038 => if bitsOf v.toNat 63 57 = 0 ∧ bitsOf v.toNat 15 0 = 0 then modDev s fun r => { r with mapAddr := v } else s
  | 0x040 => outState s (if v.getLsbD 47 then execUnmapRequest v s else execMapRequest v s)
  | 0x050 => outState s (if bitsOf v.toNat 63 62 = 0 then execCtxCreate v s else execCtxTerminate v s)
  | o => if 0x100 ≤ o && o < 0x220 then outState s (execClusterMapWrite ((o - 0x100) / 4) (v.truncate 32) s) else s

/-- After a failed check of the boot only the management block responds (R360). -/
def responds (s : State) (off : Nat) : Bool := (dev s).bootError == 0 || off / 0x100000 == 6

/-- The value of the naturally placed register that holds a window offset, as a whole. -/
def blockRead (s : State) (off : Nat) : Nat :=
  let o := off % 0x100000
  match (if responds s off then off / 0x100000 else 7) with
  | 0 => hostRead s (o / 8 * 8)
  | 1 => if 0x100 ≤ o ∧ o < 0x220 then dispatchRead s (o / 4 * 4) else dispatchRead s (o / 8 * 8)
  | 2 => powerRead s (o / 8 * 8)
  | 3 => if o / 0x1000 < 80 then clusterRead s (o / 0x1000) (o % 0x1000 / 8 * 8) else 0
  | 4 => repairRead s (o / 8 * 8)
  | 5 => fabricRead s (o / 8 * 8)
  | 6 => managementRead s (o / 8 * 8)
  | _ => 0

/-- Bytes of the registers at a window offset: `n` of the register that holds it (DEDUCED, log 14). -/
def windowRead (s : State) (off n : Nat) : Nat :=
  let narrow := 0x100100 ≤ off && off < 0x100220
  blockRead s off / 2 ^ (8 * (if narrow then 0 else off % 8)) % 2 ^ (8 * n)

/-- The whole register that a narrower write gives: the bytes written over the bytes that it holds (DEDUCED, log 14). -/
def widened (s : State) (off n v : Nat) : Nat :=
  let sh := 2 ^ (8 * (off % 8))
  let old := blockRead s off
  old - old / sh % 2 ^ (8 * n) * sh + v % 2 ^ (8 * n) * sh

/-- A register of the window is written whole: block by block (R351). -/
def blockWrite (s : State) (off : Nat) (v : Word64) : State :=
  let o := off % 0x100000
  match (if responds s off then off / 0x100000 else 7) with
  | 0 =>
    if o < 0x400 ∧ o % 16 = 8 then outState s (execDoorbell (o / 16) v s)
    else if o = 0x400 then outState s (execNoticeBaseWrite v s)
    else if o = 0x410 then outState s (execNoticeTailWrite v s)
    else hostWrite s o v.toNat
  | 1 => dispatchWrite s o v
  | 2 => powerWrite s o v.toNat
  | 3 => if o / 0x1000 < 80 then clusterWrite s (o / 0x1000) (o % 0x1000) v.toNat else s
  | 4 => if o = 0x020 then outState s (execVacate v s) else repairWrite s o v.toNat
  | 5 => if o = 0x018 then outState s (execSigq v s) else fabricWrite s o v.toNat
  | 6 => if o = 0x148 then outState s (execAttestCtl v s) else managementWrite s o 8 v.toNat
  | _ => s

/-- A write of `n` bytes at a window offset. CLUSTER_MAP and the cluster blocks hold 32-bit registers; any other register is
written whole, and a write of a part of it keeps its other bytes (DEDUCED, log 14). -/
def windowWrite (s : State) (off n v : Nat) : State :=
  if 0x100100 ≤ off && off < 0x100220 then blockWrite s (off / 4 * 4) (BitVec.ofNat 64 (v % 2 ^ 32))
  else if 0x300000 ≤ off && off < 0x400000 then
    if off % 8 = 0 then blockWrite s off (BitVec.ofNat 64 (v % 2 ^ 32)) else s
  else blockWrite s (off / 8 * 8) (BitVec.ofNat 64 (widened s off n v))

/-- REGISTER_WRITE: a write to the window by the host, through BAR 0 (R351, R352); other widths than 4 and 8, and a width
that the register does not take (R118, R291), are not performed. -/
def execRegisterWrite (off width : Nat) (v : Word64) (s : State) : Out :=
  if off % width = 0 && off < 2 ^ 34 && deviceWidthOk (Config.windowBase + off) width then
    .next (windowWrite s off width v.toNat)
  else .next s

end Sys2Proof.Machine
end

