-- ==== Sys2Proof/Machine/Memory.lean ====
section
/-! DEFINITION. Loads, stores, atomics, MWAIT and FENCE (R138 to R150), and the scratchpad accesses (R142, R143, R153). -/
namespace Sys2Proof.Machine

/-! ## Lanes, counters and the context of a group -/

/-- Bytes of a width code (R55). -/
def widthBytes (w : MWidth) : Nat := 2 ^ w.toNat
/-- Registers of an access of `n` bytes. -/
def widthRegs (n : Nat) : Nat := (n + 3) / 4

/-- The global address of a lane (R138). -/
def laneAddr (x : Group) (a : VReg) (off : Int) (i : Nat) : Nat := addrPlus (vGet64 x a i) off

/-- Little-endian words of loaded bytes; widths 8 and 16 are zero-extended (R139). -/
def loadWords : List Byte → List Word
  | b0 :: b1 :: b2 :: b3 :: bs => BitVec.ofNat 32 (leNat [b0, b1, b2, b3]) :: loadWords bs
  | [] => []
  | bs => [BitVec.ofNat 32 (leNat bs)]

/-- The bytes a lane stores from registers d on (R141). -/
def storeBytes (x : Group) (d : VReg) (n i : Nat) : List Byte :=
  ((List.range (widthRegs n)).flatMap fun j => natLE 4 (vRaw x (physReg x d + j) i).toNat).take n

/-- The register keys a lane fills. -/
def laneKeys (x : Group) (d : VReg) (n i : Nat) : List Nat :=
  (List.range (widthRegs n)).map fun j => (physReg x d + j) * 64 + i

/-- The load counter, and the store counter, can rise (R15). -/
def loadRoom (x : Group) : Bool := decide (x.loads.length < Config.counterMax)
def storeRoom (x : Group) : Bool := decide (x.stores.length < Config.counterMax)

/-- The memory requests outstanding on a group's core: each lane's access of a load, an atomic or a store counts as one (R1, R117;
DEDUCED, log 61). -/
def coreRequests (s : State) (g : GRef) : Nat :=
  match findGang s g.gang with
  | some gg =>
    ((holders s (clusterOf gg)).flatMap fun p => (groupsOn p.2 (coreOf gg g.team g.grp)).map fun q =>
      (q.2.2.loads.map PendLoad.reqs).sum + (q.2.2.stores.map PendStore.reqs).sum).sum
  | none => 0

/-- A group's core has room for `n` more outstanding memory requests (R1, R117). -/
def coreRoom (s : State) (g : GRef) (n : Nat) : Bool := decide (coreRequests s g + n ≤ Config.coreRequestMax)

/-- The other packages that a list of leaves sends an access to. -/
def remotePkgs (s : State) (ls : List Leaf) : List Nat := ((ls.filter fun l => isRemote s l.pa).map fun l => pkgOf l.pa).eraseDups

/-- An access goes to another package. -/
def anyRemote (s : State) (ls : List Leaf) : Bool := ls.any fun l => isRemote s l.pa

/-- A load whose home consumes an uncorrectable error is not performed: the causes name POISON (R325). -/
def consume (s : State) (g : GRef) (x : Group) (ls : List Leaf) (n : Nat) : Out :=
  match ls.find? fun l => l.mtype != 2 && errorFor s (some g) l.pa n with
  | some l => notPerformed (noteConsumption s l.pa n) g x cPoison
  | none => notPerformed s g x cPoison

/-- Some lane would read an uncorrectable error. -/
def anyPoison (s : State) (g : GRef) (ls : List Leaf) (n : Nat) : Bool := ls.any fun l => l.mtype != 2 && errorFor s (some g) l.pa n

/-! ## Column lines (R124, R125) -/

/-- The column line of width `w` that holds a physical address: its column offset and row group. -/
def columnOf (pa w : Nat) : Nat × Nat :=
  let o := pa % 1024
  (o % 32 / w * w, o / 32 / (32 / w))

/-- The bytes of a column line as the home holds them, in rising row. -/
def columnBytes (s : State) (sector w c g : Nat) (r : Option GRef) : List Byte :=
  (columnOffsets w c g).flatMap fun o => homeRead s (sector * 1024 + o) 1 r

/-- The row lines of a sector that a column line meets. -/
def columnLines (sector w c g : Nat) : List Nat := ((columnOffsets w c g).map fun o => 32 * sector + o / 32).eraseReps

/-- A lane served from its column line; the core keeps the copy, and serves from it, where every write of the sector is visible and
nothing holds bytes that only the reader may see (R125). -/
def columnLoad (s : State) (core pa w : Nat) (r : Option GRef) : State × List Byte :=
  let sec := pa / 1024
  let cg := columnOf pa w
  let row := pa % 1024 / 32 % (32 / w)
  let plain := (List.range 32).all fun k =>
    (homeOf s (32 * sec + k)).writes.isEmpty && (narrowBytes s (32 * sec + k)).isEmpty &&
    (stashBytes s (32 * sec + k)).isEmpty && (provBytes s (32 * sec + k) r).isEmpty
  let copy := s.mm.cols.find? fun c => c.core == core && c.sector == sec && c.w == w && c.c == cg.1 && c.g == cg.2
  match plain, copy with
  | true, some c => (s, (c.data.drop (row * w)).take w)
  | _, _ =>
    let data := columnBytes s sec w cg.1 cg.2 r
    let s1 := (columnLines sec w cg.1 cg.2).foldl fillLlc s
    let s' := if plain then
        modMm s1 fun m => { m with cols :=
          { core := core, sector := sec, w := w, c := cg.1, g := cg.2, data := data, unit := l1Place s1 core } :: m.cols }
      else s1
    (s', (data.drop (row * w)).take w)

/-! ## LD and LDA (R139, R140, R144) -/

/-- A read through a leaf is held at its home (R349, R356). -/
def readHeld (s : State) (l : Leaf) : Bool :=
  if isRemote s l.pa then recovering s (pkgOf l.pa) else l.mtype != 2 && memStackState s (stackAt (localOf l.pa)) == 4

/-- A read of a group waits: its home holds it, a copy engine owns the line or its write of it is not yet visible (R177), or an
earlier access of the group to the line has not been served (R181). -/
def readWaits (s : State) (g : GRef) (l : Leaf) : Bool :=
  readHeld s l || (l.mtype != 2 && (engineHolds s (l.pa / 32) || follows s (some g) (l.pa / 32) s.fresh))

/-- A plain load is served by a copy in its own core's L1, whatever its home does (R120, R177); not where it must follow an earlier
access of its group (R181). -/
def copyServes (s : State) (g : GRef) (core acq hint : Nat) (l : Leaf) : Bool :=
  l.mtype == 0 && hint != 3 && !follows s (some g) (l.pa / 32) s.fresh &&
    (l1Hit s core (l.pa / 32) acq g).isSome

/-- A read of a register of another package's window: the manual gives no value here (DESIGN CHOICE, log 11). -/
def farRegister (s : State) (n : Nat) : State × List Byte :=
  let p := takeFresh s
  (p.2, natLE n (Config.freeNat p.1 0))

/-- A plain load of one lane (R120, R139). -/
def plainLoad (s : State) (g : GRef) (core acq : Nat) (l : Leaf) (n hint : Nat) : State × List Byte :=
  if l.mtype = 2 then
    if isRemote s l.pa then farRegister s n
    else (s, natLE n (windowRead s (localOf l.pa - Config.windowBase) n))
  else if l.mtype = 1 then (s, dramRead s l.pa n)
  else if hint = 3 then columnLoad s core l.pa n (some g)
  else match l1Hit s core (l.pa / 32) acq g with
    | some c => (s, sliceLine c.data l.pa n)
    | none => (fillL1 s core (l.pa / 32) (Config.leaseUnits l.lease) (some g), homeRead s l.pa n (some g))

/-- A load at the home that acquires: forced publish first; the data is that of the moment it is served (R144). -/
def homeLoad (s : State) (g : GRef) (l : Leaf) (n : Nat) : State × List Byte × Nat :=
  if l.mtype = 2 then let r := plainLoad s g 0 0 l n 0; (r.1, r.2, s.time)
  else if l.mtype = 1 then (s, dramRead s l.pa n, s.time)
  else
    let r := forcedPublish s (l.pa / 32) (some g)
    (fillLlc r.1 (l.pa / 32), homeRead { r.1 with time := r.2 } l.pa n (some g), r.2)

/-- The lines that a last-use load has read are discarded (R140). -/
def lastUse (s : State) (core : Nat) (pas : List Nat) : State :=
  (pas.map (· / 32)).eraseDups.foldl (fun s line => dropL1 (discardLine s line true) core line) s

/-- What a load has gathered over its lanes: the state, the register words, the reads still held, the time served. -/
structure LoadAcc where
  s : State
  writes : List (Nat × Word)
  todo : List LoadReq
  served : Nat

/-- A lane of a load is not served at issue: it reads another package's home, or it waits, and no copy in its core's L1 serves it. -/
def servedLate (s : State) (g : GRef) (core acq hint : Nat) (bypass : Bool) (l : Leaf) : Bool :=
  ((isRemote s l.pa && l.mtype != 2) || readWaits s g l) && (bypass || !copyServes s g core acq hint l)

/-- One lane of a load joins. A read that waits, or that goes to another package, is served when it completes; a lane of a SWEPT row waits
with the others of its row (R107). -/
def loadLane (g : GRef) (core acq n hint : Nat) (bypass : Bool) (rows : List Nat) (a : LoadAcc) (l : Leaf) (va : Nat) (keys : List Nat) : LoadAcc :=
  if rowLate rows l || servedLate a.s g core acq hint bypass l then
    let fills := l.mtype == 0 && !bypass && hint != 3
    { a with todo := a.todo ++ [{ pa := l.pa, width := n, keys := keys, mtype := l.mtype, lease := if fills then some l.lease else none, va := va }] }
  else if bypass then
    let r := homeLoad a.s g l n
    { a with s := r.1, writes := a.writes ++ keys.zip (loadWords r.2.1), served := max a.served r.2.2 }
  else
    let r := plainLoad a.s g core acq l n hint
    { a with s := r.1, writes := a.writes ++ keys.zip (loadWords r.2) }

/-- LD and LDA: every lane is checked, then served at issue; the data is written at LOAD_COMPLETE (R15, R138; DEDUCED, log 12). -/
def loadOp (s : State) (d a : VReg) (w : MWidth) (hint : Nat) (off : Int) (bypass : Bool) : Out :=
  onGroup s fun g x =>
    let n := widthBytes w
    let bits := regCauses x false [(d, widthRegs n), (a, 2)]
    if bits ≠ 0 then notPerformed s g x bits
    else if !loadRoom x then .next s
    else
      let lanes := activeLanes x
      let vas := lanes.map (laneAddr x a (off * n))
      match checkAll s (ctxOf s g) vas n (if hint = 3 then .column else .load) with
      | .error b => notPerformed s g x b
      | .ok ls =>
        if anyPoison s g ls n then consume s g x ls n
        else if !coreRoom s g lanes.length || (bypass && ls.any fun l => l.mtype == 0 && publishHeld s (l.pa / 32) (some g)) then .next s
        else
          let s0 := if anyRemote s ls then escapeOf s (some g) else s
          let core := coreIdOf s0 g
          let rows := lateRows ls (servedLate s0 g core x.acq hint bypass)
          let r := (ls.zip (vas.zip lanes)).foldl (fun acc p => loadLane g core x.acq n hint bypass rows acc p.1 p.2.1 (laneKeys x d n p.2.2))
            { s := s0, writes := [], todo := [], served := s0.time }
          let late := r.todo.map LoadReq.pa
          let s1 := if hint = 1 then
              lastUse r.s core ((ls.filter fun l => l.mtype == 0).map Leaf.pa |>.filter fun pa => !(late.map (· / 32)).contains (pa / 32))
            else r.s
          let f := takeFresh s1
          let p : PendLoad := { id := f.1, writes := r.writes, regs := regRun x d (widthRegs n), issued := s.time,
                                servedAt := r.served, todo := r.todo, holds := 0, acquire := bypass,
                                remote := remotePkgs s (ls.filter fun l => l.mtype == 2 || late.contains l.pa), beyond := false,
                                lastUse := hint == 1, reqs := lanes.length }
          .next (modGroup f.2 g fun x => { advance x with loads := x.loads ++ [p] })

def execLd (d a : VReg) (w : MWidth) (hint : BitVec 2) (off : BitVec 7) (s : State) : Out :=
  loadOp s d a w hint.toNat off.toInt false
def execLda (d a : VReg) (w : MWidth) (_scope : BitVec 3) (off : BitVec 4) (s : State) : Out :=
  loadOp s d a w 0 off.toInt true

/-! ## ST and STL (R141, R145) -/

/-- A store joins the store counter: its number, its completion time so far, the count of lanes held. -/
def pushStore (s : State) (g : GRef) (id done holds : Nat) (remote : List Nat) (reqs : Nat := 0) (team : Bool := false) : State :=
  modGroup s g fun x =>
    { advance x with stores := x.stores ++ [{ id := id, done := done, holds := holds, remote := remote, reqs := reqs, team := team }] }

/-- A store to a register of the window: the instance escapes (R319), the register is written (R118). -/
def deviceStore (s : State) (l : Leaf) (bs : List Byte) (who : Option GRef) : State :=
  let s1 := escapeOf s who
  if isRemote s1 l.pa then s1 else windowWrite s1 (localOf l.pa - Config.windowBase) bs.length (leNat bs)

/-- What a write has come to joins those before it: the completion time and the lanes held so far. -/
def joinStore (acc : State × Nat × Nat) (r : State × Option Nat) : State × Nat × Nat :=
  match r.2 with
  | some t => (r.1, max acc.2.1 t, acc.2.2)
  | none => (r.1, acc.2.1, acc.2.2 + 1)

/-- One lane of a store at a scope, or of ST: at grp, team or gang scope it may be held narrow (R145). -/
def oneStore (g : GRef) (ctx core id : Nat) (scope : Option Nat) (rows : List Nat) (acc : State × Nat × Nat) (va : Nat) (l : Leaf)
    (bs : List Byte) : State × Nat × Nat :=
  if l.mtype = 2 then (deviceStore acc.1 l bs (some g), acc.2)
  else match scope with
    | some k => joinStore acc (narrowLane acc.1 ctx va l k bs g core id (rowLate rows l))
    | none => joinStore acc (storeLane acc.1 ctx va l bs (some g) core id (rowLate rows l))

/-- The conditions of FENCE at a scope (R150). -/
def fenceReady (s : State) (x : Group) (scope : Nat) : Bool :=
  x.loads.isEmpty && x.stores.isEmpty && x.tiles.isEmpty && decide (x.lct + Config.skewUnits scope ≤ s.time)

/-- ST and STL over the active lanes in rising order (R138): the highest-numbered lane's byte stays. -/
def storeOp (s : State) (d a : VReg) (w : MWidth) (off : Int) (scope : Option Nat) : Out :=
  onGroup s fun g x =>
    let n := widthBytes w
    let bits := regCauses x false [(d, widthRegs n), (a, 2)]
    if bits ≠ 0 then notPerformed s g x bits
    else if !storeRoom x then .next s
    else
      let lanes := activeLanes x
      let vas := lanes.map (laneAddr x a (off * n))
      match checkAll s (ctxOf s g) vas n .store with
      | .error b => notPerformed s g x b
      | .ok ls =>
        let ready := scope.elim true fun k => fenceReady s x (if k ≤ 3 && anyRemote s ls then 4 else k)
        if !ready || !coreRoom s g lanes.length then .next s
        else
          let f := takeFresh s
          let ctx := ctxOf s g
          let core := coreIdOf s g
          let rows := lateRows ls fun l => waitsToWrite s l.mlock l.pa (some g) f.1
          let r := ((vas.zip ls).zip lanes).foldl (fun acc p =>
              oneStore g ctx core f.1 scope rows acc p.1.1 p.1.2 (storeBytes x d n p.2)) (f.2, s.time, 0)
          .next (pushStore r.1 g f.1 r.2.1 r.2.2 (remotePkgs s ls) lanes.length (scope.elim false (decide <| · ≤ 1)))

def execSt (d a : VReg) (w : MWidth) (_hint : BitVec 2) (off : BitVec 7) (s : State) : Out := storeOp s d a w off.toInt none
def execStl (d a : VReg) (w : MWidth) (scope : BitVec 3) (off : BitVec 4) (s : State) : Out :=
  storeOp s d a w off.toInt (some scope.toNat)

/-! ## LDS, STS, LDT, STT (R142, R143, R153) -/

/-- The scratchpad offset of a lane, in 32 bits (R138). -/
def laneScratch (x : Group) (a : VReg) (off : Int) (i : Nat) : Nat := (((vGet x a i).toNat + off) % (2 ^ 32 : Nat)).toNat

/-- The causes of every lane's scratchpad access together, or the places they name. -/
def scratchAll (s : State) (t : TRef) (offs : List Nat) (w : Nat) : Except (BitVec 32) (List (TRef × Nat)) :=
  offs.foldr (fun o acc => match scratchAt s t o w, acc with
    | .ok l, .ok ls => .ok (l :: ls)
    | .ok _, .error b => .error b
    | .error b, .ok _ => .error b
    | .error b, .error b' => .error (b ||| b')) (.ok [])

/-- One lane of an LDS joins. One whose stash line the group has a held store to waits behind it (R181, R182). -/
def ldsLane (g : GRef) (x : Group) (d : VReg) (n : Nat) (a : LoadAcc) (p : (TRef × Nat) × Nat) : LoadAcc :=
  match (stashLeaf a.s p.1.1 p.1.2).filter fun l => follows a.s (some g) (l.2.pa / 32) a.s.fresh with
  | some l => { a with todo := a.todo ++ [{ pa := l.2.pa, width := n, keys := laneKeys x d n p.2, mtype := l.2.mtype }] }
  | none =>
    let q := scratchLoad a.s p.1.1 p.1.2 n (some g)
    { a with s := q.1, writes := a.writes ++ (laneKeys x d n p.2).zip (loadWords q.2) }

def execLds (d a : VReg) (w : MWidth) (off : BitVec 7) (s : State) : Out :=
  onGroup s fun g x =>
    let n := widthBytes w
    let bits := regCauses x false [(d, widthRegs n), (a, 1)]
    if bits ≠ 0 then notPerformed s g x bits
    else if !loadRoom x then .next s
    else
      let lanes := activeLanes x
      match scratchAll s (grefTeam g) (lanes.map (laneScratch x a (off.toInt * n))) n with
      | .error b => notPerformed s g x b
      | .ok ps =>
        if ps.any fun p => stashWaits s p.1 p.2 then .next s
        else
        let r := (ps.zip lanes).foldl (ldsLane g x d n) { s := s, writes := [], todo := [], served := s.time }
        let f := takeFresh r.s
        let p : PendLoad := { id := f.1, writes := r.writes, regs := regRun x d (widthRegs n), issued := s.time,
                              servedAt := s.time, todo := r.todo, holds := 0, acquire := false, remote := [], beyond := false,
                              scratch := true }
        .next (modGroup f.2 g fun x => { advance x with loads := x.loads ++ [p] })

/-- A place in scratchpad is a team's notify word, or its taken word (R205). -/
def isNotify (s : State) (p : TRef × Nat) : Bool :=
  (findGang s p.1.gang).elim false fun gg => decide (0 < gg.launch.ringEntries) &&
    decide (gg.launch.notify ≤ p.2) && decide (p.2 < gg.launch.notify + 4)
def isTaken (s : State) (p : TRef × Nat) : Bool :=
  (findGang s p.1.gang).elim false fun gg => decide (0 < gg.launch.ringEntries) &&
    decide (gg.launch.notify + 4 ≤ p.2) && decide (p.2 < gg.launch.notify + 8)

/-- An access of `n` bytes at a place meets a word. -/
def meets (f : TRef × Nat → Bool) (p : TRef × Nat) (n : Nat) : Bool := (List.range n).any fun k => f (p.1, p.2 + k)

/-- The causes of an STS's lanes beyond R111: another team's notify or taken word (PERM), the role and the width of a
publishing store (R9, R143), a stash page that is not writable (R142). -/
def stsCause (s : State) (g : GRef) (x : Group) (n : Nat) (p : TRef × Nat) : BitVec 32 :=
  (if p.1 ≠ grefTeam g && (meets (isNotify s) p n || meets (isTaken s) p n) then cPerm else 0) |||
  (if p.1 = grefTeam g && meets (isNotify s) p n then (if x.copyRole then 0 else cRole) ||| (if n = 4 then 0 else cAlign) else 0) |||
  (match stashLeaf s p.1 p.2 with
    | some (_, l) => if l.w then 0 else cPerm
    | none => 0)

/-- The publication of a publishing store of value `p` over `q`: the entries it publishes, or none where QUEUE is set
(R206). -/
def publishCount (gg : Gang) (t : Team) (p q : Nat) : Option Nat :=
  let k := (p + 2 ^ 32 - q) % 2 ^ 32
  if gg.launch.ringEntries - (t.engine.published - t.engine.takenIdx) < k || 62 < k then none else some k

/-- The team with entries published by a group. -/
def publish (grp k : Nat) (t : Team) : Team :=
  { t with engine := { t.engine with published := t.engine.published + k, pubs := t.engine.pubs ++ List.replicate k grp } }

/-- The publishing lane of an STS: its value is that of the highest such lane (R138, R143). -/
def publishingLane (s : State) (g : GRef) (n : Nat) (ps : List ((TRef × Nat) × Nat)) : Option Nat :=
  (ps.filter fun p => p.1.1 == grefTeam g && meets (isNotify s) p.1 n).getLast?.map Prod.snd

/-- One write of a group to scratchpad, with the writes held so far. -/
def scratchLane (g : GRef) (id : Nat) (acc : State × Nat) (p : TRef × Nat) (bs : List Byte) : State × Nat :=
  let r := scratchStore acc.1 p.1 p.2 bs (some g) id
  (r.1, if r.2 then acc.2 + 1 else acc.2)

/-- The lanes of an STS written in rising order, and the store counter raised. -/
def stsWrite (s : State) (g : GRef) (x : Group) (d : VReg) (n : Nat) (ps : List ((TRef × Nat) × Nat)) : State :=
  let f := takeFresh s
  let r := ps.foldl (fun acc p => scratchLane g f.1 acc p.1 (storeBytes x d n p.2)) (f.2, 0)
  pushStore r.1 g f.1 s.time r.2 [] 0 true

def execSts (d a : VReg) (w : MWidth) (off : BitVec 7) (s : State) : Out :=
  onGroup s fun g x =>
    let n := widthBytes w
    let bits := regCauses x false [(d, widthRegs n), (a, 1)]
    if bits ≠ 0 then notPerformed s g x bits
    else if !storeRoom x then .next s
    else
      let lanes := activeLanes x
      match scratchAll s (grefTeam g) (lanes.map (laneScratch x a (off.toInt * n))) n, findGang s g.gang, findTeam s (grefTeam g) with
      | .error b, _, _ => notPerformed s g x b
      | .ok ps, some gg, some t =>
        let cs := ps.foldl (fun b p => b ||| stsCause s g x n p) 0
        if cs ≠ 0 then notPerformed s g x cs
        else if ps.any fun p => stashWaits s p.1 p.2 then .next s
        else match publishingLane s g n (ps.zip lanes) with
          | none => .next (stsWrite s g x d n (ps.zip lanes))
          | some i =>
            match publishCount gg t (leNat (storeBytes x d n i)) (leNat (scratchRead s (grefTeam g) gg.launch.notify 4)) with
            | none => notPerformed s g x cQueue
            | some k =>
              if !fenceReady s x 3 || 62 < x.copies + k then .next s
              else
                let s1 := stsWrite s g x d n (ps.zip lanes)
                .next (modTeam (modGroup s1 g fun x => { x with copies := x.copies + k }) (grefTeam g) (publish g.grp k))
      | .ok _, _, _ => .refused .noIssuer

/-- The base of a tile (R153). -/
def tileBase (x : Group) (a n : VReg) : Nat := ((vGet x a (((activeLanes x).head?).getD 0)).toNat + 16 * n.toNat) % 2 ^ 32

/-- The place of a tile, or the cause it sets: its base is a multiple of 16, and the whole tile lies in the allocation
(R111, R153). -/
def tileAt (s : State) (g : GRef) (x : Group) (base : Nat) : Except (BitVec 32) (TRef × Nat) :=
  let mis : BitVec 32 := if base % 16 = 0 then 0 else cAlign
  match scratchAt s (grefTeam g) (base / 16 * 16) 16 with
  | .error b => .error (b ||| mis)
  | .ok p =>
    if (findTeam s p.1).elim 0 scratchLimit < p.2 + 16 * x.width then .error (cPerm ||| mis)
    else if mis = 0 then .ok p else .error mis

/-- The places of a tile's words of the active lanes (R153). -/
def tileWords (x : Group) (p : TRef × Nat) : List (TRef × Nat) :=
  (activeLanes x).flatMap fun i => (List.range 4).map fun j => (p.1, p.2 + 4 * (j * x.width + i))

/-- A tile transfer waits: a stash line of it waits, or, for LDT, follows an access of the group that is held (R122, R177, R181). -/
def tileWaits (s : State) (g : GRef) (x : Group) (p : TRef × Nat) (store : Bool) : Bool :=
  (tileWords x p).any fun q => stashWaits s q.1 q.2 ||
    (!store && (stashLeaf s q.1 q.2).elim false fun l => follows s (some g) (l.2.pa / 32) s.fresh)

/-- The tile counter can rise (R15). -/
def tileRoom (x : Group) : Bool := decide (x.tiles.length < Config.counterMax)

def execLdt (d a n : VReg) (s : State) : Out :=
  onGroup s fun g x =>
    let bits := regCauses x false [(d, 4), (a, 1)]
    if bits ≠ 0 then notPerformed s g x bits
    else if !tileRoom x then .next s
    else match tileAt s g x (tileBase x a n) with
      | .error b => notPerformed s g x b
      | .ok p =>
        if tileWaits s g x p false then .next s
        else
        let r := (activeLanes x).foldl (fun acc i => (List.range 4).foldl (fun acc j =>
            let q := scratchLoad acc.1 p.1 (p.2 + 4 * (j * x.width + i)) 4 (some g)
            (q.1, acc.2 ++ [((physReg x d + j) * 64 + i, BitVec.ofNat 32 (leNat q.2))])) acc) (s, ([] : List (Nat × Word)))
        .next (modGroup r.1 g fun x => { advance x with tiles := x.tiles ++ [{ writes := r.2, regs := regRun x d 4 }] })

def execStt (d a n : VReg) (s : State) : Out :=
  onGroup s fun g x =>
    let bits := regCauses x false [(d, 4), (a, 1)]
    if bits ≠ 0 then notPerformed s g x bits
    else if !tileRoom x then .next s
    else match tileAt s g x (tileBase x a n) with
      | .error b => notPerformed s g x b
      | .ok p =>
        let readOnly := (tileWords x p).any fun q => (stashLeaf s q.1 q.2).elim false fun l => !l.2.w
        if readOnly then notPerformed s g x cPerm
        else if tileWaits s g x p true then .next s
        else
          let f := takeFresh s
          let r := (activeLanes x).foldl (fun acc i => (List.range 4).foldl (fun acc j =>
              scratchLane g f.1 acc (p.1, p.2 + 4 * (j * x.width + i)) (natLE 4 (vRaw x (physReg x d + j) i).toNat)) acc) (f.2, 0)
          .next (modGroup r.1 g fun x => { advance x with tiles := x.tiles ++ [{ writes := [], regs := [], id := f.1, holds := r.2 }] })

/-! ## Atomics (R146 to R148) -/

/-- The lanes of an atomic in rising order: the state, the old words, the latest completion time, the lanes held. -/
def atomLanes (s : State) (g : GRef) (x : Group) (isX : Bool) (op : Nat) (b : VReg) (d : Option VReg) (id : Nat) (rows : List Nat)
    (ps : List ((Nat × Leaf) × Nat)) : State × List (Nat × Word) × Nat × Nat :=
  let ctx := ctxOf s g
  let core := coreIdOf s g
  ps.foldl (fun acc p =>
    let key := d.map fun d => physReg x d * 64 + p.2
    let r := atomLane acc.1 ctx p.1.1 p.1.2 isX op (vGet x b p.2) (vRaw x (physReg x b + 1) p.2) (some g) core id key
      (rowLate rows p.1.2)
    match r.2 with
    | some (old, t) => (r.1, acc.2.1 ++ (key.map fun k => (k, old)).toList, max acc.2.2.1 t, acc.2.2.2)
    | none => (r.1, acc.2.1, acc.2.2.1, acc.2.2.2 + 1)) (s, [], s.time, 0)

/-- An atomic beyond team scope acts as an acquire for the forced publish of R144, and makes its instance escaped; it completes only
after the last write-back is visible (R146, R172, R319). -/
def atomEnter (s : State) (g : GRef) (scope : Nat) (ls : List Leaf) : State × Nat :=
  if scope = 0 then (s, s.time)
  else ls.foldl (fun acc l =>
      if l.mtype = 0 then
        let r := forcedPublish acc.1 (l.pa / 32) (some g)
        (r.1, max acc.2 r.2)
      else acc) (escapeOf s (some g), s.time)

/-- ATOM, ATOMX and RED (R146): `d` is the destination of the old words, none for RED. -/
def atomOp (s : State) (d : Option VReg) (a b : VReg) (isX : Bool) (op scope : Nat) : Out :=
  onGroup s fun g x =>
    let bits := regCauses x false ((a, 2) :: (b, if isX && op == 1 then 2 else 1) :: (d.map fun r => (r, 1)).toList)
    if bits ≠ 0 then notPerformed s g x bits
    else if (if d.isSome then !loadRoom x else !storeRoom x) then .next s
    else
      let lanes := activeLanes x
      let vas := lanes.map (laneAddr x a 0)
      match checkAll s (ctxOf s g) vas 4 .atomic with
      | .error e => notPerformed s g x e
      | .ok ls =>
        if anyPoison s g ls 4 then consume s g x ls 4
        else if !coreRoom s g lanes.length || (scope != 0 && ls.any fun l => l.mtype == 0 && publishHeld s (l.pa / 32) (some g)) then .next s
        else
          let e := atomEnter s g scope ls
          let f := takeFresh e.1
          let rows := lateRows ls fun l => waitsToWrite f.2 l.mlock l.pa (some g) f.1
          let r := atomLanes f.2 g x isX op b d f.1 rows ((vas.zip ls).zip lanes)
          match d with
          | some d =>
            let p : PendLoad := { id := f.1, writes := r.2.1, regs := regRun x d 1, issued := s.time, servedAt := e.2,
                                  todo := [], holds := r.2.2.2, acquire := false, remote := remotePkgs s ls, beyond := false,
                                  reqs := lanes.length }
            .next (modGroup r.1 g fun x => { advance x with loads := x.loads ++ [p] })
          | none => .next (pushStore r.1 g f.1 (max r.2.2.1 e.2) r.2.2.2 (remotePkgs s ls) lanes.length)

def execAtom (d a b : VReg) (op : BitVec 3) (scope : BitVec 2) (s : State) : Out :=
  atomOp s (some d) a b false op.toNat scope.toNat
def execAtomx (d a b : VReg) (op : BitVec 3) (scope : BitVec 2) (s : State) : Out :=
  atomOp s (some d) a b true op.toNat scope.toNat
def execRed (a b : VReg) (op : BitVec 3) (scope : BitVec 2) (s : State) : Out :=
  atomOp s none a b false op.toNat scope.toNat

/-! ## MWAIT and FENCE (R149, R150) -/

/-- The condition of a code (R149). -/
def condOf (c : BitVec 3) : WCond :=
  match c.toNat with
  | 0 => .eq
  | 1 => .ne
  | 2 => .geu
  | _ => .seq

/-- The first write placed and not yet visible whose value satisfies a condition: its completion time. -/
def pendingSat (s : State) (pa : Nat) (c : WCond) (y : Nat) (g : GRef) : Option Nat :=
  ((homeOf s (pa / 32)).writes.find? fun w =>
    condHolds c (leNat (homeRead { s with time := max s.time w.done } pa (condBytes c) (some g))) y).map fun w => w.done

/-- The value an MWAIT reads at the home, or at the drover. -/
def mwaitValue (s : State) (l : Leaf) (n : Nat) (g : GRef) : Nat :=
  leNat (if l.mtype = 1 then dramRead s l.pa n else homeRead s l.pa n (some g))

/-- MWAIT on arrival: forced publish beyond team scope, then the value; where it does not satisfy, a monitor is armed. -/
def mwaitArrive (s : State) (g : GRef) (l : Leaf) (c : WCond) (y : Nat) (scope : BitVec 2) : State :=
  let r := if scope = 0 || l.mtype ≠ 0 then (s, s.time) else forcedPublish s (l.pa / 32) (some g)
  let s0 := if isRemote s l.pa then escapeOf r.1 (some g) else r.1
  let s1 := if l.mtype = 0 then fillLlc s0 (l.pa / 32) else s0
  let now := { s1 with time := max s1.time r.2 }
  if !readHeld s1 l && condHolds c (mwaitValue now l (condBytes c) g) y then
    if r.2 ≤ s1.time then modGroup s1 g fun x => { advance (endWait x) with acq := max x.acq s1.time }
    else modGroup s1 g fun x => { x with wait := some { kind := .mwait l.pa c y scope, began := s.time, paused := 0, satAt := some r.2 } }
  else
    match findGroup s1 g with
    | some x =>
      modGroup (beginWait s1 g x (.mwait l.pa c y scope)) g fun x =>
        { x with wait := x.wait.map fun w => { w with satAt := if l.mtype = 0 then pendingSat s1 l.pa c y g else none } }
    | none => s1

def execMwait (a b : VReg) (cond : BitVec 3) (scope : BitVec 2) (s : State) : Out :=
  onGroup s fun g x =>
    match x.wait with
    | some { satAt := some t, .. } =>
      if t ≤ s.time then .next (setGroup s g { advance (endWait x) with acq := max x.acq t }) else .next s
    | some _ => .next s
    | none =>
      let c := condOf cond
      let bits := regCauses x false [(a, 2), (b, if c = .seq then 2 else 1)]
      if bits ≠ 0 then notPerformed s g x bits
      else
        let i := ((activeLanes x).head?).getD 0
        let y := if c = .seq then (vGet64 x b i).toNat % 2 ^ 48 else (vGet x b i).toNat
        match checkAccess s (ctxOf s g) (laneAddr x a 0 i) (condBytes c) .mwait with
        | .error e => notPerformed s g x e
        | .ok l =>
          if anyPoison s g [l] (condBytes c) then consume s g x [l] (condBytes c)
          else if (readWaits s g l && !readHeld s l) || (scope ≠ 0 && l.mtype == 0 && publishHeld s (l.pa / 32) (some g)) then .next s
          else .next (mwaitArrive s g l c y scope)

def execFence (scope kind : BitVec 3) (s : State) : Out :=
  onGroup s fun g x =>
    if fenceReady s x scope.toNat then
      .next (setGroup s g (if kind = 1 then { advance x with acq := s.time } else advance x))
    else .next s

end Sys2Proof.Machine
end

