-- ==== Sys2Proof/Machine/Cache.lean ====
section
/-! DEFINITION. Cache maintenance and prefetch (R151), the stash (R122, R152), and the events that the caches take at their
own choice (R120, R122, R126). -/
namespace Sys2Proof.Machine

/-! ## CCLEAN, CINV, CCLINV, PREF (R151) -/

/-- The virtual 32-byte lines that meet a lane's range; a length of 0 names none. -/
def rangeLines (start len : Nat) : List Nat :=
  if len = 0 then [] else (List.range ((start % 32 + len + 31) / 32)).map fun k => start / 32 + k

/-- The union of the active lanes' ranges, as virtual lines in rising lane order. -/
def namedLines (x : Group) (a b : VReg) : List Nat :=
  ((activeLanes x).flatMap fun i => rangeLines (vGet64 x a i).toNat (vGet x b i).toNat).eraseDups

/-- What CINV does to a line: copies go without write-back; the completion time is the end of the last lease (R151). -/
def invLine (s : State) (line : Nat) : State × Nat := (discardLine s line false, max s.time (homeOf s line).lease)

/-- Maintenance of a line waits: a copy engine owns the line or its write of it is on its way (R177), an earlier access of the group to
it has not been served (R181), the line's narrow or stash data lies on a locked page (R182), or its stack is at its 105 °C point
(R349). -/
def cacheWaits (s : State) (g : GRef) (line : Nat) : Bool :=
  engineHolds s line || follows s (some g) line s.fresh || hotAt s (32 * line) ||
  (s.mm.narrow.any fun n => n.line == line && narrowLocked s n) ||
  (stashAt s line).elim false fun q => q.2.1.dirty.getLsbD q.2.2 && stashLocked s q.1 q.2.1

/-- A maintenance instruction over the named lines: `f` acts on each line of NORMAL memory. -/
def cacheOp (s : State) (a b : VReg) (acc : Access) (f : State → Nat → State × Nat) : Out :=
  onGroup s fun g x =>
    let bits := regCauses x false [(a, 2), (b, 1)]
    if bits ≠ 0 then notPerformed s g x bits
    else if !storeRoom x then .next s
    else match checkAll s (ctxOf s g) ((namedLines x a b).map (32 * ·)) 1 acc with
      | .error e => notPerformed s g x e
      | .ok ls =>
        if !coreRoom s g 1 || ls.any fun l => l.mtype == 0 && cacheWaits s g (l.pa / 32) then .next s
        else
        let k := takeFresh (if anyRemote s ls then escapeOf s (some g) else s)
        let r := ls.foldl (fun acc l => if l.mtype = 0 then let q := f acc.1 (l.pa / 32); (q.1, max acc.2 q.2) else acc) (k.2, s.time)
        .next (pushStore r.1 g k.1 r.2 0 (remotePkgs s ls) 1)

def execCclean (a b : VReg) (s : State) : Out := cacheOp s a b .clean cleanLine
def execCinv (a b : VReg) (s : State) : Out := cacheOp s a b .invalidate invLine
def execCclinv (a b : VReg) (s : State) : Out :=
  cacheOp s a b .invalidate fun s l => let r := cleanLine s l; let q := invLine r.1 l; (q.1, max r.2 q.2)

/-- The virtual lines that PREF fetches: those of the lanes whose whole range is translated (a lane that would fault is ignored,
R151). -/
def prefLines (s : State) (g : GRef) (x : Group) (a b : VReg) : List Nat :=
  ((activeLanes x).flatMap fun i =>
    let ls := rangeLines (vGet64 x a i).toNat (vGet x b i).toNat
    match checkAll s (ctxOf s g) (ls.map (32 * ·)) 1 .clean with
    | .ok _ => ls
    | .error _ => []).eraseDups

/-- PREF: it raises no counter and sets no cause (R151). -/
def execPref (a b : VReg) (s : State) : Out :=
  onGroup s fun g x =>
    let bits := regCauses x false [(a, 2), (b, 1)]
    if bits ≠ 0 then notPerformed s g x bits
    else
      let s1 := (prefLines s g x a b).foldl (fun s v =>
        match translate s (ctxOf s g) (32 * v) with
        | some l => if l.mtype = 0 && !readWaits s g l then fillL1 s (coreIdOf s g) (l.pa / 32) (Config.leaseUnits l.lease) (some g) else s
        | none => s) s
      .next (modGroup s1 g advance)

/-! ## SMAP, SUNMAP, SFLUSH (R152) -/

/-- Two runs overlap. -/
def runsMeet (a n b m : Nat) : Bool := decide (a < b + m) && decide (b < a + n) && decide (0 < n) && decide (0 < m)

/-- A 4 KiB block of a team overlaps a declared stage ring, the copy ring, or its notify and taken words (R152). -/
def blockBusy (l : Launch) (off : Nat) : Bool :=
  (l.stages.any fun r => runsMeet off 4096 r.1 (r.2.1 * r.2.2)) ||
  runsMeet off 4096 l.ringBase (32 * l.ringEntries) || (decide (0 < l.ringEntries) && runsMeet off 4096 l.notify 8)

/-- The causes of a stash instruction's scratchpad offset: window 0, a multiple of 4,096, inside the allocation (R111, R152). R152
names no cause for these: the model sets ALIGN for an offset that is not a multiple of 4,096, and PERM for one outside window 0 or
the allocation (DESIGN CHOICE, log 62). -/
def stashOffCause (t : Team) (off : Nat) : BitVec 32 :=
  (if off % 4096 = 0 then 0 else cAlign) |||
  (if off / 2 ^ 20 ≠ 0 || scratchLimit t < off / 4096 * 4096 + 4096 then cPerm else 0)

/-- The lowest active lane. -/
def firstLane (x : Group) : Nat := ((activeLanes x).head?).getD 0

def execSmap (a b : VReg) (s : State) : Out :=
  onGroup s fun g x =>
    let bits := regCauses x false [(a, 2), (b, 1)]
    if bits ≠ 0 then notPerformed s g x bits
    else
      let va := laneAddr x a 0 (firstLane x)
      let off := (vGet x b (firstLane x)).toNat
      match checkAccess s (ctxOf s g) va 4096 .load, findGang s g.gang, findTeam s (grefTeam g) with
      | .error e, _, some t => notPerformed s g x (e ||| stashOffCause t off)
      | .ok l, some gg, some t =>
        let used := (allStash s).any fun p => p.2.addr == l.pa || (p.1 == grefTeam g && p.2.off == off)
        let e := stashOffCause t off |||
          (if l.mtype ≠ 0 || isRemote s l.pa || used || blockBusy gg.launch off then cPerm else 0)
        if e ≠ 0 then notPerformed s g x e
        else
          let m : Stash := { off := off, va := va, addr := l.pa, filled := 0, dirty := 0 }
          .next (modTeam (modGroup s g advance) (grefTeam g) fun t =>
            { t with stash := t.stash ++ [m], scratch := smCut t.scratch off (off + 4096) })
      | _, _, _ => .refused .noIssuer

/-- Every dirty line of a mapping is written back; the latest completion time (R152). -/
def flushStash (s : State) (u : TRef) (m : Stash) : State × Nat :=
  (List.range 128).foldl (fun acc i =>
    match (findTeam acc.1 u).bind fun t => t.stash.find? fun q => q.off == m.off with
    | some q => let r := cleanStash acc.1 u q i; (r.1, max acc.2 r.2)
    | none => acc) (s, s.time)

/-- A mapping ends: its dirty lines are written back, and its block reads as zero (R152). -/
def endStash (s : State) (u : TRef) (m : Stash) : State × Nat :=
  let r := flushStash s u m
  (modTeam r.1 u fun t =>
    { t with stash := t.stash.filter fun q => q.off ≠ m.off, scratch := smCut t.scratch m.off (m.off + 4096) }, r.2)

/-- SUNMAP and SFLUSH: `f` acts on the mapping that holds the offset; with none, PERM (R152). -/
def stashOp (s : State) (b : VReg) (f : State → TRef → Stash → State × Nat) : Out :=
  onGroup s fun g x =>
    let bits := regCauses x false [(b, 1)]
    if bits ≠ 0 then notPerformed s g x bits
    else if !storeRoom x then .next s
    else
      let off := (vGet x b (firstLane x)).toNat
      match findTeam s (grefTeam g) with
      | none => .refused .noIssuer
      | some t =>
        match stashOf t off with
        | none => notPerformed s g x (stashOffCause t off ||| cPerm)
        | some (m, _) =>
          if stashOffCause t off ≠ 0 then notPerformed s g x (stashOffCause t off)
          else
            if stashHeld s (grefTeam g) m then .next s
            else
            let k := takeFresh s
            let r := f k.2 (grefTeam g) m
            .next (pushStore r.1 g k.1 r.2 0 [])

def execSunmap (b : VReg) (s : State) : Out := stashOp s b endStash
def execSflush (b : VReg) (s : State) : Out := stashOp s b flushStash

/-! ## What the caches do at their own choice -/

/-- STASH_LAZY_WRITEBACK: a dirty stash line of a team is written back, where nothing holds its write (R122, R177, R182, R349). -/
def execStashLazyWriteback (t : TRef) (off : Nat) (s : State) : Out :=
  match (findTeam s t).bind fun tm => stashOf tm off with
  | some (m, i) => .next (if stashHeld s t m then s else (cleanStash s t m i).1)
  | none => .next s

/-- LLC_EVICTION: the LLC drops a line of its own choice (R126), whose stack it can write to (R349). -/
def execLlcEviction (line : Nat) (s : State) : Out := .next (if hotAt s (32 * line) then s else evictLine s line)

/-- L1_LINE_DROP: a core drops its clean copy of a line (R120). -/
def execL1LineDrop (core line : Nat) (s : State) : Out := .next (dropL1 s core line)

end Sys2Proof.Machine
end

