-- ==== Sys2Proof/Machine/Gangs.lean ====
section
/-! DEFINITION. Groups, teams and gangs at their start (R14, R34, R205, R211, R223, R302), the hardware queues (R306), the
slabs and their accumulators (R12, R203), and what ends with a group, a team and a gang (R8, R21, R122, R172). -/
namespace Sys2Proof.Machine

/-! ## At the start -/

/-- A group at its start (R14); sr.acq is the start of its node instance, or the time its body was formed. -/
def newGroup (l : Launch) (g acq : Nat) : Group :=
  { width := l.width, copyRole := l.roles.getLsbD g
    frontier := [{ prio := l.entryPrio, pc := BitVec.ofNat 56 l.entry, mask := fullMask l.width }]
    live := fullMask l.width, v := [], s := [], k := [], routes := [], wbase := 0, owned := 1, blocks := [], queue := [],
    loads := [], stores := [], tiles := [], copies := 0, bankCmds := 0, cause := 0, skid := 0, epc := 0, lct := 0, acq := acq,
    bubbles := 0, aging := 0, agedAt := none, yielded := false, phases := [], wait := none, parked := false, halted := false,
    frozen := none, pendingS := 0, body := none, retired := false, reading := none, point := none }

/-- A stage ring at the team's start (R211). -/
def newRing (r : Nat × Nat × Nat) : Ring :=
  { base := r.1, slotBytes := r.2.1, slots := r.2.2, next := 0, take := 0, filled := 0, free := r.2.2, taken := [], phases := 0 }

/-- The mask that selects every slab of a yoke (R223). -/
def allSlabs (y : Nat) : BitVec 4 := BitVec.ofNat 4 (2 ^ y - 1)

/-- The sequencer at the team's start (R10, R223). -/
def newSeq (l : Launch) : Seq :=
  { present := l.stream != 0, running := l.stream != 0, pc := BitVec.ofNat 56 l.stream, loops := [], mask := allSlabs l.yoke,
    phases := [], wait := none }

/-- A team at its start (R34, R205, R224, R302): the parameter block lies at offset 0, the rest of its scratchpad is 0. A notify or taken
word under the block starts with the block's bytes (DESIGN CHOICE, log 76). -/
def newTeam (l : Launch) (acq : Nat) : Team :=
  { groups := (List.range l.groups).map fun g => newGroup l g acq
    scratch := smWrite [] 0 l.params, scratchBytes := l.scratch
    points := List.replicate 24 { e := 0, count := 0, phase := 0, bitmap := 0 }
    rings := l.stages.map newRing, engine := Engine.idle, seq := newSeq l, ta := [], taFmt := List.replicate 4 none, z := [],
    skips := 0, stash := [], stop := none, handler := none, drains := [], scratchAt := [], retired := false }

/-- A gang that waits in its queue. -/
def newGang (ctx : Nat) (l : Launch) (index : Nat) (node : Option NRef) (queue now : Nat) (teams : List Team) : Gang :=
  { ctx := ctx, launch := l, index := index, node := node, queue := queue, state := .queued, place := none, ids := none,
    marked := false, marks := [], reported := false, age := 0, queuedAt := now, teams := teams, fetched := [] }

/-! ## Queues (R306) -/

/-- The queue of a launch priority and a lane. -/
def queueNumber (prio lane : Nat) : Nat := 2 * prio + lane

/-- The state with a queue changed. -/
def modQueue (s : State) (q : Nat) (f : List Nat → List Nat) : State := modWk s fun w => { w with queues := listMod w.queues q f }

/-- A gang joins the tail of its queue. -/
def addGang (s : State) (gg : Gang) : State :=
  let n := tabNext s.wk.gangs
  modQueue (modWk s fun w => { w with gangs := tabPut w.gangs n gg }) gg.queue fun q => q ++ [n]

/-- A gang re-enters its queue at the head (R306, R311). -/
def requeueHead (s : State) (n q : Nat) : State :=
  modQueue (modGang s n fun gg => { gg with queuedAt := s.time }) q fun l => n :: l

/-- A gang leaves every queue, and its reservation ends (R307). -/
def unqueue (s : State) (n : Nat) : State :=
  modWk s fun w => { w with queues := w.queues.map (fun q => q.filter (· ≠ n)), reserved := tabDel w.reserved n }

/-! ## Slabs (R12, R203, R329) -/

/-- The repair state of a physical core (4 × physical cluster + core); its own slab stands under it unless it was rebound. -/
def coreState (s : State) (n : Nat) : CoreState :=
  (tabGet s.pl.cores n).getD { retired := false, passed := false, mated := [], slab := n, draining := none }

/-- The state with the repair state of a core changed. -/
def modCore (s : State) (n : Nat) (f : CoreState → CoreState) : State :=
  { s with pl := { s.pl with cores := tabPut s.pl.cores n (f (coreState s n)) } }

/-- The physical cores of a team: those it runs on first, then those its yoke binds. -/
def teamCores (s : State) (gg : Gang) (t : Nat) : List Nat :=
  match gg.place with
  | none => []
  | some p =>
    let base := 4 * physCluster s p.cluster
    let own := (p.cores[t]?).getD 0
    let y := gg.launch.yoke - 1
    (base + own) :: (((p.yoked.drop (y * t)).take y).map (base + ·) ++ if gg.launch.pair then [base + own + 1] else [])

/-- The slabs of a team, by yoke position; a pair's second slab stands last. -/
def teamSlabs (s : State) (gg : Gang) (t : Nat) : List Nat := (teamCores s gg t).map fun c => (coreState s c).slab

/-- The key of an element of an accumulator: register, row, column. -/
def zKey (n r c : Nat) : Nat := (n * 64 + r) * 256 + c

/-- The columns of a slab at a yoke position, keyed as at position 0. -/
def slabTake (z : SMap 48) (j : Nat) : SMap 48 :=
  (z.filter fun p => decide (p.1 % 256 / 64 = j)).map fun p => (p.1 - 64 * j, p.2)

/-- A register of an accumulator's contents replaced by that of another. -/
def zReplace (old new : SMap 48) (n : Nat) : SMap 48 :=
  old.filter (fun p => decide (p.1 < zKey n 0 0)) ++ new.filter (fun p => decide (p.1 / 16384 = n)) ++
    old.filter fun p => decide (zKey (n + 1) 0 0 ≤ p.1)

/-- A team has written register z`n` in some of its slabs. A slab holds what was last written in it for its context; where a team of
another context has been placed on it since, it holds the team's own accumulators from now on (R203). -/
def slabsWrite (s : State) (gg : Gang) (t n : Nat) (sel : Nat → Bool) (z : SMap 48) : State :=
  let ss := (teamSlabs s gg t).take gg.launch.yoke
  modWk s fun w => ((List.range ss.length).filter sel).foldl (fun w j =>
    let slab := (ss[j]?).getD 0
    let mine := slabTake z j
    { w with
      slabZ := tabPut w.slabZ slab
        (if tabGet w.slabCtx slab = some gg.ctx then zReplace ((tabGet w.slabZ slab).getD []) mine n else mine)
      slabCtx := tabPut w.slabCtx slab gg.ctx }) w

/-! ## Completion of what a team holds -/

/-- A point of a team takes an arrival that no group makes (R34); on an uninitialised point it is not counted. -/
def engineArrive (s : State) (t : TRef) (p : Nat) : State := modTeam s t fun tm => modPoint tm p fun q => arrive q none

/-- The state with the copy engine of a team or a node changed. -/
def findEngine (s : State) : EngineRef → Option Engine
  | .team t => (findTeam s t).map Team.engine
  | .node n => (findNode s n).map NodeInst.engine
def modEngine (s : State) (x : EngineRef) (f : Engine → Engine) : State :=
  match x with
  | .team t => modTeam s t fun tm => { tm with engine := f tm.engine }
  | .node n => modNode s n fun nd => { nd with engine := f nd.engine }

/-! ## Retirement (R8, R21) -/

/-- A retired group gives its blocks up once its load and tile counters are 0 (R21, R76). -/
def freeBlocks (x : Group) : Group :=
  if x.retired && x.loads.isEmpty && x.tiles.isEmpty then { x with blocks := [], owned := 0 } else x

/-- A group retires. -/
def retireGroup (x : Group) : Group := freeBlocks { x with frontier := [], frozen := none, wait := none, parked := false, cancelled := [], retired := true }

/-- A team has done what R8 asks: its groups have retired, its stream has ended, its engine has finished. -/
def teamDone (t : Team) : Bool :=
  !t.retired && t.stop.isNone && (t.groups.all Group.retired) && !t.seq.running &&
  t.engine.flight.isEmpty && t.engine.completed == t.engine.published

/-- The bytes of a line whose write-back is held: its home holds them until what holds it has ended (R177, R182, R349). -/
def holdBytes (s : State) (ctx va line : Nat) (bs : List (Nat × Byte)) (who : GRef) : State :=
  bs.foldl (fun s p => holdWrite s { ctx := ctx, va := va / 32 * 32 + p.1, pa := 32 * line + p.1, op := .store [p.2], who := some who,
                                     core := 4096, id := 0 }) s

/-- The dirty lines of a stash mapping are held at their homes. -/
def holdStash (s : State) (t : TRef) (ctx : Nat) (m : Stash) : State :=
  ((List.range 128).filter fun i => m.dirty.getLsbD i).foldl (fun s i =>
    modStash (holdBytes s ctx (m.va + 32 * i) (m.addr / 32 + i) (offsets (stashLine s t m i)) (trefGroup t 0)) t m.off fun m =>
      { m with dirty := m.dirty &&& ~~~lineBit i }) s

/-- What ends with a team: its stash mappings, dirty lines written back, or held at their homes where something holds the write-back (R122,
R177, R182, R349). -/
def retireTeam (s : State) (t : TRef) : State :=
  match findTeam s t, findGang s t.gang with
  | some tm, some gg =>
    let s1 := tm.stash.foldl (fun s m =>
      let s' := if stashHeld s t m then holdStash s t gg.ctx m else s
      match (findTeam s' t).bind fun u => u.stash.find? fun q => q.off == m.off with
      | some q => (endStash s' t q).1
      | none => s') s
    modTeam s1 t fun tm => { tm with retired := true }
  | _, _ => s

/-- The narrow lines of a gang are written back (R172); those that are held stay so at their homes (R182, R349). -/
def retireLines (s : State) (n : Nat) : State :=
  match findGang s n with
  | none => s
  | some gg =>
    let kept := s.mm.narrow.filter fun m => m.gang == n && narrowHeld s m
    let s1 := kept.foldl (fun s m => holdBytes s gg.ctx m.va m.line m.bytes m.who) s
    let s2 := modMm s1 fun m => { m with narrow := m.narrow.filter fun q => !kept.contains q }
    (publishWhere s2 fun m => m.gang == n).1

/-- What ends with a gang: its narrow lines, its place, and its node has one gang fewer to wait for (R8, R295). -/
def retireGang (s : State) (n : Nat) : State :=
  match findGang s n with
  | none => s
  | some gg =>
    let s1 := retireLines s n
    let s2 := modGang s1 n fun gg => { gg with state := .retired, marked := false, marks := [] }
    match gg.node with
    | some nd => modNode s2 nd fun x => { x with gangsLeft := x.gangsLeft - 1 }
    | none => s2

/-- A team that has done what R8 asks retires, and with the last of them its gang. -/
def checkTeam (s : State) (t : TRef) : State :=
  match findTeam s t with
  | none => s
  | some tm =>
    if teamDone tm then
      let s1 := retireTeam s t
      if (findGang s1 t.gang).elim false fun gg => gg.state == .resident && gg.teams.all Team.retired then retireGang s1 t.gang
      else s1
    else s

end Sys2Proof.Machine
end

