-- ==== Sys2Proof/Machine/System.lean ====
section
/-! DEFINITION. System instructions (R75 to R81), WAIT (R84), register blocks (R85) and ROUTE (R86). EXIT stands with the
ladders (Ladder.lean), since its lanes may hold items. -/
namespace Sys2Proof.Machine

def execNop (s : State) : Out := groupOp s advance
/-- YIELD: the choice of the next front-end cycle passes over the group (R28, R75). -/
def execYield (s : State) : Out := groupOp s fun x => { advance x with yielded := true }

/-- PCHK: parks a group of a marked gang; it resumes after PCHK (R75, R282). -/
def execPchk (s : State) : Out :=
  onGroup s fun g x => if isMarked s g then .next (beginWait s g x .pchk) else .next (setGroup s g (advance x))

/-- TRAP: the entry advances, then TRAPI is set with the link of the advanced entry (R77). -/
def execTrap (_code : BitVec 16) (s : State) : Out := onGroup s fun g x => performedThen s g (advance x) cTrapi

/-- A group runs its team's trap handler. -/
def inHandler (s : State) (g : GRef) : Bool := (findTeam s (grefTeam g)).elim false fun t => t.handler == some g.grp

def execTret (s : State) : Out :=
  onGroup s fun g x =>
    if inHandler s g then .next (modTeam s (grefTeam g) (handlerReturn s.time g.grp ((findGang s g.gang).elim false Gang.reported)))
    else notPerformed s g x cTrapi

def execCclr (bit : BitVec 5) (s : State) : Out :=
  groupOp s fun x => { advance x with cause := x.cause &&& ~~~BitVec.ofNat 32 (2 ^ bit.toNat) }

/-- The lowest active lane (R44). -/
def lowestActive (x : Group) : Nat := ((activeLanes x).head?).getD 0

/-- The frontier entries that sr.front reads: 1 while the group runs a handler (R20, R280). -/
def frontCount (x : Group) : Nat := if x.frozen.isSome then 1 else x.frontier.length

/-- A special register as a group reads it (R44); sr.lane is read per lane into a v register. -/
def srValue (s : State) (g : GRef) (x : Group) (n : Nat) : Nat :=
  match findGang s g.gang with
  | none => 0
  | some gg =>
    let ids := gg.ids.getD (0, [])
    match n with
    | 0x00 => lowestActive x
    | 0x01 => g.grp
    | 0x02 => g.team
    | 0x03 => gg.index
    | 0x04 => x.width
    | 0x05 => ids.1
    | 0x06 => (ids.2[g.team]?).getD 0
    | 0x07 => s.time
    | 0x08 => x.cause.toNat
    | 0x09 => x.epc.toNat
    | 0x0A => x.skid
    | 0x0B => x.lct
    | 0x0C => x.acq
    | 0x0D => passesOf s gg
    | 0x0E => x.bubbles.toNat
    | 0x0F => (gg.teams[g.team]?).elim 0 fun t => t.skips.toNat
    | _ => frontCount x

def execSrd (d : BitVec 7) (toV : Bool) (sr : BitVec 8) (s : State) : Out :=
  onGroup s fun g x =>
    if toV then
      let n := if srWide sr then 2 else 1
      vecOp s false [] d n fun _ i =>
        if sr.toNat = 0 then ([BitVec.ofNat 32 i], false)
        else (words64 (BitVec.ofNat 64 (srValue s g x sr.toNat)), false)
    else .next (setGroup s g (sSet (advance x) d (BitVec.ofNat 64 (srValue s g x sr.toNat))))

def execSwr (a : SReg) (sr : BitVec 8) (s : State) : Out :=
  onGroup s fun g x =>
    match sr.toNat with
    | 0x09 => .next (setGroup s g { advance x with epc := sGet x a })
    | 0x0E => .next (setGroup s g { advance x with bubbles := sGet x a })
    | _ => .next (modTeam (setGroup s g (advance x)) (grefTeam g) fun t => { t with skips := sGet x a })

/-! ## WAIT (R84) -/

/-- The conditions of a WAIT hold; a field of 63 places none. -/
def waitHolds (x : Group) (l st c t : Nat) : Bool :=
  (l == 63 || decide (x.loads.length ≤ l)) && (st == 63 || decide (x.stores.length ≤ st)) &&
  (c == 63 || decide (x.copies ≤ c)) && (t == 63 || decide (x.tiles.length ≤ t))

/-- WAIT does not issue until its conditions hold: until then nothing changes. -/
def execWait (loads stores copies tiles : BitVec 6) (s : State) : Out :=
  onGroup s fun g x =>
    if waitHolds x loads.toNat stores.toNat copies.toNat tiles.toNat then .next (setGroup s g (advance x)) else .next s

/-! ## Register blocks, the operand queue and routes (R43, R85, R86) -/

def execWbase (n : BitVec 7) (s : State) : Out := groupOp s fun x => { advance x with wbase := 32 * n.toNat }

/-- The words of a register block. -/
def blockCut (x : Group) (b : Nat) : SMap 32 := smCut x.v (b * 64 * 64) ((b + 1) * 64 * 64)

/-- The group with the next block taken and zeroed in every lane (R43). -/
def takeBlock (u : Nat) (x : Group) : Group :=
  { x with owned := x.owned + 1, blocks := x.blocks ++ [u], v := blockCut x x.owned }

def execRacq (s : State) : Out :=
  onGroup s fun g x =>
    match findGang s g.gang with
    | none => .refused .noIssuer
    | some gg =>
      if 1 + gg.launch.maxBlocks ≤ x.owned then notPerformed s g x cWindow
      else match freeBlock s g with
        | some u => .next (setGroup s g (takeBlock u (advance (endWait x))))
        | none => .next (beginWait s g x .racq)

/-- The group with its highest extended block released: its contents and its queue entries go (R43, R85). -/
def dropBlock (x : Group) : Group :=
  if 1 < x.owned then
    { x with owned := x.owned - 1, blocks := x.blocks.dropLast, v := blockCut x (x.owned - 1),
             queue := x.queue.filter fun r => decide (r / 64 ≠ x.owned - 1)
             staged := x.staged.filter fun p => decide (p.1 / 64 ≠ x.owned - 1) }
  else x

def execRrel (s : State) : Out := groupOp s fun x => dropBlock (advance x)

/-- OPF: two registers are staged; each enters the queue as its staging completes, after a read of the store die whose length the manual
leaves open (R16, R86; DESIGN CHOICE, log 7). -/
def execOpf (a b : VReg) (s : State) : Out :=
  onGroup s fun g x =>
    let bits := regCauses x false [(a, 1), (b, 1)]
    if bits = 0 then
      let f := takeFresh s
      .next (setGroup f.2 g { advance x with
        staged := x.staged ++ [(physReg x a, Config.freeNat f.1 0), (physReg x b, Config.freeNat f.1 1)] })
    else notPerformed s g x bits

def execRoute (n : BitVec 3) (ka : BitVec 2) (ma : BitVec 7) (kb : BitVec 2) (mb : BitVec 7) (s : State) : Out :=
  groupOp s fun x => { advance x with routes := tabPut x.routes n.toNat { ka := ka, ma := ma, kb := kb, mb := mb } }

/-! ## BOOST (R81, R345) -/

/-- BOOST by a context on a physical cluster: the microseconds granted, and the state. A grant ends the context's lease on the cluster; one
of 0 µs is over as it begins (R345). -/
def boostGrant (s : State) (ctx c bin a : Nat) : Nat × State :=
  if bin = 0 then (0, endLeases s fun l => l.ctx == ctx && l.cluster == c)
  else if bin ≤ (clusterRegs s c).binBase.toNat || 1 ≤ computeState s (stackOf c) || 2 ≤ s.pl.powerStep
      || (dev s).pool = 0 then (0, s)
  else
    let s' := endLeases s fun l => l.ctx == ctx && l.cluster == c
    let g := min a (min (dev s').pool 65535)
    let s'' := modDev s' fun r => { r with pool := r.pool - g }
    let lease : BoostLease :=
      { ctx := ctx, cluster := c, bin := BitVec.ofNat 3 bin, stop := s.time + g * Config.unitsPerUs }
    (g, if g = 0 then s'' else { s'' with pl := { s''.pl with leases := s''.pl.leases ++ [lease] } })

def execBoost (d a : SReg) (bin : BitVec 3) (s : State) : Out :=
  onGroup s fun g x =>
    match findGang s g.gang with
    | none => .refused .noIssuer
    | some gg =>
      let r := boostGrant s gg.ctx (physCluster s (clusterOf gg)) bin.toNat (sGet x a).toNat
      .next (setGroup r.2 g (sSet (advance x) d (BitVec.ofNat 64 r.1)))

end Sys2Proof.Machine
end

