-- ==== Sys2Proof/Machine/Ladder.lean ====
section
/-! DEFINITION. Ladders (R249 to R267): items and frames, formation of body groups, results and progress, the four ladder
instructions, the starvation limit; and EXIT (R76), whose lanes may hold items. -/
namespace Sys2Proof.Machine

/-- The state with a ladder replaced. -/
def putLadder (s : State) (id : Nat) (l : Ladder) : State := modWk s fun w => { w with ladders := tabPut w.ladders id l }

/-- The state with a ladder changed. -/
def modLadder (s : State) (id : Nat) (f : Ladder → Ladder) : State := modWk s fun w => { w with ladders := tabMod w.ladders id f }

/-! ## Formation (R250, R259) -/

/-- A frame's words in the registers of its lane (key: register × 64 + lane). -/
def frameWords (i : Nat) (f : List Word) : List (Nat × Word) := (List.range f.length).zip f |>.map fun p => (p.1 * 64 + i, p.2)

/-- A body group of a rung with its frames in lanes 0, 1, … (R250). -/
def bodyGroup (id k words acq : Nat) (l : Launch) (fs : List (List Word)) : Group :=
  let lanes := (List.range fs.length).zip fs
  let m := fullMask fs.length
  let x := newGroup l 0 acq
  let items := lanes.map fun p => (p.1, ((p.2[0]?).getD 0).toNat)
  { x with
    live := m
    frontier := x.frontier.map fun e => { e with mask := m }
    v := (lanes.flatMap fun p => frameWords p.1 p.2).foldl (fun m p => smSet m p.1 p.2) []
    body := some { ladder := id, rung := k, words := words, items := items, left := 0 } }

/-- A body group of a rung is formed from its `n` oldest frames at a time that sr.acq holds, and its gang waits in its queue from then on
(R14, R258, R259, R306). -/
def formBody (s : State) (id k n formed : Nat) (part : Bool) : State :=
  match tabGet s.wk.ladders id with
  | none => s
  | some l => match l.rungs[k]? with
    | none => s
    | some r =>
      let x := bodyGroup id k l.words formed r.launch ((r.queue.take n).map Prod.fst)
      let tm : Team := { newTeam r.launch formed with groups := [x] }
      let gg := newGang l.ctx r.launch (r.formed % 2 ^ 32) none (queueNumber r.launch.prio l.lane) formed [tm]
      let r' : Rung := { r with queue := r.queue.drop n, formed := r.formed + 1
                                partials := r.partials + (if part then 1 else 0), full := r.full + (if part then 0 else 1) }
      addGang (putLadder s id { l with rungs := l.rungs.set k r' }) gg

/-- Full groups are formed while a rung's queue holds W frames (R250), at the unit after the append that completes them, later than every
append (R258; DEDUCED, log 67). -/
def formFull (s : State) (id k : Nat) : Nat → State
  | 0 => s
  | fuel + 1 =>
    match (tabGet s.wk.ladders id).bind fun l => l.rungs[k]? with
    | some r => if r.launch.width ≤ r.queue.length then formFull (formBody s id k r.launch.width (s.time + 1) false) id k fuel else s
    | none => s

/-- Frames enter a rung's queue together, in order; full groups form at once. -/
def enterFrames (s : State) (id k : Nat) (fs : List (List Word)) : State :=
  let s1 := modLadder s id fun l => { l with rungs := listMod l.rungs k fun r =>
    { r with queue := r.queue ++ fs.map fun f => (f, s.time), entered := r.entered + fs.length } }
  formFull s1 id k (fs.length + 1)

/-- LADDER_STARVATION_EXPIRY: the oldest frame of a rung has waited the rung's limit, and the partial group is formed at this unit; a frame
that has entered in it is left in the queue (R259). -/
def execLadderStarvationExpiry (ladder rung : Nat) (s : State) : Out :=
  match (tabGet s.wk.ladders ladder).bind fun l => l.rungs[rung]? with
  | some r => match r.queue with
    | (_, t) :: _ =>
      if t + r.limit * Config.unitsPerNs ≤ s.time && t < s.time then
        let n := min (r.queue.takeWhile fun f => decide (f.2 < s.time)).length r.launch.width
        .next (formBody s ladder rung n s.time (decide (n < r.launch.width)))
      else .next s
    | [] => .next s
  | none => .next s

/-! ## Results (R251, R252, R260, R261) -/

/-- What becomes of a word of the ladder's results: its write faults, its home holds it, or it is visible from a time. -/
inductive Written where
  | fault | held | at_ (t : Nat)
  deriving DecidableEq, Repr

/-- A word of the ladder's results is written, under the number of its writes (R261). -/
def ladWrite (s : State) (ctx va after : Nat) (v : Nat) (who : Option GRef) (core id : Nat) : State × Written :=
  match translate s ctx va with
  | some l =>
    if l.mtype = 0 && l.w && !l.x && va % 4 == 0 && (!isRemote s l.pa || (present s (pkgOf l.pa) && !unreachable s (pkgOf l.pa))) then
      let r := storeLane (if after = 0 then s else notBefore s l.pa after) ctx va l (natLE 4 v) who core id
      (r.1, r.2.elim .held .at_)
    else (s, .fault)
  | none => (s, .fault)

/-- The prefix of retired items (R252): items below `n` and those at and above it that have retired. -/
def prefixOf (n : Nat) (retired : List Nat) : Nat → Nat
  | 0 => n
  | fuel + 1 => if n ∈ retired then prefixOf (n + 1) retired fuel else n

/-- The state after a retirement's write, whether one has faulted, and the retirement with what the write has come to. -/
abbrev RetireAcc := State × Bool × Retiring

/-- A write of a retirement is noted. -/
def noteWritten (a : RetireAcc) (r : State × Written) : RetireAcc :=
  match r.2 with
  | .fault => (r.1, true, a.2.2)
  | .held => (r.1, a.2.1, { a.2.2 with holds := a.2.2.holds + 1 })
  | .at_ t => (r.1, a.2.1, { a.2.2 with vis := max a.2.2.vis t })

/-- The retirements of a ladder so far. -/
def retiredCount (l : Ladder) : Nat := l.counted + (l.retired.map fun b => b.items.length).sum

/-- One item retires with a value; in completion order, it takes the next place of the done list (R251, R260). -/
def retireItem (l : Ladder) (core : Nat) (a : RetireAcc) (item : Nat × Nat) : RetireAcc :=
  let b := a.2.2
  let a1 := noteWritten a (ladWrite a.1 l.ctx (l.result + 4 * item.1) 0 item.2 (some b.who) core b.id)
  let a2 := if l.order = 1 then
      noteWritten a1 (ladWrite a1.1 l.ctx (l.doneList + 4 * (retiredCount l + b.items.length)) 0 item.1 (some b.who) core b.id)
    else a1
  (a2.1, a2.2.1, { a2.2.2 with items := b.items ++ [item.1] })

/-- The retirements that the progress word may count now: none of their writes is held; in completion order, none of an earlier one's
either. -/
def countable (l : Ladder) : List Retiring :=
  if l.order = 1 then l.retired.takeWhile (·.holds == 0) else l.retired.filter (·.holds == 0)

/-- The value that the progress word comes to (R252, R260). -/
def progressNext (l : Ladder) : Nat :=
  let all := (countable l).flatMap Retiring.items
  if l.order = 1 then l.counted + all.length else prefixOf l.counted all (all.length + 1)

/-- The retirements left once the progress word has come to `n`. -/
def uncounted (l : Ladder) (n : Nat) : List Retiring :=
  if l.order = 1 then l.retired.drop (countable l).length
  else l.retired.filter fun b => decide (0 < b.holds) || b.items.any fun i => decide (n ≤ i)

/-- The progress word is written once where it rises, after all that it covers is visible and the skew has passed (R252, R260). Answers
the group whose retirement caused a write that faults (R261). -/
def writeProgress (s : State) (id : Nat) : State × Option GRef :=
  match tabGet s.wk.ladders id with
  | none => (s, none)
  | some l =>
    let n := progressNext l
    if n ≤ l.counted then (s, none)
    else
      let f := takeFresh s
      let vis := ((countable l).map Retiring.vis).foldl max s.time
      let r := ladWrite f.2 l.ctx l.progress (vis + Config.skewUnits 3) n none 4096 f.1
      let late := fun (p : Pass) => p.at_.elim true fun t => decide (s.time < t)
      let on : List Pass := match r.2 with
        | .fault => []
        | .held => [{ value := n, id := f.1, at_ := none }]
        | .at_ t => [{ value := n, id := f.1, at_ := some t }]
      (putLadder r.1 id { l with counted := n, retired := uncounted l n, released := releasedAt s.time l,
                                 passes := l.passes.filter late ++ on },
       if r.2 = .fault then ((countable l).getLast?).map Retiring.who else none)

/-- Items of one instruction retire, in rising lane order (R251, R260). Answers whether a write faulted. -/
def retireItems (s : State) (id : Nat) (who : GRef) (items : List (Nat × Nat)) : State × Bool :=
  match tabGet s.wk.ladders id with
  | none => (s, false)
  | some l =>
    let f := takeFresh s
    let b : Retiring := { id := f.1, items := [], who := who, vis := s.time, holds := 0 }
    let a := items.foldl (retireItem l (coreIdOf s who)) (f.2, false, b)
    let p := writeProgress (modLadder a.1 id fun l => { l with retired := l.retired ++ [a.2.2] }) id
    (p.1, a.2.1 || p.2.isSome)

/-! ## The instructions (R264 to R267) -/

/-- The ladder that an address names in a context (R264). -/
def ladderAt (s : State) (ctx addr : Nat) : Option (Nat × Ladder) := s.wk.ladders.find? fun p => p.2.ctx == ctx && p.2.addr == addr

/-- The frame words that an instruction reads as it issues stay with its group until it completes (R264, R265). -/
def readFrames (s : State) (g : GRef) (fs : List (Nat × List Word)) : State := modGroup s g fun x => { x with frames := some fs }

/-- The frame words of a lane. -/
def wordsOf (fs : List (Nat × List Word)) (i : Nat) : List Word := (tabGet fs i).getD []

/-- The frame words 1 to F − 1 of a lane, from a register upward. -/
def frameRest (x : Group) (r : VReg) (n i : Nat) : List Word := (List.range n).map fun j => vRaw x (physReg x r + j) i

def execLadpush (a b : VReg) (s : State) : Out :=
  onGroup s fun g x =>
    let lanes := activeLanes x
    let n := lanes.length
    match ladderAt s (ctxOf s g) (vGet64 x a ((lanes.head?).getD 0)).toNat with
    | none => notPerformed s g x (regCauses x false [(a, 2)] ||| cLadder)
    | some (id, l) =>
      let bits := regCauses x false [(a, 2), (b, l.words)] ||| (if l.window < n || 2 ^ 32 < l.nextIndex + n then cLadder else 0)
      if bits ≠ 0 then notPerformed s g x bits
      else
        let ws := x.frames.getD (lanes.map fun i => (i, frameRest x (b + 1) (l.words - 1) i))
        let s1 := readFrames (escapeOf s (some g)) g ws
        let x1 := (findGroup s1 g).getD x
        if x.wait.isNone && !fenceReady s1 x1 3 then .next s1
        else if pushFits s1 id l g (waitBegan s x.wait) n then
          let s2 := setGroup s1 g { advance (endWait x1) with frames := none }
          let fs := (List.range n).zip lanes |>.map fun p => BitVec.ofNat 32 (l.nextIndex + p.1) :: wordsOf ws p.2
          .next (enterFrames (modLadder s2 id fun l => { l with nextIndex := l.nextIndex + n }) id 0 fs)
        else .next (beginWait s1 g x1 (.ladpush id n))

/-- The body of a group whose ladder is still bound (R265, R266). -/
def bodyOf (s : State) (x : Group) : Option (Body × Ladder) :=
  x.body.bind fun b => (tabGet s.wk.ladders b.ladder).map fun l => (b, l)

/-- The item of a lane that has not left (R251). -/
def itemOf (b : Body) (i : Nat) : Option Nat := if laneIn b.left i then none else tabGet b.items i

/-- The active lanes whose items may leave. -/
def itemLanes (x : Group) (b : Body) : List (Nat × Nat) := (activeLanes x).filterMap fun i => (itemOf b i).map fun n => (i, n)

/-- No active lane has an item that may leave: the instruction is performed in no lane (R72, R251). -/
def allLeft (x : Group) (b : Body) : Bool := (itemLanes x b).isEmpty

/-- The items of lanes have left. -/
def markLeft (x : Group) (lanes : List Nat) : Group :=
  { x with body := x.body.map fun b => { b with left := b.left ||| maskOf lanes } }

def execLadesc (s : State) : Out :=
  onGroup s fun g x =>
    match bodyOf s x with
    | none => notPerformed s g x cLadder
    | some (b, l) =>
      let bits := regCauses x false [(1, b.words - 1)] ||| (if l.rungs.length ≤ b.rung + 1 || allLeft x b then cLadder else 0)
      if bits ≠ 0 then notPerformed s g x bits
      else
        let ls := itemLanes x b
        let ws := x.frames.getD (ls.map fun p => (p.1, frameRest x 1 (b.words - 1) p.1))
        if !fenceReady s x 3 then .next (readFrames s g ws)
        else
        let fs := ls.map fun p => BitVec.ofNat 32 p.2 :: wordsOf ws p.1
        let x1 := markLeft { advance x with frames := none } (ls.map Prod.fst)
        let s1 := modLadder s b.ladder fun l => { l with rungs := listMod l.rungs b.rung fun r =>
          { r with escalated := r.escalated + ls.length } }
        performedThen (enterFrames s1 b.ladder (b.rung + 1) fs) g x1
          (if ls.length < (activeLanes x).length then cLadder else 0)

def execLaddone (v : VReg) (s : State) : Out :=
  onGroup s fun g x =>
    match bodyOf s x with
    | none => notPerformed s g x (cLadder ||| regCauses x false [(v, 1)])
    | some (b, _) =>
      let bits := regCauses x false [(v, 1)] ||| (if allLeft x b then cLadder else 0)
      if bits ≠ 0 then notPerformed s g x bits
      else
        let ls := itemLanes x b
        let x1 := markLeft (advance x) (ls.map Prod.fst)
        let r := retireItems (setGroup s g x1) b.ladder g (ls.map fun p => (p.2, (vGet x v p.1).toNat))
        performedThen r.1 g x1 (if r.2 || ls.length < (activeLanes x).length then cLadder else 0)

/-- The two statistics words of a rung (R253); a count beyond its field wraps (DESIGN CHOICE, log 77). -/
def rungWords (r : Rung) : Nat × Nat :=
  (r.partials % 65536 * 2 ^ 48 + r.full % 65536 * 2 ^ 32 + r.entered % 2 ^ 32,
   r.queue.length % 2 ^ 32 * 2 ^ 32 + r.escalated % 2 ^ 32)

def execLadstat (d : SReg) (rung : BitVec 7) (s : State) : Out :=
  onGroup s fun g x =>
    match bodyOf s x with
    | none => notPerformed s g x cLadder
    | some (_, l) =>
      let w := (l.rungs[rung.toNat]?).elim (0, 0) rungWords
      .next (setGroup s g (sSet (sSet (advance x) d (BitVec.ofNat 64 w.1)) (d + 1) (BitVec.ofNat 64 w.2)))

/-! ## EXIT (R76, R251, R281) -/

/-- Items of exiting lanes that have not left retire with 0xFFFF_FFFF. -/
def exitItems (s : State) (g : GRef) (x : Group) (m : Mask) : State × Bool :=
  match bodyOf s x with
  | none => (s, false)
  | some (b, _) =>
    let ls := ((List.range x.width).filter (laneIn m)).filterMap (itemOf b)
    if ls.isEmpty then (s, false) else ((retireItems s b.ladder g (ls.map fun i => (i, 0xFFFFFFFF))).1, true)

/-- The lanes of a mask retire from a group whose frontier becomes `fr`. -/
def exitLanes (m : Mask) (fr : List FEntry) (x : Group) : Group :=
  let x1 := markLeft { x with live := x.live &&& ~~~m, frontier := fr } ((List.range x.width).filter (laneIn m))
  if fr.isEmpty then retireGroup x1 else x1

/-- EXIT in a handler (R281): every live lane of the group retires, and the team resumes as at TRET. -/
def exitHandler (s : State) (g : GRef) (x : Group) : State :=
  let r := exitItems s g x x.live
  let s1 := setGroup r.1 g (exitLanes x.live [] x)
  let s2 := modTeam s1 (grefTeam g) (leaveHandler s.time ((findGang s g.gang).elim false Gang.reported))
  checkTeam (if r.2 then raiseTeam s2 (grefTeam g) g.grp cLadder none else s2) (grefTeam g)

def execExit (s : State) : Out :=
  onGroup s fun g x =>
    if inHandler s g then .next (exitHandler s g x)
    else match x.frontier with
      | [] => .next s
      | e :: es =>
        let r := exitItems s g x e.mask
        let s1 := setGroup r.1 g (exitLanes e.mask es x)
        let s2 := if !r.2 then s1
          else if es.isEmpty then raiseTeam s1 (grefTeam g) g.grp cLadder none
          else raise s1 g cLadder (feLink { e with pc := e.pc + 4 }) [] none
        .next (checkTeam s2 (grefTeam g))

end Sys2Proof.Machine
end

