-- ==== Sys2Proof/Machine/Entries.lean ====
section
/-! DEFINITION. Copy-ring entries: their fields (R208, R237), the engines and what they take next (R205, R207, R295), and which
producers are ready to claim a slot of a stage ring (R212). -/
namespace Sys2Proof.Machine

/-! ## Fields of an entry (R208, R237) -/

def entryArrives (e : Entry) : Bool := e.flags.getLsbD 1
def entryStamps (e : Entry) : Bool := e.flags.getLsbD 0
def destKind (e : Entry) : Nat := bitsOf e.flags.toNat 3 2
def srcSlot (e : Entry) : Nat := bitsOf e.slots.toNat 2 0
def dstSlot (e : Entry) : Nat := bitsOf e.slots.toNat 6 4
/-- Byte `k` of an entry's destination field, counted from byte 12. -/
def dstByte (e : Entry) (k : Nat) : Nat := bitsOf e.dst.toNat (8 * k + 7) (8 * k)
/-- Bytes of source data that the command names. -/
def entryBytesTotal (e : Entry) : Nat := e.rows.toNat * e.rowBytes.toNat
/-- The pitch between source rows. -/
def pitchOf (e : Entry) : Nat := if e.stride = 0 then e.rowBytes.toNat else 32 * e.stride.toNat
/-- A source field names a scratchpad offset. -/
def srcScratch (e : Entry) : Bool := e.src.getLsbD 63

/-! ## Engines -/

/-- Every engine of the package. -/
def allEngines (s : State) : List (EngineRef × Engine) :=
  (s.wk.gangs.flatMap fun p => (List.range p.2.teams.length).filterMap fun t => (p.2.teams[t]?).map fun tm =>
    (.team { gang := p.1, team := t }, tm.engine)) ++
  s.wk.replays.flatMap fun p => (List.range p.2.nodes.length).filterMap fun n => (p.2.nodes[n]?).map fun nd =>
    (.node { replay := p.1, node := n }, nd.engine)

/-- A CPC that waits for its peer. -/
def cpcWaits (f : InFlight) : Bool := match f.prog with | .cpcWait _ => true | _ => false

/-- A team takes entries: it is resident, not stopped, and no handler runs (R276, R280). -/
def engineRuns (s : State) : EngineRef → Bool
  | .team t => (findGang s t.gang).elim false fun gg =>
      gg.state == .resident && (gg.teams[t.team]?).elim false fun tm => tm.stop.isNone && tm.handler.isNone && !tm.retired
  | .node _ => true

/-- The 32 bytes of the entry that an engine takes next, as a number: from its team's copy ring (R205), or from its node's
arming data (R295). -/
def nextEntry (s : State) (x : EngineRef) : Option Nat :=
  match x with
  | .team t => match findGang s t.gang, findTeam s t with
    | some gg, some tm =>
      if gg.launch.ringEntries = 0 then none
      else some (leNat (smRange tm.scratch (gg.launch.ringBase + 32 * (tm.engine.takenIdx % gg.launch.ringEntries)) 32))
    | _, _ => none
  | .node n => (findNode s n).map fun nd => leNat (entryBytes nd.arming nd.engine.takenIdx)

/-- The suspended entry of an engine, where it has one: its point of progress, and whether PAGE suspended it. -/
def suspendedOf (g : Engine) : Option (InFlight × Nat × Bool) :=
  g.flight.findSome? fun f => match f.prog with | .suspended i p => some (f, i, p) | _ => none

/-! ## Who claims a slot (R211, R212) -/

/-- A command that fills a slot of a stage ring: CP, CPT or CPG to a ring (R211, R237). -/
def fillsRing (code : Nat) (e : Entry) : Bool := decide (code ∈ [1, 2, 3]) && destKind e == 1

/-- A team's engine is ready to claim a slot of a ring: with the entry that it takes next, or with one that it took without its
resource as its gang was saved (R207, R286). -/
def engineClaims (s : State) (t : TRef) (q : Nat) : Bool :=
  match findEngine s (.team t) with
  | none => false
  | some g => engineRuns s (.team t) &&
    match suspendedOf g with
    | some (f, _, _) => fillsRing f.code f.ent && f.slot.isNone && dstByte f.ent 0 == q
    | none =>
      decide (g.takenIdx < g.published) && decide (g.flight.length < 16) && !g.flight.any cpcWaits &&
      (nextEntry s (.team t)).elim false fun v => fillsRing (v % 256) (entryOf v) && dstByte (entryOf v) 0 == q

/-- A multicast drain is ready to claim a slot of a ring of a team (R214). -/
def drainClaims (s : State) (t : TRef) (q : Nat) : Bool :=
  s.wk.picots.any fun p => p.2.any fun k => k.elim false fun k =>
    k.ready && k.pub.gang == t.gang && k.ring == q && k.teams.contains t.team

/-- The ring that a matrix word takes a slot of. -/
def takesOf : Instr → Option Nat
  | .mlda _ q _ => some q.toNat
  | .mma _ _ q _ _ _ => some q.toNat
  | _ => none

/-- The sequencer of a team has reached a ring as a consumer: its next word takes a slot of it (R212). -/
def seqTakes (s : State) (t : TRef) (q : Nat) : Bool :=
  match findGang s t.gang, findTeam s t with
  | some gg, some tm =>
    tm.seq.running && tm.stop.isNone && tm.seq.wait.isNone && match fetchWord s gg.ctx tm.seq.pc.toNat 1 with
      | some w => match decodeWord .matrix w with
        | .ok i => takesOf i == some q
        | .error _ => false
      | none => false
  | _, _ => false

/-- QWAIT (R212, R234): a sequencer that reaches the ring in the same front-end cycle takes its slot first. -/
def execQwait (q : BitVec 3) (d : SReg) (s : State) : Out :=
  onGroup s fun g x =>
    match findTeam s (grefTeam g) with
    | none => .refused .noIssuer
    | some t =>
      let r := ringOf t q.toNat
      if r.slots = 0 then notPerformed s g x cQueue
      else if mayTake t q.toNat (g.grp + 1) (waitBegan s x.wait) && (x.wait.isSome || !seqTakes s (grefTeam g) q.toNat) then
        let s' := setGroup s g (acquire s (sSet (advance (endWait x)) d (ringNumber r)))
        .next (modTeam s' (grefTeam g) fun t => modRing t q.toNat ringTake)
      else .next (beginWait s g x (.qwait q.toNat))

end Sys2Proof.Machine
end

