-- ==== Sys2Proof/Machine/Matrix.lean ====
section
/-! DEFINITION. The uniform sequencer and its matrix stream (R10, R199 to R204, R217 to R229). -/
namespace Sys2Proof.Machine

/-- The meaning of a matrix-stream word: it acts for the sequencer that is executing. -/
def onSeq (s : State) (f : TRef → Gang → Team → Out) : Out :=
  match s.focus with
  | .seq t => match findGang s t.gang, findTeam s t with
    | some gg, some tm => f t gg tm
    | _, _ => .refused .noIssuer
  | _ => .refused .noIssuer

/-! ## The stream (R217, R229) -/

/-- The PC after a word at the end of blocks of MLOOP: a block with turns left runs again, another ends (R229). -/
def loopEnd : List LoopLevel → BitVec 56 → BitVec 56 × List LoopLevel
  | [], pc => (pc, [])
  | l :: ls, pc =>
    if pc = l.stop then
      if l.left = 0 then loopEnd ls pc else (l.first, { l with left := l.left - 1 } :: ls)
    else (pc, l :: ls)

/-- The sequencer goes on to the next word; a wait that stood at the word is over. -/
def seqNext (q : Seq) : Seq :=
  let r := loopEnd q.loops (q.pc + 4)
  { q with pc := r.1, loops := r.2, wait := none }

/-- The team whose sequencer goes on. -/
def seqStep (t : Team) : Team := { t with seq := seqNext t.seq }

/-- The sequencer stands at a wait (R220). -/
def seqBegin (s : State) (t : TRef) (k : WaitKind) : State :=
  modTeam s t fun tm => { tm with seq := { tm.seq with wait := match tm.seq.wait with
    | some w => some w
    | none => some { kind := k, began := s.time, paused := 0, satAt := none } } }

/-- A word that is not performed: its cause goes to group 0, or as R219 says where that has retired. -/
def seqFail (s : State) (t : TRef) (bits : BitVec 32) (point : Option Nat) : Out := .next (raiseTeam s t 0 bits point)

/-- A format slot of a launch (R197). -/
def slotWord (l : Launch) (k : Nat) : Slot := Slot.ofWord ((l.slots[k]?).getD 0)

/-- QUEUE where an instruction names a ring that is not declared, whatever else it breaks (R219). -/
def undeclared (t : Team) (q : Nat) : BitVec 32 := if (ringOf t q).slots = 0 then cQueue else 0

/-- QUEUE where a slot of a ring is smaller than `n` bytes (R224 to R226). -/
def slotCause (t : Team) (q n : Nat) : BitVec 32 := if (ringOf t q).slotBytes < n then cQueue else 0

def execMend (s : State) : Out :=
  onSeq s fun t _ _ => .next (checkTeam (modTeam s t fun tm => { tm with seq := { tm.seq with running := false, wait := none } }) t)

def execMzero (z : BitVec 3) (s : State) : Out :=
  onSeq s fun t gg tm =>
    let acc : SMap 48 := smCut tm.z (zKey z.toNat 0 0) (zKey (z.toNat + 1) 0 0)
    .next (modTeam (slabsWrite s gg t.team z.toNat (fun _ => true) acc) t fun tm => { seqStep tm with z := acc })

/-- MGANG (R223). -/
def execMgang (mask : BitVec 4) (s : State) : Out :=
  onSeq s fun t gg _ =>
    let m := mask &&& allSlabs gg.launch.yoke
    .next (modTeam s t fun tm => let u := seqStep tm
                                 { u with seq := { u.seq with mask := if m = 0 then 1 else m } })

/-! ## Elements -/

/-- Code number `i` of `b` bits of a packed run of bytes that starts at a byte (R190, R191, R224 to R226). -/
def packedCode (m : SMap 8) (base b i : Nat) : Nat :=
  leNat (smRange m (base + i * b / 8) ((b + 7) / 8 + 1)) / 2 ^ (i * b % 8) % 2 ^ b

/-- The bytes of a run of codes of `b` bits. -/
def packCodes (b : Nat) (cs : List Nat) : List Byte :=
  natLE (cs.length * b / 8) (cs.foldr (fun c acc => c % 2 ^ b + 2 ^ b * acc) 0)

/-- Bytes of an A tile (R224). -/
def tileBytes (f : SlotFmt) : Nat := if f = .l6 then 6144 else 4096

/-- The mark of a ta register that is the odd half of an L6 tile (R204). -/
def oddHalf : Nat := 16

/-- The number of a format (R197). -/
def SlotFmt.num : SlotFmt → Nat
  | .f32 => 0 | .f16 => 1 | .b16 => 2 | .i8 => 3 | .i32 => 4 | .q4 => 5 | .l6 => 6 | .fx64 => 7 | .reserved => 8

/-! ## MLDA (R224) -/

/-- The formats recorded after a load into ta n: an L6 tile marks the next register as its odd half; the odd half of a tile
that is gone holds no tile (R204; DESIGN CHOICE, log 75). -/
def recordTile (fmts : List (Option Nat)) (n : Nat) (f : SlotFmt) : List (Option Nat) :=
  let a := fmts.set n (some f.num)
  if f = .l6 then a.set (n + 1) (some oddHalf)
  else if n % 2 = 0 && (a[n + 1]?).getD none == some oddHalf then a.set (n + 1) none else a

def execMlda (ta : BitVec 2) (q slot : BitVec 3) (s : State) : Out :=
  onSeq s fun t gg tm =>
    let f := (slotWord gg.launch slot.toNat).fmt
    let n := ta.toNat
    let bits := undeclared tm q.toNat |||
      (if (tileK f).isNone || (f == .l6 && n % 2 == 1) then cSlot else slotCause tm q.toNat (tileBytes f))
    if bits ≠ 0 then seqFail s t bits none
    else if mayTake tm q.toNat 0 (waitBegan s tm.seq.wait) then
      let r := ringOf tm q.toNat
      let data := smRange tm.scratch (slotOffset r r.take) (tileBytes f)
      .next (modTeam s t fun tm =>
        { modRing (seqStep tm) q.toNat ringTake with
          ta := smWrite tm.ta (4096 * n) data, taFmt := recordTile tm.taFmt n f })
    else .next (seqBegin s t (.mlda q.toNat))

/-! ## MMA (R199 to R202, R225) -/

/-- The A code of row r, element k; an odd half of an L6 tile holds undefined contents (R204). -/
def tileCode (fresh : Nat) (tm : Team) (n : Nat) (f : SlotFmt) (kk r k : Nat) : Nat :=
  if (tm.taFmt[n]?).getD none = some oddHalf then
    (Config.freeTileByte fresh (r * 128 + k)).toNat % 2 ^ f.bits
  else packedCode tm.ta (4096 * n) f.bits (r * kk + k)

/-- The A elements of a row that are not zero, with their places (R200, R201). -/
def rowTerms (fresh : Nat) (tm : Team) (n : Nat) (a : Slot) (kk r : Nat) : List (Nat × Nat) :=
  ((List.range kk).map fun k => (k, tileCode fresh tm n a.fmt kk r k)).filter fun p => !(a.dec p.2).isZero

/-- One element of the accumulator after an MMA (R200). -/
def mmaElem (a b : Slot) (bt : SMap 8) (base cols : Nat) (row : List (Nat × Nat)) (c old : Nat) : Nat :=
  sumOnce (row.map fun p => mmaTerm a b p.2 (packedCode bt base b.fmt.bits (p.1 * cols + c))) old

/-- The accumulator after an MMA over the selected slabs. -/
def mmaAcc (s : State) (gg : Gang) (tm : Team) (z n : Nat) (a b : Slot) (kk base : Nat) : SMap 48 :=
  let cols := 64 * gg.launch.yoke
  (List.range 64).foldl (fun acc r =>
    let row := rowTerms s.fresh tm n a kk r
    if row.isEmpty then acc
    else ((List.range cols).filter fun c => tm.seq.mask.getLsbD (c / 64)).foldl (fun acc c =>
      let key := zKey z r c
      smSet acc key (BitVec.ofNat 48 (mmaElem a b tm.scratch base cols row c (smGet acc key).toNat))) acc) tm.z

/-- The A elements of the tile that are zero (R187, R225). -/
def zeroCount (s : State) (tm : Team) (n : Nat) (a : Slot) (kk : Nat) : Nat :=
  64 * kk - (List.range 64).foldl (fun acc r => acc + (rowTerms s.fresh tm n a kk r).length) 0

/-- The tile a ta register holds can be read through a format; the odd half of an L6 pair as an L6 tile, whose elements are undefined
(R204; DESIGN CHOICE, log 75). -/
def tileMatches (tm : Team) (n : Nat) (f : SlotFmt) : Bool :=
  match (tm.taFmt[n]?).getD none with
  | some k => k == f.num || (k == oddHalf && f == .l6)
  | none => false

def execMma (z : BitVec 3) (ta : BitVec 2) (q sa sb : BitVec 3) (_reuse : Bool) (s : State) : Out :=
  onSeq s fun t gg tm =>
    let a := slotWord gg.launch sa.toNat
    let b := slotWord gg.launch sb.toNat
    let n := ta.toNat
    match mmaK a.fmt b.fmt with
    | none => seqFail s t (cSlot ||| undeclared tm q.toNat) none
    | some kk =>
      let bits := undeclared tm q.toNat |||
        (if tileMatches tm n a.fmt then slotCause tm q.toNat (kk * (64 * gg.launch.yoke) * b.fmt.bits / 8) else cSlot)
      if bits ≠ 0 then seqFail s t bits none
      else if mayTake tm q.toNat 0 (waitBegan s tm.seq.wait) then
        let r := ringOf tm q.toNat
        let acc := mmaAcc s gg tm z.toNat n a b kk (slotOffset r r.take)
        let skips := tm.skips + BitVec.ofNat 64 (zeroCount s tm n a kk)
        let s1 := slabsWrite (takeFresh s).2 gg t.team z.toNat (fun j => tm.seq.mask.getLsbD j) acc
        .next (modTeam s1 t fun tm => { modRing (seqStep tm) q.toNat ringTake with z := acc, skips := skips })
      else .next (seqBegin s t (.mlda q.toNat))

/-! ## MST (R195, R226) -/

/-- Bytes written to a team's scratchpad piece by piece, so that none crosses a stash line (R122). -/
def scratchStoreAll (s : State) (u : TRef) (off : Nat) (bs : List Byte) (who : Option GRef) : State :=
  (splitLines off bs).foldl (fun s p =>
    match p.2 with
    | [] => s
    | (o, _) :: _ => (scratchStore s u (32 * p.1 + o) (p.2.map Prod.snd) who 0).1) s

/-- The writer that stands for a team's engines, so that the rules of its instance apply to their writes (R316). -/
def teamAgent (t : TRef) : GRef := { gang := t.gang, team := t.team, grp := 255 }

/-- The converted columns of one slab in one row, as bytes. -/
def mstSegment (tm : Team) (z : Nat) (f : Slot) (r j : Nat) : List Byte :=
  packCodes f.fmt.bits ((List.range 64).map fun c => f.encMst (axFmt.dec (smGet tm.z (zKey z r (64 * j + c))).toNat))

/-- The selected columns of an accumulator written row by row from a byte of a team's scratchpad. -/
def mstWrite (s : State) (t : TRef) (gg : Gang) (tm : Team) (z : Nat) (f : Slot) (u : TRef) (base : Nat) : State :=
  let y := gg.launch.yoke
  (List.range 64).foldl (fun s r =>
    ((List.range y).filter fun j => tm.seq.mask.getLsbD j).foldl (fun s j =>
      scratchStoreAll s u (base + r * (8 * f.fmt.bits * y) + j * (8 * f.fmt.bits)) (mstSegment tm z f r j) (some (teamAgent t))) s) s

/-- The runs of bytes that an MST writes, from a byte of scratchpad: the selected columns, row by row. -/
def mstRuns (gg : Gang) (tm : Team) (f : Slot) (base : Nat) : List (Nat × Nat) :=
  (List.range 64).flatMap fun r => ((List.range gg.launch.yoke).filter fun j => tm.seq.mask.getLsbD j).map fun j =>
    (base + r * (8 * f.fmt.bits * gg.launch.yoke) + j * (8 * f.fmt.bits), 8 * f.fmt.bits)

/-- PERM where a run of an MST lies in a stash mapping of a page that is not writable (R116, R142). -/
def mstDenied (s : State) (u : TRef) (runs : List (Nat × Nat)) : BitVec 32 :=
  if runs.any fun p => (List.range p.2).any fun k => (stashLeaf s u (p.1 + k)).elim false fun l => !l.2.w then cPerm else 0

/-- An MST waits for a stash line's first touch, or for a locked page (R122, R182). -/
def mstWaits (s : State) (u : TRef) (runs : List (Nat × Nat)) : Bool :=
  runs.any fun p => (List.range p.2).any fun k => stashWaits s u (p.1 + k) || (stashLeaf s u (p.1 + k)).elim false fun l => l.2.mlock

/-- Bytes of an accumulator in a slot's format. -/
def mstBytes (gg : Gang) (f : Slot) : Nat := 64 * (64 * gg.launch.yoke) * f.fmt.bits / 8

/-- A format that MST cannot write. -/
def mstUnusable (f : Slot) : Bool := f.fmt == .fx64 || f.fmt == .reserved

/-- The place of an MST in scratchpad, or PERM (R111, R226). -/
def mstPlace (s : State) (t : TRef) (off n : Nat) : Except (BitVec 32) (TRef × Nat) :=
  match scratchAt s t off 1 with
  | .error e => .error e
  | .ok p => if (findTeam s p.1).elim 0 scratchLimit < p.2 + n then .error cPerm else .ok p

def execMstScratch (z slot : BitVec 3) (off : BitVec 21) (s : State) : Out :=
  onSeq s fun t gg tm =>
    let f := slotWord gg.launch slot.toNat
    if mstUnusable f then seqFail s t cSlot none
    else match mstPlace s t (32 * off.toNat) (mstBytes gg f) with
      | .error e => seqFail s t e none
      | .ok p =>
        let runs := mstRuns gg tm f p.2
        if mstDenied s p.1 runs ≠ 0 then seqFail s t cPerm none
        else if mstWaits s p.1 runs then .next s
        else .next (modTeam (mstWrite s t gg tm z.toNat f p.1 p.2) t seqStep)

/-- Bytes that a fill leaves undefined (R226, R237, R238): `n` of a draw, from a place of it on. -/
def freeBytesAt (fresh at_ n : Nat) : List Byte := (List.range n).map fun i => Config.freeByte fresh (at_ + i)

/-- The first `n` bytes of a draw. -/
def freeBytes (fresh n : Nat) : List Byte := freeBytesAt fresh 0 n

def execMstRing (z slot q : BitVec 3) (s : State) : Out :=
  onSeq s fun t gg tm =>
    let f := slotWord gg.launch slot.toNat
    let bits := undeclared tm q.toNat ||| (if mstUnusable f then cSlot else slotCause tm q.toNat (mstBytes gg f))
    if bits ≠ 0 then seqFail s t bits none
    else
      let r := ringOf tm q.toNat
      if ringFree tm q.toNat = 0 || engineClaims s t q.toNat || drainClaims s t q.toNat then .next (seqBegin s t (.mst q.toNat))
      else
        let base := slotOffset r r.next
        let fill := if (List.range gg.launch.yoke).all fun j => tm.seq.mask.getLsbD j then [] else freeBytes s.fresh (mstBytes gg f)
        let s1 := modTeam (takeFresh s).2 t fun tm => { tm with scratch := smWrite tm.scratch base fill }
        let s2 := mstWrite s1 t gg tm z.toNat f t base
        .next (modTeam s2 t fun tm => modRing (seqStep tm) q.toNat fun r => ringFill r.next (ringClaim r))

/-! ## MREL, MARV, MWT, MLOOP (R227 to R229) -/

def execMrel (q : BitVec 3) (s : State) : Out :=
  onSeq s fun t _ tm =>
    if (ringOf tm q.toNat).slots = 0 then seqFail s t cQueue none
    else match ringRelease (ringOf tm q.toNat) with
      | none => seqFail s t cQueue none
      | some r => .next (modTeam s t fun tm => releaseSlot (seqStep tm) q.toNat r)

def execMarv (p : BitVec 5) (s : State) : Out :=
  onSeq s fun t _ tm =>
    let k := pointOf tm p.toNat
    if k.e = 0 then seqFail s t cRzvinit (some p.toNat)
    else .next (modTeam s t fun tm =>
      let u := modPoint (seqStep tm) p.toNat fun r => arrive r none
      { u with seq := { u.seq with phases := tabPut u.seq.phases p.toNat k.phase } })

/-- The phase that an MWT awaits: that of its wait in progress, else that of R35. -/
def mwtPhase (k : Point) (q : Seq) (p : Nat) : Option Nat :=
  match q.wait with
  | some { kind := .rwait _ ph, .. } => if ph < k.phase then none else some ph
  | _ => awaited k (tabGet q.phases p)

def execMwt (p : BitVec 5) (s : State) : Out :=
  onSeq s fun t _ tm =>
    let k := pointOf tm p.toNat
    if k.e = 0 then seqFail s t cRzvinit (some p.toNat)
    else match mwtPhase k tm.seq p.toNat with
      | none => .next (modTeam s t seqStep)
      | some ph => .next (seqBegin s t (.rwait p.toNat ph))

def execMloop (count : BitVec 12) (len : BitVec 8) (s : State) : Out :=
  onSeq s fun t _ tm =>
    let first := tm.seq.pc + 4
    let l : LoopLevel := { first := first, stop := first + BitVec.ofNat 56 (4 * len.toNat), left := count.toNat - 1 }
    .next (modTeam s t fun tm => { tm with seq := { tm.seq with pc := first, loops := l :: tm.seq.loops, wait := none } })

end Sys2Proof.Machine
end

