-- ==== Sys2Proof/Machine/Copy.lean ====
section
/-! DEFINITION. The copy engines of teams and of graph nodes: taking entries (R207, R208, R237), the nine commands (R240 to
R248), faults while a command runs (R238), completion and stamps (R209, R210), multicast drains (R214), collectives (R246,
R247, R359). -/
namespace Sys2Proof.Machine

/-! ## Who an engine works for -/

/-- The context of an engine. -/
def engineCtx (s : State) : EngineRef → Nat
  | .team t => (findGang s t.gang).elim 0 Gang.ctx
  | .node n => (tabGet s.wk.replays n.replay).elim 0 Replay.ctx

/-- The writer that stands for an engine. -/
def engineAgent : EngineRef → Option GRef
  | .team t => some (teamAgent t)
  | .node _ => none

/-- A slot of an engine's launch; an engine of a graph node has no launch, and reads the default slot word 0 (DESIGN CHOICE, log 15). -/
def engineSlot (s : State) (x : EngineRef) (k : Nat) : Slot :=
  match x with
  | .team t => (findGang s t.gang).elim (Slot.ofWord 0) fun gg => slotWord gg.launch k
  | .node _ => Slot.ofWord 0

/-- A cause goes to the group that published an entry, or where R238 says; an engine of a node raises none. -/
def raiseEngine (s : State) (x : EngineRef) (pub : Nat) (bits : BitVec 32) (point : Option Nat) : State :=
  match x with
  | .team t => if bits = 0 then s else raiseTeam s t pub bits point
  | .node _ => s

/-! ## The limits of an entry (R208, R237) -/

/-- The header's own limits, the destination kind apart (R208). -/
def headerBad (e : Entry) : Bool :=
  bitsOf e.flags.toNat 7 4 != 0 || e.slots.getLsbD 3 || e.slots.getLsbD 7 ||
  (if entryArrives e then decide (24 ≤ e.point.toNat) else e.point != 0)

/-- A source that CP, CPS, CPM and CPC may name: a global address, or a scratchpad offset, a multiple of 4; an engine of a
node names global addresses only (R237, R295). -/
def srcOk (x : EngineRef) (e : Entry) : Bool :=
  e.src.toNat % 4 == 0 &&
  if srcScratch e then bitsOf e.src.toNat 62 32 == 0 && (match x with | .team _ => true | .node _ => false)
  else bitsOf e.src.toNat 63 57 == 0

/-- A scratchpad offset and a length name bytes of one allocation (R111). -/
def scratchFits (s : State) (t : TRef) (off n : Nat) : Bool :=
  match scratchAt s t off 1 with
  | .ok p => decide (p.2 + n ≤ (findTeam s p.1).elim 0 scratchLimit)
  | .error _ => false

/-- The destination of an entry that writes `n` bytes, at a multiple of `al`: its kind is one of those allowed, its ring is
declared, its data fits (R208, R237). Of a ring destination, bytes 14 to 19 must be zero (DESIGN CHOICE, log 64). -/
def destOk (s : State) (x : EngineRef) (e : Entry) (kinds : List Nat) (n al : Nat) : Bool :=
  decide (destKind e ∈ kinds) &&
  match destKind e, x with
  | 0, _ => bitsOf e.dst.toNat 63 57 == 0 && e.dst.toNat % al == 0
  | 1, .team t =>
    (findTeam s t).elim false fun tm =>
      let r := ringOf tm (dstByte e 0)
      decide (dstByte e 0 < 8) && decide (0 < r.slots) && e.dst.toNat / 65536 == 0 && decide (n ≤ r.slotBytes)
  | 2, .team t => bitsOf e.dst.toNat 63 32 == 0 && bitsOf e.dst.toNat 31 0 % al == 0 && scratchFits s t (bitsOf e.dst.toNat 31 0) n
  | _, _ => false

/-- Rows and row bytes within a command's limits (R237). -/
def shapeOk (e : Entry) (maxRows : Nat) : Bool :=
  decide (1 ≤ e.rows.toNat) && decide (e.rows.toNat ≤ maxRows) && decide (4 ≤ e.rowBytes.toNat) &&
  decide (e.rowBytes.toNat ≤ 65532) && e.rowBytes.toNat % 4 == 0 && decide (entryBytesTotal e ≤ 2 ^ 32)

/-- The element width of a CPT source slot (R241). -/
def cptWidth (f : SlotFmt) : Nat :=
  match f with
  | .i8 => 1
  | .f16 | .b16 => 2
  | .f32 | .i32 => 4
  | _ => 0

/-- Bytes of an element of a reduce-store's slots (R216). -/
def reduceSrc (f : SlotFmt) : Nat := match f with | .f32 => 4 | .f16 | .b16 => 2 | _ => 0
def reduceDst (f : SlotFmt) : Nat := match f with | .f32 => 4 | .b16 => 2 | .fx64 => 8 | _ => 0

/-- The peer, tag and operation of a CPC (R246). -/
def cpcPeer (e : Entry) : Nat := bitsOf e.dst.toNat 18 0
def cpcTag (e : Entry) : Nat := bitsOf e.dst.toNat 47 32
def cpcOp (e : Entry) : Nat := bitsOf e.dst.toNat 55 48

/-- Another CPC of the context with the same peer and tag is taken and not completed (R246). -/
def cpcTwin (s : State) (x : EngineRef) (e : Entry) : Bool :=
  (allEngines s).any fun p => engineCtx s p.1 == engineCtx s x && p.2.flight.any fun f =>
    f.code == 8 && (match f.prog with | .done 3 => false | _ => true) && cpcPeer f.ent == cpcPeer e && cpcTag f.ent == cpcTag e

/-- A CPM names teams of its gang and fits a picot and the ring (R245). -/
def cpmOk (s : State) (x : EngineRef) (e : Entry) : Bool :=
  match x with
  | .node _ => false
  | .team t => (findGang s t.gang).elim false fun gg =>
    let r := ((gg.teams[0]?).map fun tm => ringOf tm (dstByte e 0)).getD (newRing (0, 0, 0))
    destKind e == 1 && decide (dstByte e 0 < 8) && decide (0 < r.slots) && dstByte e 1 == 0 && dstByte e 2 != 0 &&
    decide (dstByte e 2 < 2 ^ gg.teams.length) && e.dst.toNat / 2 ^ 24 == 0 && decide (entryBytesTotal e ≤ 32768) &&
    decide (entryBytesTotal e ≤ r.slotBytes)

/-- An entry is skipped with BADCMD when it is taken (R208, R237, R240 to R248). No ring is looked at for a CPN, whose destination is unused
(DESIGN CHOICE, log 64). -/
def entryBad (s : State) (x : EngineRef) (code : Nat) (e : Entry) : Bool :=
  let n := entryBytesTotal e
  let a := engineSlot s x (srcSlot e)
  let b := engineSlot s x (dstSlot e)
  let isTeam := match x with | .team _ => true | .node _ => false
  headerBad e || !(match code with
    | 1 => e.slots == 0 && srcOk x e && shapeOk e (2 ^ 24) && destOk s x e [0, 1, 2] n 4
    | 2 =>
      let w := cptWidth a.fmt
      decide (0 < w) && dstSlot e == 0 && bitsOf e.src.toNat 63 57 == 0 && e.src.toNat % 1024 == 0 &&
      decide (1 ≤ e.rows.toNat) && decide (e.rows.toNat ≤ 2 ^ 24) && decide (w ≤ e.rowBytes.toNat) &&
      decide (e.rowBytes.toNat ≤ 32 * w) && e.rowBytes.toNat % w == 0 && e.stride.toNat % 32 == 0 && e.stride != 0 &&
      decide (n ≤ 2 ^ 32) && destOk s x e [0, 1, 2] n 1
    | 3 =>
      isTeam && e.slots == 0 && bitsOf e.src.toNat 63 32 == 0 && e.src.toNat % 8 == 0 && shapeOk e 65536 && e.stride == 0 &&
      destOk s x e [0, 1, 2] n 4
    | 4 =>
      isTeam && e.slots == 0 && srcOk x e && shapeOk e 65536 && destKind e == 0 && bitsOf e.dst.toNat 63 32 == 0 &&
      e.dst.toNat % 8 == 0
    | 5 => e.slots == 0 && shapeOk e (2 ^ 24) && e.stride == 0 && destOk s x e [0, 2] n 4
    | 6 =>
      let ws := reduceSrc a.fmt
      let wd := reduceDst b.fmt
      isTeam && decide (0 < ws) && decide (0 < wd) && bitsOf e.src.toNat 63 32 == 0 && e.src.toNat % ws == 0 &&
      decide (1 ≤ e.rows.toNat) && decide (e.rows.toNat ≤ 65536) && e.rowBytes.toNat % ws == 0 && decide (n ≤ 2 ^ 32) &&
      destOk s x e [0] n wd
    | 7 => e.slots == 0 && srcOk x e && shapeOk e (2 ^ 24) && cpmOk s x e
    | 8 =>
      (if cpcOp e = 1 then dstSlot e == 0 && decide (0 < reduceDst a.fmt) else e.slots == 0) && srcOk x e &&
      shapeOk e (2 ^ 24) && bitsOf e.dst.toNat 31 19 == 0 && decide (cpcOp e ≤ 3) && bitsOf e.dst.toNat 63 56 == 0 &&
      cpcPeer e != ownCoord s && !cpcTwin s x e
    | 9 => destKind e != 3 && e.slots == 0 && e.src == 0 && e.dst == 0 && e.rows == 0 && e.rowBytes == 0 && e.stride == 0
    | _ => false)

/-! ## Moving data (R176, R238, R239) -/

/-- Where a piece of data lies. -/
inductive Place1 where
  | glob (va : Nat)
  | scr (off : Nat)
  | bytes (bs : List Byte)
  deriving DecidableEq, Repr

/-- What stops an entry at a piece. -/
inductive Stopper where
  | page
  | fault (bits : BitVec 32)
  | poison (pa n : Nat)
  | stall
  deriving DecidableEq, Repr

/-- A write of another engine to a line is held or not yet visible (R177). -/
def otherEngine (s : State) (x : EngineRef) (line : Nat) : Bool :=
  engineWaits s line || (homeOf s line).writes.any fun w => w.engine && ((engineAgent x).isNone || w.writer != engineAgent x)

/-- A global read of an engine waits: its package is in recovery, its stack stands at its 105 °C point, or another engine owns the
line or has not yet written it (R177, R349, R356). -/
def engineStall (s : State) (x : EngineRef) (l : Leaf) : Bool :=
  readHeld s l || ownedLine s (l.pa / 32) s.fresh || (l.mtype == 0 && otherEngine s x (l.pa / 32))

/-- Bytes of a source piece, within one line, as its home or the scratchpad holds them. -/
def readPiece (s : State) (x : EngineRef) (noSwept : Bool) (p : Place1) (n : Nat) : Except Stopper (List Byte) :=
  match p with
  | .bytes bs => .ok bs
  | .scr off => match x with
    | .team t => match scratchAt s t off 1 with
      | .error _ => .error (.fault 0)
      | .ok q => if (findTeam s q.1).elim 0 scratchLimit < q.2 + n then .error (.fault 0)
                 else if stashWaits s q.1 q.2 then .error .stall
                 else .ok (scratchLoad s q.1 q.2 n (engineAgent x)).2
    | .node _ => .error (.fault 0)
  | .glob va => match translate s (engineCtx s x) va with
    | none => .error .page
    | some l =>
      if l.mtype = 2 || (noSwept && l.mtype = 1) then .error (.fault 0)
      else if isRemote s l.pa && (!present s (pkgOf l.pa) || unreachable s (pkgOf l.pa)) then .error (.fault cRemote)
      else if engineStall s x l then .error .stall
      else if errorFor s (engineAgent x) l.pa n then .error (.poison l.pa n)
      else .ok (if l.mtype = 1 then dramRead s l.pa n else homeRead s l.pa n (engineAgent x))

/-- A source piece that has been read leaves its copy: a stash line is filled, and so is the LLC (R122, R166). -/
def touchPiece (s : State) (x : EngineRef) (p : Place1) : State :=
  match p with
  | .bytes _ => s
  | .scr off => match x with
    | .team t => match scratchAt s t off 1 with
      | .error _ => s
      | .ok q => if stashWaits s q.1 q.2 then s else touchStash s q.1 q.2 (engineAgent x)
    | .node _ => s
  | .glob va => match translate s (engineCtx s x) va with
    | none => s
    | some l => if l.mtype = 0 then fillLlc s (l.pa / 32) else s

/-- The engine's write of a line is marked where it is not yet visible (R177). -/
def markEngine (before after : State) (line : Nat) : State :=
  if (homeOf before line).writes.length < (homeOf after line).writes.length then tagEngine after line else after

/-- Bytes of a piece written, within one line: the state, the time from which the write is visible, and whether it went to another
package. A stash line of a page that is not writable faults, and one whose first touch waits is waited for (R116, R122). -/
def writePiece (s : State) (x : EngineRef) (id : Nat) (p : Place1) (bs : List Byte) : Except Stopper (State × Nat × Bool) :=
  match p with
  | .bytes _ => .ok (s, s.time, false)
  | .scr off => match x with
    | .team t => match scratchAt s t off 1 with
      | .error _ => .error (.fault 0)
      | .ok q =>
        if (stashLeaf s q.1 q.2).elim false fun l => !l.2.w then .error (.fault 0)
        else if stashWaits s q.1 q.2 then .error .stall
        else .ok ((scratchStore s q.1 q.2 bs (engineAgent x) id).1, s.time, false)
    | .node _ => .error (.fault 0)
  | .glob va => match translate s (engineCtx s x) va with
    | none => .error .page
    | some l =>
      if l.mtype = 2 || !l.w || l.x then .error (.fault 0)
      else if isRemote s l.pa && (!present s (pkgOf l.pa) || unreachable s (pkgOf l.pa)) then .error (.fault cRemote)
      else
        let r := storeLane s (engineCtx s x) va l bs (engineAgent x) 4096 id
        .ok (markEngine s r.1 (l.pa / 32), r.2.getD r.1.time, isRemote s l.pa)

/-- A command's movement: for each byte index, the place of the source and the bytes that follow it there, the place of the
destination and the bytes that follow it there; none where an index table breaks its limits. -/
structure Move where
  total : Nat
  src : Nat → Option (Place1 × Nat)
  dst : Nat → Option (Place1 × Nat)
  noSwept : Bool

/-- The destination sector of a place. -/
def sectorOf : Place1 → Nat
  | .glob va => va / 1024
  | .scr off => off / 1024
  | .bytes _ => 0

/-- Bytes to the end of the 32-byte unit of a place. -/
def toUnit : Place1 → Nat
  | .glob va => 32 - va % 32
  | .scr off => 32 - off % 32
  | .bytes bs => bs.length

/-- What a movement has come to: the state, the latest time of visibility, whether it has written another package, the index reached,
the index up to which it has read, and what stopped it. -/
structure Moved where
  s : State
  vis : Nat
  far : Bool
  at_ : Nat
  reach : Nat
  stop : Option Stopper

/-- The source piece of `n` bytes at index `i`: the bytes kept where the entry has read them already, else as `s0` holds them (R176,
R239). -/
def sourcePiece (s0 : State) (x : EngineRef) (pre : List (Nat × Byte)) (noSwept : Bool) (p : Place1) (i n : Nat) :
    Except Stopper (List Byte) :=
  match (List.range n).mapM fun k => (pre.find? fun b => b.1 == i + k).map Prod.snd with
  | some bs => .ok bs
  | none => readPiece s0 x noSwept p n

/-- The movement in entry order, from index `i`, to the end of the present destination sector, or to its own end where `whole`: the
source is read in `s0`, before any write of this turn (R239). `save` is what stood at the start of the sector, which is not written
where a fault meets it (R238); a table entry that breaks its limits ends the movement at its row (R242). -/
def runMove (s0 : State) (x : EngineRef) (id : Nat) (pre : List (Nat × Byte)) (m : Move) (whole : Bool) :
    Nat → Moved → Moved → Option Nat → Moved
  | 0, c, _, _ => c
  | fuel + 1, c, save, sec =>
    let i := c.at_
    if m.total ≤ i then c
    else match m.src i, m.dst i with
      | some (p, a), some (q, b) =>
        if !whole && sec.isSome && sec != some (sectorOf q) then c
        else
          let save' : Moved := if sec = some (sectorOf q) then save else c
          let n := min (min a b) (min (min (toUnit p) (toUnit q)) (m.total - i))
          match sourcePiece s0 x pre m.noSwept p i n with
          | .error e => { save' with reach := i, stop := some e }
          | .ok bs => match writePiece (touchPiece c.s x p) x id q (bs.take n) with
            | .error e => { save' with reach := i + n, stop := some e }
            | .ok r =>
              runMove s0 x id pre m whole fuel
                { s := r.1, vis := max c.vis r.2.1, far := c.far || r.2.2, at_ := i + n, reach := i + n, stop := none } save'
                (some (sectorOf q))
      | _, _ => { c with stop := some (.fault 0) }

/-- A movement from an index, into `s`, of a source that is read in `s0`. -/
def moveFrom (s0 s : State) (x : EngineRef) (id : Nat) (pre : List (Nat × Byte)) (m : Move) (whole : Bool) (i : Nat) : Moved :=
  let start : Moved := { s := s, vis := s.time, far := false, at_ := i, reach := i, stop := none }
  runMove s0 x id pre m whole (m.total + 1) start start none

/-- The 32-byte unit that a place lies in, as the machine names it: a physical line, or a unit of a team's scratchpad. -/
def unitKey (s : State) (x : EngineRef) (p : Place1) : Option (Option TRef × Nat) :=
  match p with
  | .bytes _ => none
  | .scr off => match x with
    | .team t => match scratchAt s t off 1 with
      | .ok q => some (some q.1, q.2 / 32)
      | .error _ => none
    | .node _ => none
  | .glob va => (translate s (engineCtx s x) va).map fun l => (none, l.pa / 32)

/-- The units that a run of places meets, from index `i` to index `j`. -/
def unitsIn (s : State) (x : EngineRef) (f : Nat → Option (Place1 × Nat)) (i j : Nat) : List (Option TRef × Nat) :=
  ((List.range (j - i)).filterMap fun k => (f (i + k)).bind fun p => unitKey s x p.1).eraseDups

/-- The source bytes that an entry needs again after a turn, as they stood in `s0`: each line of the source is read once, and one that the
turn's writes cover before them (R176, R239). Where one cannot be read now, that stops the turn. -/
def keepSource (s0 : State) (x : EngineRef) (pre : List (Nat × Byte)) (m : Move) (i : Nat) (c : Moved) : Except Stopper (List (Nat × Byte)) :=
  let us := unitsIn s0 x m.src i c.reach ++ unitsIn s0 x m.dst i c.at_
  (List.range (m.total - c.at_)).foldr (fun k acc =>
    match acc, m.src (c.at_ + k) with
    | .ok l, some (p, _) =>
      if (pre.any fun b => b.1 == c.at_ + k) || (unitKey s0 x p).elim false us.contains then
        (sourcePiece s0 x pre m.noSwept p (c.at_ + k) 1).map fun bs => bs.map (fun b => (c.at_ + k, b)) ++ l
      else .ok l
    | _, _ => acc) (.ok [])

/-- The lines that a movement has still to write from an index: the engine owns them (R177). -/
def linesLeft (s : State) (x : EngineRef) (m : Move) (j : Nat) : List Nat :=
  ((List.range (m.total - j)).filterMap fun k => (m.dst (j + k)).bind fun p => match p.1 with
    | .glob va => (translate s (engineCtx s x) va).map fun l => l.pa / 32
    | _ => none).eraseDups

/-- Rows of an entry's source (R237). -/
def rowSrc (e : Entry) (i : Nat) : Option (Place1 × Nat) :=
  let rb := e.rowBytes.toNat
  let o := i / rb * pitchOf e + i % rb
  some (if srcScratch e then .scr (bitsOf e.src.toNat 31 0 + o) else .glob (e.src.toNat + o), rb - i % rb)

/-- A run of destination bytes from the destination's start (R237); `base` is a ring slot's offset. -/
def runDst (e : Entry) (base i : Nat) : Option (Place1 × Nat) :=
  match destKind e with
  | 0 => some (.glob (e.dst.toNat + i), entryBytesTotal e - i)
  | 1 => some (.scr (base + i), entryBytesTotal e - i)
  | _ => some (.scr (bitsOf e.dst.toNat 31 0 + i), entryBytesTotal e - i)

/-- The offset of an entry's index table. -/
def tableOff (code : Nat) (e : Entry) : Nat := if code = 3 then e.src.toNat else e.dst.toNat

/-- The index table of CPG and CPS, read in full at take: the state with its stash lines filled, and the table, or none where it lies
outside R111 (R122, R242). -/
def tableOf (s : State) (x : EngineRef) (code : Nat) (e : Entry) : State × Option (List Nat) :=
  if code ≠ 3 && code ≠ 4 then (s, none)
  else match x with
  | .node _ => (s, none)
  | .team t => match scratchAt s t (tableOff code e) 8 with
    | .error _ => (s, none)
    | .ok p =>
      if (findTeam s p.1).elim 0 scratchLimit < p.2 + 8 * e.rows.toNat then (s, none)
      else
        let r := (List.range e.rows.toNat).foldl (fun (a : State × List Nat) r =>
          let q := scratchLoad a.1 p.1 (p.2 + 8 * r) 8 (engineAgent x)
          (q.1, a.2 ++ [leNat q.2])) (s, [])
        (r.1, some r.2)

/-- A stash line of an index table waits for its first touch (R122). -/
def tableWaits (s : State) (x : EngineRef) (code : Nat) (e : Entry) : Bool :=
  decide (code ∈ [3, 4]) && match x with
  | .node _ => false
  | .team t => match scratchAt s t (tableOff code e) 8 with
    | .error _ => false
    | .ok p => (List.range e.rows.toNat).any fun r => stashWaits s p.1 (p.2 + 8 * r)

/-- A table entry as a place of a row's byte; none where the entry breaks R242. -/
def tablePlace (tb : Option (List Nat)) (rb i : Nat) : Option (Place1 × Nat) :=
  match tb.bind fun l => l[i / rb]? with
  | some a => if a % 4 = 0 && a < 2 ^ 57 then some (.glob (a + i % rb), rb - i % rb) else none
  | none => none

/-- A byte of CPT's source (R241). -/
def cptSrc (e : Entry) (w i : Nat) : Option (Place1 × Nat) :=
  let rb := e.rowBytes.toNat
  let c := 32 / w
  let r := i / rb
  let k := i % rb
  some (.glob (e.src.toNat + 32 * e.stride.toNat * (r / c) + 32 * (k / w) + w * (r % c) + k % w), w - k % w)

/-- A byte of CPF's pattern (R243). -/
def patSrc (e : Entry) (i : Nat) : Option (Place1 × Nat) :=
  let c := i % e.rowBytes.toNat
  let p := (natLE 8 e.src.toNat).drop (c % 8)
  some (.bytes p, min p.length (e.rowBytes.toNat - c))

/-- The movement of CP, CPT, CPG, CPS and CPF; `tb` is the index table as read at the take. -/
def moveOf (s : State) (x : EngineRef) (code : Nat) (e : Entry) (tb : Option (List Nat)) (base : Nat) : Move :=
  let n := entryBytesTotal e
  let rb := e.rowBytes.toNat
  match code with
  | 2 => { total := n, src := cptSrc e (cptWidth (engineSlot s x (srcSlot e)).fmt), dst := runDst e base, noSwept := true }
  | 3 => { total := n, src := tablePlace tb rb, dst := runDst e base, noSwept := false }
  | 4 => { total := n, src := rowSrc e, dst := tablePlace tb rb, noSwept := false }
  | 5 => { total := n, src := patSrc e, dst := runDst e base, noSwept := false }
  | _ => { total := n, src := rowSrc e, dst := runDst e base, noSwept := false }

/-! ## Reduce-stores (R216, R244) -/

/-- The destination of an element of a CPR: row r lies at destination + r × (row bytes × wd / ws). -/
def cprDest (e : Entry) (wd k : Nat) : Nat := e.dst.toNat + k * wd

/-- The destination word of a reduce-store as its line's order leaves it, visible or not: adds from several commands meet line by line
(R168, R188). While a write of the entry to the line would be held, the add waits, so that it is never an old sum that is placed (R182). -/
def reduceRead (s : State) (x : EngineRef) (id d wd : Nat) : Except Stopper (List Byte) :=
  match translate s (engineCtx s x) d with
  | none => .error .page
  | some l =>
    let line := l.pa / 32
    let held := waitsToWrite s l.mlock l.pa (engineAgent x) id || stagedByOther s (instOf s (engineAgent x)) line
    if l.mtype = 2 || !l.w || l.x then .error (.fault 0)
    else if isRemote s l.pa && (!present s (pkgOf l.pa) || unreachable s (pkgOf l.pa)) then .error (.fault cRemote)
    else if readHeld s l || held then .error .stall
    else if errorFor s (engineAgent x) l.pa wd then .error (.poison l.pa wd)
    else .ok (if l.mtype = 1 then dramRead s l.pa wd else sliceLine (lineLatest s line (engineAgent x)) l.pa wd)

/-- The elements of a CPR to the end of the present destination sector, one write each (R188), and whether one has overflowed. A fault
leaves the faulting sector unwritten (R238). -/
def runReduce (x : EngineRef) (id : Nat) (e : Entry) (a b : Slot) (ws wd : Nat) :
    Nat → Moved × Bool → Moved × Bool → Option Nat → Moved × Bool
  | 0, c, _, _ => c
  | fuel + 1, c, save, sec =>
    let k := c.1.at_
    let rb := e.rowBytes.toNat
    let i := k * ws
    let d := cprDest e wd k
    if entryBytesTotal e ≤ i || (sec.isSome && sec != some (d / 1024)) then c
    else
      let save' := if sec = some (d / 1024) then save else c
      let p : Place1 := .scr (bitsOf e.src.toNat 31 0 + i / rb * pitchOf e + i % rb)
      match readPiece c.1.s x false p ws, reduceRead c.1.s x id d wd with
      | .ok v, .ok m =>
        let r := reduceElem b (leNat m) (a.dec (leNat v))
        match writePiece (touchPiece c.1.s x p) x id (.glob d) (natLE wd r.1) with
        | .ok q =>
          runReduce x id e a b ws wd fuel
            ({ s := q.1, vis := max c.1.vis q.2.1, far := c.1.far || q.2.2, at_ := k + 1, reach := k + 1, stop := none }, c.2 || r.2) save' (some (d / 1024))
        | .error st => ({ save'.1 with stop := some st }, save'.2)
      | .error st, _ => ({ save'.1 with stop := some st }, save'.2)
      | _, .error st => ({ save'.1 with stop := some st }, save'.2)

/-- The destination lines of a CPR from element k on. -/
def reduceLines (s : State) (x : EngineRef) (e : Entry) (ws wd k : Nat) : List Nat :=
  ((List.range (entryBytesTotal e / ws - k)).filterMap fun n =>
    (translate s (engineCtx s x) (cprDest e wd (k + n))).map fun l => l.pa / 32).eraseDups

/-! ## Taking an entry (R207) -/

/-- The picots of a team's cluster. -/
def picotsOf (s : State) (t : TRef) : List (Option Picot) :=
  (findGang s t.gang).elim [] fun gg => (tabGet s.wk.picots (clusterOf gg)).getD (List.replicate 16 none)

/-- The resource an entry needs first is available: a slot that its ring destination may claim, a free picot (R207). -/
def resourceFree (s : State) (x : EngineRef) (code : Nat) (e : Entry) : Bool :=
  match x with
  | .node _ => true
  | .team t =>
    if code = 7 then (picotsOf s t).any Option.isNone
    else if fillsRing code e then (findTeam s t).elim false fun tm => decide (0 < ringFree tm (dstByte e 0))
    else true

/-- Byte 13 of an entry to a ring is not the ring's next slot as the entry is taken (R208). -/
def slotStale (s : State) (x : EngineRef) (code : Nat) (e : Entry) : Bool :=
  match x with
  | .node _ => false
  | .team t => fillsRing code e && (findTeam s t).elim false fun tm => dstByte e 1 != (ringOf tm (dstByte e 0)).next

/-- An entry in flight has the resource that it needs first: an entry saved as taken without it has not (R286). -/
def hasResource (s : State) (x : EngineRef) (f : InFlight) : Bool :=
  match x with
  | .node _ => true
  | .team t =>
    if f.code = 7 then (picotsOf s t).any fun p => p.elim false fun p => p.pub == t && p.idx == f.idx
    else !fillsRing f.code f.ent || f.slot.isSome

/-- The taken word of a team's ring (R205, R207). -/
def writeTaken (s : State) (x : EngineRef) : State :=
  match x with
  | .node _ => s
  | .team t => match findGang s t.gang, findTeam s t with
    | some gg, some tm =>
      modTeam s t fun u => { u with scratch := smWrite u.scratch (gg.launch.notify + 4) (natLE 4 (tm.engine.takenIdx % 2 ^ 32)) }
    | _, _ => s

/-- An entry is taken: its index, its publisher, its place in flight. -/
def beginEntry (s : State) (x : EngineRef) (code : Nat) (e : Entry) (prog : Progress) (slot : Option (Nat × Nat)) (id : Nat) : State :=
  let s1 := modEngine s x fun g =>
    let f : InFlight := { idx := g.takenIdx, code := code, ent := e, pub := (g.pubs.head?).getD 0, prog := prog,
                          visAt := s.time, slot := slot, id := id, pre := [] }
    { g with takenIdx := g.takenIdx + 1, pubs := g.pubs.drop 1, flight := g.flight ++ [f], waiting := none }
  writeTaken s1 x

/-- The entry in flight with a number is changed. -/
def modFlight (s : State) (x : EngineRef) (id : Nat) (f : InFlight → InFlight) : State :=
  modEngine s x fun g => { g with flight := g.flight.map fun q => if q.id = id then f q else q }

/-- The status codes of R236. -/
def stOk : Nat := 0
def stFault : Nat := 1
def stAbort : Nat := 2
def stBadcmd : Nat := 3
def stOverflow : Nat := 4

/-- What follows a movement: done, suspended at the next sector or while its home holds it, suspended at the faulting sector with PAGE,
or abandoned with FAULT (R238). An engine of a node has no team to stop, and abandons on PAGE too. -/
def afterMove (x : EngineRef) (f : InFlight) (m : Moved) (total status : Nat) : State :=
  let put := fun (t : State) (p : Progress) =>
    modFlight t x f.id fun q => { q with prog := p, visAt := max q.visAt m.vis, far := q.far || m.far }
  let isNode := match x with | .node _ => true | .team _ => false
  match m.stop with
  | none => put m.s (if m.at_ < total then .suspended m.at_ false else .done status)
  | some .stall => put m.s (.suspended m.at_ false)
  | some .page => if isNode then put m.s (.done stFault) else raiseEngine (put m.s (.suspended m.at_ true)) x f.pub cPage none
  | some (.fault bits) => raiseEngine (put m.s (.done stFault)) x f.pub bits none
  | some (.poison pa n) => raiseEngine (put (noteConsumption m.s pa n) (.done stFault)) x f.pub cPoison none

/-- What a suspended entry keeps until it goes on: the lines that it still owns, source bytes that it has read, an overflow (R176, R177,
R216, R239). -/
def keepEntry (s : State) (x : EngineRef) (f : InFlight) (owned : List Nat) (pre : List (Nat × Byte)) (ov : Bool) : State :=
  modFlight s x f.id fun q => match q.prog with
    | .suspended _ _ => { q with owned := owned, pre := pre, ov := ov }
    | _ => q

/-- The scratchpad offset of the slot an entry claimed. -/
def claimedBase (s : State) (x : EngineRef) (f : InFlight) : Nat :=
  match x, f.slot with
  | .team t, some (q, k) => (findTeam s t).elim 0 fun tm => slotOffset (ringOf tm q) k
  | _, _ => 0

/-- The bytes of a ring slot that an entry does not write are undefined (R237, R238). -/
def blankSlot (s : State) (x : EngineRef) (f : InFlight) : State :=
  match x, f.slot with
  | .team t, some (q, _) =>
    let n := (findTeam s t).elim 0 fun tm => (ringOf tm q).slotBytes
    let p := takeFresh s
    modTeam p.2 t fun tm => { tm with scratch := smWrite tm.scratch (claimedBase s x f) (freeBytes p.1 n) }
  | _, _ => s

/-- One turn on the data of CP, CPT, CPG, CPS and CPF: from a point of progress to the end of its destination sector (R238, R240 to
R243). -/
def performMove (s : State) (x : EngineRef) (f : InFlight) (i : Nat) : State :=
  let mv := moveOf s x f.code f.ent f.table (claimedBase s x f)
  let s1 := if i = 0 then blankSlot s x f else s
  let m := moveFrom s s1 x f.id f.pre mv false i
  match keepSource s x f.pre mv i m with
  | .ok pre => keepEntry (afterMove x f m mv.total stOk) x f (linesLeft s x mv m.at_) pre false
  | .error e =>
    keepEntry (afterMove x f { s := s1, vis := s1.time, far := false, at_ := i, reach := i, stop := some e } mv.total stOk) x f
      (linesLeft s x mv i) f.pre false

/-- One turn on the data of CPR (R216, R244). An instance that reaches a line which another has staged becomes escaped first (R319). -/
def performReduce (s0 : State) (x : EngineRef) (f : InFlight) (k : Nat) : State :=
  let a := engineSlot s0 x (srcSlot f.ent)
  let b := engineSlot s0 x (dstSlot f.ent)
  let ws := reduceSrc a.fmt
  let wd := reduceDst b.fmt
  let n := entryBytesTotal f.ent / ws
  let met := (translate s0 (engineCtx s0 x) (cprDest f.ent wd k)).elim false fun l =>
    stagedByOther s0 (instOf s0 (engineAgent x)) (l.pa / 32)
  let s := if met then escapeOf s0 (engineAgent x) else s0
  let start : Moved := { s := s, vis := s.time, far := false, at_ := k, reach := k, stop := none }
  let r := runReduce x f.id f.ent a b ws wd (n + 1) (start, f.ov) (start, f.ov) none
  keepEntry (afterMove x f r.1 n (if r.2 then stOverflow else stOk)) x f (reduceLines s x f.ent ws wd r.1.at_) [] r.2

/-- The ring slot that an entry claims when it is taken (R211). -/
def claimSlot (s : State) (x : EngineRef) (code : Nat) (e : Entry) : State × Option (Nat × Nat) :=
  match x with
  | .node _ => (s, none)
  | .team t =>
    if fillsRing code e then
      let k := (findTeam s t).elim 0 fun tm => (ringOf tm (dstByte e 0)).next
      (modTeam s t fun tm => modRing tm (dstByte e 0) ringClaim, some (dstByte e 0, k))
    else (s, none)

/-- A CPC escapes the instance of its team (R319). -/
def escapeEngine (s : State) (x : EngineRef) : State := escapeOf s (engineAgent x)

/-! ## CPM (R214, R245) -/

/-- The source of a command from index `i` on, read in one turn: its bytes as far as they can be read, those already read being kept
(R176), and what stops it there. -/
def readAll (s : State) (x : EngineRef) (e : Entry) (pre : List (Nat × Byte)) : Nat → Nat → List Byte × Option Stopper
  | 0, _ => ([], none)
  | fuel + 1, i =>
    if entryBytesTotal e ≤ i then ([], none)
    else match rowSrc e i with
      | none => ([], some (.fault 0))
      | some (p, a) =>
        let n := min (min a (toUnit p)) (entryBytesTotal e - i)
        match sourcePiece s x pre false p i n with
        | .ok bs => let r := readAll s x e pre fuel (i + n); (bs ++ r.1, r.2)
        | .error st => ([], some st)

/-- A command's source up to index `stop` as it leaves the copies that its reads fill (R122, R166). -/
def touchAll (s : State) (x : EngineRef) (e : Entry) (stop : Nat) : Nat → Nat → State
  | 0, _ => s
  | fuel + 1, i =>
    if stop ≤ i then s
    else match rowSrc e i with
      | none => s
      | some (p, a) => touchAll (touchPiece s x p) x e stop fuel (i + min (min a (toUnit p)) (stop - i))

/-- One turn on a source that is read whole before it is used: the bytes read so far, kept by index, and what stops it at a 1 KiB sector
of them (R176, R238). -/
def gather (s : State) (x : EngineRef) (f : InFlight) : List Byte × Moved :=
  let n := entryBytesTotal f.ent
  let r := readAll s x f.ent f.pre (n + 1) 0
  let t := touchAll s x f.ent r.1.length (n + 1) 0
  (r.1, { s := t, vis := t.time, far := false, at_ := if r.2.isSome then r.1.length / 1024 * 1024 else n, reach := r.1.length, stop := r.2 })

/-- Bytes by index. -/
def indexed (bs : List Byte) : List (Nat × Byte) := (List.range bs.length).zip bs

/-- The first free element of a cluster's picots is filled. -/
def fillPicot (ps : List (Option Picot)) (p : Picot) : List (Option Picot) :=
  match ps with
  | [] => []
  | none :: r => some p :: r
  | some q :: r => some q :: fillPicot r p

/-- The picots of a team's cluster changed. -/
def modPicots (s : State) (t : TRef) (f : List (Option Picot) → List (Option Picot)) : State :=
  match findGang s t.gang with
  | some gg => modWk s fun w => { w with picots := tabPut w.picots (clusterOf gg) (f (picotsOf s t)) }
  | none => s

/-- A CPM holds a picot from its take on (R207, R214). -/
def claimPicot (s : State) (x : EngineRef) (idx : Nat) (e : Entry) : State :=
  match x with
  | .node _ => s
  | .team t => modPicots s t fun ps =>
    fillPicot ps { data := [], teams := (List.range 4).filter fun k => dstByte e 2 / 2 ^ k % 2 == 1, ring := dstByte e 0, pub := t,
                   idx := idx, ready := false }

/-- The picot of a CPM changed. -/
def modPicot (s : State) (t : TRef) (idx : Nat) (f : Picot → Option Picot) : State :=
  modPicots s t fun ps => ps.map fun p => p.bind fun p => if p.pub == t && p.idx == idx then f p else some p

/-- A picot that holds all it will ever hold is parked: each receiving team's slot is filled from it; the bytes that an abandoned CPM has
not written are undefined (R214, R238). -/
def parkPicot (s : State) (t : TRef) (idx n : Nat) (data : List Byte) : State :=
  let k := takeFresh s
  modPicot k.2 t idx fun p => some { p with data := data ++ freeBytes k.1 (n - data.length), ready := true }

/-- One turn on the source of a CPM: it goes into its picot, which stays parked until its last drain (R214). One abandoned drains too,
with status FAULT (R238). -/
def performCpm (s : State) (x : EngineRef) (f : InFlight) : State :=
  match x with
  | .node _ => s
  | .team t =>
    let n := entryBytesTotal f.ent
    let g := gather s x f
    let s1 := keepEntry (afterMove x f g.2 n stOk) x f [] (indexed g.1) false
    match ((findEngine s1 x).bind fun e => e.flight.find? fun q => q.id == f.id).map InFlight.prog with
    | some (.done status) => modFlight (parkPicot s1 t f.idx n (g.1.take g.2.at_)) x f.id fun q => { q with prog := .multicast status }
    | _ => s1

/-- One team's drain of a picot is done; after the last the picot is free (R214). -/
def drainDone (s : State) (cluster slot team : Nat) : State :=
  match ((tabGet s.wk.picots cluster).getD [])[slot]? with
  | some (some p) =>
    let left := p.teams.filter (· ≠ team)
    let new : Option Picot := if left.isEmpty then none else some { p with teams := left }
    let s1 := modWk s fun w => { w with picots := tabMod w.picots cluster fun ps => ps.set slot new }
    s1
  | _ => s

/-- Every drain of a CPM is done: no picot holds its data for a team, and no drain of it waits in a saved or restored team
(R214, R215, R287). -/
def multicastDone (s : State) (x : EngineRef) (f : InFlight) : Bool :=
  match x with
  | .node _ => true
  | .team t =>
    !(s.wk.picots.any fun p => p.2.any fun q => q.elim false fun q => q.pub == t && q.idx == f.idx) &&
    (findGang s t.gang).elim true fun gg => !(gg.teams.any fun tm => tm.drains.any fun d => d.pub == t.team && d.idx == f.idx)

/-- The status of an entry in flight whose data is done. -/
def doneStatus (s : State) (x : EngineRef) (f : InFlight) : Option Nat :=
  match f.prog with
  | .done status => some status
  | .multicast status => if multicastDone s x f then some status else none
  | _ => none

/-- PICOT_DRAIN: the drain of one receiving team, a producer on its ring that comes after a copy engine that is ready to claim (R212,
R214); the rest of the slot is undefined (R237). -/
def execPicotDrain (cluster slot team : Nat) (s : State) : Out :=
  match ((tabGet s.wk.picots cluster).getD [])[slot]? with
  | some (some p) =>
    let u : TRef := { p.pub with team := team }
    match findTeam s u with
    | some tm =>
      if p.ready && decide (team ∈ p.teams) && decide (0 < ringFree tm p.ring) && !engineClaims s u p.ring &&
          (findGang s u.gang).elim false fun gg => gg.state == .resident then
        let k := takeFresh s
        let data := p.data ++ freeBytes k.1 ((ringOf tm p.ring).slotBytes - p.data.length)
        .next (drainDone (modTeam k.2 u fun tm => fillSlot tm p.ring data) cluster slot team)
      else .next s
    | none => .next s
  | _ => .next s

/-! ## CPC (R246, R247, R359) -/

/-- The buffer of a CPC as a destination. -/
def bufferMove (e : Entry) (data : List Byte) : Move :=
  { total := entryBytesTotal e, src := fun i => some (.bytes (data.drop i), data.length - i), dst := rowSrc e, noSwept := false }

/-- A CPC ends with its peer lost or unmatched: its status and cause; its buffer is left undefined (R247). -/
def failCpc (s0 : State) (x : EngineRef) (f : InFlight) (status : Nat) (bits : BitVec 32) : State :=
  let s := modFlight s0 x f.id fun q => { q with owned := [] }
  let p := takeFresh s
  let m := moveFrom p.2 p.2 x f.id [] (bufferMove f.ent (freeBytes p.1 (entryBytesTotal f.ent))) true 0
  let s1 := modFlight m.s x f.id fun q => { q with prog := .done status, visAt := max q.visAt m.vis, far := q.far || m.far }
  let s2 := match x with
    | .node n => if bits = cRemote then modNode s1 n fun nd => { nd with reason := some 2, peer := cpcPeer f.ent } else s1
    | .team _ => s1
  raiseEngine s2 x f.pub bits none

/-- The take of a CPC: its buffer is read once and sent, and the entry waits for its peer, owning the buffer's lines (R177, R246). -/
def performCpc (s : State) (x : EngineRef) (f : InFlight) : State :=
  if !coordPresent s (cpcPeer f.ent) || coordUnreachable s (cpcPeer f.ent) then failCpc s x f stAbort cRemote
  else if s.pl.aborts.contains (engineCtx s x, cpcPeer f.ent) then failCpc s x f stAbort cCollab
  else
    let g := gather s x f
    let owned := linesLeft s x (bufferMove f.ent []) 0
    if g.2.stop.isNone then modFlight g.2.s x f.id fun q => { q with prog := .cpcWait g.1, owned := owned }
    else keepEntry (afterMove x f g.2 (entryBytesTotal f.ent) stOk) x f owned (indexed g.1) false

/-- The elements of an add, mine and the peer's: the bytes, and an overflow, of an F32 or B16 sum too (R246; DESIGN CHOICE, log 64). -/
def addElems (a : Slot) (w : Nat) (mine peer : List Byte) : Nat → List Byte × Bool
  | 0 => ([], false)
  | n + 1 =>
    let r := addElems a w mine peer n
    let m := leNat ((mine.drop (n * w)).take w)
    let p := leNat ((peer.drop (n * w)).take w)
    let v := match a.fmt with
      | .fx64 => let z := sat64 (sextNat 64 m + sextNat 64 p); (wrapNat 64 z.1, z.2)
      | _ => reduceElem a m (a.dec p)
    (r.1 ++ natLE w v.1, r.2 || v.2)

/-- The slot word that an add's entry names, as its launch record gives it; 0 for an engine of a graph (R246, R247). -/
def cpcSlotWord (s : State) (x : EngineRef) (e : Entry) : Word :=
  match x with
  | .team t => (findGang s t.gang).elim 0 fun gg => (gg.launch.slots[srcSlot e]?).getD 0
  | .node _ => 0

/-- The operation that an operation pairs with (R246). -/
def pairedOp (op : Nat) : Nat := if op = 2 then 3 else if op = 3 then 2 else op

/-- The two sides of a step match: rows, row bytes, operations, and for an add the slot word (R247). -/
def stepMatches (s : State) (x : EngineRef) (e : Entry) (p : PeerStep) : Bool :=
  p.rows == e.rows.toNat && p.rowBytes == e.rowBytes.toNat && p.op == pairedOp (cpcOp e) &&
  (cpcOp e != 1 || p.slot == (cpcSlotWord s x e).toNat)

/-- What a matched CPC writes into its buffer, and whether an element saturated (R246). A part of an element at the end of an add's buffer
is no element, and keeps its bytes (DEDUCED, log 64). -/
def cpcResult (s : State) (x : EngineRef) (f : InFlight) (pre data : List Byte) : List Byte × Bool :=
  if cpcOp f.ent = 1 then
    let a := engineSlot s x (srcSlot f.ent)
    let w := reduceDst a.fmt
    let r := addElems a w pre data (entryBytesTotal f.ent / w)
    (r.1 ++ pre.drop r.1.length, r.2)
  else (data, false)

/-- One turn on what a matched CPC writes into its buffer (R246): to the end of its destination sector. -/
def performBuffer (s : State) (x : EngineRef) (f : InFlight) (i : Nat) : State :=
  let mv := bufferMove f.ent (f.pre.map Prod.snd)
  let m := moveFrom s s x f.id [] mv false i
  keepEntry (afterMove x f m mv.total (if f.ov then stOverflow else stOk)) x f (linesLeft s x mv m.at_) f.pre f.ov

/-- COLLECTIVE_PEER_DATA: the peer's side of a step arrives at an engine whose waiting CPC names that peer and that tag, with its data
unless it only receives. Sides that differ fail on both (R246, R247). -/
def execCollectivePeerData (x : EngineRef) (step : PeerStep) (s : State) : Out :=
  match (findEngine s x).bind fun g => g.flight.find? fun f => cpcWaits f && cpcPeer f.ent == step.peer && cpcTag f.ent == step.tag with
  | none => .next s
  | some f => match f.prog with
    | .cpcWait pre =>
      if !stepMatches s x f.ent step then .next (failCpc s x f stFault cCollab)
      else if step.data.length ≠ (if step.op = 3 then 0 else entryBytesTotal f.ent) then .next s
      else if cpcOp f.ent = 2 then .next (modFlight s x f.id fun q => { q with prog := .done stOk, owned := [] })
      else
        let r := cpcResult s x f pre step.data
        let f' : InFlight := { f with prog := .suspended 0 false, owned := [], pre := indexed r.1, ov := r.2 }
        .next (performBuffer (modFlight s x f.id fun _ => f') x f' 0)
    | _ => .next s

/-- CPC_ABORT: a peer package's part of a context has ended; the pair is recorded while this package's own part lives (R359). -/
def execCpcAbort (ctx pkg : Nat) (s : State) : Out :=
  if (tabGet s.mm.contexts ctx).elim true Context.dying then .next s
  else
  let s1 := { s with pl := { s.pl with aborts := (ctx, pkg) :: s.pl.aborts } }
  .next ((allEngines s1).foldl (fun s p =>
    if engineCtx s p.1 = ctx then
      (p.2.flight.filter fun f => cpcWaits f && cpcPeer f.ent == pkg).foldl (fun s f => failCpc s p.1 f stAbort cCollab) s
    else s) s1)

/-! ## The entries -/

/-- The meaning of a copy-ring entry: it acts for the engine that is executing. -/
def onEngine (s : State) (f : EngineRef → Engine → Out) : Out :=
  match s.focus with
  | .engine x => match findEngine s x with
    | some g => f x g
    | none => .refused .noIssuer
  | _ => .refused .noIssuer

/-- A taken entry performs one turn, from its first byte or from where it was suspended; the lines that it writes now it writes as
their owner. -/
def performEntry (s0 : State) (x : EngineRef) (f : InFlight) (i : Nat) : State :=
  let s := modFlight s0 x f.id fun q => { q with owned := [] }
  match f.code with
  | 6 => performReduce s x f i
  | 7 => performCpm s x f
  | 8 => if f.pre.length < entryBytesTotal f.ent then performCpc s x f else performBuffer s x f i
  | 9 => modFlight s x f.id fun q => { q with prog := .done stOk }
  | _ => performMove s x f i

/-- The engine waits for the resource that an entry needs first (R38, R207). -/
def engineBlocked (s : State) (x : EngineRef) : State := modEngine s x fun g => { g with waiting := some (g.waiting.getD s.time) }

/-- A suspended entry goes on; one that was saved as taken takes its resource first (R238, R286). -/
def resumeEntry (s : State) (x : EngineRef) (f : InFlight) (i : Nat) : State :=
  if hasResource s x f then performEntry s x f i
  else if !resourceFree s x f.code f.ent then engineBlocked s x
  else
    let c := claimSlot s x f.code f.ent
    let f' : InFlight := { f with slot := c.2 }
    let s1 := modEngine (modFlight c.1 x f.id fun _ => f') x fun g => { g with waiting := none }
    performEntry (if f.code = 7 then claimPicot s1 x f.idx f.ent else s1) x f' i

/-- A taken entry runs on: its team is resident, stopped or not (R276). -/
def engineAwake (s : State) : EngineRef → Bool
  | .team t => (findGang s t.gang).elim false fun gg => gg.state == .resident
  | .node _ => true

/-- An entry that its engine can take is taken, with its resource and its index table, and performs its first turn (R207, R242). -/
def takeEntry (s0 : State) (x : EngineRef) (code : Nat) (e : Entry) : State :=
  let k := takeFresh s0
  let c := claimSlot (if code = 8 then escapeEngine k.2 x else k.2) x code e
  let tb := tableOf c.1 x code e
  let s1 := beginEntry tb.1 x code e (.suspended 0 false) c.2 k.1
  match (findEngine s1 x).bind fun g => g.flight.getLast? with
  | some f =>
    let f' : InFlight := { f with table := tb.2 }
    let s2 := modFlight s1 x f.id fun _ => f'
    performEntry (if code = 7 then claimPicot s2 x f.idx e else s2) x f' 0
  | none => s1

/-- An entry is skipped with BADCMD as it is taken (R208). -/
def skipEntry (s : State) (x : EngineRef) (code : Nat) (e : Entry) : State :=
  let k := takeFresh s
  beginEntry k.2 x code e (.done stBadcmd) none k.1

/-- An entry that waits for its resource is taken without it as its gang is saved, with its index table and no progress; a byte 13 that
is not the ring's next slot skips it then (R208, R286; DEDUCED, log 23). -/
def takeWaiting (s : State) (t : TRef) : State :=
  match findTeam s t, nextEntry s (.team t) with
  | some tm, some v =>
    let code := v % 256
    let e := entryOf v
    if tm.engine.waiting.isNone || tm.engine.published ≤ tm.engine.takenIdx || (suspendedOf tm.engine).isSome then s
    else if slotStale s (.team t) code e then skipEntry s (.team t) code e
    else
      let k := takeFresh s
      let tb := tableOf k.2 (.team t) code e
      modFlight (beginEntry tb.1 (.team t) code e (.suspended 0 false) none k.1) (.team t) k.1 fun f => { f with table := tb.2 }
  | _, _ => s

/-- What a team's engine waits to claim: the command and its publisher, of an entry taken without its resource or of the next one
(R207, R286). -/
def wantedOf (s : State) (t : TRef) (g : Engine) : Option (Nat × Entry × Nat) :=
  match suspendedOf g with
  | some (f, _, _) => if hasResource s (.team t) f then none else some (f.code, f.ent, f.pub)
  | none => (nextEntry s (.team t)).map fun v => (v % 256, entryOf v, (g.pubs.head?).getD 0)

/-- One turn of an engine on an entry (R207, R238): a suspended entry goes on from its sector; behind a CPC that waits for its peer
nothing is taken (R246); else the entry is skipped with BADCMD, waits for its resource, or is taken and performed. -/
def engineTurn (s : State) (code : Nat) (e : Entry) (bad : Bool) : Out :=
  onEngine s fun x g =>
    match suspendedOf g with
      | some (f, i, page) =>
        if engineRuns s x || (!page && engineAwake s x) then .next (resumeEntry s x f i) else .next s
      | none =>
        if !engineRuns s x || g.published ≤ g.takenIdx || 16 ≤ g.flight.length || g.flight.any cpcWaits then .next s
        else if bad || entryBad s x code e then .next (skipEntry s x code e)
        else if !resourceFree s x code e then .next (engineBlocked s x)
        else if slotStale s x code e then .next (skipEntry s x code e)
        else if tableWaits s x code e then .next s
        else .next (takeEntry s x code e)

def execCp (e : Entry) (s : State) : Out := engineTurn s 1 e false
def execCpt (e : Entry) (s : State) : Out := engineTurn s 2 e false
def execCpg (e : Entry) (s : State) : Out := engineTurn s 3 e false
def execCps (e : Entry) (s : State) : Out := engineTurn s 4 e false
def execCpf (e : Entry) (s : State) : Out := engineTurn s 5 e false
def execCpr (e : Entry) (s : State) : Out := engineTurn s 6 e false
def execCpm (e : Entry) (s : State) : Out := engineTurn s 7 e false
def execCpc (e : Entry) (s : State) : Out := engineTurn s 8 e false
def execCpn (e : Entry) (s : State) : Out := engineTurn s 9 e false
/-- A code that R60 does not list: BADCMD. -/
def execUnknownCommandEntry (code : BitVec 8) (e : Entry) (s : State) : Out := engineTurn s code.toNat e true

/-! ## Completion (R209, R210) -/

/-- The stamp page of an engine's owner. -/
def stampPageOf (s : State) : EngineRef → Nat
  | .team t => (findGang s t.gang).elim 0 fun gg => gg.launch.stampPage
  | .node n => (findNode s n).elim 0 fun nd => leNat (nd.arming.take 8)

/-- The word a stamp holds (R210). -/
def stampWord (j status : Nat) : Nat := (j + 1) % 2 ^ 48 + status * 2 ^ 48

/-- A stamp is written, ordered after its command's writes (R179): the state, whether it was written, and the time from which it is
visible, where no home holds it. -/
def writeStamp (s : State) (x : EngineRef) (f : InFlight) (status : Nat) : State × Bool × Option Nat :=
  let va := stampPageOf s x + f.ent.stampOff.toNat
  match translate s (engineCtx s x) va with
    | some l =>
      if l.mtype = 0 && l.w then
        let t := max s.time f.visAt + Config.skewUnits (if f.far then 4 else 3)
        let r := storeLane (notBefore s l.pa t) (engineCtx s x) va l (natLE 8 (stampWord f.idx status)) (engineAgent x) 4096 f.id
        (r.1, true, r.2)
      else (s, false, none)
    | none => (s, false, none)

/-- A stamp is due: the entry asks for it, its status is not OK, or its engine works for a node (R210, R295). -/
def stampDue (x : EngineRef) (f : InFlight) (status : Nat) : Bool :=
  entryStamps f.ent || status != stOk || (match x with | .node _ => true | .team _ => false)

/-- The fill of a ring destination rises (R178, R211). -/
def completeFill (s : State) (x : EngineRef) (f : InFlight) : State :=
  match x, f.slot with
  | .team t, some (q, k) => modFlight (modTeam s t fun tm => modRing tm q (ringFill k)) x f.id fun g => { g with slot := none }
  | _, _ => s

/-- The rendezvous arrival of an entry; on an uninitialised point it is not counted, and sets RZVINIT (R34, R36). -/
def entryArrival (s : State) (x : EngineRef) (f : InFlight) : State :=
  match x with
  | .node _ => s
  | .team t =>
    if !entryArrives f.ent || 24 ≤ f.ent.point.toNat then s
    else if ((findTeam s t).elim 0 fun tm => (pointOf tm f.ent.point.toNat).e) = 0 then
      raiseTeam s t f.pub cRzvinit (some f.ent.point.toNat)
    else engineArrive s t f.ent.point.toNat

/-- The copy counter of the publishing group falls (R206). -/
def lowerCopies (s : State) (x : EngineRef) (f : InFlight) : State :=
  match x with
  | .node _ => s
  | .team t => modGroup s (trefGroup t f.pub) fun g => { g with copies := g.copies - 1 }

/-- What a node's engine has come to: with the last stamp visible and OK, its commit follows (R295, R296). -/
def nodeStamped (s : State) (x : EngineRef) (f : InFlight) (status : Nat) (r : Bool × Option Nat) : State :=
  match x with
  | .team _ => s
  | .node n => modNode s n fun nd =>
    let bad := status ≠ stOk || !r.1
    let e := nd.engine
    let at_ := max nd.stampAt (r.2.getD 0)
    let held := if r.1 && r.2.isNone then nd.stampsHeld ++ [f.id] else nd.stampsHeld
    { nd with
      reason := if bad && nd.reason.isNone then some 0 else nd.reason
      status := if bad && (nd.reason.isNone || nd.reason = some 0) && nd.status = 0 then stampWord f.idx status else nd.status
      stampAt := at_
      stampsHeld := held
      doneAt := if e.completed = e.published && held.isEmpty then some (max at_ s.time + commitSkew s) else nd.doneAt }

/-- Writes of an entry that a home still holds. -/
def entryHeld (s : State) (f : InFlight) : Bool := s.mm.held.any fun h => h.id == f.id

/-- A ring slot has every write of its entry, abandoned or not (R211, R238). -/
def slotWritten (s : State) (f : InFlight) : Bool :=
  f.slot.isSome && !entryHeld s f && match f.prog with
    | .done _ => true
    | _ => false

/-- Ring destinations rise as their writes are complete, whatever stands before their entries (R209, R211). -/
def settleFills (s : State) : State :=
  (allEngines s).foldl (fun s p => (p.2.flight.filter (slotWritten s)).foldl (fun s f => completeFill s p.1 f) s) s

/-- An offset of a stamp that no stamp page has (R210). -/
def badStamp (f : InFlight) : Bool := decide (65536 ≤ f.ent.stampOff.toNat) || f.ent.stampOff.toNat % 8 != 0

/-- COPY_ENTRY_COMPLETE: the oldest entry in flight completes once every write of it is visible: its stamp, its arrival, and the copy
counter, in running-index order (R209). A stamp offset that names no stamp sets STAMP whether one is due or not (R210). -/
def execCopyEntryComplete (x : EngineRef) (s : State) : Out :=
  match (findEngine s x).bind fun g => g.flight.head? with
  | none => .next s
  | some f => match doneStatus s x f with
    | some status =>
      if s.time < f.visAt || entryHeld s f || !engineAwake s x then .next s
      else
        let s1 := modEngine (if slotWritten s f then completeFill s x f else s) x fun g =>
          { g with flight := g.flight.drop 1, completed := g.completed + 1 }
        let r := if badStamp f then (s1, false, none) else if stampDue x f status then writeStamp s1 x f status else (s1, true, none)
        let s2 := if r.2.1 then r.1 else raiseEngine r.1 x f.pub cStamp none
        let s3 := nodeStamped (lowerCopies (entryArrival s2 x f) x f) x f status r.2
        match x with
        | .team t => .next (checkTeam s3 t)
        | .node _ => .next s3
    | none => .next s

end Sys2Proof.Machine
end

