-- ==== Sys2Proof/Machine/Signals.lean ====
section
/-! DEFINITION. Signals: XSIG (R162), the signal queue of a context (R357), delivery and its discard, and a cause that an
access sets after its instruction has issued. -/
namespace Sys2Proof.Machine

/-- The coordinate of a row and a column, in the layout of FAB_COORD (R356). -/
def coordNat (row : BitVec 9) (col : BitVec 10) : Nat := row.toNat * 1024 + col.toNat

/-- A signal of this package waits for its delivery. -/
def sendSignal (s : State) (ctx : Nat) (payload : Word64) (coord : Nat) (who : Option GRef) (node : Option NRef) (id : Nat) : State :=
  let h : HeldSignal := { ctx := ctx, payload := payload, coord := BitVec.ofNat 19 coord, since := none, who := who, node := node,
                          id := id }
  { s with pl := { s.pl with signals := s.pl.signals ++ [h] } }

/-- XSIG (R162): a contained instance escapes first, so the release waits for the lines that this publishes too (log 66). -/
def execXsig (d : SReg) (row : BitVec 9) (col : BitVec 10) (s : State) : Out :=
  onGroup s fun g x =>
    let c := coordNat row col
    if !coordPresent s c || coordUnreachable s c then notPerformed s g x cRemote
    else if !storeRoom x then .next s
    else
      let s1 := escapeOf s (some g)
      if !fenceReady s1 ((findGroup s1 g).getD x) 5 then .next s1
      else
        let k := takeFresh s1
        .next (pushStore (sendSignal k.2 (ctxOf s g) (sGet x d) c (some g) none k.1) g k.1 s.time 1 [])

/-! ## The queue (R357) -/

/-- A signal queue as the part reads it: its virtual address, entries, tail and head. -/
structure SignalQueue where
  va : Nat
  entries : Nat
  tail : Nat
  head : Nat
  deriving DecidableEq, Repr

/-- The queue bound for a context, where one is bound. -/
def queueBound (s : State) (ctx : Nat) : Option Nat :=
  (tabGet s.mm.contexts ctx).bind fun c => if c.sigq = 0 then none else some c.sigq

/-- A 64-bit word of a NORMAL page as its line's order leaves it, visible or not: one that the part itself writes. -/
def latestWord (s : State) (ctx va : Nat) : Nat :=
  (translate s ctx va).elim 0 fun l => leNat (sliceLine (lineLatest s (l.pa / 32) none) l.pa 8)

/-- The queue at an address, where it can be read and its entries keep the limits of R357; its tail, which the part alone writes, is the
latest that it wrote. -/
def queueAt (s : State) (ctx va : Nat) : Option SignalQueue :=
  match virtRead s ctx va 24 with
  | none => none
  | some bs =>
    let n := leNat (bs.take 4)
    if 16 ≤ n && n ≤ 65536 && 2 ^ Nat.log2 n == n then
      some { va := va, entries := n, tail := latestWord s ctx (va + 8), head := leNat ((bs.drop 16).take 8) }
    else none

/-- One write of the part to a virtual address, no earlier than a time: the state, with its completion where it is not held (R182,
R349); none where it cannot be made. -/
def partStore (s : State) (ctx va : Nat) (bs : List Byte) (after : Nat) : Option (State × Option Nat) :=
  match translate s ctx va with
  | some l => if l.mtype = 0 && l.w then some (storeLane (notBefore s l.pa after) ctx va l bs none 4096 0) else none
  | none => none

/-- One write of the part, that may be held: the state and its completion, or the time from which it is held; none where it cannot
be made. -/
def storeAfter (s : State) (ctx va : Nat) (bs : List Byte) (after : Nat) : Option (State × Nat) :=
  (partStore s ctx va bs after).map fun r => (r.1, r.2.getD (max s.time after))

/-- One write of the part that is not held: the state and its completion; else none. -/
def storeNow (s : State) (ctx va : Nat) (bs : List Byte) (after : Nat) : Option (State × Nat) :=
  (partStore s ctx va bs after).bind fun r => r.2.map fun t => (r.1, t)

/-- A queue has room for another entry. -/
def SignalQueue.room (q : SignalQueue) : Bool := decide (q.tail - q.head < q.entries)

/-- A signal enters a queue: the entry, then the tail with one write as a release at sys scope. Answers the completion of the
tail's write; none where the queue cannot be written, or its page holds writes. -/
def enqueueSignal (s : State) (q : SignalQueue) (ctx : Nat) (payload : Word64) (coord : Nat) : Option (State × Nat) :=
  let entry := natLE 8 payload.toNat ++ natLE 4 coord ++ natLE 4 q.tail
  (storeNow s ctx (q.va + 0x40 + 16 * (q.tail % q.entries)) entry 0).bind fun r =>
    storeNow r.1 ctx (q.va + 8) (natLE 8 (q.tail + 1)) (r.2 + Config.skewUnits 5)

/-! ## Delivery -/

/-- This package sent a signal; its target is another package. -/
def isOutgoing (s : State) (h : HeldSignal) : Bool := (h.who.isSome || h.node.isSome) && h.coord.toNat != ownCoord s

/-- A signal is no longer held. -/
def dropSignal (s : State) (k : Nat) : State := { s with pl := { s.pl with signals := s.pl.signals.eraseIdx k } }

/-- Its target acknowledges a signal of this package. -/
def ackSignal (s : State) (h : HeldSignal) (done : Nat) : State :=
  let s1 := match h.who with
    | some g => settlePend s (some g) h.id done none
    | none => s
  match h.node with
  | some n => modNode s1 n fun x => { x with doneAt := some (done + commitSkew s1) }
  | none => s1

/-- A signal of this package ends undelivered: its sender sets REMOTE (R162, R304, R357). -/
def failSignal (s : State) (h : HeldSignal) : State :=
  let s1 := match h.who with
    | some g => raiseLate (settlePend s (some g) h.id s.time none) g cRemote
    | none => s
  match h.node with
  | some n => modNode s1 n fun x => { x with reason := some 2, peer := h.coord.toNat }
  | none => s1

/-- Two signals have one sender and one target: those of one context that come from a package count as one sender's (DEDUCED, log 71). -/
def samePair (a b : HeldSignal) : Bool := a.ctx == b.ctx && a.who == b.who && a.node == b.node && a.coord == b.coord

/-- The oldest held signal of a context, a payload and the other package's coordinate. -/
def heldIndex (s : State) (ctx : Nat) (payload : Word64) (coord : BitVec 19) : Option Nat :=
  s.pl.signals.findIdx? fun h => h.ctx == ctx && h.payload == payload && h.coord == coord

/-- The `k`-th held signal is delivered where nothing of its sender is ahead of it: one for another package is acknowledged,
any other enters its queue; a full queue, or one that the part cannot use, holds it from now on, and where no queue is bound it
fails at once. Where the queue's page holds writes, it is not delivered yet. -/
def deliverHeld (s : State) (k : Nat) (h : HeldSignal) : State :=
  if (s.pl.signals.take k).any (samePair h) || coordRecovering s h.coord.toNat then s
  else if isOutgoing s h then ackSignal (dropSignal s k) h s.time
  else match queueBound s h.ctx with
    | none => failSignal (dropSignal s k) h
    | some va => match (queueAt s h.ctx va).filter SignalQueue.room with
      | some q => ((enqueueSignal s q h.ctx h.payload h.coord.toNat).map fun r => ackSignal (dropSignal r.1 k) h r.2).getD s
      | none => { s with pl := { s.pl with signals := s.pl.signals.set k { h with since := some (h.since.getD s.time) } } }

/-- SIGNAL_DELIVERY: a signal that waits is delivered, or one arrives from another package (R357). -/
def execSignalDelivery (ctx : Nat) (payload : Word64) (coord : BitVec 19) (s : State) : Out :=
  match heldIndex s ctx payload coord with
  | some k => match s.pl.signals[k]? with
    | some h => .next (deliverHeld s k h)
    | none => .next s
  | none =>
    if coord.toNat = ownCoord s || !coordPresent s coord.toNat || coordRecovering s coord.toNat then .next s
    else
      let s1 := sendSignal s ctx payload coord.toNat none none 0
      match s1.pl.signals.getLast? with
      | some h => .next (deliverHeld s1 (s1.pl.signals.length - 1) h)
      | none => .next s1

/-- SIGNAL_DELIVERY_DISCARD: a delivery that its queue has held for RECOVERY_LIMIT is discarded, and its sender sets REMOTE;
the target of one for another package may do so at any time (R357). -/
def execSignalDeliveryDiscard (k : Nat) (s : State) : Out :=
  match s.pl.signals[k]? with
  | none => .next s
  | some h =>
    let late := h.since.elim false fun t => decide (t + (dev s).recoveryLimit * Config.unitsPerUs ≤ s.time)
    if isOutgoing s h || late then .next (failSignal (dropSignal s k) h) else .next s

end Sys2Proof.Machine
end

