-- ==== Sys2Proof/Machine/SweepOps.lean ====
section
/-! DEFINITION. The refresh sweep and bank commands: descriptors (R154, R155), registrations (R129 to R133, R156, R157), the
drover's visit (R128, R132, R134, R135), SWPOS and SWWAIT (R158, R159), BKCMD (R137, R160, R161, R167). -/
namespace Sys2Proof.Machine

/-- The state with the sweep changed. -/
def modSw (s : State) (f : Sweep → Sweep) : State := { s with sw := f s.sw }

/-! ## Descriptors (R154) -/

/-- Words of a bank program from its first word to its first XEND, at most 16 (R59); none where one cannot be fetched. -/
def programWords (s : State) (ctx va : Nat) : Nat → Option (List Word)
  | 0 => none
  | fuel + 1 => match fetchWord s ctx va 2 with
    | none => none
    | some w =>
      if w = 0 then some [w]
      else (programWords s ctx (va + 4) fuel).map fun ws => w :: ws

/-- The fetch of a bank program's words waits (R349). -/
def programHeld (s : State) (ctx va : Nat) : Nat → Bool
  | 0 => false
  | fuel + 1 => fetchHeld s ctx va || (fetchWord s ctx va 2).elim false fun w => w != 0 && programHeld s ctx (va + 4) fuel

/-- A descriptor's fields from its 128 bytes as a number (64 for SWREG), with the limits of R154. -/
def descOf (v : Nat) (bank : Bool) : Descriptor :=
  let p := bitsOf v 111 104
  let off := fun k => bitsOf v (192 + 16 * k + 15) (192 + 16 * k)
  let rows := bitsOf v 95 64
  let mode := bitsOf v 103 96
  { lead := bitsOf v 63 0, rows := rows, mode := mode, partners := p, program := bitsOf v 191 128
    offsets := ((List.range 3).filter (· < p)).map fun k => sextNat 16 (off k)
    consts := (List.range 8).map fun k => BitVec.ofNat 32 (bitsOf v (256 + 32 * k + 31) (256 + 32 * k))
    stamp := bitsOf v 575 512, seqno := bitsOf v 639 576
    wellFormed :=
      bitsOf v 63 0 % 2048 == 0 && decide (1 ≤ rows) && decide (rows ≤ if bank then 65536 else 196608) &&
      (if bank then mode == 3 else decide (mode ≤ 2)) && decide (p ≤ 3) && bitsOf v 127 112 == 0 && bitsOf v 255 240 == 0 &&
      ((List.range 3).all fun k => decide (k < p) || off k == 0) &&
      (!bank || (bitsOf v 575 512 % 8 == 0 && bitsOf v 639 624 == 0 && v / 2 ^ 640 == 0)) }

/-- A descriptor read at the home (R154): the causes that keep it from being read, or its fields. -/
def readDesc (s : State) (ctx va : Nat) (who : Option GRef) (bank : Bool) : Except (BitVec 32) Descriptor :=
  let mis : BitVec 32 := if va % (if bank then 128 else 64) = 0 then 0 else cAlign
  match translate s ctx va with
  | none => .error (mis ||| cPage)
  | some l =>
    let bits := mis ||| (if l.mtype ≠ 0 || isRemote s l.pa then cPerm else 0)
    if bits = 0 then .ok (descOf (leNat (homeBytes s who l.pa (if bank then 128 else 64))) bank) else .error bits

/-- A descriptor can not be read yet: an access of its group to one of its lines waits, so that the read would not follow the group's own
stores (R154, R181), a copy engine owns one (R177), or what a fetch or the read meets stands at its 105 °C point (R349). -/
def descWaits (s : State) (g : GRef) (va : Nat) (bank : Bool) : Bool :=
  let ctx := ctxOf s g
  (translate s ctx va).elim false fun l => l.mtype == 0 && !isRemote s l.pa &&
    ((List.range (if bank then 4 else 2)).any (fun k => readWaits s g { l with pa := l.pa + 32 * k }) ||
      programHeld s ctx (descOf (leNat (homeBytes s (some g) l.pa (if bank then 128 else 64))) bank).program 16)

/-- The stamp of a bank descriptor lies on a writable NORMAL page (R154). -/
def stampOk (s : State) (ctx va : Nat) : Bool := (translate s ctx va).elim false fun l => l.mtype == 0 && l.w

/-! ## Rows -/

/-- A row of the DRAM by its package-local address, sparsely. -/
def rowRead (s : State) (loc : Nat) : SMap 8 :=
  let pa := ownPhys s loc
  (s.mm.mem.filter fun c => decide (pa ≤ c.1) && decide (c.1 < pa + 2048)).map fun c => (c.1 - pa, c.2)

/-- A row of the DRAM replaced. -/
def rowWrite (s : State) (loc : Nat) (r : SMap 8) : State :=
  let pa := ownPhys s loc
  modMm s fun m => { m with mem := r.foldl (fun m p => smSet m (pa + p.1) p.2) (smCut m.mem pa (pa + 2048))
                            poison := unpoison m.poison pa 2048 }

/-- Stripe row j of a program is loaded by an XLD, or stored by an XST. -/
def loadsRow (ws : List Word) (j : Nat) : Bool := ws.any fun w => match decodeWord .bank w with
  | .ok (.xld _ r) => r.toNat == j
  | _ => false
def storesRow (ws : List Word) (j : Nat) : Bool := ws.any fun w => match decodeWord .bank w with
  | .ok (.xst r _) => r.toNat == j
  | _ => false

/-! ## Registrations (R129 to R131) -/

/-- The runs of sweep ordinals that a registration holds: the lead rows, then each partner's (R129). -/
def runsOf (first count : Nat) (offsets : List Int) : List (Int × Nat) :=
  ((first : Int), count) :: offsets.map fun o => ((first : Int) + 32 * o, count)

/-- Two runs of ordinals have a row in common. -/
def runsCross (a b : Int × Nat) : Bool := decide (a.1 < b.1 + b.2) && decide (b.1 < a.1 + a.2)

/-- Rows in the union of runs that all have the same length: the runs in rising order, counted once. -/
def unionRows : List (Int × Nat) → Int → Nat
  | [], _ => 0
  | r :: rs, upTo =>
    let lo := max r.1 upTo
    let hi := r.1 + r.2
    (hi - lo).toNat + unionRows rs (max hi upTo)

/-- A list of runs in rising order of their starts. -/
def insertRun (r : Int × Nat) : List (Int × Nat) → List (Int × Nat)
  | [] => [r]
  | q :: qs => if r.1 ≤ q.1 then r :: q :: qs else q :: insertRun r qs
def sortRuns (rs : List (Int × Nat)) : List (Int × Nat) := rs.foldr insertRun []

/-- The distinct rows under registration in a pseudo-channel, with further runs (R129). -/
def rowsHeld (s : State) (pc : Nat) (more : List (Int × Nat)) : Nat :=
  unionRows (sortRuns (more ++ (s.sw.regs.filter fun r => r.pc == pc).flatMap fun r => runsOf r.firstOrd r.count r.offsets)) (-2000000)

/-- Registrations of a pseudo-channel that have a row in common with some runs. -/
def crossing (s : State) (pc : Nat) (rs : List (Int × Nat)) : List Registration :=
  s.sw.regs.filter fun r => r.pc == pc && (runsOf r.firstOrd r.count r.offsets).any fun a => rs.any (runsCross a)

/-- Heads of queues in a pseudo-channel: the first registration of each run of lead rows. -/
def headCount (s : State) (pc : Nat) : Nat :=
  (((s.sw.regs.filter fun r => r.pc == pc).map fun r => (r.firstOrd, r.count, r.offsets)).eraseDups).length

/-- The SWEPT frames of a context, and whether each is writable (R129). -/
def sweptOf (s : State) (ctx : Nat) : List (Nat × Bool) :=
  ((contextLeaves s ctx).filter fun l => l.mtype == 1).map fun l => (l.pa / 65536, l.w)

/-- The place of a region (R129): pseudo-channel, first ordinal; every page of it SWEPT, in the package, on consecutive row
indices, and writable where `w`. None where the layout is broken. -/
def regionAt (s : State) (ctx : Nat) (d : Descriptor) (w : Bool) : Option (Nat × Nat) :=
  match translate s ctx d.lead with
  | none => none
  | some l =>
    let loc := localOf l.pa
    let pages := (bankAt loc + d.rows + 31) / 32
    let ok := (List.range pages).all fun j =>
      match translate s ctx ((d.lead / 65536 + j) * 65536) with
      | some q =>
        q.mtype == 1 && !isRemote s q.pa && channelAt (localOf q.pa) == channelAt loc &&
        rowIndexAt (localOf q.pa) == rowIndexAt loc + j && (!w || q.w)
      | none => false
    if ok then some (channelAt loc, ordinalAt loc) else none

/-- The frame of a row index of a pseudo-channel. -/
def frameAt (s : State) (pc : Nat) (idx : Int) : Nat := ownPhys s (rowLocal pc idx.toNat 0) / 65536

/-- The partner rows of an offset lie on SWEPT pages of the context, writable where `w` (R129, R155). -/
def partnersOk (s : State) (frames : List (Nat × Bool)) (pc first count : Nat) (o : Int) (w : Bool) : Bool :=
  let pages := (first % 32 + count + 31) / 32
  (List.range pages).all fun j =>
    let idx : Int := (first / 32 + j : Nat) + o
    decide (0 ≤ idx) && decide (idx < Config.rowIndices) &&
    frames.any fun f => f.1 == frameAt s pc idx && (!w || f.2)

/-- What the drover decides of a registration (R129, R131, R155): the registration, with the mode it acts in, or a refusal. -/
def acceptReg (s : State) (ctx : Nat) (d : Descriptor) (ws : List Word) (node : Option NRef) : Option Registration :=
  match regionAt s ctx d (storesRow ws 0) with
  | none => none
  | some (pc, first) =>
    let frames := sweptOf s ctx
    let runs := runsOf first d.rows d.offsets
    let lead : Int × Nat := ((first : Int), d.rows)
    let held := crossing s pc runs
    let same := held.all fun r =>
      r.ctx == ctx && r.mode != 0 && r.firstOrd == first && r.count == d.rows && r.offsets == d.offsets
    let placesOk := ((List.range d.offsets.length).all fun j =>
        partnersOk s frames pc first d.rows ((d.offsets[j]?).getD 0) (storesRow ws (j + 1))) &&
      d.offsets.all (· ≠ 0) && decide d.offsets.Nodup &&
      d.offsets.all fun o => !runsCross lead ((first : Int) + 32 * o, d.rows)
    let queueOk := if held.isEmpty then
        decide (rowsHeld s pc runs ≤ 196608) && decide (headCount s pc < 16)
      else d.mode == 2 && same && decide (held.length < 4)
    if placesOk && queueOk then
      some { handle := s.sw.nextHandle, ctx := ctx, mode := if held.isEmpty && d.mode = 2 then 1 else d.mode, pc := pc,
             firstOrd := first, count := d.rows, offsets := d.offsets, program := ws, consts := d.consts, applied := [],
             skipped := [], node := node }
    else none

/-- The 64-bit handle of a registration: the part's own, never zero (R156; DEDUCED, log 13). -/
def handleWord (n : Nat) : Word64 := BitVec.ofNat 64 (Config.freeNat n 911 % 2 ^ 32 * 2 ^ 32 + n)

/-- A scalar register that a drover's answer will write (R15, R156, R158). -/
def sPending (d : Nat) : Word64 := BitVec.ofNat 64 (2 ^ d)

/-- SWREG (R156): the descriptor is read once it can be; a refused one writes 0 and sets SWEEP (R155). -/
def execSwreg (d : SReg) (a : VReg) (s : State) : Out :=
  onGroup s fun g x =>
    let bits := regCauses x false [(a, 2)]
    if bits ≠ 0 then notPerformed s g x bits
    else
      let ctx := ctxOf s g
      let va := laneAddr x a 0 (((activeLanes x).head?).getD 0)
      match readDesc s ctx va (some g) false with
      | .error e => notPerformed s g x e
      | .ok desc =>
        if descWaits s g va false then .next s
        else
        match (if desc.wellFormed then programWords s ctx desc.program 16 else none) with
        | none => performedThen (escapeOf s (some g)) g (sSet (advance x) d 0) cSweep
        | some ws =>
          let s1 := escapeOf s (some g)
          let s2 := modSw s1 fun w => { w with reqs := w.reqs ++ [.register (some g) none ctx d.toNat desc ws] }
          .next (modGroup s2 g fun x => { advance x with pendingS := x.pendingS ||| sPending d.toNat })

/-- A drover's answer writes its scalar register. -/
def answerS (s : State) (g : GRef) (d : Nat) (v : Word64) : State :=
  modGroup s g fun x => { sSet x (BitVec.ofNat 7 d) v with pendingS := x.pendingS &&& ~~~sPending d }

/-- The drover accepts or refuses a registration (R131, R156). -/
def decideReg (s : State) (who : Option GRef) (node : Option NRef) (ctx d : Nat) (desc : Descriptor) (ws : List Word) : State :=
  match acceptReg s ctx desc ws node with
  | some r =>
    let s1 := modSw s fun w => { w with regs := w.regs ++ [r], nextHandle := w.nextHandle + 1 }
    match who, node with
    | some g, _ => answerS s1 g d (handleWord r.handle)
    | none, some n => modNode s1 n fun x => { x with status := r.handle, doneAt := if r.mode = 0 then some (s.time + commitSkew s) else none }
    | none, none => s1
  | none =>
    match who, node with
    | some g, _ =>
      let s1 := answerS s g d 0
      raise s1 g cSweep ((findGroup s1 g).elim 0 curLink) [] none
    | none, some n => modNode s n fun x => { x with reason := some 1, doneAt := some s.time }
    | none, none => s

/-- REGISTRATION_ACCEPT: the k-th outstanding request to a drover is decided. -/
def execRegistrationAccept (k : Nat) (s : State) : Out :=
  match s.sw.reqs[k]? with
  | some (.register who node ctx d desc ws) =>
    .next (decideReg (modSw s fun w => { w with reqs := w.reqs.eraseIdx k }) who node ctx d desc ws)
  | _ => .next s

/-! ## SWDEL (R157) -/

/-- The state with every wait in progress changed. -/
def modWaits (s : State) (f : WaitKind → WaitKind) : State :=
  let grp := fun (x : Group) => { x with wait := x.wait.map fun w => { w with kind := f w.kind } }
  let team := fun (t : Team) => { t with groups := t.groups.map grp }
  { s with wk := { s.wk with gangs := s.wk.gangs.map fun p => (p.1, { p.2 with teams := p.2.teams.map team }) } }

/-- Waits of SWWAIT after a registration has left their queue before it was applied to their row (R159). -/
def leaveWaits (s : State) (h : Nat) : State :=
  modWaits s fun k => match k with
    | .swwait row regs per sk en last =>
      .swwait row (regs.filter (· ≠ h)) (if per = some h then none else per) sk (en || decide (h ∈ regs) || per == some h) last
    | _ => k

/-- A registration ends (R131). -/
def endReg (s : State) (h : Nat) : State :=
  leaveWaits (modSw s fun w => { w with regs := w.regs.filter fun r => r.handle ≠ h }) h

def execSwdel (b : SReg) (s : State) : Out :=
  onGroup s fun g x =>
    if !storeRoom x then .next s
    else match s.sw.regs.find? fun r => r.ctx == ctxOf s g && handleWord r.handle == sGet x b with
      | some r =>
        let f := takeFresh (escapeOf s (some g))
        .next (pushStore (endReg f.2 r.handle) g f.1 s.time 0 [])
      | none => notPerformed s g x cSweep

/-! ## SWPOS and SWWAIT (R108, R158, R159) -/

/-- The registrations queued on a row, in order: those that hold it as lead or partner, with the ordinal of its lead row. Where the row is
a partner of two stripes of one registration, the lead row is that of the offset that stands first in the descriptor: the manual does not
say of which lead SWPOS and SWWAIT then speak (R108, R132; DESIGN CHOICE, log 65). -/
def queueOf (s : State) (pc ord : Nat) : List (Registration × Nat) :=
  s.sw.regs.filterMap fun r =>
    if r.pc ≠ pc then none
    else ((0 : Int) :: r.offsets).findSome? fun o =>
      let l : Int := (ord : Int) - 32 * o
      if (r.firstOrd : Int) ≤ l ∧ l < (r.firstOrd : Int) + r.count then some (r, l.toNat) else none

/-- The latest application of a registration to a lead row. -/
def appliedAt (r : Registration) (ord : Nat) : Option Nat := tabGet r.applied ord

/-- The drover of a pseudo-channel; one not listed stands where reset left it (DESIGN CHOICE, log 1). -/
def droverOf (s : State) (pc : Nat) : Drover := (tabGet s.sw.drovers pc).getD { ord := 786431, pass := 0 }

/-- What SWPOS reports of a row to a context (R108, R158). -/
def posWord (s : State) (ctx loc : Nat) : Word64 :=
  let pc := channelAt loc
  let d := droverOf s pc
  let hit := match (queueOf s pc (ordinalAt loc)).head? with
    | some (r, l) => r.ctx == ctx && (appliedAt r l).isSome
    | none => false
  BitVec.ofNat 64 (d.pass % 2 ^ 32 * 2 ^ 32 + (if hit then 2 ^ 31 else 0) + d.ord)

/-- The check of a drover instruction's address: not another package's, not DEVICE (R158, R355); SWWAIT takes the cause of SWPOS for a
DEVICE page (DESIGN CHOICE, log 74). -/
def droverAddr (s : State) (g : GRef) (x : Group) (a : VReg) : Except (BitVec 32) Nat :=
  match translate s (ctxOf s g) (laneAddr x a 0 (((activeLanes x).head?).getD 0)) with
  | none => .error cPage
  | some l => if l.mtype = 2 || isRemote s l.pa then .error cPerm else .ok (localOf l.pa)

def execSwpos (d : SReg) (a : VReg) (s : State) : Out :=
  onGroup s fun g x =>
    let bits := regCauses x false [(a, 2)]
    if bits ≠ 0 then notPerformed s g x bits
    else match droverAddr s g x a with
      | .error e => notPerformed s g x e
      | .ok loc =>
        let s1 := modSw s fun w => { w with reqs := w.reqs ++ [.position g (ctxOf s g) d.toNat loc] }
        .next (modGroup s1 g fun x => { advance x with pendingS := x.pendingS ||| sPending d.toNat })

/-- SWPOS_ANSWER: the k-th outstanding request to a drover is answered (R158). -/
def execSwposAnswer (k : Nat) (s : State) : Out :=
  match s.sw.reqs[k]? with
  | some (.position g ctx d loc) =>
    .next (answerS (modSw s fun w => { w with reqs := w.reqs.eraseIdx k }) g d (posWord s ctx loc))
  | _ => .next s

/-- SWWAIT ends: an acquire at the last application waited for; SWEEP where a stripe was skipped or a registration ended
(R159). -/
def swwaitDone (s : State) (g : GRef) (x : Group) (bad : Bool) (last : Nat) : Out :=
  performedThen s g { advance (endWait x) with acq := max x.acq last } (if bad then cSweep else 0)

def execSwwait (a : VReg) (s : State) : Out :=
  onGroup s fun g x =>
    match x.wait with
    | some { kind := .swwait _ regs per sk en last, .. } =>
      if regs.isEmpty && per.isNone then swwaitDone s g x (sk || en) last else .next s
    | some _ => .next s
    | none =>
      let bits := regCauses x false [(a, 2)]
      if bits ≠ 0 then notPerformed s g x bits
      else match droverAddr s g x a with
        | .error e => notPerformed s g x e
        | .ok loc =>
          let q := (queueOf s (channelAt loc) (ordinalAt loc)).filter fun p => p.1.ctx == ctxOf s g
          match q with
          | [] => performedThen s g (advance x) cSweep
          | (h, l) :: _ =>
            let left := (q.filter fun p => p.1.mode != 0 && (appliedAt p.1 p.2).isNone).map fun p => p.1.handle
            let done := (q.filter fun p => p.1.mode != 0).filterMap fun p => appliedAt p.1 p.2
            let sk := q.any fun p => p.1.mode != 0 && decide (p.2 ∈ p.1.skipped)
            let per := if h.mode = 0 then some h.handle else none
            let last := done.foldl max 0
            if left.isEmpty && per.isNone then swwaitDone s g x sk last
            else .next (beginWait s g x (.swwait (channelAt loc * 786432 + l) left per sk false last))

/-! ## The drover's visit (R128, R132, R134, R135) -/

/-- The package-local addresses of a stripe under a registration. -/
def stripeRows (pc ord : Nat) (offsets : List Int) : List Nat :=
  ((0 : Int) :: offsets).map fun o => rowLocal pc (((ord / 32 : Nat) : Int) + o).toNat (ord % 32)

/-- The restore unit loaded for an application: x0 to x3 are 0 (R134). -/
def loadUnit (s : State) (rows : List Nat) (ws cs : List Word) (job : RestoreJob) : State :=
  modSw s fun w => { w with restore :=
    { rowAt := rows, rows := rows.map (rowRead s), written := rows.map fun _ => false, x := [[], [], [], []], c := cs,
      program := ws, running := true, job := job } }

/-- A row of DRAM, as the drover reads it below the LLC, holds an uncorrectable error, or lies on a stack that was dropped unreadable
(R135, R186, R332). -/
def rowBad (s : State) (loc : Nat) : Bool :=
  dramPoisoned s (ownPhys s loc) 2048 || (s.mm.dropped.getLsbD (stackAt loc) && (tabGet s.mm.unreadable (stackAt loc)).isSome)

/-- Some row that an application would read holds an uncorrectable error (R135). -/
def stripePoisoned (s : State) (rows : List Nat) (ws : List Word) : Bool :=
  (List.range rows.length).any fun j => loadsRow ws j && rowBad s ((rows[j]?).getD 0)

/-- The uncorrectable error of a skipped stripe is dealt with (R135, R325); of several rows that hold errors, that of the lowest-numbered
stripe row is recorded: the manual does not say which are (DESIGN CHOICE, log 65). -/
def stripeConsumed (s : State) (rows : List Nat) (ws : List Word) : State :=
  match (List.range rows.length).find? fun j => loadsRow ws j && rowBad s ((rows[j]?).getD 0) with
  | some j => noteRowConsumption s (ownPhys s ((rows[j]?).getD 0)) 2048
  | none => s

/-- A registration counts as applied to a lead row (R131, R135). -/
def markApplied (s : State) (h ord : Nat) (skip : Bool) : State :=
  modSw s fun w => { w with regs := w.regs.map fun r =>
    if r.handle = h then { r with applied := tabPut r.applied ord s.time
                                  skipped := if skip then ord :: r.skipped else r.skipped.filter (· ≠ ord) }
    else r }

/-- Waits of SWWAIT on a row after an application of a registration to its lead (R159). -/
def applyWaits (s : State) (h key : Nat) (skip : Bool) : State :=
  modWaits s fun k => match k with
    | .swwait row regs per sk en last =>
      if row = key && (decide (h ∈ regs) || per == some h) then
        .swwait row (regs.filter (· ≠ h)) (if per = some h then none else per) (sk || skip) en (max last s.time)
      else k
    | _ => k

/-- The lines on which some wait has armed a monitor. -/
def monitoredLines (s : State) : List Nat :=
  (s.wk.gangs.flatMap fun p => p.2.teams.flatMap fun t => t.groups.filterMap fun x => match x.wait with
    | some { kind := .mwait addr _ _ _, .. } => some (addr / 32)
    | _ => none) ++
  s.wk.replays.flatMap fun p => p.2.nodes.filterMap fun n => if n.kind = 7 then some (n.status / 32) else none

/-- Monitors on rows that an application has changed or passed are evaluated (R149). -/
def wakeRows (s : State) (rows : List Nat) : State :=
  ((monitoredLines s).filter fun l => rows.any fun r => decide (l / 64 = ownPhys s r / 2048)).foldl
    (fun s l => wakeMonitors s l s.time fun r => lineLatest s l r) s

/-- The registration whose turn a visit of a lead row is: the first in the row's queue that is periodic or not yet applied
to it (R130, R131). -/
def turnOf (s : State) (pc ord : Nat) : Option Registration :=
  s.sw.regs.find? fun r => r.pc == pc && decide (r.firstOrd ≤ ord) && decide (ord < r.firstOrd + r.count) &&
    (r.mode == 0 || (appliedAt r ord).isNone)

/-- A SWEEP node whose registration has been applied to every lead row completes, and its commit follows (R131, R295, R296). -/
def sweepNodeDone (s : State) (h : Nat) : State :=
  match s.sw.regs.find? fun r => r.handle == h with
  | some r => match r.node with
    | some n =>
      if r.mode ≠ 0 && r.applied.length = r.count then modNode s n fun x => { x with doneAt := some (s.time + commitSkew s) } else s
    | none => s
  | none => s

/-- An application has taken place: the row counts as applied, waits go on (R135, R159). -/
def afterVisit (s : State) (h pc ord : Nat) (skip : Bool) : State :=
  sweepNodeDone (applyWaits (markApplied s h ord skip) h (pc * 786432 + ord) skip) h

/-- The drover completes its next ordinal; the pass number rises when ordinal 0 completes (R128). -/
def nextOrd (d : Drover) : Drover :=
  let o := (d.ord + 1) % 786432
  { ord := o, pass := if o = 0 then d.pass + 1 else d.pass }

/-- SWEEP_VISIT: the drover of a pseudo-channel visits the next row in ordinal order: it refreshes it, and applies the
registration whose turn it is; a stripe with an uncorrectable error is skipped (R128, R132, R135). -/
def execSweepVisit (pc : Nat) (s : State) : Out :=
  let d := nextOrd (droverOf s pc)
  let s1 := modSw s fun w => { w with drovers := tabPut w.drovers pc d }
  match turnOf s1 pc d.ord with
  | none => .next s1
  | some r =>
    let rows := stripeRows pc d.ord r.offsets
    if stripePoisoned s1 rows r.program then
      .next (afterVisit (stripeConsumed s1 rows r.program) r.handle pc d.ord true)
    else .next (loadUnit s1 rows r.program r.consts (.visit r.handle pc d.ord))

/-! ## Bank commands (R137, R160, R161, R167) -/

/-- The stamp of a bank command is written, ordered after its rows as R179 says, and its command ends; while a home holds the stamp, the
command does not end (R160, R182). Where the stamp's page is no longer a writable NORMAL one, the stamp is dropped and the command ends:
the manual gives no case for it (R160, R167; DESIGN CHOICE, log 65). -/
def stampCmd (s : State) (id : Nat) (c : BankCmd) : State :=
  match translate s c.ctx c.desc.stamp with
  | some l =>
    if l.w && l.mtype = 0 then
      let r := storeLane (notBefore s l.pa (s.time + Config.skewUnits 3)) c.ctx c.desc.stamp l (natLE 8 (bankStamp c)) none 4096 id
      match r.2 with
      | some t => endCmd r.1 id c t
      | none => modSw r.1 fun w => { w with cmds := tabPut w.cmds id { c with stamping := true } }
    else endCmd s id c s.time
  | none => endCmd s id c s.time

/-- A stripe has been applied, skipped or abandoned; the stamp follows the last one. -/
def stripeDone (s : State) (id k : Nat) (fault abandon : Bool) : State :=
  match tabGet s.sw.cmds id with
  | none => s
  | some c =>
    let c' := { c with done := k :: c.done, fault := c.fault || fault }
    if abandon || c'.done.length = c.desc.rows then stampCmd s id c'
    else modSw s fun w => { w with cmds := tabPut w.cmds id c' }

/-- The frames that a context maps as NORMAL or SWEPT and not executable: writable, locked. -/
def dataFrames (s : State) (ctx : Nat) : List (Nat × Bool × Bool) :=
  (contextLeaves s ctx).flatMap fun l =>
    if l.mtype = 2 || l.x then []
    else (List.range (l.size / 65536)).map fun p => (l.pa / 65536 + p, l.w, l.mlock)

/-- The rows of a stripe of a bank command by package-local address, with each row's leaf; none where a row cannot be
translated, lies on a DEVICE or executable page or in another package, or is written on a page that is not writable
(R161). A partner row whose frame the context maps by two leaves goes by the leaf that is listed first (DESIGN CHOICE, log 74). -/
def commandRows (s : State) (c : BankCmd) (k : Nat) : Option (List (Nat × Bool)) :=
  match translate s c.ctx (c.desc.lead + 2048 * k) with
  | none => none
  | some l =>
    if l.mtype = 2 || l.x || isRemote s l.pa || (storesRow c.program 0 && !l.w) then none
    else
      let loc := localOf l.pa / 2048 * 2048
      let frames := dataFrames s c.ctx
      let rest := (List.range c.desc.offsets.length).map fun j =>
        let idx : Int := (rowIndexAt loc : Int) + (c.desc.offsets[j]?).getD 0
        let f := frameAt s (channelAt loc) idx
        match frames.find? fun q => q.1 == f with
        | some q =>
          if 0 ≤ idx ∧ idx < Config.rowIndices ∧ !(storesRow c.program (j + 1) && !q.2.1) then
            some (rowLocal (channelAt loc) idx.toNat (bankAt loc), q.2.2)
          else none
        | none => none
      if rest.all Option.isSome then some ((loc, l.mlock) :: rest.filterMap id) else none
/-- BANK_STRIPE_APPLY: a drover applies one stripe of a bank command; one held by MLOCK or by its stack's 105 °C point waits
(R137, R161, R182, R349). -/
def execBankStripeApply (cmd stripe : Nat) (s : State) : Out :=
  match tabGet s.sw.cmds cmd with
  | none => .next s
  | some c =>
    if c.desc.rows ≤ stripe || stripe ∈ c.done || c.stamping then .next s
    else match commandRows s c stripe with
      | none => .next (stripeDone s cmd stripe true true)
      | some rs =>
        if rs.any fun r => r.2 || memStackState s (stackAt r.1) == 4 then .next s
        else
          let rows := rs.map Prod.fst
          if stripePoisoned s rows c.program then
            .next (stripeDone (stripeConsumed s rows c.program) cmd stripe true false)
          else .next (loadUnit s rows c.program c.desc.consts (.stripe cmd stripe))

/-- The checks of a bank descriptor, and its program (R154, R155). -/
def bankDesc (s : State) (ctx : Nat) (d : Descriptor) : Option (List Word) :=
  if d.wellFormed && stampOk s ctx d.stamp then programWords s ctx d.program 16 else none

/-- A bank command enters (R160). -/
def startCmd (s : State) (who : Option GRef) (node : Option NRef) (ctx : Nat) (d : Descriptor) (ws : List Word) : State :=
  let f := takeFresh s
  let c : BankCmd := { ctx := ctx, who := who, node := node, desc := d, program := ws, done := [], fault := false }
  modSw f.2 fun w => { w with cmds := tabPut w.cmds f.1 c }

def execBkcmd (a : VReg) (s : State) : Out :=
  onGroup s fun g x =>
    let bits := regCauses x false [(a, 2)]
    if bits ≠ 0 then notPerformed s g x bits
    else if Config.bankCmdMax ≤ x.bankCmds then .next s
    else
      let ctx := ctxOf s g
      let va := laneAddr x a 0 (((activeLanes x).head?).getD 0)
      match readDesc s ctx va (some g) true with
      | .error e => notPerformed s g x e
      | .ok d =>
        if descWaits s g va true then .next s
        else
        match bankDesc s ctx d with
        | none => performedThen (escapeOf s (some g)) g (advance x) cSweep
        | some ws =>
          let s1 := startCmd (escapeOf s (some g)) (some g) none ctx d ws
          .next (modGroup s1 g fun x => { advance x with bankCmds := x.bankCmds + 1 })

/-! ## XEND (R134) -/

/-- The written rows of the unit are restored with their new contents, all at one moment. -/
def commitRows (s : State) (r : Restore) : State :=
  let ps := (r.rowAt.zip r.rows).zip r.written
  wakeRows (ps.foldl (fun s p => if p.2 then rowWrite s p.1.1 p.1.2 else s) s) r.rowAt

/-- XEND: the application takes place, and what asked for it goes on. -/
def finishApplication (s : State) : State :=
  let r := s.sw.restore
  let s1 := modSw (commitRows s r) fun w => { w with restore := Restore.idle }
  match r.job with
  | .none => s1
  | .visit h pc ord => afterVisit s1 h pc ord false
  | .stripe cmd k => stripeDone s1 cmd k false false

def execXend (s : State) : Out :=
  match s.focus with
  | .restore => .next (finishApplication s)
  | _ => .refused .noIssuer

end Sys2Proof.Machine
end

