-- ==== Sys2Proof/Machine/Traps.lean ====
section
/-! DEFINITION. What follows a stop (R276 to R280): the diagnostic record (R271, R272), the start of a team trap handler, the
report, the end of a context (R288), the failure of a node (R304, R305), the save into the fold (R284 to R286). -/
namespace Sys2Proof.Machine

/-! ## The diagnostic record (R271, R272) -/

/-- A word as bytes of a record. -/
def entryRecord (e : FEntry) : List Byte := natLE 8 (feLink e).toNat ++ natLE 8 e.mask.toNat

/-- A group's block of the record; a retired group's is zero (R272). -/
def groupBlock (x : Group) : List Byte :=
  if x.retired then natLE 272 0
  else
    natLE 4 x.cause.toNat ++ natLE 1 (if x.wait.isSome then 2 else 1) ++ natLE 1 x.frontier.length ++ natLE 1 x.skid ++
    natLE 1 0 ++ natLE 8 x.epc.toNat ++ (x.frontier.take 16).flatMap entryRecord ++ natLE (16 * (16 - x.frontier.length)) 0

/-- A wait is on a phase of a point. -/
def waitsOnPhase (p phase : Nat) (w : Option Wait) : Bool :=
  match w with
  | some { kind := .rwait p' ph, .. } => p' == p && ph == phase
  | _ => false

/-- The groups that wait on a phase of a point, as a bitmap, and the earliest beginning of a wait on it, the sequencer's own among them
(R271). -/
def waitersOf (t : Team) (p phase : Nat) : BitVec 32 × Nat :=
  let ns := (List.range t.groups.length).filter fun n => (t.groups[n]?).elim false fun x => !x.retired && waitsOnPhase p phase x.wait
  let began := ns.filterMap fun n => (t.groups[n]?).bind fun x => x.wait.map Wait.began
  let seqBegan := if waitsOnPhase p phase t.seq.wait then (t.seq.wait.map Wait.began).toList else []
  (ns.foldl (fun m n => m ||| BitVec.ofNat 32 (2 ^ n)) 0, ((began ++ seqBegan).min?).getD 0)

/-- The fields of the point of a stop, or 0xFF and zeros (R271). -/
def pointFields (tm : Team) (st : Stop) : List Byte :=
  match st.point with
  | some p =>
    let q := pointOf tm p
    let w := waitersOf tm p st.phase
    natLE 1 p ++ natLE 1 q.e ++ natLE 1 q.count ++ natLE 1 (q.phase % 2) ++ natLE 4 q.bitmap.toNat ++ natLE 4 st.gone.toNat ++
    natLE 4 w.1.toNat ++ natLE 8 w.2
  | none => natLE 1 0xFF ++ natLE 23 0

/-- The sequencer's link and word (R271). -/
def seqFields (s : State) (ctx : Nat) (q : Seq) : List Byte :=
  if q.present && q.running then
    natLE 8 q.pc.toNat ++ natLE 4 ((fetchWord s ctx q.pc.toNat 1).elim 0 BitVec.toNat)
  else natLE 12 0

/-- The diagnostic record of a stopped team, but for its outcome (R271). -/
def diagRecord (s : State) (t : TRef) (gg : Gang) (tm : Team) (st : Stop) : List Byte :=
  let ids := gg.ids.getD (0, [])
  natLE 2 1 ++ natLE 1 tm.groups.length ++ natLE 1 st.group ++ natLE 4 st.shown.toNat ++ natLE 8 st.time ++
  natLE 4 gg.ctx ++ natLE 2 ids.1 ++ natLE 1 ((ids.2[t.team]?).getD 0) ++ natLE 1 t.team ++ natLE 4 gg.index ++
  natLE 4 0 ++ natLE 8 gg.launch.addr ++ pointFields tm st ++ seqFields s gg.ctx tm.seq ++ natLE 52 0 ++
  tm.groups.flatMap groupBlock

/-- Every live group of a team has stopped. -/
def allHalted (t : Team) : Bool := t.groups.all fun x => x.retired || x.halted

/-- The record of a stopped team with its outcome: as it was taken once every sibling had stopped (R271). -/
def recordOf (s : State) (t : TRef) (gg : Gang) (tm : Team) (st : Stop) (outcome : Nat) : List Byte :=
  let bs := st.taken.getD (diagRecord s t gg tm st)
  bs.take 0x1C ++ natLE 4 outcome ++ bs.drop 0x20

/-- The record goes to system software with its notice (R273, R354). -/
def deliverRecord (s : State) (t : TRef) (gg : Gang) (tm : Team) (st : Stop) (outcome : Nat) : State :=
  giveNotice s 1 (areaOf s gg.ctx) gg.ctx (outcome * 2 ^ 32 + st.shown.toNat) (recordOf s t gg tm st outcome)

/-! ## The failure of a node (R296, R304, R305) -/

/-- The graph of a replay's handle. -/
def replayEdges (s : State) (r : Replay) : List (Nat × Nat) := (tabGet s.wk.graphs r.handle).elim [] Graph.edges

/-- A node that has failed or has been cancelled. -/
def nodeDead (n : NodeInst) : Bool := n.state == .failed || n.state == .cancelled

/-- The nodes of a replay after cancellation, in rising order: a waiting node with a dead predecessor is cancelled. -/
def cancelFrom (es : List (Nat × Nat)) (ns : List NodeInst) : List NodeInst :=
  (List.range ns.length).foldl (fun ns k =>
    match ns[k]? with
    | some x =>
      if x.state == .waiting && es.any fun e => e.2 == k && (ns[e.1]?).elim false nodeDead then
        ns.set k { x with state := .cancelled }
      else ns
    | none => ns) ns

/-- The nodes that have been cancelled. -/
def cancelledCount (ns : List NodeInst) : Nat := (ns.filter fun n => n.state == .cancelled).length

/-- The failure record of a node (R305). -/
def failureRecord (s : State) (r : Replay) (k : Nat) (x : NodeInst) (reason cancelled : Nat) : List Byte :=
  natLE 2 2 ++ natLE 2 r.handle ++ natLE 4 r.ctx ++ natLE 8 r.seqno ++ natLE 4 k ++ natLE 1 x.kind ++ natLE 1 reason ++
  natLE 2 0 ++ natLE 8 s.time ++ natLE 8 (if reason = 0 || reason = 4 || reason = 5 then x.status else 0) ++
  natLE 4 (if reason = 2 then x.peer else 0) ++ natLE 4 cancelled ++ natLE 16 0

/-- A node fails: its successors are cancelled, its engine does nothing more, its failure record is delivered. -/
def failNode (s : State) (n : NRef) (reason : Nat) : State :=
  match tabGet s.wk.replays n.replay with
  | none => s
  | some r => match r.nodes[n.node]? with
    | none => s
    | some x =>
      if x.state == .committed || nodeDead x then s
      else
        let ns := cancelFrom (replayEdges s r)
          (r.nodes.set n.node { x with state := .failed, reason := some reason, engine := Engine.idle })
        let rec64 := failureRecord s r n.node x reason (cancelledCount ns - cancelledCount r.nodes)
        let s1 := modWk s fun w => { w with replays := tabPut w.replays n.replay { r with nodes := ns } }
        giveNotice s1 2 (areaOf s r.ctx) r.ctx (r.handle * 2 ^ 48 + n.node) rec64

/-! ## What ends with a gang that does not retire -/

/-- A team that is no more: its groups have retired, its engine and sequencer do nothing. -/
def endTeam (t : Team) : Team :=
  { t with
    groups := t.groups.map fun x =>
      { x with frontier := [], frozen := none, wait := none, parked := false, halted := false, loads := [], stores := [], tiles := [], cancelled := [],
               blocks := [], owned := 0, body := none, retired := true }
    engine := Engine.idle, seq := { t.seq with running := false, wait := none }, stash := [], stop := none, handler := none,
    drains := [], retired := true }

/-- A stash mapping with the dirty lines that are not kept discarded. -/
def discardDirty (keep : Nat → Bool) (m : Stash) : Stash :=
  let gone := ((List.range 128).filter fun i => !keep (m.addr / 32 + i)).foldl (fun b i => b ||| lineBit i) 0#128
  { m with dirty := m.dirty &&& ~~~gone }

/-- The narrow lines of a gang end, and the dirty lines of its stash: each is written back where it is to be kept, or discarded. -/
def endLines (s : State) (n : Nat) (keep : Nat → Bool) : State :=
  let s1 := (publishWhere s fun m => m.gang == n && keep m.line).1
  let s2 := modMm s1 fun m => { m with narrow := m.narrow.filter fun q => q.gang ≠ n }
  let s3 := modGang s2 n fun gg => { gg with teams := gg.teams.map fun t => { t with stash := t.stash.map (discardDirty keep) } }
  ((allStash s3).filter fun p => p.1.gang == n).foldl (fun s p => (flushStash s p.1 p.2).1) s3

/-- The picot slots of a gang are free. -/
def freePicots (s : State) (n : Nat) : State :=
  modWk s fun w => { w with picots := w.picots.map fun p =>
    (p.1, p.2.map fun q => q.bind fun q => if q.pub.gang = n then none else some q) }

/-- A gang ends at once, wherever it stands; `keep` says of each dirty line whether it is written back. -/
def dropGang (s : State) (n : Nat) (keep : Nat → Bool) : State :=
  match findGang s n with
  | none => s
  | some gg =>
    if gg.state = .retired then s
    else
      let s1 := if gg.state = .resident then endLines s n keep else s
      unqueue (modGang (freePicots s1 n) n fun gg =>
        { gg with state := .retired, marked := false, marks := [], reported := false, teams := gg.teams.map endTeam }) n

/-! ## The end of a context (R288) -/

/-- A word of the part, written with one write, visible at sys scope; what cannot be written is left (R301). -/
def storeWord (s : State) (ctx va : Nat) (v : Nat) : State := (storeVirt s ctx va (natLE 8 v)).getD s

/-- The done word of a replay (R301). -/
def writeDone (s : State) (ctx ptab seqno status : Nat) : State :=
  storeWord s ctx (ptab + 8) (seqno % 2 ^ 48 + status * 2 ^ 48)

/-- Every replay of a context that is not done, queued ones too, is killed. -/
def killReplays (s : State) (ctx : Nat) : State :=
  let s1 := (s.wk.replays.filter fun p => p.2.ctx == ctx && !p.2.done).foldl (fun s p =>
    let s' := writeDone s ctx p.2.ptab p.2.seqno 2
    modWk s' fun w => { w with replays := tabPut w.replays p.1 { p.2 with
      done := true, killed := true
      nodes := p.2.nodes.map fun x =>
        { x with state := if x.state == .waiting || x.state == .started then .cancelled else x.state, engine := Engine.idle } } }) s
  (s1.wk.graphs.filter fun p => p.2.ctx == ctx).foldl (fun s p =>
    ((List.range p.2.kicks.length).zip p.2.kicks).foldl (fun s k => writeDone s ctx k.2 (p.2.seqno + 1 + k.1) 2) s) s1

/-- The graphs, ladders, registrations, requests and aborts of a context end. -/
def dropObjects (s : State) (ctx : Nat) : State :=
  let hs := (s.sw.regs.filter fun r => r.ctx == ctx).map Registration.handle
  let s1 := hs.foldl endReg s
  let s2 := modSw s1 fun w => { w with reqs := w.reqs.filter fun q => match q with
    | .register _ _ c _ _ _ => c != ctx
    | .position _ c _ _ => c != ctx }
  let s3 := modWk s2 fun w => { w with
    graphs := w.graphs.filter fun p => p.2.ctx != ctx
    ladders := w.ladders.filter fun p => p.2.ctx != ctx }
  let busy := s3.mm.unmaps.any fun u => u.1 == ctx
  let s4 := modMm s3 fun m => { m with unmaps := m.unmaps.filter fun u => u.1 != ctx }
  let s5 := if busy && s4.mm.unmaps.isEmpty then mapResult s4 0 0 else s4
  { s5 with pl := { s5.pl with aborts := s5.pl.aborts.filter fun a => a.1 != ctx } }

/-- A context ends (R288): its gangs stop and their folds go, a failure record goes out for each node that the stop failed,
its replays are killed, and all but its address space ends. Its dirty narrow and stash lines are written back or discarded, line by
line, as the part chooses; one whose write-back would be held is discarded. -/
def endContext (s : State) (ctx : Nat) (failed : List NRef) : State :=
  match tabGet s.mm.contexts ctx with
  | none => s
  | some c =>
    if c.dying then s
    else
      let f := takeFresh s
      let s1 := failed.foldl (fun s n => failNode s n 5) f.2
      let gs := (s1.wk.gangs.filter fun p => p.2.ctx == ctx && p.2.state != .retired).map Prod.fst
      let waits := fun (line : Nat) => (s1.mm.narrow.any fun m => m.line == line && narrowHeld s1 m) ||
        (stashAt s1 line).elim false fun q => stashHeld s1 q.1 q.2.1
      let s2 := gs.foldl (fun s n => dropGang s n fun line => !waits line && Config.freeBit f.1 line) s1
      let s3 := killReplays s2 ctx
      let s4 := modMm s3 fun m => { m with provisional := m.provisional.filter fun p =>
        (tabGet s3.wk.replays p.node.replay).elim true fun r => r.ctx != ctx }
      let s5 := endLeases (dropObjects s4 ctx) fun l => l.ctx == ctx
      releaseHeld (modMm s5 fun m => { m with contexts := tabMod m.contexts ctx fun c => { c with dying := true } })

/-- The context that a write in a line's order belongs to, where the order names it: that of its group, or of its node. -/
def writeCtx (s : State) (w : LineWrite) : Option Nat :=
  ((w.writer.bind fun g => findGang s g.gang).map Gang.ctx).or ((w.node.bind fun n => tabGet s.wk.replays n.replay).map Replay.ctx)

/-- No write of a context is in flight. A write that its line's order ascribes to nobody (an engine of a graph, a word of the part, the
host) is waited for too. -/
def contextQuiet (s : State) (ctx : Nat) : Bool :=
  !(s.sw.cmds.any fun p => p.2.ctx == ctx) && !(s.mm.held.any fun h => h.ctx == ctx) &&
  s.mm.homes.all fun p => (homeOf s p.1).writes.all fun w => (writeCtx s w).elim false fun c => c != ctx

/-- The address space of a context ends, with the graphs and the replays that still name it, and CTXDEF's operation on it completes
(R288, R291). -/
def closeContext (s : State) (ctx : Nat) : State :=
  let s0 := modWk s fun w => { w with
    graphs := w.graphs.filter fun p => p.2.ctx != ctx
    replays := w.replays.filter fun p => p.2.ctx != ctx }
  let s1 := modMm s0 fun m => { m with
    contexts := tabDel m.contexts ctx
    execMaps := m.execMaps.filter fun k => k.ctx != ctx
    unreadable := m.unreadable.map fun p => (p.1, p.2.filter fun c => c != ctx) }
  if (dev s1).ctxBusy && (dev s1).ctxLast = ctx then modDev s1 fun d => { d with ctxBusy := false, ctxResult := 0 } else s1

/-- CONTEXT_TERMINATION: a context that CTXDEF has named ends; a context that has ended closes once no write of it is in
flight. -/
def execContextTermination (ctx : Nat) (s : State) : Out :=
  match tabGet s.mm.contexts ctx with
  | none => .next s
  | some c =>
    if !c.dying then
      if (dev s).ctxBusy && (dev s).ctxLast = ctx then .next (endContext s ctx []) else .next s
    else if contextQuiet s ctx then .next (closeContext s ctx) else .next s

/-! ## Settling (R276) -/

/-- A group's counters have drained, but for remote loads beyond the threshold, which are cancelled. -/
def groupSettled (x : Group) : Bool := (x.loads.all PendLoad.beyond) && x.stores.isEmpty && x.tiles.isEmpty

/-- A team has settled. -/
def teamSettled (t : Team) : Bool := t.groups.all groupSettled

/-! ## The fold (R284) -/

/-- The drains of a gang's picots that are still to come go into the fold of their teams, in order (R215, R287). -/
def foldDrains (s : State) (n : Nat) (k : Nat) : List Drain :=
  s.wk.picots.flatMap fun p => p.2.filterMap fun q => q.bind fun q =>
    if q.pub.gang = n && q.ready && k ∈ q.teams then some { ring := q.ring, data := q.data, pub := q.pub.team, idx := q.idx } else none

/-- Drains with the bytes that their slots hold after their data, which are undefined (R237). -/
def padDrains (t : Team) (fresh k : Nat) (ds : List Drain) : List Drain :=
  ((List.range ds.length).zip ds).map fun p =>
    { p.2 with data := p.2.data ++ freeBytesAt fresh ((k * 256 + p.1) * 2 ^ 20) ((ringOf t p.2.ring).slotBytes - p.2.data.length) }

/-- Bytes that a gang's save takes at most, the drains still to come among them (R284). -/
def foldSize (s : State) (n : Nat) (gg : Gang) : Nat :=
  ((List.range gg.teams.length).map fun k => (gg.teams[k]?).elim 0 fun t =>
    (t.groups.map fun x => 1024 + 256 * gg.launch.width * x.owned).sum +
    scratchUnits t.scratchBytes gg.launch.pair * 4096 * (if gg.launch.pair then 2 else 1) +
    4096 + 20480 + 196608 * gg.launch.yoke + 256 * 16 + 32768 * (t.drains.length + (foldDrains s n k).length)).sum

/-- Bytes of a context's fold pool in use, or promised to a reported gang. -/
def foldUsed (s : State) (ctx : Nat) : Nat :=
  ((s.wk.gangs.filter fun p => p.2.ctx == ctx && (p.2.state == .saved || (p.2.state == .resident && p.2.reported))).map fun p =>
    foldSize s p.1 p.2).sum

/-- A gang's save fits the fold pool of its context. -/
def foldFits (s : State) (n : Nat) (gg : Gang) : Bool :=
  (tabGet s.mm.contexts gg.ctx).elim false fun c => decide (foldUsed s gg.ctx + foldSize s n gg ≤ c.foldBytes)

/-- A save writes its state into the fold pool of the context, in a layout of the part's own: some bytes at some places of the pool,
of no value that the manual gives (R284; DESIGN CHOICE, log 7). -/
def foldWrite (s : State) (n : Nat) (gg : Gang) : State :=
  match tabGet s.mm.contexts gg.ctx with
  | none => s
  | some c =>
    let f := takeFresh s
    let k := Config.freeNat f.1 0 % (foldSize s n gg + 1)
    let at_ := Config.freeNat f.1 1 % (c.foldBytes + 1 - k)
    { f.2 with mm := (sysWrite f.2 (c.fold + at_) ((List.range k).map fun i => Config.freeByte f.1 i)).mm }

/-! ## Outcomes (R277 to R280) -/

/-- A halt broadcast of its own reaches a team that has not stopped (R278). -/
def broadcast (time : Nat) (t : Team) : Team :=
  if t.retired then t
  else
    { t with
      stop := t.stop.or (some (newStop time 255 0 none true t))
      groups := t.groups.map fun x => if x.halted then x else haltSibling x }

/-- A gang is to be saved for a report: every other team stops. -/
def reportGang (s : State) (n : Nat) : State :=
  modGang s n fun gg => { gg with reported := true, teams := gg.teams.map (broadcast s.time) }

/-- The cause that a run of bytes on writable NORMAL pages sets; 0 where it can be written. -/
def areaCause (s : State) (ctx va n : Nat) : BitVec 32 :=
  (List.range ((va % 65536 + n + 65535) / 65536)).foldl (fun b k =>
    match translate s ctx (if k = 0 then va else (va / 65536 + k) * 65536) with
    | none => b ||| cPage
    | some l => if l.mtype = 0 && l.w then b else b ||| cPerm) 0

/-- Bytes written by the part to a run of virtual addresses; the completion time. -/
def writeArea (s : State) (ctx va : Nat) (bs : List Byte) : State × Nat :=
  (splitLines va bs).foldl (fun acc p =>
    match p.2 with
    | [] => acc
    | (o, _) :: _ => match storeAfter acc.1 ctx (32 * p.1 + o) (p.2.map Prod.snd) 0 with
      | some r => (r.1, max acc.2 r.2)
      | none => acc) (s, s.time)

/-- A team trap handler starts in the stopping group (R280). -/
def startHandler (time entry n : Nat) (t : Team) : Team :=
  { t with
    handler := some n
    groups := listMod t.groups n fun x =>
      { x with
        frozen := some x.frontier
        frontier := [{ prio := 255, pc := BitVec.ofNat 56 entry, mask := x.live }]
        halted := false, wait := none, parked := false, acq := time } }

/-- The record of an outcome is written, and is visible from a time. -/
def markWritten (s : State) (t : TRef) (at_ : Nat) : State :=
  modTeam s t fun tm => { tm with stop := tm.stop.map fun st => { st with written := some at_ } }

/-- The causes that let a gang be saved and reported (R277, R283). -/
def reportable : BitVec 32 := cPage ||| cPerm ||| cRemote

/-- Rules 3 and 4 of R277 on a team's causes: a report, or the end of the context. A report whose save would not fit the
fold pool ends the context (R291). -/
def reportOrEnd (s : State) (t : TRef) (gg : Gang) (tm : Team) (st : Stop) (causes : BitVec 32) : State :=
  if causes &&& ~~~reportable = 0 && foldFits s t.gang gg then
    reportGang (markWritten (deliverRecord s t gg tm st 1) t s.time) t.gang
  else
    let s1 := match gg.node with
      | some n => modNode s n fun x => { x with status := st.shown.toNat }
      | none => s
    endContext (deliverRecord s1 t gg tm st 2) gg.ctx gg.node.toList

/-- The causes that decide a team's outcome (R277, R281): those kept where no handler may run, else the stopping group's. -/
def decidingCauses (tm : Team) (st : Stop) : BitVec 32 :=
  if st.report then st.causes else (tm.groups[st.group]?).elim 0 ownCauses

/-- Rule 2: the record goes to the handler area, and once it is visible the handler starts; a record that cannot be written
leaves rules 3 and 4, with its cause added (R280). -/
def tryHandler (s : State) (t : TRef) (gg : Gang) (tm : Team) (st : Stop) : State :=
  match st.written with
  | some w => if w ≤ s.time then modTeam s t (startHandler s.time gg.launch.handler st.group) else s
  | none =>
    let bs := recordOf s t gg tm st 0
    let f := areaCause s gg.ctx gg.launch.handlerArea bs.length
    if f = 0 then
      let r := writeArea s gg.ctx gg.launch.handlerArea bs
      markWritten r.1 t (r.2 + Config.skewUnits 3)
    else
      let add := fun (tm : Team) =>
        { tm with groups := listMod tm.groups st.group fun x => { x with cause := x.cause ||| f }
                  stop := tm.stop.map fun st =>
                    { st with report := true, causes := decidingCauses tm st ||| f, shown := st.shown ||| f, taken := none } }
      let tm' := add tm
      reportOrEnd (modTeam s t add) t gg tm' (tm'.stop.getD st) (decidingCauses tm st ||| f)

/-- The outcome of a stopped and settled team (R277). Where its causes include POISON its record goes out as its node is dealt with
(POISON_CONSUMED, R321). A team that only a broadcast has stopped has none of its own. -/
def stopOutcome (s : State) (t : TRef) (gg : Gang) (tm : Team) (st : Stop) : State :=
  let c := decidingCauses tm st
  if c &&& cPoison ≠ 0 then (if st.written.isSome then s else markWritten s t s.time)
  else if c = 0 then s
  else if gg.launch.handler ≠ 0 && !st.report then tryHandler s t gg tm st
  else reportOrEnd s t gg tm st c

/-- A stopped team of a gang that is being saved for a report still awaits an outcome of its own: it stopped for a cause, and the cause
ends the team or the context, or is reported with the save. Where a handler is to run for the cause, it runs after the restore, unless
the cause came while the save went on (R277, R278, R283; DEDUCED, log 55). -/
def outcomeDue (gg : Gang) (tm : Team) (st : Stop) : Bool :=
  let c := decidingCauses tm st
  st.written.isNone && c != 0 &&
    (c &&& cPoison != 0 || c &&& ~~~reportable == 0 || gg.launch.handler == 0 || st.report)

/-- The outcome of such a team: a record with the save, or the end of the context. A cause that came while the save went on and cannot be
reported ends the context, POISON too (R283). -/
def savedOutcome (s : State) (t : TRef) (gg : Gang) (tm : Team) (st : Stop) : State :=
  let c := decidingCauses tm st
  if !outcomeDue gg tm st then s
  else if st.late &&& ~~~reportable ≠ 0 then reportOrEnd s t gg tm st (c ||| st.late)
  else if c &&& cPoison ≠ 0 then markWritten s t s.time
  else if c &&& ~~~reportable = 0 then markWritten (deliverRecord s t gg tm st 1) t s.time
  else reportOrEnd s t gg tm st c

/-- TEAM_STOP_OUTCOME: every sibling has stopped, and the team has settled (R276, R277), in a lane cycle after the stop's. -/
def execTeamStopOutcome (t : TRef) (s : State) : Out :=
  match findGang s t.gang, findTeam s t with
  | some gg, some tm => match tm.stop with
    | some st =>
      if gg.state ≠ .resident || tm.handler.isSome || !teamSettled tm || s.time ≤ st.time then .next s
      else
        let tm' := { tm with groups := tm.groups.map haltNow }
        let s1 := modTeam s t fun _ => tm'
        .next (if gg.reported then savedOutcome s1 t gg tm' st else stopOutcome s1 t gg tm' st)
    | none => .next s
  | _, _ => .next s

/-- A wait of a halted sibling whose condition held in the stop cycle had ended by then: the group stopped while running (R39, R272). -/
def endMetWait (s : State) (g : GRef) (x : Group) : Group :=
  if x.halted && x.cause &&& cHaltb != 0 && x.wait.elim false (waitMet s g x) then { x with wait := none } else x

/-- What a stop settles by itself: in its own lane cycle the waits that had ended, and the record of a team whose groups have all stopped
(R271, R272). -/
def settleStop (s : State) (t : TRef) : State :=
  match findGang s t.gang, findTeam s t with
  | some gg, some tm => match tm.stop with
    | some st =>
      if gg.state ≠ .resident || tm.handler.isSome || st.taken.isSome then s
      else
        let tm1 := if st.time = s.time then mapGroups tm fun n x => endMetWait s (trefGroup t n) x else tm
        let record := if allHalted tm1 then some (diagRecord s t gg tm1 st) else none
        modTeam s t fun _ => { tm1 with stop := some { st with taken := record } }
    | none => s
  | _, _ => s

/-- The teams of resident gangs that have stopped. -/
def stoppedTeams (s : State) : List (TRef × Gang × Team × Stop) :=
  s.wk.gangs.flatMap fun p =>
    if p.2.state ≠ .resident then []
    else (List.range p.2.teams.length).filterMap fun k => (p.2.teams[k]?).bind fun tm =>
      tm.stop.map fun st => (({ gang := p.1, team := k } : TRef), p.2, tm, st)

/-- The nodes a group of which has consumed poison: every team of their gangs stops (R321, R323). -/
def poisonedNodes (s : State) : List NRef :=
  ((stoppedTeams s).filterMap fun q => if decidingCauses q.2.2.1 q.2.2.2 &&& cPoison = 0 then none else q.2.1.node).eraseDups

/-- Every team of a node's resident gangs that has not stopped stops under a halt broadcast. -/
def broadcastNode (s : State) (n : NRef) : State :=
  modWk s fun w => { w with gangs := w.gangs.map fun p =>
    (p.1, if p.2.node = some n && p.2.state == .resident then { p.2 with teams := p.2.teams.map (broadcast s.time) } else p.2) }

/-- What stops settle by themselves. -/
def settleStops (s : State) : State :=
  let s1 := (poisonedNodes s).foldl broadcastNode s
  ((stoppedTeams s1).map Prod.fst).foldl settleStop s1

/-! ## The save (R278, R282 to R286) -/

/-- Every group of a team is parked or has retired (R40, R282). -/
def teamParked (t : Team) : Bool := t.groups.all fun x => x.retired || x.parked

/-- A CPC has sent its data and waits for its peer's (R286). -/
def cpcSent (t : Team) : Bool := t.engine.flight.any cpcWaits

/-- A gang may be saved now: for a report once every team has settled, and no outcome of a team of it is still due; for an eviction
request once every group has parked too, and no handler runs. A team that has consumed poison ends while its gang is resident (R277). -/
def maySave (gg : Gang) : Bool :=
  gg.state == .resident && (gg.teams.all fun t => t.retired || (teamSettled t && !cpcSent t)) &&
  (if gg.reported then gg.teams.all fun t => t.retired || t.stop.elim true fun st => !outcomeDue gg t st && decidingCauses t st &&& cPoison == 0
   else gg.marked && gg.teams.all fun t => t.retired || (t.stop.isNone && t.handler.isNone && teamParked t))

/-- A save waits: a line that it writes back is held at its home (R182, R284, R349). -/
def saveWaits (s : State) (n : Nat) : Bool :=
  (s.mm.narrow.any fun m => m.gang == n && narrowHeld s m) ||
  (allStash s).any fun p => p.1.gang == n && p.2.dirty != 0 && stashHeld s p.1 p.2

/-- A group as the fold holds it: its aging count and its operand queue are not saved, and its remote loads beyond the threshold are issued
again (R284, R285). -/
def foldGroup (x : Group) : Group :=
  cancelBeyond
    { x with aging := 0, agedAt := none, yielded := false, queue := [], results := [], staged := [], parked := false, frames := none
             wait := match x.wait with
               | some { kind := .remoteLoad, .. } => none
               | w => w }

/-- A group that was parked at PCHK resumes after it (R285). -/
def foldParked (x : Group) : Group :=
  match x.wait with
  | some { kind := .pchk, .. } => if x.halted then foldGroup x else foldGroup { advance x with wait := none }
  | _ => foldGroup x

/-- A team as the fold holds it: its stash lines have been written back, its mappings kept (R284). -/
def foldTeam (t : Team) : Team :=
  { t with
    groups := t.groups.map fun x => if x.retired then { x with blocks := [], loads := [] } else { foldParked (haltIf t x) with blocks := [] }
    stash := t.stash.map fun m => { m with filled := 0, dirty := 0 }
    engine := { t.engine with waiting := none }, scratchAt := [] }
where
  /-- In a stopped team every group has stopped. -/
  haltIf (t : Team) (x : Group) : Group := if t.stop.isSome then haltNow x else x

/-- A gang goes into the fold (R284). An evicted gang re-enters its queue at the head (R311); a reported one waits outside
it until system software restores it (R278). -/
def saveGang (s0 : State) (n : Nat) (gg : Gang) : State :=
  let f := takeFresh s0
  let s := (List.range gg.teams.length).foldl (fun s k => takeWaiting s { gang := n, team := k }) f.2
  let s2 := foldWrite (endLines s n fun _ => true) n gg
  let s3 := modGang s2 n fun gg => { gg with teams := (List.range gg.teams.length).filterMap fun k => (gg.teams[k]?).map fun t =>
    { foldTeam t with drains := t.drains ++ padDrains t f.1 k (foldDrains s2 n k) } }
  let cores := ((List.range gg.teams.length).flatMap fun t => teamCores s gg t)
  let s4 := modMm (freePicots s3 n) fun m => { m with l1 := m.l1.filter fun c => !(cores.contains c.core) }
  let c := physCluster s (clusterOf gg)
  let s5 := endLeases s4 fun l => l.ctx == gg.ctx && l.cluster == c
  let s6 := modGang s5 n fun gg => { gg with state := .saved, place := none, marked := false, marks := [] }
  if gg.reported then s6 else requeueHead s6 n gg.queue

/-- GANG_SAVE: a reported gang, or a marked one whose groups have all parked, is saved; a marked gang whose save would not
fit its fold pool is unmarked (R291). -/
def execGangSave (gang : Nat) (s : State) : Out :=
  match findGang s gang with
  | none => .next s
  | some gg =>
    if !maySave gg || saveWaits s gang then .next s
    else if gg.reported || foldFits s gang gg then .next (saveGang s gang gg)
    else .next (unmarkGang s gang)

end Sys2Proof.Machine
end

