-- ==== Sys2Proof/Machine/Events.lean ====
section
/-! DEFINITION. The events of a group's outstanding accesses and waits: the completion of loads, tile transfers and stores
(R15, R138, R153), the remote threshold (R38), the watchdog (R39, R268, R290). -/
namespace Sys2Proof.Machine

/-! ## Loads and tile transfers (R15, R21) -/

/-- What the reads that a load still waits for have come to, and when the last of them is served. -/
structure Served where
  s : State
  writes : List (Nat × Word)
  poison : Bool
  served : Nat

/-- A read is held at its home, by physical address (R349, R356). -/
def paHeld (s : State) (pa : Nat) : Bool :=
  if isRemote s pa then recovering s (pkgOf pa) else memStackState s (stackAt (localOf pa)) == 4

/-- A read of the k-th load of a group still waits: at its home, for a copy engine (R177), behind an earlier access of the group to
the line (R181), or, where it acquires, for a locked page (R182). -/
def reqWaits (s : State) (g : GRef) (x : Group) (k : Nat) (p : PendLoad) (r : LoadReq) : Bool :=
  let line := r.pa / 32
  paHeld s r.pa || engineHolds s line ||
  (s.mm.held.any fun h => h.who == some g && h.pa / 32 == line && decide (h.id < p.id)) ||
  ((x.loads.take k).any fun q => q.todo.any fun o => o.pa / 32 == line) ||
  (p.acquire && r.mtype == 0 && publishHeld s line (some g))

/-- One read of a load is served at its home now: an acquiring one forces a publish first (R144), a plain one fills its core's L1 under its
lease (R120, R355); a last-use load discards the line after it has read it (R140). -/
def serveRead (g : GRef) (p : PendLoad) (a : Served) (r : LoadReq) : Served :=
  if errorFor a.s (some g) r.pa r.width then { a with s := noteConsumption a.s r.pa r.width, poison := true }
  else if r.mtype = 1 then { a with writes := a.writes ++ r.keys.zip (loadWords (dramRead a.s r.pa r.width)) }
  else
    let f := if p.acquire then forcedPublish a.s (r.pa / 32) (some g) else (a.s, a.s.time)
    let bs := homeRead { f.1 with time := max a.s.time f.2 } r.pa r.width (some g)
    let t := match r.lease with
      | some k => fillL1 f.1 (coreIdOf f.1 g) (r.pa / 32) (Config.leaseUnits k) (some g)
      | none => fillLlc f.1 (r.pa / 32)
    { a with s := t, writes := a.writes ++ r.keys.zip (loadWords bs), served := max a.served f.2 }

/-- A load may complete: its time has come, and none of its reads or atomics is held. -/
def loadReady (s : State) (g : GRef) (x : Group) (k : Nat) (p : PendLoad) : Bool :=
  decide (p.servedAt ≤ s.time) && p.holds == 0 && (p.todo.all fun r => !reqWaits s g x k p r) &&
  p.remote.all fun k => !recovering s k

/-- The reads of a load that is issued again, each translated anew, and the causes of those that its page no longer allows (R276, R312). -/
def readAgain (s : State) (ctx : Nat) (rs : List LoadReq) : List LoadReq × BitVec 32 :=
  rs.foldl (fun acc r => match translate s ctx r.va with
    | some l => (acc.1 ++ [{ r with pa := l.pa, mtype := l.mtype }], acc.2 ||| leafCause l .load r.width)
    | none => (acc.1, acc.2 ||| cPage)) ([], 0)

/-- The k-th load of a group is issued again: it waits for its reads at their present places, or ends with their causes (R276). -/
def reissue (s : State) (g : GRef) (k : Nat) (p : PendLoad) (end_ : Group → Group) : State :=
  let r := readAgain s (ctxOf s g) p.todo
  if r.2 ≠ 0 then raiseLate (modGroup s g end_) g r.2
  else modGroup s g fun x => { x with loads := listMod x.loads k fun q => { q with todo := r.1, again := false } }

/-- The group after a load has completed: its data written, its wait for a remote load over where none remains. -/
def finishLoad (x : Group) (k acq : Nat) (ws : List (Nat × Word)) (regs : List Nat) : Group :=
  let x1 := vWrite { x with loads := x.loads.eraseIdx k, acq := max x.acq acq } ws regs
  let x2 := match x1.wait with
    | some { kind := .remoteLoad, .. } => if x1.loads.any PendLoad.beyond then x1 else { x1 with wait := none }
    | _ => x1
  freeBlocks x2

/-- The k-th load of a group: the reads it still waits for are served, and it completes once every forced publish it has caused is
visible (R144, R172). A read that meets an uncorrectable error leaves the destination as it is (R325). -/
def completeLoad (s : State) (g : GRef) (k : Nat) (p : PendLoad) : State :=
  let r := p.todo.foldl (serveRead g p) { s := s, writes := [], poison := false, served := p.servedAt }
  let served := if p.todo.isEmpty then p.servedAt else max s.time r.served
  let s1 := if p.lastUse && !p.todo.isEmpty then
      lastUse r.s (coreIdOf r.s g) ((p.todo.filter fun q => q.mtype == 0).map LoadReq.pa)
    else r.s
  if r.poison then raiseLate (modGroup s1 g fun x => finishLoad x k 0 [] []) g cPoison
  else if served ≤ s.time then modGroup s1 g fun x => finishLoad x k (if p.acquire then served else 0) (p.writes ++ r.writes) p.regs
  else modGroup s1 g fun x => { x with loads := listMod x.loads k fun q =>
    { q with writes := q.writes ++ r.writes, todo := [], servedAt := served } }

/-- The k-th load of a group was issued again to a package that has become unreachable: it ends with REMOTE, its destination as it was
(R276, R356). -/
def loadCut (s : State) (p : PendLoad) : Bool := p.remote.any (unreachable s)

/-- LOAD_COMPLETE: one of a group's outstanding loads completes, or, numbered after them, one of its tile transfers. -/
def execLoadComplete (g : GRef) (k : Nat) (s : State) : Out :=
  match findGroup s g with
  | some x =>
    match x.loads[k]? with
    | some p =>
      if loadCut s p then .next (raiseLate (modGroup s g fun x => finishLoad x k 0 [] []) g cRemote)
      else if p.again then .next (reissue s g k p fun x => finishLoad x k 0 [] [])
      else if loadReady s g x k p then .next (completeLoad s g k p)
      else .next s
    | none => match x.tiles[k - x.loads.length]? with
      | some p =>
        if 0 < p.holds then .next s
        else .next (modGroup s g fun x =>
          freeBlocks (vWrite { x with tiles := x.tiles.eraseIdx (k - x.loads.length) } p.writes p.regs))
      | none => .next s
  | none => .next s

/-! ## Stores (R138) -/

/-- STORE_COMPLETE: one of a group's counted writes has its completion time, which sr.lct keeps where it is the latest. -/
def execStoreComplete (g : GRef) (k : Nat) (s : State) : Out :=
  match findGroup s g with
  | some x => match x.stores[k]? with
    | some p =>
      if p.holds = 0 && p.remote.all fun q => !recovering s q then
        .next (modGroup s g fun x => { x with stores := x.stores.eraseIdx k, lct := max x.lct p.done })
      else .next s
    | none => .next s
  | none => .next s

/-! ## The remote threshold (R38, R356) -/

/-- REMOTE_THRESH in units of global time; 0 is read as 1 ns. -/
def remoteThreshold (s : State) : Nat := max 1 (dev s).remoteThresh * Config.unitsPerNs

/-- A load to another package has been outstanding for the threshold. -/
def overThreshold (s : State) (p : PendLoad) : Bool :=
  !p.remote.isEmpty && decide (p.issued + remoteThreshold s ≤ s.time)

/-- REMOTE_THRESHOLD_EXPIRY: the group stands at a blocking point until its remote load returns; a group at another wait stands there
once that has ended (R38, R84). In a stopped group the load is cancelled (R276). -/
def execRemoteThresholdExpiry (g : GRef) (s : State) : Out :=
  match findGroup s g with
  | some x =>
    if x.retired || !(x.loads.any fun p => overThreshold s p && !p.beyond) then .next s
    else
      let x1 := { x with loads := x.loads.map fun p => if overThreshold s p then { p with beyond := true } else p }
      .next (if x1.halted then setGroup s g (cancelBeyond x1)
             else if x1.wait.isSome then setGroup s g x1 else beginWait s g x1 .remoteLoad)
  | none => .next s

/-! ## The watchdog (R39, R268, R269, R290) -/

/-- The watchdog limit of a gang's waits, in units of global time. -/
def watchdogLimit (gg : Gang) : Nat := gg.launch.watchdog * Config.unitsPerUs

/-- How long a wait's watchdog has run. -/
def waitLength (s : State) (w : Wait) : Nat := s.time - w.began - w.paused

/-- The packages that a group's wait depends on (R290). -/
def waitPeers (s : State) (x : Group) (w : Wait) : List Nat :=
  match w.kind with
  | .mwait addr _ _ _ => if isRemote s addr then [pkgOf addr] else []
  | .remoteLoad => (x.loads.filter PendLoad.beyond).flatMap PendLoad.remote
  | _ => []

/-- A team has stopped in this very lane cycle, so that causes which come now are taken with those of the stop (R275). -/
def stoppedNow (s : State) (tm : Team) : Bool :=
  tm.handler.isNone && tm.stop.elim false fun st => st.time == s.time && st.written.isNone && !st.report

/-- A group's watchdog has expired: its wait is not PCHK's, its condition does not hold, its peer is not in recovery. A wait that the halt
broadcast ends in this lane cycle has expired with it (R268, R275). -/
def groupExpired (s : State) (g : GRef) (gg : Gang) (x : Group) : Bool :=
  match x.wait with
  | some w =>
    gg.state == .resident && !x.retired && w.kind != .pchk && !waitMet s g x w &&
    (!x.halted || (x.cause &&& cHaltb != 0 && (findTeam s (grefTeam g)).elim false (stoppedNow s))) &&
    !((waitPeers s x w).any (recovering s)) && decide (watchdogLimit gg ≤ waitLength s w)
  | none => false

/-- The point and phase that a wait waits for. -/
def waitPhase (w : Option Wait) : Option (Nat × Nat) :=
  match w with
  | some { kind := .rwait p ph, .. } => some (p, ph)
  | _ => none

/-- The numbers of the groups of a team whose own watchdogs expire now, in rising order. -/
def expiredGroups (s : State) (t : TRef) (gg : Gang) (tm : Team) : List Nat :=
  (List.range tm.groups.length).filter fun n => (tm.groups[n]?).elim false (groupExpired s (trefGroup t n) gg)

/-- The group that holds the sequencer's causes has WDOG already. -/
def seqTold (tm : Team) : Bool := ((causeGroup tm 0).bind fun n => tm.groups[n]?).elim false fun x => x.cause &&& cWdog != 0

/-- The sequencer's watchdog has expired. -/
def seqExpired (s : State) (gg : Gang) (tm : Team) : Bool :=
  match tm.seq.wait with
  | some w => gg.state == .resident && (tm.stop.isNone || (stoppedNow s tm && !seqTold tm)) && tm.seq.running && !seqMet tm w &&
      decide (watchdogLimit gg ≤ waitLength s w)
  | none => false

/-- The phases on which some wait of a team expires now. -/
def expiredPhases (s : State) (t : TRef) (gg : Gang) (tm : Team) : List (Nat × Nat) :=
  ((expiredGroups s t gg tm).filterMap fun n => (tm.groups[n]?).bind fun x => waitPhase x.wait) ++
    if seqExpired s gg tm then (waitPhase tm.seq.wait).toList else []

/-- A wait is on one of some phases. -/
def onPhase (ps : List (Nat × Nat)) (w : Option Wait) : Bool := (waitPhase w).elim false fun p => ps.contains p

/-- The groups of a team that WDOG stops now: those whose own watchdogs expire, and those that wait on the same phase as a wait that
expires (R268). -/
def coStopped (s : State) (t : TRef) (gg : Gang) (tm : Team) : List Nat :=
  (List.range tm.groups.length).filter fun n => match tm.groups[n]? with
    | some y => groupExpired s (trefGroup t n) gg y ||
        (!y.retired && (!y.halted || y.cause &&& cHaltb != 0) && onPhase (expiredPhases s t gg tm) y.wait)
    | none => false

/-- The group that takes the WDOG of a sequencer stopped with a group: it waits on a phase that expires, or its own watchdog expires now
(R219, R268). -/
def seqStopped (s : State) (t : TRef) (gg : Gang) (tm : Team) : List Nat :=
  if tm.handler.isNone && (onPhase (expiredPhases s t gg tm) tm.seq.wait || seqExpired s gg tm) then (causeGroup tm 0).toList else []

/-- The groups that an expiry stops beside the stopping one. -/
def expiryMates (s : State) (t : TRef) (gg : Gang) (tm : Team) (n : Nat) : List Nat :=
  (coStopped s t gg tm ++ seqStopped s t gg tm).filter (· ≠ n)

/-- Watchdogs of a team expire: the lowest of the groups whose own have expired is the stopping group, or, where only the sequencer's has,
the group that takes its WDOG (R219, R268). A group that runs its team's handler ends the handler. -/
def expire (s : State) (t : TRef) (gg : Gang) (tm : Team) : State :=
  match expiredGroups s t gg tm with
  | n :: _ =>
    let x := tm.groups[n]?
    raise s (trefGroup t n) cWdog (x.elim 0 curLink) (expiryMates s t gg tm n) ((x.bind fun x => waitPhase x.wait).map Prod.fst)
  | [] =>
    if !seqExpired s gg tm then s
    else
      let point := (waitPhase tm.seq.wait).map Prod.fst
      match causeGroup tm 0 with
      | some n => raise s (trefGroup t n) cWdog ((tm.groups[n]?).elim 0 curLink) (expiryMates s t gg tm n) point
      | none => raiseTeam s t 0 cWdog point

/-- The engine of a team has waited for its resource for the limit (R38, R207). -/
def engineExpired (s : State) (t : TRef) (gg : Gang) (tm : Team) : Bool :=
  match tm.engine.waiting, wantedOf s t tm.engine with
  | some b, some w =>
    gg.state == .resident && tm.stop.isNone && !resourceFree s (.team t) w.1 w.2.1 && decide (watchdogLimit gg ≤ s.time - b)
  | _, _ => false

/-- The expiry of an engine's watchdog: WDOG goes to the group that published the waiting entry. -/
def expireEngine (s : State) (t : TRef) (tm : Team) : State :=
  let s1 := modTeam s t fun tm => { tm with engine := { tm.engine with waiting := none } }
  raiseTeam s1 t ((wantedOf s t tm.engine).elim 0 fun w => w.2.2) cWdog none

/-- WATCHDOG_EXPIRY: a blocking wait has lasted its limit, and stops its team (R268). -/
def execWatchdogExpiry (w : Waiter) (s : State) : Out :=
  let on := fun (t : TRef) (f : Gang → Team → State) => match findGang s t.gang, findTeam s t with
    | some gg, some tm => Host.Outcome.next (f gg tm)
    | _, _ => .next s
  match w with
  | .group g => on (grefTeam g) (expire s (grefTeam g))
  | .seq t => on t (expire s t)
  | .engine t => on t fun gg tm => if engineExpired s t gg tm then expireEngine s t tm else s

end Sys2Proof.Machine
end

