-- ==== Sys2Proof/Machine/Placement.lean ====
section
/-! DEFINITION. The gang dispatcher: where a gang fits (R5, R6, R11, R12, R307, R308), its placement (R7, R14, R27, R203, R314),
reservations (R307), the restore of a saved gang (R279, R285, R287), and the compactor (R309, R310). -/
namespace Sys2Proof.Machine

/-! ## Footprints -/

/-- The cores that a team of a gang occupies itself, by the lower one (R11). -/
def ownCores (gg : Gang) (c : Nat) : List Nat := if gg.launch.pair then [c, c + 1] else [c]

/-- A choice of cores for a gang: its teams' cores, then those that its yokes bind, team by team. -/
def choiceOwn (gg : Gang) (cores : List Nat) : List Nat := cores.take gg.teams.length
def choiceYoked (gg : Gang) (cores : List Nat) : List Nat := cores.drop gg.teams.length

/-- Every core of a choice. -/
def footprint (gg : Gang) (cores : List Nat) : List Nat := (choiceOwn gg cores).flatMap (ownCores gg) ++ choiceYoked gg cores

/-- A choice has the right shape: distinct cores of one cluster, a pair on cores 0 and 1 or 2 and 3, Y − 1 more cores for each
team's yoke, each within reach of its core (R12, R307). -/
def choiceOk (gg : Gang) (cores : List Nat) : Bool :=
  cores.length == gg.teams.length * gg.launch.yoke &&
  (footprint gg cores).all (fun c => decide (c < 4)) && decide (footprint gg cores).Nodup &&
  (!gg.launch.pair || (choiceOwn gg cores).all fun c => c % 2 == 0) &&
  (List.range gg.teams.length).all fun t => ((choiceOwn gg cores)[t]?).elim true fun c =>
    (((choiceYoked gg cores).drop ((gg.launch.yoke - 1) * t)).take (gg.launch.yoke - 1)).all (Config.reaches c)

/-- The groups of a gang that would run on a core of a choice. -/
def groupsFor (gg : Gang) (cores : List Nat) (core : Nat) : Nat :=
  ((List.range gg.teams.length).map fun t =>
    (((gg.teams[t]?).elim [] fun tm => (List.range tm.groups.length).filter fun n =>
      ((choiceOwn gg cores)[t]?).getD 4 + (if gg.launch.pair && decide (16 ≤ n) then 1 else 0) == core &&
      !((tm.groups[n]?).elim true Group.retired))).length).sum

/-- The live groups resident on a core of a logical cluster. -/
def groupsOnCore (s : State) (l core : Nat) : Nat :=
  ((residents s l).map fun p => ((groupsOn p.2 core).filter fun q => !q.2.2.retired).length).sum

/-- A core is bound by some resident yoke. -/
def coreBound (s : State) (l core : Nat) : Bool := (residents s l).any fun p => p.2.place.elim false fun q => q.yoked.contains core

/-- A core takes no gang: it has retired, or the shepherd drains it (R326, R329). -/
def coreFull (s : State) (l core : Nat) : Bool :=
  let c := coreState s (4 * physCluster s l + core)
  c.retired || c.draining.isSome

/-! ## Allocation (R308) -/

/-- What a placement has allocated so far: register units and scratchpad units, by core. -/
structure Alloc where
  regs : List (Nat × Nat × Nat)
  scratch : List (Nat × Nat × Nat)
  deriving DecidableEq, Repr

/-- The units of a core in a list of allocations. -/
def unitsOf (l : List (Nat × Nat × Nat)) (core : Nat) : List (Nat × Nat) := (l.filter fun u => u.1 == core).map Prod.snd

/-- Register units on a core. -/
def allocUnits (s : State) (l core n : Nat) (a : Alloc) : Option (Alloc × Nat) :=
  (findUnits (regsTaken s l core ++ unitsOf a.regs core) regUnits n).map fun u => ({ a with regs := a.regs ++ [(core, u, n)] }, u)

/-- `k` register blocks of `n` units on a core and, where a yoke splits them, on a second (R12, R308). -/
def allocBlocks (s : State) (l core : Nat) (far : Option Nat) (n : Nat) (a : Alloc) : Nat → Option (Alloc × List Nat)
  | 0 => some (a, [])
  | k + 1 =>
    match allocUnits s l core n a with
    | none => none
    | some u => match far.elim (some (u.1, 0)) fun c => allocUnits s l c n u.1 with
      | none => none
      | some v => (allocBlocks s l core far n v.1 k).map fun r => (r.1, (u.2 + regUnits * v.2) :: r.2)

/-- The blocks of the groups of a team from group `g` on: those that each group owns. -/
def allocGroups (s : State) (l own : Nat) (far : Option Nat) (n : Nat) (pair : Bool) :
    Nat → List Group → Alloc → Option (Alloc × List (List Nat))
  | _, [], a => some (a, [])
  | g, x :: xs, a =>
    match allocBlocks s l (own + if pair && decide (16 ≤ g) then 1 else 0) far n a (if x.retired then 0 else x.owned) with
    | none => none
    | some r => (allocGroups s l own far n pair (g + 1) xs r.1).map fun q => (q.1, r.2 :: q.2)

/-- A scratchpad range of `n` units on each of some cores. -/
def allocScratch (s : State) (l n : Nat) (a : Alloc) : List Nat → Option (Alloc × List Nat)
  | [] => some (a, [])
  | c :: cs =>
    match findUnits (scratchTaken s l c ++ unitsOf a.scratch c) scratchArena n with
    | none => none
    | some u => (allocScratch s l n { a with scratch := a.scratch ++ [(c, u, n)] } cs).map fun r => (r.1, u :: r.2)

/-- The blocks and scratchpad ranges of the teams of a gang, in order: each with its core and the first core that its yoke binds. -/
def allocTeams (s : State) (l : Nat) (gg : Gang) :
    List (Team × Nat × Option Nat) → Alloc → Option (List (List (List Nat) × List Nat))
  | [], _ => some []
  | (tm, own, yoked) :: ts, a =>
    if tm.retired then (allocTeams s l gg ts a).map fun r => (tm.groups.map fun _ => [], []) :: r
    else match allocGroups s l own (if splitBlocks gg.launch then yoked else none) (slabUnits gg.launch) gg.launch.pair 0 tm.groups a with
      | none => none
      | some b => match allocScratch s l (scratchUnits tm.scratchBytes gg.launch.pair) b.1 (ownCores gg own) with
        | none => none
        | some c => (allocTeams s l gg ts c.1).map fun r => (b.2, c.2) :: r

/-! ## Fit (R307) -/

/-- The level of a queue. -/
def levelOf (q : Nat) : Nat := q / 2

/-- A cluster takes gangs of a queue: it is not held, its stack stands below THERM_STOP, ballast is admitted, and no gang of
a higher level has reserved it (R307, R313, R343, R348). -/
def clusterTakes (s : State) (l q : Nat) : Bool :=
  decide (l < 72) && !(mapEntry s l).hold && computeState s (stackOf (physCluster s l)) != 3 && (levelOf q != 0 || s.pl.ballast) &&
  s.wk.reserved.all fun r => r.2 != l || decide ((findGang s r.1).elim 0 (fun gg => levelOf gg.queue) ≤ levelOf q)

/-- The cores of a choice have room: no full or bound core, at most 16 groups on a front end, and no resident group on a core
that a yoke would bind. -/
def coresFree (s : State) (l : Nat) (gg : Gang) (cores : List Nat) : Bool :=
  (footprint gg cores).all (fun c => !coreFull s l c && !coreBound s l c &&
    decide (groupsOnCore s l c + groupsFor gg cores c ≤ 16)) &&
  (choiceYoked gg cores).all fun c => groupsOnCore s l c == 0

/-- What a gang would be given on a choice of cores of a cluster; none where it does not fit. -/
def fitOn (s : State) (l : Nat) (cores : List Nat) (gg : Gang) : Option (List (List (List Nat) × List Nat)) :=
  if choiceOk gg cores && clusterTakes s l gg.queue && coresFree s l gg cores then
    let yoked := (List.range gg.teams.length).map fun t => (choiceYoked gg cores)[(gg.launch.yoke - 1) * t]?
    allocTeams s l gg (gg.teams.zip ((choiceOwn gg cores).zip yoked)) { regs := [], scratch := [] }
  else none

/-- Lists of `k` distinct cores. -/
def coreLists : Nat → List (List Nat)
  | 0 => [[]]
  | k + 1 => (coreLists k).flatMap fun l => ((List.range 4).filter fun c => !l.contains c).map fun c => c :: l

/-- A gang fits some cluster. -/
def fitsSomewhere (s : State) (gg : Gang) : Bool :=
  (List.range 72).any fun l => (coreLists (gg.teams.length * gg.launch.yoke)).any fun cs => (fitOn s l cs gg).isSome

/-- The head of a queue. -/
def headOf (s : State) (q : Nat) : Option (Nat × Gang) :=
  ((s.wk.queues[q]?).bind List.head?).bind fun n => (findGang s n).map fun gg => (n, gg)

/-- A queue's head fits somewhere. -/
def headFits (s : State) (q : Nat) : Bool := (headOf s q).elim false fun p => fitsSomewhere s p.2

/-- A queue's head is offered now: no head of a higher level fits, nor that of the level's other lane where it is that lane's
turn (R307). -/
def offered (s : State) (q : Nat) : Bool :=
  ((List.range 16).all fun r => decide (levelOf r ≤ levelOf q) || !headFits s r) &&
  (s.wk.lanes.getLsbD (levelOf q) == (q % 2 == 1) || !headFits s (if q % 2 = 1 then q - 1 else q + 1))

/-! ## Placement -/

/-- A slab under a team of a context keeps its accumulators only for that context (R203). -/
def claimSlab (ctx : Nat) (s : State) (slab : Nat) : State :=
  modWk s fun w =>
    { w with
      slabZ := if tabGet w.slabCtx slab = some ctx then w.slabZ else tabPut w.slabZ slab []
      slabCtx := tabPut w.slabCtx slab ctx }

/-- The accumulators that a team finds in its slabs. -/
def slabsHold (s : State) (slabs : List Nat) : SMap 48 :=
  (List.range slabs.length).foldl (fun z j =>
    ((tabGet s.wk.slabZ ((slabs[j]?).getD 0)).getD []).foldl (fun z p => smSet z (p.1 + 64 * j) p.2) z) []

/-- A team with what its placement gives it. -/
def placeTeam (t : Team) (r : List (List Nat) × List Nat) : Team :=
  { t with groups := (t.groups.zip r.1).map fun p => { p.1 with blocks := p.2 }, scratchAt := r.2 }

/-- A gang stands on a choice of cores: its place, its identifiers from the first time on, its age, its blocks and ranges
(R6, R27, R314). -/
def occupy (s : State) (n l : Nat) (cores : List Nat) (r : List (List (List Nat) × List Nat)) : State :=
  let f := takeFresh s
  modGang f.2 n fun gg =>
    { gg with
      state := .resident
      place := some { cluster := l, cores := choiceOwn gg cores, yoked := choiceYoked gg cores }
      ids := some (gg.ids.getD (l, choiceOwn gg cores))
      age := f.1
      teams := (gg.teams.zip r).map fun p => placeTeam p.1 p.2 }

/-- The physical cores of a gang join those whose later scan its replay waits for (R328). -/
def noteCores (s : State) (n : Nat) : State :=
  match findGang s n with
  | none => s
  | some gg =>
    let cs := (List.range gg.teams.length).flatMap fun t => teamCores s gg t
    match gg.node with
    | some nd => modWk s fun w => { w with replays := tabMod w.replays nd.replay fun r => { r with cores := (r.cores ++ cs).eraseDups } }
    | none => s

/-- A gang leaves its queue for a place: the other lane of its level is offered next. -/
def leaveQueue (s : State) (n q : Nat) : State :=
  let bit := BitVec.ofNat 8 (2 ^ levelOf q)
  modWk (unqueue s n) fun w => { w with
    lanes := if q % 2 = 1 then w.lanes &&& ~~~bit else w.lanes ||| bit }

/-- Every slab of a placed gang is claimed for its context. -/
def claimSlabs (s : State) (n : Nat) : State :=
  match findGang s n with
  | none => s
  | some gg => ((List.range gg.teams.length).flatMap fun t => teamSlabs s gg t).foldl (claimSlab gg.ctx) s

/-- The slabs of a restored gang hold its accumulators, out of the fold (R203, R284). -/
def refillSlabs (s : State) (n : Nat) : State :=
  match findGang s n with
  | none => s
  | some gg => ((List.range gg.teams.length).flatMap fun t => (List.range 8).map fun r => (t, r)).foldl (fun s p =>
      match gg.teams[p.1]? with
      | some tm => if tm.retired then s else slabsWrite s gg p.1 p.2 (fun _ => true) tm.z
      | none => s) s

/-- The scratchpad ranges that a placement gives the teams of a gang, by core of the cluster. -/
def rangesOf (gg : Gang) (cores : List Nat) (r : List (List (List Nat) × List Nat)) : List (Nat × Nat) :=
  ((choiceOwn gg cores).zip r).flatMap fun p => (ownCores gg p.1).zip p.2.2

/-- Units of a scratchpad range of a gang's teams on one core. -/
def rangeUnits (gg : Gang) : Nat := scratchUnits gg.launch.scratch gg.launch.pair

/-- Lent units under some ranges of `n` units, by core of a cluster, are drained (R121). -/
def drainRanges (s : State) (l n : Nat) (rs : List (Nat × Nat)) : State :=
  rs.foldl (fun s p => drainLent s (4 * physCluster s l + p.1) ((List.range n).map (p.2 + ·))) s

/-- A drain of some ranges waits: the write-back of a narrow line there is held (R182, R349). -/
def drainWaits (s : State) (l n : Nat) (rs : List (Nat × Nat)) : Bool :=
  rs.any fun p => s.mm.narrow.any fun m => m.core == 4 * physCluster s l + p.1 && narrowHeld s m &&
    m.unit.elim false fun u => decide (p.2 ≤ u) && decide (u < p.2 + n)

/-- The teams of a gang at its first placement take what their slabs hold (R203). -/
def takeSlabs (s : State) (n : Nat) : State :=
  modGang s n fun gg =>
    { gg with teams := (List.range gg.teams.length).filterMap fun t => (gg.teams[t]?).map fun tm =>
        { tm with z := slabsHold s ((teamSlabs s gg t).take gg.launch.yoke) } }

/-- GANG_PLACE: the head of a queue, offered now, starts on cores of a cluster that it fits; a ladder body no earlier than it was formed
(R14). -/
def execGangPlace (q cluster : Nat) (cores : List Nat) (s : State) : Out :=
  match headOf s q with
  | none => .next s
  | some (n, gg) =>
    if gg.state ≠ .queued || s.time < gg.queuedAt || !offered s q then .next s
    else match fitOn s cluster cores gg with
      | none => .next s
      | some r =>
        if drainWaits s cluster (rangeUnits gg) (rangesOf gg cores r) then .next s
        else
          let s0 := drainRanges s cluster (rangeUnits gg) (rangesOf gg cores r)
          let s1 := occupy (leaveQueue s0 n q) n cluster cores r
          .next (noteCores (takeSlabs (claimSlabs s1 n) n) n)

/-- A head gang has waited for its reservation (R307). -/
def mayReserve (s : State) (q : Nat) : Bool :=
  (headOf s q).elim false fun p => decide (1 ≤ levelOf q) && (tabGet s.wk.reserved p.1).isNone &&
    decide (p.2.queuedAt + Config.reserveUnits ≤ s.time)

/-- GANG_RESERVATION: a head gang at level 1 or above that has waited 1,000 µs reserves a cluster. -/
def execGangReservation (q cluster : Nat) (s : State) : Out :=
  match headOf s q with
  | some (n, _) =>
    if mayReserve s q && decide (cluster < 72) then .next (modWk s fun w => { w with reserved := tabPut w.reserved n cluster })
    else .next s
  | none => .next s

/-! ## Restore (R279, R285, R287) -/

/-- A wait issued again at a restore is a new wait (R285); an MWAIT reads its value anew. -/
def renewWait (time : Nat) (w : Wait) : Option Wait :=
  match w.kind with
  | .mwait .. => none
  | _ => some { w with began := time, paused := 0, satAt := none }

/-- A group whose wait, if it was saved at one, is issued again, and with it the remote loads that the save cancelled. -/
def renewGroup (time : Nat) (x : Group) : Group :=
  { resumeGroup time x with halted := x.halted, cause := x.cause, wait := x.wait.bind (renewWait time) }

/-- The group of a running handler: the loads that the stop cancelled stay so until the group resumes (R276, R280). -/
def renewHandler (time : Nat) (x : Group) : Group :=
  { renewGroup time { x with cancelled := [] } with halted := false, cancelled := x.cancelled }

/-- A restore after a report clears the causes that it has resolved (R279). -/
def clearReported (x : Group) : Group := { x with cause := x.cause &&& ~~~(cHaltb ||| cPage ||| cPerm ||| cRemote) }

/-- A stopped team whose handler is still to run for its own cause, as its gang comes out of a report (R277, R279). -/
def handlerDue (l : Launch) (t : Team) : Bool :=
  l.handler != 0 && t.stop.elim false fun st => st.written.isNone && !st.report && st.group != 255 &&
    (t.groups[st.group]?).elim false fun x => ownCauses x != 0

/-- A team comes out of the fold: its held drains are written, then its groups resume (R287), whatever causes they still hold (R279). A
team that stood in its handler goes on in it; one whose handler has not run yet stops again. -/
def restoreTeam (time : Nat) (reported : Bool) (l : Launch) (t : Team) : Team :=
  if t.retired then t
  else
    let t1 := fillDrains t t.drains
    let t2 := { t1 with groups := if reported then t1.groups.map clearReported else t1.groups
                        seq := { t1.seq with wait := t1.seq.wait.bind (renewWait time) } }
    match t2.handler with
    | some n => { t2 with groups := listMod t2.groups n (renewHandler time) }
    | none =>
      if t2.stop.isNone then { t2 with groups := t2.groups.map (renewGroup time) }
      else if handlerDue l t2 then resumeTeam time t2
      else resumeAll time t2

/-- A gang saved for a report re-enters its queue at the head as system software restores it (R278, R306). -/
def reenter (s : State) (n : Nat) (gg : Gang) : State :=
  if gg.state == .saved && gg.reported && !((s.wk.queues[gg.queue]?).getD []).contains n then requeueHead s n gg.queue else s

/-- A saved gang may be restored now: it stands at the head of its queue, as the dispatcher offers it (R287, R306). -/
def mayRestore (s : State) (n : Nat) (gg : Gang) : Bool :=
  gg.state == .saved && (headOf s gg.queue).map Prod.fst == some n && offered s gg.queue

/-- The L1 copies of a restored gang's cores are dropped: none may serve one of its groups behind what it has read or written on the
cores that it left (R181; DEDUCED, log 21). -/
def renewCopies (s : State) (n : Nat) : State :=
  (findGang s n).elim s fun gg => ((List.range gg.teams.length).flatMap fun t => teamCores s gg t).foldl dropCopies s

/-- A saved gang resumes on its place: its slabs, then its held drains, then its groups (R279, R284, R287). -/
def resumeGang (s : State) (n : Nat) : State :=
  noteCores (modGang (renewCopies (refillSlabs (claimSlabs s n) n) n) n fun g =>
    { g with reported := false, teams := g.teams.map (restoreTeam s.time g.reported g.launch) }) n

/-- GANG_RESTORE: a saved gang resumes on cores of a cluster that it fits; one saved for a report enters its queue first. -/
def execGangRestore (gang cluster : Nat) (cores : List Nat) (s0 : State) : Out :=
  match findGang s0 gang with
  | none => .next s0
  | some gg =>
    let s := reenter s0 gang gg
    if !mayRestore s gang gg then .next s
    else match fitOn s cluster cores gg with
      | none => .next s
      | some r =>
        if drainWaits s cluster (rangeUnits gg) (rangesOf gg cores r) then .next s
        else
          let s1 := drainRanges s cluster (rangeUnits gg) (rangesOf gg cores r)
          .next (resumeGang (occupy (leaveQueue s1 gang gg.queue) gang cluster cores r) gang)

/-! ## The compactor (R309, R310) -/

/-- COMPACTION: a team's range on one of its cores moves to a free, aligned range; nothing else of the team changes. -/
def execCompaction (t : TRef) (core base : Nat) (s : State) : Out :=
  match findGang s t.gang, findTeam s t with
  | some gg, some tm =>
    let own := (gg.place.bind fun p => p.cores[t.team]?).getD 0
    let n := scratchUnits tm.scratchBytes gg.launch.pair
    let others := scratchTaken (modTeam s t fun tm => { tm with scratchAt := [] }) (clusterOf gg) core
    if gg.state == .resident && !tm.retired && tm.handler.isNone && decide (own ≤ core) && decide (core - own < tm.scratchAt.length) &&
        decide (0 < n) && base % n == 0 && decide (base + n ≤ scratchArena) && unitsFree others base n &&
        !drainWaits s (clusterOf gg) n [(core, base)] then
      .next (modTeam (drainRanges s (clusterOf gg) n [(core, base)]) t fun tm => { tm with scratchAt := tm.scratchAt.set (core - own) base })
    else .next s
  | _, _ => .next s

end Sys2Proof.Machine
end

