-- ==== Sys2Proof/Machine/Graphs.lean ====
section
/-! DEFINITION. Graphs at work: replays and their patch tables (R297 to R301), the start of each kind of node (R295), ladder
binding and unbinding (R254 to R256), commits, failures and the done and settled words (R296, R301, R304, R328). -/
namespace Sys2Proof.Machine

/-! ## Replays (R297 to R300) -/

/-- Bytes of a list replaced from an offset. -/
def patchBytes (bs : List Byte) (off : Nat) (v : List Byte) : List Byte := bs.take off ++ v ++ bs.drop (off + v.length)

/-- One entry of a patch table applied; none where it breaks a limit (R299). -/
def applyPatch (ns : List NodeInst) (e : Nat) : Option (List NodeInst) :=
  let k := bitsOf e 31 0
  let off := bitsOf e 47 32
  let size := bitsOf e 55 48
  match ns[k]? with
  | some x =>
    if (size = 1 || size = 2 || size = 4 || size = 8) && off % size == 0 && decide (off + size ≤ x.arming.length) &&
        bitsOf e 63 56 == 0 then
      some (ns.set k { x with arming := patchBytes x.arming off (natLE size (bitsOf e 127 64)) })
    else none
  | none => none

/-- The entries of a patch table applied in order. -/
def applyPatches (ns : List NodeInst) (bs : List Byte) : Nat → Option (List NodeInst)
  | 0 => some ns
  | n + 1 => (applyPatches ns bs n).bind fun ns => applyPatch ns (leNat ((bs.drop (16 * n)).take 16))

/-- A node of a replay before its start. -/
def newNode (r : NodeRec) : NodeInst :=
  { kind := r.kind, addr := r.addr, arming := r.arming, state := .waiting, start := 0, rollbacks := 0, escaped := false, quota := 0,
    reason := none, status := 0, peer := 0, gangsLeft := 0, doneAt := none, engine := Engine.idle }

/-- The nodes of a replay with its patch table applied; none where the table refuses the replay (R299). -/
def patchedNodes (s : State) (g : Graph) (ptab : Nat) : Option (List NodeInst) :=
  match virtRead s g.ctx ptab 64 with
  | none => none
  | some h =>
    let v := leNat h
    let n := bitsOf v 31 0
    if 4096 < n || bitsOf v 63 32 ≠ 0 || v / 2 ^ 192 ≠ 0 || 2 ^ 48 < ptab + 64 + 16 * n then none
    else (virtRead s g.ctx (ptab + 64) (16 * n)).bind fun bs => applyPatches (g.nodes.map newNode) bs n

/-- A replay of a handle is not done. -/
def replayRuns (s : State) (handle : Nat) : Bool := s.wk.replays.any fun p => p.2.handle == handle && !p.2.done

/-- REPLAY_START: the oldest queued replay of a graph starts once the one before is done; one that its patch table refuses
writes REFUSED (R299 to R301). -/
def execReplayStart (handle : Nat) (s : State) : Out :=
  match tabGet s.wk.graphs handle with
  | none => .next s
  | some g => match g.kicks with
    | [] => .next s
    | ptab :: rest =>
      if replayRuns s handle then .next s
      else
        let s1 := modWk s fun w => { w with graphs := tabPut w.graphs handle { g with kicks := rest, seqno := g.seqno + 1 } }
        match patchedNodes s g ptab with
        | none => .next (writeDone s1 g.ctx ptab (g.seqno + 1) 3)
        | some ns =>
          let r : Replay := { handle := handle, ctx := g.ctx, seqno := g.seqno + 1, ptab := ptab, nodes := ns, done := false,
                              killed := false, cores := [], failedScan := false, settled := false }
          .next (modWk s1 fun w => { w with replays := tabPut w.replays (tabNext w.replays) r })

/-! ## The start of a node (R295, R296) -/

/-- A node may start: its replay is not done, and every predecessor has committed. -/
def startable (s : State) (n : NRef) (kind : Nat) : Option (Replay × NodeInst) :=
  (tabGet s.wk.replays n.replay).bind fun r => (r.nodes[n.node]?).bind fun x =>
    if !r.done && x.kind == kind && x.state == .waiting &&
        ((replayEdges s r).all fun e => e.2 != n.node || (r.nodes[e.1]?).elim false fun p => p.state == .committed) then some (r, x)
    else none

/-- A node has started; the quota in force holds for its life (R320). -/
def startNode (s : State) (n : NRef) : State :=
  modNode s n fun x => { x with state := .started, start := s.time, quota := 1024 * (dev s).quota }

/-- A node fails when it acts: NODE_COMMIT delivers the failure. -/
def failAtStart (s : State) (n : NRef) (reason peer : Nat) : State :=
  modNode s n fun x => { x with reason := some reason, peer := peer }

/-- The start of a node of a kind: it starts, and with arming data outside its limits fails (R295); else it acts. -/
def nodeStart (s : State) (n : NRef) (kind : Nat) (act : State → Replay → NodeInst → State) : Out :=
  match startable s n kind with
  | none => .next s
  | some (r, x) =>
    let s1 := startNode s n
    .next (if armingOk kind x.arming then act s1 r x else failAtStart s1 n 1 0)

/-- The lane of a replay's graph. -/
def laneOf (s : State) (r : Replay) : Nat := (tabGet s.wk.graphs r.handle).elim 0 Graph.lane

/-- The gangs of a grid enter their queue in rising sr.gang (R306); the node waits for all of them. -/
def launchGrid (s : State) (n : NRef) (ctx lane : Nat) (l : Launch) : State :=
  let teams := List.replicate l.teams (newTeam l s.time)
  let s1 := (List.range l.gridGangs).foldl (fun s k =>
    addGang s (newGang ctx l k (some n) (queueNumber l.prio lane) s.time teams)) s
  modNode s1 n fun x => { x with gangsLeft := l.gridGangs, start := s.time, doneAt := none }

/-- NODE_LAUNCH: the grid of the launch record, as patched, enters its queue; a record that breaks its limits fails the node
(R198, R303). -/
def execNodeLaunch (n : NRef) (s : State) : Out :=
  nodeStart s n 1 fun s r x =>
    let l := launchOf x.addr x.arming
    if launchOk s r.ctx l then launchGrid s n r.ctx (laneOf s r) l else failAtStart s n 1 0

/-- The engine of a node has its entries. -/
def armEngine (s : State) (n : NRef) (x : NodeInst) : State :=
  modNode s n fun y => { y with engine := { Engine.idle with published := entryCount x.arming } }

/-- NODE_COPY: a graph copy engine performs the entries in order. -/
def execNodeCopy (n : NRef) (s : State) : Out := nodeStart s n 2 fun s _ x => armEngine s n x

/-- NODE_COLL: a graph copy engine performs the steps in order. -/
def execNodeColl (n : NRef) (s : State) : Out := nodeStart s n 6 fun s _ x => armEngine s n x

/-- NODE_SWEEP: SWREG for the context; a refused descriptor fails the node (R155). -/
def execNodeSweep (n : NRef) (s : State) : Out :=
  nodeStart s n 3 fun s r x =>
    let d := descOf (leNat (x.arming.take 64)) false
    match (if d.wellFormed then programWords s r.ctx d.program 16 else none) with
    | some ws => modSw s fun w => { w with reqs := w.reqs ++ [.register none (some n) r.ctx 0 d ws] }
    | none => failAtStart s n 1 0

/-- NODE_BANK: BKCMD for the context; a refused descriptor fails the node (R155). -/
def execNodeBank (n : NRef) (s : State) : Out :=
  nodeStart s n 4 fun s r x =>
    let d := descOf (leNat x.arming) true
    match bankDesc s r.ctx d with
    | some ws => startCmd s none (some n) r.ctx d ws
    | none => failAtStart s n 1 0

/-! ## Ladders (R254 to R256) -/

/-- A launch record and its parameter block at a virtual address. -/
def launchAt (s : State) (ctx addr : Nat) : Option Launch :=
  if addr % 256 ≠ 0 then none
  else (virtRead s ctx addr 256).bind fun bs =>
    let p := bitsOf (leNat bs) (8 * 0x38 - 1) (8 * 0x34)
    if 4096 < p then none else (virtRead s ctx (addr + 256) p).map fun ps => launchOf addr (bs ++ ps)

/-- Rung k of a ladder object, where its record and its body's launch record keep their limits (R255). -/
def rungOf (s : State) (ctx : Nat) (bs : List Byte) (k : Nat) : Option Rung :=
  let v := leNat ((bs.drop (0x40 + 32 * k)).take 32)
  (launchAt s ctx (bitsOf v 63 0)).bind fun l =>
    if launchOk s ctx l && l.teams == 1 && l.groups == 1 && !l.pair && l.yoke == 1 && l.stream == 0 && bitsOf v 95 64 != 0 &&
        v / 2 ^ 96 == 0 then
      some { launch := l, limit := bitsOf v 95 64, queue := [], partials := 0, full := 0, entered := 0, escalated := 0, formed := 0 }
    else none

/-- A word's address is 4-byte-aligned on a writable NORMAL page. -/
def wordOk (s : State) (ctx va : Nat) : Bool :=
  va % 4 == 0 && (translate s ctx va).elim false fun l => l.mtype == 0 && l.w && !l.x

/-- The ladder that a template at an address becomes when it is bound with the addresses of its results; none where binding is
refused (R254 to R256). -/
def ladderOf (s : State) (ctx addr result progress doneList lane : Nat) : Option Ladder :=
  match virtRead s ctx addr 192, translate s ctx addr with
  | some bs, some leaf =>
    let v := leNat bs
    let n := bitsOf v 7 0
    let order := bitsOf v 15 8
    let rungs := (List.range n).filterMap (rungOf s ctx bs)
    let template := addr % 256 == 0 && decide (2 ≤ n) && decide (n ≤ 4) && decide (order ≤ 1) && decide (bitsOf v 23 16 ≤ 1) &&
      bitsOf v 31 24 == 0 && decide (1 ≤ bitsOf v 63 32) && decide (bitsOf v 63 32 ≤ 65536) && v / 2 ^ 64 % 2 ^ 448 == 0 &&
      v / 2 ^ (8 * (0x40 + 32 * n)) == 0
    let words := wordOk s ctx result && wordOk s ctx progress && (if order = 1 then wordOk s ctx doneList else doneList == 0)
    let free := !isRemote s leaf.pa && decide (s.wk.ladders.length < 256) &&
      !(s.wk.ladders.any fun p => (translate s p.2.ctx p.2.addr).elim false fun l => l.pa == leaf.pa)
    if template && words && free && rungs.length == n then
      some { ctx := ctx, addr := addr, order := order, words := if bitsOf v 23 16 = 1 then 8 else 4, window := bitsOf v 63 32,
             result := result, progress := progress, doneList := doneList, lane := lane, rungs := rungs, nextIndex := 0, retired := [],
             counted := 0, passes := [], released := 0 }
    else none
  | _, _ => none

/-- Fields of a ladder object written by the part; the latest completion time. -/
def writeFields (s : State) (ctx addr : Nat) (fs : List (Nat × List Byte)) : State × Nat :=
  fs.foldl (fun acc f => match storeAfter acc.1 ctx (addr + f.1) f.2 0 with
    | some r => (r.1, max acc.2 r.2)
    | none => acc) (s, s.time)

/-- A node's act is done, and visible at dev scope from a time. -/
def nodeDone (s : State) (n : NRef) (at_ : Nat) : State := modNode s n fun x => { x with doneAt := some (at_ + commitSkew s) }

/-- A bound ladder, under a number of its own: the part's copy of the object, whose memory keeps the template (R254, R256; DEDUCED,
log 67). -/
def bindLadder (s : State) (n : NRef) (l : Ladder) : State :=
  let f := takeFresh s
  nodeDone (modWk f.2 fun w => { w with ladders := tabPut w.ladders f.1 l }) n s.time

/-- A ladder unbound once every entered item has retired and the progress word has been written for it: State 0, the items entered, each
rung's statistics (R256). -/
def unbindLadder (s : State) (n : NRef) (id : Nat) (l : Ladder) : State :=
  if l.counted < l.nextIndex then s
  else
    let stats := (List.range l.rungs.length).flatMap fun k =>
      let w := (l.rungs[k]?).elim (0, 0) rungWords
      [(0x50 + 32 * k, natLE 8 w.1), (0x58 + 32 * k, natLE 8 w.2)]
    let r := writeFields (modWk s fun w => { w with ladders := tabDel w.ladders id }) l.ctx l.addr
      ([(3, natLE 1 0), (0x20, natLE 8 l.nextIndex)] ++ stats)
    nodeDone r.1 n r.2

/-- What a LADDER node's arming data asks. -/
def ladderAct (s : State) (n : NRef) (r : Replay) (x : NodeInst) : State :=
  let v := leNat x.arming
  let addr := bitsOf v 127 64
  if bitsOf v 63 0 = 0 then
    match ladderOf s r.ctx addr (bitsOf v 191 128) (bitsOf v 255 192) (bitsOf v 319 256) (laneOf s r) with
    | some l => bindLadder s n l
    | none => failAtStart s n 1 0
  else match ladderAt s r.ctx addr with
    | some (id, l) => unbindLadder s n id l
    | none => failAtStart s n 1 0

/-- A LADDER node that has started and waits to unbind. -/
def unbindWaits (s : State) (n : NRef) : Option (Replay × NodeInst) :=
  (tabGet s.wk.replays n.replay).bind fun r => (r.nodes[n.node]?).bind fun x =>
    if x.kind == 5 && x.state == .started && x.doneAt.isNone && x.reason.isNone && bitsOf (leNat x.arming) 63 0 == 1 then some (r, x)
    else none

/-- NODE_LADDER: binding, or unbinding, which waits until every entered item has retired. -/
def execNodeLadder (n : NRef) (s : State) : Out :=
  match unbindWaits s n with
  | some (r, x) => .next (ladderAct s n r x)
  | none => nodeStart s n 5 fun s r x => ladderAct s n r x

/-! ## WAITEXT and SIGNAL (R295) -/

/-- The condition of a WAITEXT node's arming data. -/
def extCond (v : Nat) : WCond :=
  match bitsOf v 95 64 with
  | 0 => .eq
  | 1 => .ne
  | 2 => .geu
  | _ => .seq

/-- The first write placed and not yet visible whose value satisfies a node's condition: its completion time. -/
def extPending (s : State) (pa : Nat) (c : WCond) (y : Nat) : Option Nat :=
  ((homeOf s (pa / 32)).writes.find? fun w =>
    condHolds c (leNat (homeRead { s with time := max s.time w.done } pa (condBytes c) none)) y).map LineWrite.done

/-- The forced publish that a WAITEXT node would cause waits (R173, R182, R349). -/
def extWaits (s : State) (n : NRef) : Bool :=
  (startable s n 7).elim false fun p => (translate s p.1.ctx (bitsOf (leNat p.2.arming) 63 0)).elim false fun l =>
    l.mtype == 0 && publishHeld s (l.pa / 32) none

/-- NODE_WAITEXT: a monitor is armed as for MWAIT; the node holds the physical address it watches. -/
def execNodeWaitext (n : NRef) (s : State) : Out :=
  if extWaits s n then .next s
  else nodeStart s n 7 fun s r x =>
    let v := leNat x.arming
    let c := extCond v
    match translate s r.ctx (bitsOf v 63 0) with
    | none => failAtStart s n 7 0
    | some l =>
      if l.mtype = 2 then failAtStart s n 7 0
      else if isRemote s l.pa && (!present s (pkgOf l.pa) || unreachable s (pkgOf l.pa)) then
        failAtStart s n 2 (coordOf s (pkgOf l.pa))
      else
        let p := if l.mtype = 0 then forcedPublish s (l.pa / 32) none else (s, s.time)
        let m := leNat (if l.mtype = 1 then dramRead p.1 l.pa (condBytes c)
                        else homeRead { p.1 with time := p.2 } l.pa (condBytes c) none)
        let now := if !readHeld p.1 l && condHolds c m (bitsOf v 191 128) then some p.2
                   else if l.mtype = 0 then extPending p.1 l.pa c (bitsOf v 191 128) else none
        modNode p.1 n fun y => { y with status := l.pa, doneAt := now }

/-- The release at sys scope of a SIGNAL node: its predecessors' commits lie the skew of R150 back. -/
def releasePassed (s : State) (n : NRef) (r : Replay) : Bool :=
  (replayEdges s r).all fun e => e.2 != n.node ||
    (r.nodes[e.1]?).elim true fun p => decide (p.doneAt.getD 0 + Config.skewUnits 5 ≤ s.time)

/-- The store of a SIGNAL node: 64 bits, to memory or to a register of the window; one to a package in recovery is held (R356). -/
def signalStore (s : State) (n : NRef) (ctx va v : Nat) : State :=
  match translate s ctx va with
  | none => failAtStart s n 6 0
  | some l =>
    if va % 8 ≠ 0 || leafCause l .store 8 ≠ 0 then failAtStart s n 6 0
    else if isRemote s l.pa && (!present s (pkgOf l.pa) || unreachable s (pkgOf l.pa)) then failAtStart s n 2 (coordOf s (pkgOf l.pa))
    else if l.mtype = 2 && isRemote s l.pa && recovering s (pkgOf l.pa) then
      let k := takeFresh s
      modNode (holdWrite k.2 { ctx := ctx, va := va, pa := l.pa, op := .store (natLE 8 v), who := none, core := 4096, id := k.1, mtype := 2 }) n
        fun x => { x with status := k.1, doneAt := none }
    else if l.mtype = 2 then
      modNode (deviceStore s l (natLE 8 v) none) n fun x => { x with doneAt := some (s.time + commitSkew s) }
    else
      let k := takeFresh s
      let r := storeLane k.2 ctx va l (natLE 8 v) none 4096 k.1
      modNode r.1 n fun x => { x with status := k.1, doneAt := r.2.map fun t => t + commitSkew r.1 }

/-- NODE_SIGNAL: a 64-bit store, or a signal to another package, after a release at sys scope. -/
def execNodeSignal (n : NRef) (s : State) : Out :=
  match startable s n 8 with
  | none => .next s
  | some (r, _) =>
    if !releasePassed s n r then .next s
    else nodeStart s n 8 fun s r x =>
      let v := leNat x.arming
      let dest := bitsOf v 127 64
      if bitsOf v 63 0 = 0 then signalStore s n r.ctx dest (bitsOf v 191 128)
      else
        let c := dest % 2 ^ 19
        if 2 ^ 19 ≤ dest || !coordPresent s c || coordUnreachable s c then failAtStart s n 2 c
        else
          let k := takeFresh s
          sendSignal k.2 r.ctx (BitVec.ofNat 64 (bitsOf v 191 128)) c none (some n) k.1

/-! ## Commits and failures (R295, R296, R301, R304) -/

/-- A write belongs to a node: its groups or engines issued it, or it publishes the node's provisional lines. -/
def writeOf (s : State) (n : NRef) (w : LineWrite) : Bool := w.node == some n || instOf s w.writer == some n

/-- Every write of a node has been placed, and is visible at its home. -/
def gridPlaced (s : State) (n : NRef) : Bool :=
  !(s.mm.held.any fun h => instOf s h.who == some n) && !(s.mm.narrow.any fun q => instOf s (some q.who) == some n) &&
  (s.wk.gangs.all fun p => p.2.node != some n || p.2.teams.all fun t => t.groups.all fun x => x.stores.isEmpty) &&
  s.mm.homes.all fun p => (homeOf s p.1).writes.all fun w => !writeOf s n w

/-- The done word of a replay once every node has ended (R301). -/
def endReplay (s : State) (k : Nat) : State :=
  match tabGet s.wk.replays k with
  | none => s
  | some r =>
    if r.done || !(r.nodes.all fun x => x.state == .committed || nodeDead x) then s
    else
      let bad := r.nodes.any fun x => x.state == .failed
      writeDone (modWk s fun w => { w with replays := tabPut w.replays k { r with done := true } }) r.ctx r.ptab r.seqno
        (if bad then 1 else 0)

/-- The settled word of a replay (R301, R328): once it is done and every core it ran on has passed a later scan; never before
the done word. -/
def settleReplay (s : State) (k : Nat) : State :=
  match tabGet s.wk.replays k with
  | none => s
  | some r =>
    if !r.done || r.killed || r.settled || !r.cores.isEmpty || !(dev s).shepRun then s
    else
      let after := (translate s r.ctx (r.ptab + 8)).elim 0 fun l => (homeOf s (l.pa / 32)).last
      let v := r.seqno % 2 ^ 48 + (if r.failedScan then 1 else 0) * 2 ^ 48
      let s1 := ((storeAfter s r.ctx (r.ptab + 16) (natLE 8 v) after).map Prod.fst).getD s
      modWk s1 fun w => { w with replays := tabPut w.replays k { r with settled := true } }

/-- A node commits: a SWEEP node that asks for it ends its registration, and the writes that its published lines held may follow (R317). -/
def commitNode (s : State) (n : NRef) (x : NodeInst) : State :=
  let s1 := modNode (dropMarks s n) n fun y => { y with state := .committed, doneAt := some s.time }
  if x.kind = 3 && bitsOf (leNat x.arming) 512 512 = 1 then endReg s1 x.status else s1

/-- A node has ended: its replay may be done, and settled. -/
def afterEnd (s : State) (n : NRef) : State := settleReplay (endReplay s n.replay) n.replay

/-- The time at which a WAITEXT node reaches its limit. -/
def extLimit (x : NodeInst) : Nat := x.start + bitsOf (leNat x.arming) 127 96 * Config.unitsPerUs

/-- The limit of a WAITEXT node has passed before its condition held. -/
def extLate (s : State) (x : NodeInst) : Bool :=
  let stop := extLimit x
  x.kind == 7 && decide (stop ≤ s.time) && x.doneAt.elim true fun t => decide (stop < t)

/-- One step of the end of a started node: it fails, it publishes, it waits until its writes are visible, it commits. -/
def endNode (s : State) (n : NRef) (x : NodeInst) : State :=
  match x.reason with
  | some r => afterEnd (failNode s n r) n
  | none =>
    if extLate s x then afterEnd (failNode s n 3) n
    else match x.doneAt with
      | some t => if t ≤ s.time then afterEnd (commitNode s n x) n else s
      | none =>
        if x.kind ≠ 1 || x.gangsLeft ≠ 0 then s
        else if (provOf s n).any (publishable s) then publishProv s n
        else if (provOf s n).any fun p => !p.bytes.isEmpty then s
        else if gridPlaced s n then modNode s n fun y => { y with doneAt := some (s.time + commitSkew s) }
        else s

/-- NODE_COMMIT: a started node commits or fails where its condition says so (R295). -/
def execNodeCommit (n : NRef) (s : State) : Out :=
  match (tabGet s.wk.replays n.replay).bind fun r => if r.done then none else r.nodes[n.node]? with
  | some x => if x.state == .started then .next (endNode s n x) else .next s
  | none => .next s

end Sys2Proof.Machine
end

