-- ==== Sys2Proof/Machine/Repair.lean ====
section
/-! DEFINITION. Poison and rollback (R321 to R325), the shepherd (R326 to R328), repair in service (R329, R330) and the drop of
a compute stack (R331). -/
namespace Sys2Proof.Machine

/-! ## Poison (R321 to R323) -/

/-- The gangs of a node that have not ended. -/
def nodeGangs (s : State) (n : NRef) : List Nat :=
  (s.wk.gangs.filter fun p => p.2.node == some n && p.2.state != .retired).map Prod.fst

/-- Every gang of a node ends; the lines it holds are kept, or discarded. -/
def dropGrid (s : State) (n : NRef) (keep : Bool) : State := (nodeGangs s n).foldl (fun s g => dropGang s g fun _ => keep) s

/-- A node is queued again from its launch record as patched (R322). -/
def requeueNode (s : State) (n : NRef) (l : Launch) : State :=
  match tabGet s.wk.replays n.replay with
  | none => s
  | some r => launchGrid (modNode s n fun x => { x with rollbacks := x.rollbacks + 1 }) n r.ctx (laneOf s r) l

/-- A node fails for poison: NODE_COMMIT delivers the failure, with the stopping group's causes (R323). -/
def poisonFails (s : State) (n : NRef) (causes : BitVec 32) : State :=
  modNode s n fun x => { x with reason := some 4, status := causes.toNat }

/-- A node is rolled back or run again: it has not escaped, and has been at most once before. -/
def mayRerun (x : NodeInst) : Bool := !x.escaped && decide (x.rollbacks < 2)

/-- An instance is rolled back: its gangs end, its provisional lines and its held writes are discarded, the writes that others had held for
it follow, and it is queued again (R321, R322). -/
def rollBack (s : State) (n : NRef) (l : Launch) : State :=
  let s1 := modMm s fun m => { m with held := m.held.filter fun h => instOf s h.who != some n }
  let s2 := modMm (dropGrid s1 n false) fun m => { m with provisional := m.provisional.filter fun p => p.node != n }
  requeueNode (modDev (releaseHeld s2) fun r => { r with errRollbacks := r.errRollbacks + 1 }) n l

/-- The node of a team that has consumed poison: rolled back where it is contained and has not escaped, re-run where it is
idempotent and has not escaped, up to twice; else it fails, and nothing of it is discarded: what it has staged is published (R321 to
R323; DEDUCED, log 68). -/
def poisonNode (s : State) (n : NRef) (l : Launch) (causes : BitVec 32) : State :=
  match findNode s n with
  | none => s
  | some x =>
    if l.contain && mayRerun x then rollBack s n l
    else
      let s1 := dropMarks (publishProv (dropGrid s n true) n) n
      if l.idem && mayRerun x then requeueNode s1 n l else poisonFails s1 n causes

/-- An engine of a stopped team still has something to write of the entries that it has taken: those that PAGE suspended stay so, and those
behind a multicast whose drains no consumer makes room for any more end with it (R276). -/
def engineRunsOn (g : Engine) : Bool :=
  match g.flight with
  | [] => false
  | f :: _ => match f.prog with
    | .multicast _ => false
    | .suspended _ page => !page
    | _ => true

/-- The teams of a node's resident gangs still write what their engines had taken (R276, R323). -/
def gridRunsOn (s : State) (n : NRef) : Bool :=
  s.wk.gangs.any fun p => p.2.node == some n && p.2.state == .resident && p.2.teams.any fun t => engineRunsOn t.engine

/-- A node is to be rolled back, so that what its engines have taken is abandoned (R321). -/
def rollsBack (s : State) (n : NRef) (l : Launch) : Bool := l.contain && (findNode s n).elim false mayRerun

/-- POISON_CONSUMED: the outcome of a stop whose causes include POISON: its node is dealt with, and then its record is delivered, when
ERR_COUNT counts the rollback (R321); a gang of no node ends. -/
def execPoisonConsumed (g : GRef) (s : State) : Out :=
  match findGang s g.gang, findTeam s (grefTeam g) with
  | some gg, some tm => match tm.stop with
    | some st =>
      if gg.state == .resident && st.written.isSome && decidingCauses tm st &&& cPoison ≠ 0 then
        let report := fun (s' : State) => Host.Outcome.next (deliverRecord s' (grefTeam g) gg tm st 1)
        match gg.node with
        | some n =>
          if !rollsBack s n gg.launch && gridRunsOn s n then .next s else report (poisonNode s n gg.launch st.shown)
        | none => report (dropGang s g.gang fun _ => true)
      else .next s
    | none => .next s
  | _, _ => .next s

/-- Words of a DRAM line that an uncorrectable error poisons. -/
def poisonWords (ps : List Nat) (pa : Nat) : List Nat :=
  ((List.range 8).map fun k => pa / 4 + k).foldl (fun ps w => if w ∈ ps then ps else ps ++ [w]) ps

/-- UNCORRECTABLE_ERROR: an error arises in a line of a DRAM row, in the LLC's copy of a line (the only copy where it is
dirty), in a provisional line, or in the core state of a team, which consumes it at once (R325). -/
def execUncorrectableError (site : ErrSite) (s : State) : Out :=
  match site with
  | .dramRow stack pc row bank line =>
    let pa := ownPhys s (rowLocal (stack * 32 + pc) row bank) + 32 * line
    if 16 ≤ stack || 32 ≤ pc || Config.rowIndices ≤ row || 32 ≤ bank || 64 ≤ line || (homeOf s (pa / 32)).dirty then .next s
    else .next (modMm s fun m => { m with poison := poisonWords m.poison pa })
  | .llcLine line =>
    let h := homeOf s line
    if h.llc.isNone then .next s
    else if h.dirty then
      .next (modMm (putHome s line { h with llc := none, dirty := false }) fun m =>
        { m with poison := poisonWords m.poison (32 * line) })
    else .next (modMm s fun m => { m with llcPoison := if line ∈ m.llcPoison then m.llcPoison else line :: m.llcPoison })
  | .provLine line => .next (modMm s fun m => { m with provisional := m.provisional.map fun p =>
      if p.line = line then { p with poison := List.range 8 } else p })
  | .team t =>
    if (findGang s t.gang).elim false fun gg => gg.state == .resident then
      .next (raiseTeam (modDev s fun r => { r with errPoison := r.errPoison + 1 }) t 0 cPoison none)
    else .next s

/-! ## Cores in service (R326, R329, R330) -/

/-- The logical cluster that a physical cluster serves, where one does. -/
def logicalOf (s : State) (c : Nat) : Option Nat := (List.range 72).find? fun l => (mapEntry s l).phys == c

/-- A physical core is in service: its cluster is mapped, its stack has not been dropped, and it has not retired. -/
def inService (s : State) (core : Nat) : Bool :=
  (logicalOf s (core / 4)).isSome && !(coreState s core).retired && !stackDropped s (core / 40)

/-- The resident gangs on a core, or that yoke its slab. -/
def coreGangs (s : State) (core : Nat) : List Nat :=
  (s.wk.gangs.filter fun p => p.2.state == .resident &&
    (List.range p.2.teams.length).any fun t => (teamCores s p.2 t).contains core).map Prod.fst

/-- The core that the shepherd takes in hand next, and whether a rotation has ended (R326). -/
def nextCore (s : State) (core : Nat) : Nat × Bool :=
  match (List.range 320).find? fun c => decide (core < c) && inService s c with
  | some c => (c, false)
  | none => (((List.range 320).find? (inService s)).getD 0, true)

/-- The shepherd goes on to its next core. -/
def shepherdNext (s : State) (core skipped : Nat) : State :=
  let n := nextCore s core
  modDev (modCore s core fun c => { c with draining := none }) fun r =>
    { r with
      shepCore := n.1
      shepRotations := if n.2 then r.shepRotations + 1 else r.shepRotations
      shepSkipped := if n.2 then 0 else r.shepSkipped + skipped }

/-! ## Repair (R329, R330, R331) -/

/-- The two slab halves under a core: those of the slab bound to it, or of the donor of a mate. A mate takes the half of the same letter
from its donor (DESIGN CHOICE, log 7). -/
def boundHalves (s : State) (core : Nat) : List (Nat × Nat) :=
  [0, 1].map fun h => ((tabGet (coreState s core).mated h).getD (coreState s core).slab, h)

/-- A physical core needs its slab: it is in service, or its cluster is about to be. -/
def needsSlab (s : State) (core : Nat) : Bool :=
  !(coreState s core).retired && !stackDropped s (core / 40) &&
  ((logicalOf s (core / 4)).isSome || (dev s).clusterMap.any fun e => e.moving == some (core / 4))

/-- A core but a given one uses a slab half. -/
def halfUsed (s : State) (core : Nat) (q : Nat × Nat) : Bool :=
  (List.range 40).any fun k => q.1 / 40 * 40 + k != core && needsSlab s (q.1 / 40 * 40 + k) && (boundHalves s (q.1 / 40 * 40 + k)).contains q

/-- A slab half is a spare that a core can take: it has passed its latest scan, and no other core uses it (R326, R329). -/
def spareHalf (s : State) (core : Nat) (q : Nat × Nat) : Bool := s.pl.goodHalves.contains q && !halfUsed s core q

/-- The spares of a core's stack for one of its halves, or for the whole slab. -/
def spares (s : State) (core : Nat) (hs : List Nat) : List Nat :=
  ((List.range 40).map fun k => core / 40 * 40 + k).filter fun n => hs.all fun h => spareHalf s core (n, h)

/-- The spare within reach that the part takes, if any: the core's own position lies within reach, and which of the others do is left to
the part (DESIGN CHOICE, log 7). -/
def pickSpare (s : State) (core : Nat) (hs : List Nat) : Option Nat × State :=
  let f := takeFresh s
  let cs := spares s core hs
  ((cs[Config.freeNat f.1 0 % (cs.length + 1)]?).or (if cs.contains core then some core else none), f.2)

/-- Every replay that waits for a core's scan learns its result (R328). -/
def scanResult (s : State) (core : Nat) (failed : Bool) : State :=
  let learn : Nat × Replay → Nat × Replay := fun p =>
    if p.2.cores.contains core then
      (p.1, { p.2 with cores := p.2.cores.filter (· ≠ core), failedScan := p.2.failedScan || failed })
    else p
  let s1 := modWk s fun w => { w with replays := w.replays.map learn }
  (s1.wk.replays.map Prod.fst).foldl settleReplay s1

/-- The spare cluster of a stack: not mapped, no other's target, with four front ends that have passed scans (R330). -/
def spareCluster (s : State) (st : Nat) : Option Nat :=
  ((List.range 10).map fun k => 10 * st + k).find? fun c =>
    (logicalOf s c).isNone && !((dev s).clusterMap.any fun e => e.moving == some c) && !stackDropped s st &&
    (List.range 4).all fun k => (coreState s (4 * c + k)).passed && !(coreState s (4 * c + k)).retired

/-- A core's slab is rebound, and the repair recorded (R329, R333). -/
def rebind (s : State) (core d : Nat) : State :=
  retireAppend (modCore s core fun c => { c with slab := d, mated := [] }) 2 (core / 40) (core % 40) (d % 40)

/-- Front ends bind good slabs within reach: what is under them where that is good and no other core's, else a whole spare slab; none
where one of them can bind none (R330). -/
def bindSlabs (s : State) : List Nat → Option State
  | [] => some s
  | c :: cs =>
    if (boundHalves s c).all (spareHalf s c) then bindSlabs s cs
    else
      let b := pickSpare s c [0, 1]
      match b.1 with
      | some d => bindSlabs (rebind b.2 c d) cs
      | none => none

/-- The state with an entry of CLUSTER_MAP changed. -/
def modEntry (s : State) (l : Nat) (f : MapEntry → MapEntry) : State := modDev s fun r => { r with clusterMap := listMod r.clusterMap l f }

/-- The gangs of a logical cluster are marked for eviction. -/
def evictCluster (s : State) (l : Nat) : State := markAll .other s fun p => p.2.place.elim false fun q => q.cluster == l

/-- A logical cluster that has lost a core is held, and its gangs are evicted, so that it can move to a spare (R330). -/
def beginMove (s : State) (l : Nat) : State :=
  match spareCluster s (stackOf (mapEntry s l).phys) with
  | some c =>
    if (mapEntry s l).moving.isSome then s
    else match bindSlabs (modEntry s l fun e => { e with moving := some c }) ((List.range 4).map (4 * c + ·)) with
      | some t => evictCluster (modEntry t l fun e => { e with hold := true }) l
      | none => s
  | none => s

/-- A held cluster that is empty moves (R330). -/
def finishMove (s : State) (l : Nat) : State :=
  match (mapEntry s l).moving with
  | some c =>
    if clusterEmpty s l then
      retireAppend (modEntry s l fun _ => { hold := false, phys := c, moving := none }) 4 (stackOf c) l c
    else s
  | none => s

/-- Every move that can end does. -/
def finishMoves (s : State) : State := (List.range 72).foldl finishMove s

/-- Logical cores of a compute stack that remain in service. -/
def stackCores (s : State) (st : Nat) : Nat := ((List.range 40).filter fun k => inService s (40 * st + k)).length

/-- A compute stack is dropped: its clusters are held, its gangs evicted; its cores pass no further scan (R328, R331). -/
def dropCompute (s : State) (st cause : Nat) : State :=
  if stackDropped s st then s
  else
    let ls := (List.range 72).filter fun l => stackOf (mapEntry s l).phys == st
    let s1 := ls.foldl (fun s l => evictCluster (modEntry s l fun e => { e with hold := true, moving := none }) l) s
    let s2 := retireAppend s1 5 st 0 cause
    (List.range 40).foldl (fun s k => scanResult s (40 * st + k) true) s2

/-- A core retires: it counts as full; its cluster may move, its stack may be dropped (R329 to R331). -/
def retireCore (s : State) (core unit : Nat) : State :=
  let s1 := retireAppend (modCore s core fun c => { c with retired := true, passed := false }) 3 (core / 40) (core % 40) unit
  let s2 := match logicalOf s1 (core / 4) with
    | some l => beginMove s1 l
    | none => s1
  if stackCores s2 (core / 40) < 30 then
    let f := takeFresh s2
    dropCompute f.2 (core / 40) (Config.freeNat f.1 0 % 2 ^ 32)
  else s2

/-- A failed slab half, or the store die under it: a mate for the half, else a whole spare slab, else the core retires (R329). -/
def repairHalf (s : State) (core half unit : Nat) : State :=
  let a := pickSpare s core [half]
  match a.1 with
  | some d => retireAppend (modCore a.2 core fun c => { c with mated := tabPut c.mated half d }) 1 (core / 40) (core % 40) (d % 40 * 256 + half)
  | none =>
    let b := pickSpare a.2 core [0, 1]
    match b.1 with
    | some d => rebind b.2 core d
    | none => retireCore b.2 core unit

/-- The repair that a failed scan asks for (R329, R331). -/
def repairCore (s : State) (core : Nat) (r : ScanResult) : State :=
  match r with
  | .pass => s
  | .halfA => repairHalf s core 0 0
  | .halfB => repairHalf s core 1 1
  | .storeA => repairHalf s core 0 2
  | .storeB => repairHalf s core 1 2
  | .bothHalves => let f := takeFresh s; retireCore f.2 core (Config.freeNat f.1 0 % 4)
  | .frontEnd => retireCore s core 3
  | .dieFault cause => dropCompute s (core / 40) cause.toNat

/-! ## The shepherd (R326, R327) -/

/-- A scan names a slab half as failing, or what no half explains (R329). -/
def namesHalf : ScanResult → Nat → Bool
  | .halfA, h | .storeA, h => h == 0
  | .halfB, h | .storeB, h => h == 1
  | .bothHalves, _ | .dieFault _, _ => true
  | .pass, _ | .frontEnd, _ => false

/-- The slab halves under a core have been scanned with it; those that another core uses have not. -/
def noteHalves (s : State) (core : Nat) (r : ScanResult) : State :=
  (boundHalves s core).foldl (fun s q =>
    if halfUsed s core q then s
    else
      let rest := s.pl.goodHalves.filter (· != q)
      { s with pl := { s.pl with goodHalves := if namesHalf r q.2 then rest else rest ++ [q] } }) s

/-- The scan patterns have run on a core that nothing stands on. -/
def scanCore (s : State) (core : Nat) (r : ScanResult) : State :=
  let s1 := modCore (noteHalves s core r) core fun c => { c with passed := r == .pass }
  repairCore (scanResult s1 core (r != .pass)) core r

/-- A front end has passed: the scan names nothing, or a half, whose place another slab can take (R330). -/
def frontPasses (r : ScanResult) : Bool := [.pass, .halfA, .halfB, .storeA, .storeB].contains r

/-- A core of the package that is not in service is scanned while no core in service is in hand (R326); a fault that no single core
explains drops its stack (R331). -/
def scanSpare (s : State) (core : Nat) (r : ScanResult) : State :=
  if s.pl.cores.any fun p => p.2.draining.isSome then s
  else
    let s1 := modCore (noteHalves s core r) core fun c => { c with passed := frontPasses r }
    let s2 := scanResult s1 core (r != .pass)
    match r with
    | .dieFault cause => dropCompute s2 (core / 40) cause.toNat
    | _ => s2

/-- The drain of a core begins: placement on it stops, and its gangs are marked (R326). -/
def beginDrain (s : State) (core : Nat) : State :=
  (coreGangs s core).foldl (markGang .shepherd) (modCore s core fun c => { c with draining := some s.time })

/-- A core in hand that is no longer in service is passed over (R326). -/
def handOn (s : State) : State :=
  if inService s (dev s).shepCore || !(dev s).shepRun then s else shepherdNext s (dev s).shepCore 0

/-- SHEPHERD_SCAN: the core in hand is drained, then scanned, and repaired where it fails; a spare is scanned while idle. -/
def execShepherdScan (core : Nat) (r : ScanResult) (s : State) : Out :=
  if 320 ≤ core then .next s
  else
    let s0 := handOn (finishMoves s)
    if stackDropped s0 (core / 40) || (coreState s0 core).retired then .next s0
    else if (logicalOf s0 (core / 4)).isNone then .next (if (dev s0).shepRun then scanSpare s0 core r else s0)
    else if core ≠ (dev s0).shepCore then .next s0
    else if (coreState s0 core).draining.isNone && !(dev s0).shepRun then .next s0
    else if (coreGangs s0 core).isEmpty then .next (shepherdNext (scanCore s0 core r) core 0)
    else if (coreState s0 core).draining.isNone then .next (beginDrain s0 core)
    else .next s0

/-- DRAIN_LIMIT in units of global time; 0 is read as 1 µs (R334). -/
def drainUnits (s : State) : Nat := max 1 (dev s).drainLimit * Config.unitsPerUs

/-- SHEPHERD_SKIP: a core that has not drained within DRAIN_LIMIT is skipped, and the shepherd's marks are withdrawn (R327). -/
def execShepherdSkip (core : Nat) (s : State) : Out :=
  match (coreState s core).draining with
  | some t =>
    if decide (t + drainUnits s ≤ s.time) && !(coreGangs s core).isEmpty then
      let s1 := (coreGangs s core).foldl (withdrawMark .shepherd) s
      .next (shepherdNext s1 core 1)
    else .next s
  | none => .next s

end Sys2Proof.Machine
end

