-- ==== Sys2Proof/Machine/Power.lean ====
section
/-! DEFINITION. Clocks, power, ballast, boost leases and heat: what the part's controllers do in time (R339, R341, R343 to R346,
R348, R349). -/
namespace Sys2Proof.Machine

/-! ## Clocks (R337 to R339) -/

/-- CLOCK_CHANGE: the bin and the ratio that a cluster is to run at come into use, and its new clock is not yet stable. -/
def execClockChange (cluster : Nat) (s : State) : Out :=
  let r := clusterRegs s cluster
  let b := BitVec.ofNat 3 (wantBin s cluster)
  if 80 ≤ cluster || (r.binCur == b && r.ratioCur == wantRatio s cluster) then .next s
  else .next (modCluster s cluster fun r => { r with binCur := b, ratioCur := wantRatio s cluster, changing := true })

/-- CLOCK_STABLE: the cluster leaves the lower of its old and new clocks. -/
def execClockStable (cluster : Nat) (s : State) : Out :=
  if (clusterRegs s cluster).changing then .next (modCluster s cluster fun r => { r with changing := false }) else .next s

/-! ## The power controller (R341, R343) -/

/-- Ballast gangs are those of queues 0 and 1. -/
def isBallast (p : Nat × Gang) : Bool := decide (p.2.queue < 2)

/-- The steps of the controller: marking, refusing grants, two codes of POWER, seven bins. -/
def powerSteps : Nat := 11

/-- POWER of every cluster follows the controller's step. -/
def setPower (s : State) : State :=
  (List.range 80).foldl (fun s c =>
    if (clusterRegs s c).passPower.toNat = powerCode s then s
    else modCluster s c fun r => { r with passPower := BitVec.ofNat 2 (powerCode s) }) s

/-- The controller stands at another step. -/
def withStep (s : State) (k : Nat) : State := setPower { s with pl := { s.pl with powerStep := k } }

/-- One window over the limit takes one step; one window 5 % below it undoes one (R341). -/
def limitPower (s : State) (mW : Nat) : State :=
  let k := s.pl.powerStep
  if (dev s).pkgLimit * 1000 < mW then
    let s1 := if k = 0 then markAll .power s isBallast else s
    if k < powerSteps then withStep s1 (k + 1) else s1
  else if mW ≤ (dev s).pkgLimit * 950 ∧ 0 < k then
    let s1 := if k = 1 then (s.wk.gangs.map Prod.fst).foldl (withdrawMark .power) s else s
    withStep s1 (k - 1)
  else s

/-- The most recently placed ballast gang that is not marked. -/
def lastBallast (s : State) : Option Nat :=
  ((s.wk.gangs.filter fun p => isBallast p && p.2.state == .resident && !p.2.marked).foldl
    (fun (best : Option (Nat × Nat)) (p : Nat × Gang) => match best with
      | some b => if b.2 < p.2.age then some (p.1, p.2.age) else best
      | none => some (p.1, p.2.age)) none).map Prod.fst

/-- What the controller does with ballast at the end of a window of mean `mW` (R343). -/
def ballastWindow (s : State) (mW : Nat) : State :=
  let sp := (dev s).setpoint * 1000
  let band := (dev s).band * 1000
  let ballastSet := fun (s : State) (b : Bool) => { s with pl := { s.pl with ballast := b } }
  if sp = 0 then markAll .other (ballastSet s false) isBallast
  else if mW + band < sp then ballastSet s true
  else if mW ≤ sp then ballastSet s false
  else match lastBallast s with
    | some n => markGang .other (ballastSet s false) n
    | none => ballastSet s false

/-- POWER_WINDOW_END: a window of 100 µs has ended with a mean power. -/
def execPowerWindowEnd (mW : Nat) (s : State) : Out :=
  if s.time < s.pl.windowEnd then .next s
  else
    let s1 := { s with pl := { s.pl with windowEnd := s.pl.windowEnd + Config.powerWindowUnits } }
    .next (ballastWindow (limitPower (modDev s1 fun r => { r with pkgPower := mW % 2 ^ 32 }) mW) mW)

/-! ## Boost (R344, R345) -/

/-- BOOST_LEASE_END: a lease of a context on a cluster has reached its end time. -/
def execBoostLeaseEnd (ctx cluster : Nat) (s : State) : Out :=
  .next { s with pl := { s.pl with leases := s.pl.leases.filter fun l =>
    !(l.ctx == ctx && l.cluster == cluster && decide (l.stop ≤ s.time)) } }

/-- One millisecond of global time. -/
def refillUnits : Nat := 1000 * Config.unitsPerUs

/-- BOOST_REFILL: REFILL µs join the pool, up to CAP ms. -/
def execBoostRefill (s : State) : Out :=
  if s.time < s.pl.refillAt then .next s
  else
    let s1 := { s with pl := { s.pl with refillAt := s.pl.refillAt + refillUnits } }
    .next (modDev s1 fun r => { r with pool := if r.pool < r.cap * 1000 then min (r.cap * 1000) (r.pool + r.refill) else r.pool })

/-! ## Heat (R348, R349) -/

/-- Degrees in the units of TEMP. -/
def degrees (n : Nat) : Int := 16 * n

/-- The highest of a list of points that holds: one that TEMP has reached, or that held before and that TEMP has not fallen a
margin below. Points are numbered from 1. -/
def pointHeld (pts : List Nat) (margin old : Nat) (t : Int) : Nat :=
  (List.range pts.length).foldl (fun m k =>
    let p := degrees ((pts[k]?).getD 0)
    if p ≤ t ∨ (k + 1 ≤ old ∧ p - degrees margin < t) then k + 1 else m) 0

/-- The hottest die of a compute stack that has been read, with the sensor's value. -/
def hottest (s : State) (st : Nat) : BitVec 16 :=
  ((List.range 3).filterMap fun d => tabGet (dev s).therm (3 * st + d)).foldl
    (fun m v => if m.slt v then v else m) (BitVec.ofNat 16 0x8000)

/-- The TEMP of a sensor is read. -/
def readSensor (s : State) (n : Nat) (t : BitVec 16) : State := modDev s fun r => { r with therm := tabPut r.therm n t }

/-- Package power is removed: all state is lost but the retirement record, which records the event (R348). The events still
to come from outside are kept; the manual gives the entry no kind (DESIGN CHOICE, log 7). -/
def powerOff (s : State) (sensor : Nat) : State :=
  let e : Retire := { kind := 8 + Config.freeNat s.fresh 0 % 248, stack := sensor / 3, pos := 0, detail := 0, time := s.time }
  { State.reset with
    fresh := s.fresh + 1
    agenda := s.agenda
    pl := { Plant.reset with retireLog := s.pl.retireLog ++ [e] } }

/-- A compute stack comes to a state: THERM of its clusters, and THERM_STOP with its marks and notice. -/
def setStack (s : State) (st old new : Nat) (t : BitVec 16) : State :=
  let bit := BitVec.ofNat 8 (2 ^ st)
  let s1 := (List.range 10).foldl (fun s k => modCluster s (10 * st + k) fun r => { r with passTherm := BitVec.ofNat 2 (min 2 new) }) s
  let s2 := { s1 with pl := { s1.pl with
    thermStop := if new = 3 then s1.pl.thermStop ||| bit else s1.pl.thermStop &&& ~~~bit } }
  if new = 3 ∧ old ≠ 3 then
    let s3 := markAll .other s2 fun p => stackOf (physCluster s2 (clusterOf p.2)) == st
    giveNotice s3 3 none 0 (t.toNat * 65536 + st) []
  else s2

/-- COMPUTE_THERMAL_POINT: a sensor of a compute die reads a temperature, and its stack acts on its hottest die. -/
def execComputeThermalPoint (sensor : Nat) (temp : BitVec 16) (s : State) : Out :=
  if 24 ≤ sensor then .next s
  else
    let st := sensor / 3
    let s1 := readSensor s sensor temp
    let t := hottest s1 st
    if degrees 135 ≤ t.toInt then .next (powerOff s1 sensor)
    else
      let old := computeState s st
      let new := pointHeld [112, 118, 125] 3 old t.toInt
      .next (if new = old then s1 else setStack s1 st old new t)

/-! ## Monitors that were held -/

/-- The line of the location that a group's wait, or a WAITEXT node, watches. -/
def watchedLine (w : Option Wait) : Option Nat :=
  match w with
  | some { kind := .mwait addr _ _ _, satAt := none, .. } => some (addr / 32)
  | _ => none

/-- The lines that monitors watch. -/
def watchedLines (s : State) : List Nat :=
  let ws : List Nat := s.wk.gangs.flatMap fun p => p.2.teams.flatMap fun t => t.groups.filterMap fun x => watchedLine x.wait
  let ns : List Nat := s.wk.replays.flatMap fun p => p.2.nodes.filterMap fun n =>
    if n.kind = 7 && n.state == .started && n.doneAt.isNone then some (n.status / 32) else none
  (ws ++ ns).eraseDups

/-- The monitors on a line take their held read now: the value visible, then each write placed and not yet visible. -/
def rearmLine (s : State) (line : Nat) : State :=
  let s1 := wakeMonitors s line s.time fun r => lineView s line r
  (homeOf s line).writes.foldl (fun s1 w => wakeMonitors s1 line w.done fun r => lineView { s with time := max s.time w.done } line r) s1

/-- The monitors on lines that nothing holds any longer take their reads. -/
def rearm (s : State) (p : Nat → Bool) : State := ((watchedLines s).filter p).foldl rearmLine s

/-- MEMORY_THERMAL_POINT: a memory stack reads a temperature, and comes to its state and refresh mode. Accesses held at 105 °C
are performed when the state leaves 4. -/
def execMemoryThermalPoint (stack : Nat) (temp : BitVec 16) (s : State) : Out :=
  if 16 ≤ stack then .next s
  else
    let s1 := readSensor s (24 + stack) temp
    let old := memStackState s stack
    let new := pointHeld [85, 95, 100, 105] 2 old temp.toInt
    let s2 := { s1 with pl := { s1.pl with memState := tabPut s1.pl.memState stack new } }
    if new = 4 ∧ old ≠ 4 then .next (giveNotice s2 4 none 0 (temp.toNat * 65536 + stack) [])
    else if old = 4 ∧ new ≠ 4 then
      .next (rearm (releaseHeld s2) fun (l : Nat) => !isRemote s2 (32 * l) && stackAt (localOf (32 * l)) == stack)
    else .next s2

end Sys2Proof.Machine
end

