-- ==== Sys2Proof/Machine/Fabric.lean ====
section
/-! DEFINITION. What lies outside the package: the host's writes (R352), page migration (R182), the domain bound (R347), links and
peers (R290, R304, R355, R356), and the boot (R360). -/
namespace Sys2Proof.Machine

/-! ## Writes from outside (R352, R355) -/

/-- A run of bytes that an agent outside the package writes at a local address; where it changes page tables, system software does
(R117). -/
def outsideWrite (s : State) (loc : Nat) (bs : List Byte) : State :=
  (sysWriteAt (noteChanges s (ownPhys s loc) bs) loc bs).1

/-- A run of local addresses lies in DRAM that the package still has. -/
def hostReaches (s : State) (loc n : Nat) : Bool :=
  decide (loc + n ≤ Config.dramBytes) &&
  (List.range ((loc % 65536 + n + 65535) / 65536)).all fun k => !s.mm.dropped.getLsbD ((loc / 65536 + k) % 16)

/-- HOST_MEM_WRITE: a CXL.mem write of the host to device memory. -/
def execHostMemWrite (addr : Nat) (bytes : List Byte) (s : State) : Out :=
  if hostReaches s addr bytes.length then .next (outsideWrite s addr bytes) else .next s

/-- A read by another package, or a maintenance instruction of one, waits at the home of its line (R177, R182, R349). -/
def outsideWaits (s : State) (pa : Nat) : Bool := engineHolds s (pa / 32) || hotAt s pa || publishHeld s (pa / 32) none

/-- A read by another package: it forces a publish as an acquiring read does, or is granted a lease; which, and of which
class, the package that asks has chosen. -/
def remoteRead (s : State) (loc : Nat) : State :=
  let f := takeFresh s
  let line := ownPhys s loc / 32
  let k := Config.freeNat f.1 0 % 4
  if outsideWaits s (ownPhys s loc) then s
  else if sweptAt f.2 (ownPhys s loc) then f.2
  else if k = 0 then (forcedPublish f.2 line none).1
  else if (narrowBytes s line).isEmpty then (grantLease f.2 line (Config.leaseUnits (k - 1))).1
  else f.2

/-- An atomic of another package on a word of this one, which forces a publish: its scope is beyond the team (R144, R146). -/
def remoteAtom (s : State) (loc : Nat) (x : Bool) (op : Nat) (y z : Word) : State :=
  let pa := ownPhys s loc
  let mt := if sweptAt s pa then 1 else 0
  if execFrame s pa then s
  else if homeHolds s pa then
    holdWrite s { ctx := noCtx, va := 0, pa := pa, op := .atom op x y z none, who := none, core := 4096, id := 0, mtype := mt }
  else
    let s1 := noteChanges (forcedPublish s (pa / 32) none).1 pa (natLE 4 (atomNew x op (atomOld s mt pa none) y z).toNat)
    (performAtom s1 mt pa x op y z none 4096).1

/-- CCLEAN, CINV or CCLINV of another package on a line of NORMAL memory of this one (R151, R355). -/
def remoteMaintain (s : State) (loc : Nat) (clean discard : Bool) : State :=
  let line := ownPhys s loc / 32
  if outsideWaits s (ownPhys s loc) || sweptAt s (ownPhys s loc) || (discard && execFrame s (ownPhys s loc)) ||
      (s.mm.narrow.any fun n => n.line == line && narrowHeld s n) || (stashAt s line).elim false fun q => stashHeld s q.1 q.2.1 then s
  else
    let s1 := if clean then (cleanLine s line).1 else s
    if discard then (invLine s1 line).1 else s1

/-- The monitor of a package is no longer armed: a group waits at most once, and a package names its waits by their addresses. -/
def disarm (s : State) (pkg pa : Nat) : State :=
  modMm s fun m => { m with monitors := m.monitors.filter fun k => k.pkg ≠ pkg || k.addr ≠ pa }

/-- MWAIT of another package on a word of this one: a forced publish beyond team scope; where the value does not satisfy it, its monitor
is armed (R149, R355). -/
def remoteMonitor (s : State) (pkg loc : Nat) (c : WCond) (y : Nat) (scope : BitVec 2) : State :=
  let pa := ownPhys s loc
  let swept := sweptAt s pa
  if outsideWaits s pa then s
  else
    let s1 := if scope = 0 || swept then s else (forcedPublish s (pa / 32) none).1
    let v := leNat (if swept then dramRead s1 pa (condBytes c) else homeRead s1 pa (condBytes c) none)
    if condHolds c v y then s1
    else modMm (disarm s1 pkg pa) fun m =>
      { m with monitors := m.monitors ++ [{ pkg := pkg, addr := pa, cond := c, y := y, scope := scope }] }

/-- REMOTE_ACCESS: an access of another package of the domain is served at this package's home, or at its registers. -/
def execRemoteAccess (pkg addr : Nat) (op : RemoteOp) (s : State) : Out :=
  if pkg = ownPkg s || !present s pkg || recovering s pkg then .next s
  else match op with
    | .load w => if hostReaches s addr w then .next (remoteRead s addr) else .next s
    | .store bs =>
      if inWindow addr then
        if addr < Config.localBytes && addr % bs.length = 0 && deviceWidthOk addr bs.length then
          .next (windowWrite s (addr - Config.windowBase) bs.length (leNat bs))
        else .next s
      else if hostReaches s addr bs.length then .next (outsideWrite s addr bs) else .next s
    | .atom x o y z => if hostReaches s addr 4 && addr % 4 == 0 then .next (remoteAtom s addr x o y z) else .next s
    | .maintain c d => if hostReaches s addr 1 then .next (remoteMaintain s addr c d) else .next s
    | .monitor c y sc =>
      if hostReaches s addr 8 && addr % condBytes (condOf c) == 0 then .next (remoteMonitor s pkg addr (condOf c) y sc) else .next s
    | .disarm => .next (disarm s pkg (ownPhys s addr))

/-! ## Page migration (R136, R182) -/

/-- A physical address lies in a page. -/
def inPage (base size pa : Nat) : Bool := decide (base ≤ pa) && decide (pa < base + size)

/-- A live registration has a row on a page (R136). -/
def pageSwept (s : State) (base size : Nat) : Bool :=
  (List.range (size / Config.rowBytes)).any fun k =>
    let loc := localOf base + k * Config.rowBytes
    !(queueOf s (channelAt loc) (ordinalAt loc)).isEmpty

/-- Narrow and stash lines of a page are written back (R182). -/
def flushPage (s : State) (base size : Nat) : State :=
  let s1 := (publishWhere s fun n => inPage base size (32 * n.line)).1
  ((allStash s1).filter fun p => decide (p.2.addr < base + size) && decide (base < p.2.addr + 4096)).foldl
    (fun s p => (flushStash s p.1 p.2).1) s1

/-- The homes of a page hold no write that is not yet visible, and no lease that has not run out. -/
def pageQuiet (s : State) (base size : Nat) : Bool :=
  s.mm.homes.all fun p => !inPage base size (32 * p.1) ||
    ((homeOf s p.1).writes.isEmpty && decide ((homeOf s p.1).last ≤ s.time) && decide ((homeOf s p.1).lease ≤ s.time))

/-- A page has no byte that only its holder sees, provisional lines apart: they go with the page (R182, R316). -/
def pagePlain (s : State) (base size : Nat) : Bool :=
  !(s.mm.narrow.any fun n => inPage base size (32 * n.line)) &&
  !((allStash s).any fun p => decide (p.2.addr < base + size) && decide (base < p.2.addr + 4096) && p.2.dirty != 0)

/-- The bytes of a page are copied to another frame, with the errors they carry. -/
def copyPage (s : State) (l : Leaf) (src dst : Nat) : State :=
  let bs := if l.mtype = 1 then dramRead s src l.size else homeBytes s none src l.size
  let bad := (s.mm.poison.filter fun w => inPage src l.size (4 * w)).map fun w => (4 * w - src + dst) / 4
  let s1 := if l.mtype = 1 then dramWrite s dst bs else (placeBytes s dst bs none).1
  modMm s1 fun m => { m with poison := m.poison ++ bad.filter fun w => !m.poison.contains w }

/-- The leaf names its new frame, and its lock is cleared. -/
def switchLeaf (s : State) (pte dst : Nat) : State :=
  let e := homeNat s pte 8
  let e' := e - bitsOf e 56 16 * 2 ^ 16 - bitsOf e 12 12 * 2 ^ 12 + dst / 2 ^ 16 * 2 ^ 16
  (orderWrite s (pte / 32) ((List.range 8).zip (natLE 8 e') |>.map fun p => (pte % 32 + p.1, p.2)) none 0 true).1

/-- A physical address of a page, in the page's new frame. -/
def movedTo (src dst size pa : Nat) : Nat := if inPage src size pa then pa - src + dst else pa

/-- A wait whose monitor stands on the page watches the new frame. -/
def movedWait (src dst size : Nat) (w : Wait) : Wait :=
  match w.kind with
  | .mwait a c y sc => { w with kind := .mwait (movedTo src dst size a) c y sc }
  | _ => w

/-- What of a context names a page by its frame goes to the new frame: provisional lines, stash mappings, armed monitors, reads not yet
served, and the lines that a copy engine still owns (R122, R149, R177, R182, R316). -/
def followPage (s0 : State) (ctx src dst size : Nat) : State :=
  let s := modMm s0 fun m => { m with provisional := m.provisional.map fun p => { p with line := movedTo src dst size (32 * p.line) / 32 } }
  let mv := movedTo src dst size
  let line := fun (l : Nat) => mv (32 * l) / 32
  let engine := fun (e : Engine) => { e with flight := e.flight.map fun f => { f with owned := f.owned.map line } }
  let group := fun (x : Group) =>
    { x with
      wait := x.wait.map (movedWait src dst size)
      loads := x.loads.map fun p => { p with todo := p.todo.map fun r => { r with pa := mv r.pa } } }
  modWk s fun w => { w with
    gangs := w.gangs.map fun p =>
      if p.2.ctx ≠ ctx then p
      else (p.1, { p.2 with teams := p.2.teams.map fun t =>
        { t with
          groups := t.groups.map group
          engine := engine t.engine
          stash := t.stash.map fun m => { m with addr := mv m.addr } } })
    replays := w.replays.map fun p =>
      if p.2.ctx ≠ ctx then p
      else (p.1, { p.2 with nodes := p.2.nodes.map fun n =>
        { n with engine := engine n.engine, status := if n.kind = 7 then mv n.status else n.status } }) }

/-- PAGE_MIGRATION: of the locked page at a virtual address to a frame, by number. The narrow and stash lines of the page are
written back first; once both frames are quiet the page is copied, the leaf switched and its translations invalidated, and the held
writes are placed. -/
def execPageMigration (ctx va frame : Nat) (s : State) : Out :=
  match translate s ctx va with
  | none => .next s
  | some l =>
    let src := l.pa - va % l.size
    let dst := ownPhys s (frame * 65536)
    if !l.mlock || l.mtype == 2 || isRemote s l.pa || dst % l.size != 0 || !hostReaches s (frame * 65536) l.size || pageSwept s src l.size ||
        (List.range (l.size / 65536)).any (fun k => execFrame s (dst + 65536 * k) || hotAt s (src + 65536 * k) || hotAt s (dst + 65536 * k)) then
      .next s
    else
      let s1 := flushPage s src l.size
      if pageQuiet s1 src l.size && pageQuiet s1 dst l.size && pagePlain s1 src l.size then
        let s2 := endInvalidation (switchLeaf (followPage (copyPage s1 l src dst) ctx src dst l.size) l.at_ dst) ctx (if l.size = 65536 then 0 else if l.size = 2 ^ 21 then 5 else 14)
          (va / l.size * l.size / 65536)
        .next (rearm (releaseHeld s2) fun k => inPage dst l.size (32 * k))
      else .next s1

/-! ## Ports and recovery (R347, R356) -/

/-- FABRIC_PORT_CHANGE: a port stops or starts carrying flits. Which peers lose or regain a route by it is given apart. -/
def execFabricPortChange (port : Nat) (up : Bool) (s : State) : Out :=
  let bit := BitVec.ofNat 18 (2 ^ port)
  .next (modDev s fun r => { r with linkUp := if up then r.linkUp ||| bit else r.linkUp &&& ~~~bit })

/-- The state with its table of peers changed. -/
def modPeers (s : State) (f : Table Peer → Table Peer) : State := { s with pl := { s.pl with peers := f s.pl.peers } }

/-- When the present episode of recovery of a peer began, where it is in recovery. -/
def episodeStart (s : State) (c : Nat) : Option Nat :=
  if c = ownCoord s then none
  else match tabGet s.pl.peers c with
    | some p => some p.since
    | none => if (dev s).sync then none else some (dev s).syncSince

/-- LINK_RECOVERY_START: no route to a peer, by its coordinate, carries flits. -/
def execLinkRecoveryStart (coord : Nat) (s : State) : Out :=
  if coord = ownCoord s || !coordPresent s coord then .next s
  else match tabGet s.pl.peers coord with
    | some p => .next (modPeers s fun t => tabPut t coord { p with link := true })
    | none =>
      .next (modPeers s fun t => tabPut t coord { since := (episodeStart s coord).getD s.time, unreachable := false, link := true })

/-- Since when the watchdog of a group's wait stands still: the earliest start of a recovery of a peer it depends on (R290). -/
def pausedSince (s : State) (x : Group) (w : Wait) : Option Nat :=
  (waitPeers s x w).foldl (fun best p => match best, episodeStart s (coordOf s p) with
    | some a, some b => some (min a b)
    | none, b => b
    | a, none => a) none

/-- The watchdog of a wait that stood still before a change and goes on after it, or stands still from later on, keeps what it stood still
for (R290). -/
def pauseWait (before after : State) (x : Group) : Group :=
  match x.wait with
  | some w => match pausedSince before x w with
    | some t =>
      { x with wait := some { w with paused := w.paused + ((pausedSince after x w).getD after.time - max w.began t) } }
    | none => x
  | none => x

/-- The recovery of a peer has ended: the watchdogs that stood still go on (R290). -/
def resumeWaits (before after : State) : State :=
  modWk after fun w => { w with gangs := w.gangs.map fun p =>
    if p.2.state ≠ .resident then p
    else (p.1, { p.2 with teams := p.2.teams.map fun t => { t with groups := t.groups.map (pauseWait before after) } }) }

/-- The coordinates of the peers on which waits depend. -/
def waitedPeers (s : State) : List Nat :=
  (s.wk.gangs.flatMap fun p => p.2.teams.flatMap fun t => t.groups.flatMap fun x =>
    (x.wait.elim [] (waitPeers s x)).map (coordOf s)).eraseDups

/-- Held accesses to packages that are no longer in recovery proceed. -/
def proceed (s : State) : State := rearm (releaseHeld s) fun l => isRemote s (32 * l) && !recovering s (pkgOf (32 * l))

/-- LINK_ROUTE_RETURN: a route to a peer carries flits again. Outside the domain bound the peer stays in recovery. -/
def execLinkRouteReturn (coord : Nat) (s : State) : Out :=
  match tabGet s.pl.peers coord with
  | some p =>
    if !p.link then .next s
    else if (dev s).sync then .next (proceed (resumeWaits s (modPeers s fun t => tabDel t coord)))
    else .next (modPeers s fun t => tabPut t coord { p with link := false })
  | none => .next s

/-- The package is alone in its domain. -/
def aloneInDomain (s : State) : Bool := (List.range (2 ^ 14)).all fun p => p == ownPkg s || !present s p

/-- DOMAIN_BOUND_CHANGE: the package gains or loses the domain bound; without it, it is in recovery to every other package. A package alone
in its domain holds it from the time that global time has been disciplined, and none gains or loses it before (R347). -/
def execDomainBoundChange (sync : Bool) (s : State) : Out :=
  if (dev s).bootStage ≠ 0xFFFF || (dev s).sync == sync || aloneInDomain s then .next s
  else if !sync then .next (modDev s fun r => { r with sync := false, syncSince := s.time })
  else .next (proceed (resumeWaits s (modDev (modPeers s fun t => t.filter fun p => p.2.link) fun r => { r with sync := true })))

/-! ## Unreachable peers (R247, R290, R304, R356) -/

/-- Every group of every gang. -/
def allGroups (s : State) : List (GRef × Group) :=
  s.wk.gangs.flatMap fun p => (List.range p.2.teams.length).flatMap fun t => match p.2.teams[t]? with
    | some tm => (List.range tm.groups.length).filterMap fun n =>
        (tm.groups[n]?).map fun x => (({ gang := p.1, team := t, grp := n } : GRef), x)
    | none => []

/-- One of some package numbers names the peer at a coordinate. -/
def isPeer (s : State) (c : Nat) (ps : List Nat) : Bool := ps.any fun k => coordOf s k == c

/-- A group has a load, a write or a wait outstanding to a peer. -/
def dependsOn (s : State) (c : Nat) (x : Group) : Bool :=
  (x.loads.any fun p => isPeer s c p.remote) || (x.stores.any fun p => isPeer s c p.remote) ||
  (!x.retired && !x.halted && isPeer s c (x.wait.elim [] (waitPeers s x)))

/-- A group's accesses to a peer end: its loads leave their destinations as they are; a store goes on where it waits for another package
or is still held elsewhere. -/
def cutGroup (s : State) (c : Nat) (x : Group) : Group :=
  freeBlocks { x with
    loads := x.loads.filter fun p => !isPeer s c p.remote
    stores := (x.stores.map fun p => { p with remote := p.remote.filter fun k => coordOf s k ≠ c }).zip x.stores |>.filterMap fun p =>
      if isPeer s c p.2.remote && p.1.remote.isEmpty && p.1.holds == 0 then none else some p.1 }

/-- A held write to a peer is performed whole, or not at all; a counter that it keeps raised, and a ladder, are told, and an engine that
issued it sets REMOTE. -/
def cutHeld (c : Nat) (s : State) (h : Held) : State :=
  if isRemote s h.pa && coordOf s (pkgOf h.pa) == c then
    let f := takeFresh s
    let s1 := if Config.freeBit f.1 0 then
        match h.op with
        | .store bs => (placeBytes f.2 h.pa bs h.who).1
        | .narrow _ bs => (placeBytes f.2 h.pa bs h.who).1
        | .atom op x y z _ => (placeBytes f.2 h.pa (natLE 4 (atomNew x op (atomOld f.2 0 h.pa h.who) y z).toNat) h.who).1
      else f.2
    let s2 := match h.who with
      | some _ => settlePend s1 h.who h.id s1.time none
      | none => settleCmd (settleLadders s1 h.id s1.time) h.id s1.time
    (allEngines s2).foldl (fun s e => match e.2.flight.find? fun q => q.id == h.id with
      | some q => raiseEngine s e.1 q.pub cRemote none
      | none => s) s2
  else modMm s fun m => { m with held := m.held ++ [h] }

/-- A node that waits on a peer fails with reason 2 (R304). -/
def cutNode (s : State) (c : Nat) (x : NodeInst) : NodeInst :=
  let fails := x.state == .started && x.doneAt.isNone && x.reason.isNone &&
    ((x.kind == 7 && isRemote s x.status && coordOf s (pkgOf x.status) == c) ||
     (s.mm.held.any fun h => h.who.isNone && isRemote s h.pa && coordOf s (pkgOf h.pa) == c &&
       ((x.kind == 8 && h.id == x.status) || x.stampsHeld.contains h.id)))
  if fails then { x with reason := some 2, peer := c } else x

/-- Every access to a peer that is outstanding ends (R356), with the waits, the CPCs, the signals and the nodes that depend on
it. -/
def cutPeer (s : State) (c : Nat) : State :=
  let s1 := modWk s fun w => { w with replays := w.replays.map fun p => (p.1, { p.2 with nodes := p.2.nodes.map (cutNode s c) }) }
  let s2 := s1.mm.held.foldl (cutHeld c) (modMm s1 fun m => { m with held := [] })
  let gs := (allGroups s2).filter fun p => dependsOn s2 c p.2
  let s3 := gs.foldl (fun s p => raiseLate (modGroup s p.1 (cutGroup s2 c)) p.1 cRemote) s2
  let s4 := (allEngines s3).foldl (fun s p =>
    (p.2.flight.filter fun f => cpcWaits f && cpcPeer f.ent == c).foldl (fun s f => failCpc s p.1 f stAbort cRemote) s) s3
  let out := s4.pl.signals.filter fun h => isOutgoing s4 h && h.coord.toNat == c
  let s5 := { s4 with pl := { s4.pl with signals := s4.pl.signals.filter fun h => !(isOutgoing s4 h && h.coord.toNat == c) } }
  out.foldl failSignal s5

/-- The coordinates of the peers that something of this package depends on: waits, outstanding loads and writes, WAITEXT and SIGNAL
nodes, and collectives (R290, R304, R356). -/
def dependedPeers (s : State) : List Nat :=
  let accesses := (allGroups s).flatMap fun p => p.2.loads.flatMap PendLoad.remote ++ p.2.stores.flatMap PendStore.remote
  let writes := s.mm.held.filterMap fun h => if isRemote s h.pa then some (pkgOf h.pa) else none
  let nodes := s.wk.replays.flatMap fun p => p.2.nodes.filterMap fun n =>
    if n.kind = 7 && n.state == .started && n.doneAt.isNone && isRemote s n.status then some (pkgOf n.status) else none
  let sent := (s.pl.signals.filter fun h => isOutgoing s h).map fun h => h.coord.toNat
  let joint := (allEngines s).flatMap fun e => (e.2.flight.filter cpcWaits).map fun f => cpcPeer f.ent
  (waitedPeers s ++ (accesses ++ writes ++ nodes).map (coordOf s) ++ sent ++ joint).eraseDups

/-- RECOVERY_LIMIT in units of global time. -/
def recoveryUnits (s : State) : Nat := (dev s).recoveryLimit * Config.unitsPerUs

/-- PEER_UNREACHABLE: an episode of recovery has reached RECOVERY_LIMIT; a notice is given. -/
def execPeerUnreachable (coord : Nat) (s : State) : Out :=
  match episodeStart s coord with
  | none => .next s
  | some t =>
    let link := (tabGet s.pl.peers coord).elim false Peer.link
    if s.time < t + recoveryUnits s || coordUnreachable s coord || !coordPresent s coord then .next s
    else
      let s1 := modPeers s fun q => tabPut q coord { since := t, unreachable := true, link := link }
      .next (giveNotice (cutPeer s1 coord) 6 none 0 coord [])

/-! ## Boot (R360) -/

/-- The physical clusters of the configuration record: free, but for the limits of R313; where they break them, the map that
R313 gives (DESIGN CHOICE, log 7). -/
def configMap (k : Nat) : List Nat :=
  let ps := (List.range 72).map fun l => Config.freeNat k l % 80
  if ps.Nodup then ps else (List.range 72).map fun l => 10 * (l / 9) + l % 9

/-- One entry of the retirement record is applied (R333). -/
def applyRetire (s : State) (e : Retire) : State :=
  let core := 40 * e.stack + e.pos
  match e.kind with
  | 1 => modCore s core fun c => { c with mated := tabPut c.mated (e.detail % 2) (40 * e.stack + e.detail / 256 % 256) }
  | 2 => modCore s core fun c => { c with slab := 40 * e.stack + e.detail, mated := [] }
  | 3 => modCore s core fun c => { c with retired := true }
  | 4 => modEntry s e.pos fun m => { m with phys := e.detail }
  | 5 => modDev s fun r => { r with clusterMap := r.clusterMap.map fun m => if stackOf m.phys = e.stack then { m with hold := true } else m }
  | 6 => modMm s fun m => { m with dropped := m.dropped ||| BitVec.ofNat 16 (2 ^ e.stack) }
  | _ => s

/-- The stage at which an error stops the boot (R360, R362): the checks of the images at 2, the record at 3, time and link at
4. -/
def bootStop (e : Nat) : Nat := if e ≤ 3 then 2 else if e = 4 then 3 else 4

/-- The boot succeeds: the configuration record, the retirement record, global time and the links. -/
def bootReady (s : State) (k : Nat) : State :=
  let t := s.time + Config.freeNat k 100
  let s1 := modDev s fun r =>
    { r with
      clusterMap := (configMap k).map fun p => { hold := false, phys := p, moving := none }
      coordRow := Config.freeNat k 101 % 512
      coordCol := Config.freeNat k 102 % 1024
      linkUp := BitVec.ofNat 18 (Config.freeNat k 103)
      repairSeq := s.pl.retireLog.length
      syncSince := t
      bootStage := 0xFFFF }
  let s2 := s1.pl.retireLog.foldl applyRetire s1
  let s3 := modDev s2 fun r => { r with sync := aloneInDomain s2, shepCore := (nextCore s2 320).1 }
  { s3 with time := t, pl := { s3.pl with windowEnd := t + Config.powerWindowUnits, refillAt := t + refillUnits } }

/-- The check of the boot that fails, if any: it is left open (DESIGN CHOICE, log 7); an empty record has no signature to fail (R360). -/
def bootError (s : State) (k : Nat) : Nat :=
  let e := Config.freeNat k 127 % 7
  if e = 4 && s.pl.retireLog.isEmpty then 0 else e

/-- BOOT: the management controller boots the part once. -/
def execBoot (s : State) : Out :=
  if (dev s).bootStage ≠ 0 then .next s
  else
    let f := takeFresh s
    let e := bootError s f.1
    if e = 0 then .next (bootReady f.2 f.1)
    else .next (modDev f.2 fun r => { r with bootStage := bootStop e, bootError := e })

end Sys2Proof.Machine
end

