-- ==== Sys2Proof/Machine/Flags.lean ====
section
/-! DEFINITION. The conditions that fill k registers (R53): integer conditions of 32 and 64 bits, float conditions with
their invalid operations (R74, R102), votes (R98); and the lane operations of LRED and LSCAN (R99). -/
namespace Sys2Proof.Machine

/-- An integer condition of R53. -/
def intCond {n : Nat} (c : Nat) (x y : BitVec n) : Bool :=
  match c with
  | 0 => decide (x = y)
  | 1 => decide (x ≠ y)
  | 2 => x.slt y
  | 3 => x.sle y
  | 4 => y.slt x
  | 5 => y.sle x
  | 6 => x.ult y
  | 7 => x.ule y
  | 8 => y.ult x
  | _ => y.ule x

/-- A float condition of R102 on F32 codes: whether it holds, and whether the comparison was invalid. -/
def fltCond (c : Nat) (x y : Nat) : Bool × Bool :=
  let a := f32.dec x
  let b := f32.dec y
  let un := a.isNaN || b.isNaN
  let sn := a.isSNaN || b.isSNaN
  match c with
  | 0 => (!un && a.eqv b, sn)
  | 1 => (un || !a.eqv b, sn)
  | 2 => (!un && a.lt b, un)
  | 3 => (!un && !b.lt a, un)
  | 4 => (!un && b.lt a, un)
  | 5 => (!un && !a.lt b, un)
  | 6 => (!un, sn)
  | _ => (un, sn)

/-- A vote over the active lanes (R98): ballot, any, all. -/
def vote (kind : Nat) (x : Group) (a : VReg) : Word64 :=
  let nz := (activeLanes x).filter fun i => decide (vGet x a i ≠ 0)
  match kind with
  | 0 => maskOf nz
  | 1 => if nz.isEmpty then 0 else 1
  | _ => if nz.length = (activeLanes x).length then 1 else 0

/-- A lane operation of R53, and whether it was invalid. -/
def redOp (op : Nat) (x y : Word) : Word × Bool :=
  match op with
  | 0 => (x + y, false)
  | 1 => (if x.slt y then x else y, false)
  | 2 => (if x.slt y then y else x, false)
  | 3 => (if x.ult y then x else y, false)
  | 4 => (if x.ult y then y else x, false)
  | 5 => let r := f32.add x.toNat y.toNat; (BitVec.ofNat 32 r.1, r.2)
  | 6 => let r := f32.minMax false x.toNat y.toNat; (BitVec.ofNat 32 r.1, r.2)
  | _ => let r := f32.minMax true x.toNat y.toNat; (BitVec.ofNat 32 r.1, r.2)

/-- Two values of the butterfly, either of them absent (R99). -/
def redPair (op : Nat) (p q : Option Word × Bool) : Option Word × Bool :=
  match p.1, q.1 with
  | none, _ => (q.1, p.2 || q.2)
  | some _, none => (p.1, p.2 || q.2)
  | some x, some y => let r := redOp op x y; (some r.1, r.2 || p.2 || q.2)

/-- One step of the butterfly: neighbours combine. -/
def redRound (op : Nat) : List (Option Word × Bool) → List (Option Word × Bool)
  | p :: q :: r => redPair op p q :: redRound op r
  | r => r

/-- The butterfly of R99 over the lanes in order; six rounds cover 64 lanes. -/
def redTree (op : Nat) : Nat → List (Option Word × Bool) → Option Word × Bool
  | 0, l => (l.head?).getD (none, false)
  | n + 1, l => match l with
    | [] => (none, false)
    | [p] => p
    | p :: q :: r => redTree op n (redRound op (p :: q :: r))

/-- The result of LRED (R99). -/
def lredVal (op : Nat) (x : Group) (a : VReg) : Word × Bool :=
  let r := redTree op 6 ((List.range x.width).map fun i => (if laneIn (active x) i then some (vGet x a i) else none, false))
  (r.1.getD 0, r.2)

/-- The inclusive scan of R100: each active lane's value in rising lane order. -/
def lscanVals (op : Nat) (x : Group) (a : VReg) : List (Nat × Word × Bool) :=
  ((activeLanes x).foldl (fun acc i =>
    let v := vGet x a i
    let r := match acc.2 with
      | none => (v, false)
      | some p => redOp op p v
    ((i, r.1, r.2) :: acc.1, some r.1)) ([], none)).1

/-- The value of a lane in a scan. -/
def scanAt (l : List (Nat × Word × Bool)) (i : Nat) : Word × Bool :=
  match l.find? fun p => p.1 = i with
  | some p => p.2
  | none => (0, false)

end Sys2Proof.Machine
end

