-- ==== Sys2Proof/Machine/FloatOps.lean ====
section
/-! DEFINITION. Floating-point instructions: majors 0x26 to 0x2E (R101 to R106). Only a vector-role group may issue them (R9). -/
namespace Sys2Proof.Machine

/-! ## Majors 0x26 to 0x28 (R101, R102) -/

def execFadd (d a b : VReg) (rt : Route) (s : State) : Out :=
  fltOp s d a b fun x i => f32.add (srcA x rt a i).toNat (srcB x rt b i).toNat
def execFsub (d a b : VReg) (rt : Route) (s : State) : Out :=
  fltOp s d a b fun x i => f32.sub (srcA x rt a i).toNat (srcB x rt b i).toNat
def execFmul (d a b : VReg) (rt : Route) (s : State) : Out :=
  fltOp s d a b fun x i => f32.mul (srcA x rt a i).toNat (srcB x rt b i).toNat
def execFmin (d a b : VReg) (rt : Route) (s : State) : Out :=
  fltOp s d a b fun x i => f32.minMax false (srcA x rt a i).toNat (srcB x rt b i).toNat
def execFmax (d a b : VReg) (rt : Route) (s : State) : Out :=
  fltOp s d a b fun x i => f32.minMax true (srcA x rt a i).toNat (srcB x rt b i).toNat
def execFfma (d a b : VReg) (rt : Route) (s : State) : Out :=
  fltOp s d a b fun x i => f32.fma (srcA x rt a i).toNat (srcB x rt b i).toNat (vGet x d i).toNat
/-- FCPYS: bits [30:0] of x with bit 31 of y; nothing is signalled (R101). -/
def execFcpys (d a b : VReg) (rt : Route) (s : State) : Out :=
  fltOp s d a b fun x i =>
    ((srcA x rt a i).toNat % 2 ^ 31 + (srcB x rt b i).toNat / 2 ^ 31 * 2 ^ 31, false)
def execFdiv (d a b : VReg) (rt : Route) (s : State) : Out :=
  fltOp s d a b fun x i => f32.div (f32.dec (srcA x rt a i).toNat) (f32.dec (srcB x rt b i).toNat)
def execFcmp (k : KReg) (cond : BitVec 4) (a b : VReg) (rt : Route) (s : State) : Out :=
  kOp s true [(a, 1), (b, 1)] k fun x i => fltCond cond.toNat (srcA x rt a i).toNat (srcB x rt b i).toNat

/-! ## Packed halves (R103) -/

/-- Two independent elements of a 16-bit format, the low one first. -/
def packed (f : Nat → Nat → Nat → Nat × Bool) (x y z : Word) : Nat × Bool :=
  let lo := f (x.toNat % 2 ^ 16) (y.toNat % 2 ^ 16) (z.toNat % 2 ^ 16)
  let hi := f (x.toNat / 2 ^ 16) (y.toNat / 2 ^ 16) (z.toNat / 2 ^ 16)
  (lo.1 + 2 ^ 16 * hi.1, lo.2 || hi.2)

/-- A packed instruction (R103): `f` takes the elements of a, of b and of the old destination. -/
def packOp (s : State) (d a b : VReg) (rt : Route) (f : Nat → Nat → Nat → Nat × Bool) : Out :=
  fltOp s d a b fun x i => packed f (srcA x rt a i) (srcB x rt b i) (vGet x d i)

def execHadd2 (d a b : VReg) (rt : Route) (s : State) : Out := packOp s d a b rt fun p q _ => f16.add p q
def execHmul2 (d a b : VReg) (rt : Route) (s : State) : Out := packOp s d a b rt fun p q _ => f16.mul p q
def execHfma2 (d a b : VReg) (rt : Route) (s : State) : Out := packOp s d a b rt fun p q r => f16.fma p q r
def execHmax2 (d a b : VReg) (rt : Route) (s : State) : Out := packOp s d a b rt fun p q _ => f16.minMax true p q
def execBadd2 (d a b : VReg) (rt : Route) (s : State) : Out := packOp s d a b rt fun p q _ => b16.add p q
def execBmul2 (d a b : VReg) (rt : Route) (s : State) : Out := packOp s d a b rt fun p q _ => b16.mul p q
def execBfma2 (d a b : VReg) (rt : Route) (s : State) : Out := packOp s d a b rt fun p q r => b16.fma p q r
def execBmax2 (d a b : VReg) (rt : Route) (s : State) : Out := packOp s d a b rt fun p q _ => b16.minMax true p q

/-! ## Conversion (R104) -/

/-- The format slot of a group's grid (R197). -/
def slotOf (s : State) (g : GRef) (n : Nat) : Slot :=
  Slot.ofWord ((findGang s g.gang).elim 0 fun gg => (gg.launch.slots[n]?).getD 0)

/-- FCVT cannot use a slot of format FX64 or of a reserved format in kinds 8 and 9 (R104). -/
def slotUnusable (kind : Nat) (sl : Slot) : Bool := decide (8 ≤ kind) && (sl.fmt == .fx64 || sl.fmt == .reserved)

def execFcvt (d a : VReg) (kind : BitVec 7) (slot : BitVec 3) (s : State) : Out :=
  onGroup s fun g x =>
    if slotUnusable kind.toNat (slotOf s g slot.toNat) then
      notPerformed s g x (cSlot ||| regCauses x true [(d, 1), (a, 1)])
    else fltOp s d a a fun y i => fcvt kind.toNat (slotOf s g slot.toNat) (vGet y a i).toNat

/-! ## Special functions and FRND (R105, R106) -/

def execFrcp (d a : VReg) (rt : Route) (s : State) : Out := fltOp s d a a fun x i => f32.rcp (srcA x rt a i).toNat
def execFrsq (d a : VReg) (rt : Route) (s : State) : Out := fltOp s d a a fun x i => f32.rsqrt (srcA x rt a i).toNat
def execFsqrt (d a : VReg) (rt : Route) (s : State) : Out := fltOp s d a a fun x i => f32.sqrt (srcA x rt a i).toNat
def execFexp2 (d a : VReg) (rt : Route) (s : State) : Out := fltOp s d a a fun x i => f32.exp2 (srcA x rt a i).toNat
def execFlog2 (d a : VReg) (rt : Route) (s : State) : Out := fltOp s d a a fun x i => f32.log2 (srcA x rt a i).toNat
def execFsin (d a : VReg) (rt : Route) (s : State) : Out := fltOp s d a a fun x i => f32.sin (srcA x rt a i).toNat
def execFcos (d a : VReg) (rt : Route) (s : State) : Out := fltOp s d a a fun x i => f32.cos (srcA x rt a i).toNat
def execFtanh (d a : VReg) (rt : Route) (s : State) : Out := fltOp s d a a fun x i => f32.tanh (srcA x rt a i).toNat
def execFrnd (d a : VReg) (rt : Route) (mode : BitVec 2) (s : State) : Out :=
  fltOp s d a a fun x i => f32.toIntegral (RMode.ofCode mode.toNat) (srcA x rt a i).toNat

end Sys2Proof.Machine
end

