-- ==== Sys2Proof/Machine/Integer.lean ====
section
/-! DEFINITION. Vector integer instructions: majors 0x0C to 0x1B (R87 to R92). -/
namespace Sys2Proof.Machine

/-! ## The functions of R87 to R90 -/

/-- The shift count of R87: y[4:0]. -/
def shCount (y : Word) : Nat := y.toNat % 32
def shlW (x : Word) (c : Nat) : Word := x <<< c
def shrW (x : Word) (c : Nat) : Word := x >>> c
def sarW (x : Word) (c : Nat) : Word := x.sshiftRight c
def rotW (x : Word) (c : Nat) : Word := x.rotateLeft c
/-- A shift or rotation of kind 0 SHL, 1 SHR, 2 SAR, 3 ROT (R87, R92). -/
def shiftKind (k : Nat) (x : Word) (c : Nat) : Word :=
  match k with
  | 0 => shlW x c
  | 1 => shrW x c
  | 2 => sarW x c
  | _ => rotW x c
/-- Bits [63:32] of the signed product (R87). -/
def mulhW (x y : Word) : Word := BitVec.ofInt 32 (x.toInt * y.toInt / (2 ^ 32 : Nat))
/-- The signed product in 64 bits, low word first (R88). -/
def mulWide (x y : Word) : List Word :=
  [BitVec.ofInt 32 (x.toInt * y.toInt), BitVec.ofInt 32 (x.toInt * y.toInt / (2 ^ 32 : Nat))]
/-- The absolute difference of signed words (R88). -/
def absDiff (x y : Word) : Word := BitVec.ofNat 32 (x.toInt - y.toInt).natAbs
/-- Leading zero bits (R89). -/
def clzW (x : Word) : Word := if x = 0 then 32 else BitVec.ofNat 32 (31 - Nat.log2 x.toNat)
/-- Set bits (R89). -/
def popcW (x : Word) : Word := BitVec.ofNat 32 ((List.range 32).filter x.getLsbD).length
/-- Bits in reverse order (R89). -/
def brevW (x : Word) : Word := x.reverse
/-- The absolute value modulo 2^32 (R89). -/
def iabsW (x : Word) : Word := BitVec.ofNat 32 x.toInt.natAbs
/-- The start of a bit field: y[4:0] (R90). -/
def fieldStart (y : Word) : Nat := y.toNat % 32
/-- The mask of min(y[13:8], 32) ones at the start, cut at bit 31 (R90). -/
def fieldMask (y : Word) : Word := BitVec.ofNat 32 ((2 ^ min (bitsOf y.toNat 13 8) 32 - 1) * 2 ^ fieldStart y)
/-- BFX of R90. -/
def bfxW (x y : Word) : Word := (x &&& fieldMask y) >>> fieldStart y
/-- BFI of R90 over the destination's old value. -/
def bfiW (old x y : Word) : Word := (old &&& ~~~fieldMask y) ||| ((x <<< fieldStart y) &&& fieldMask y)

/-! ## Majors 0x0C to 0x0F (R87) -/

def execIadd (d a b : VReg) (rt : Route) (s : State) : Out := intOp s d a b fun x i => srcA x rt a i + srcB x rt b i
def execIsub (d a b : VReg) (rt : Route) (s : State) : Out := intOp s d a b fun x i => srcA x rt a i - srcB x rt b i
def execImul (d a b : VReg) (rt : Route) (s : State) : Out := intOp s d a b fun x i => srcA x rt a i * srcB x rt b i
def execImulh (d a b : VReg) (rt : Route) (s : State) : Out := intOp s d a b fun x i => mulhW (srcA x rt a i) (srcB x rt b i)
def execImin (d a b : VReg) (rt : Route) (s : State) : Out :=
  intOp s d a b fun x i => if (srcA x rt a i).slt (srcB x rt b i) then srcA x rt a i else srcB x rt b i
def execImax (d a b : VReg) (rt : Route) (s : State) : Out :=
  intOp s d a b fun x i => if (srcA x rt a i).slt (srcB x rt b i) then srcB x rt b i else srcA x rt a i
def execIminu (d a b : VReg) (rt : Route) (s : State) : Out :=
  intOp s d a b fun x i => if (srcA x rt a i).ult (srcB x rt b i) then srcA x rt a i else srcB x rt b i
def execImaxu (d a b : VReg) (rt : Route) (s : State) : Out :=
  intOp s d a b fun x i => if (srcA x rt a i).ult (srcB x rt b i) then srcB x rt b i else srcA x rt a i
def execAnd (d a b : VReg) (rt : Route) (s : State) : Out := intOp s d a b fun x i => srcA x rt a i &&& srcB x rt b i
def execOr (d a b : VReg) (rt : Route) (s : State) : Out := intOp s d a b fun x i => srcA x rt a i ||| srcB x rt b i
def execXor (d a b : VReg) (rt : Route) (s : State) : Out := intOp s d a b fun x i => srcA x rt a i ^^^ srcB x rt b i
def execAndn (d a b : VReg) (rt : Route) (s : State) : Out := intOp s d a b fun x i => srcA x rt a i &&& ~~~srcB x rt b i
def execShl (d a b : VReg) (rt : Route) (s : State) : Out :=
  intOp s d a b fun x i => shlW (srcA x rt a i) (shCount (srcB x rt b i))
def execShr (d a b : VReg) (rt : Route) (s : State) : Out :=
  intOp s d a b fun x i => shrW (srcA x rt a i) (shCount (srcB x rt b i))
def execSar (d a b : VReg) (rt : Route) (s : State) : Out :=
  intOp s d a b fun x i => sarW (srcA x rt a i) (shCount (srcB x rt b i))
def execRot (d a b : VReg) (rt : Route) (s : State) : Out :=
  intOp s d a b fun x i => rotW (srcA x rt a i) (shCount (srcB x rt b i))

/-! ## Major 0x10 (R88): IMAD, IMADW and ISAD read d without a route (R46) -/

def execImad (d a b : VReg) (rt : Route) (s : State) : Out :=
  intOp s d a b fun x i => srcA x rt a i * srcB x rt b i + vGet x d i
def execImadw (d a b : VReg) (rt : Route) (s : State) : Out :=
  vecOp s false [(a, 1), (b, 1)] d 2 fun x i => (mulWide (srcA x rt a i) (srcB x rt b i), false)
def execIsad (d a b : VReg) (rt : Route) (s : State) : Out :=
  intOp s d a b fun x i => vGet x d i + absDiff (srcA x rt a i) (srcB x rt b i)
def execIsel (d a b : VReg) (k : KReg) (s : State) : Out :=
  intOp s d a b fun x i => if laneIn (kGet x k.toNat) i then vGet x a i else vGet x b i

/-! ## Majors 0x11 and 0x12 (R89, R90) -/

def execClz (d a : VReg) (rt : Route) (s : State) : Out := intOp s d a a fun x i => clzW (srcA x rt a i)
def execPopc (d a : VReg) (rt : Route) (s : State) : Out := intOp s d a a fun x i => popcW (srcA x rt a i)
def execBrev (d a : VReg) (rt : Route) (s : State) : Out := intOp s d a a fun x i => brevW (srcA x rt a i)
def execIabs (d a : VReg) (rt : Route) (s : State) : Out := intOp s d a a fun x i => iabsW (srcA x rt a i)
def execBfx (d a b : VReg) (rt : Route) (s : State) : Out := intOp s d a b fun x i => bfxW (srcA x rt a i) (srcB x rt b i)
def execBfi (d a b : VReg) (rt : Route) (s : State) : Out :=
  intOp s d a b fun x i => bfiW (vGet x d i) (srcA x rt a i) (srcB x rt b i)

/-! ## ICMP (R91) -/

def execIcmp (k : KReg) (cond : BitVec 4) (a b : VReg) (rt : Route) (s : State) : Out :=
  kOp s false [(a, 1), (b, 1)] k fun x i => (intCond cond.toNat (srcA x rt a i) (srcB x rt b i), false)

/-! ## Immediates (R92) -/

def execIaddi (d a : VReg) (imm : BitVec 12) (s : State) : Out := intOp s d a a fun x i => vGet x a i + imm12s imm
def execAndi (d a : VReg) (imm : BitVec 12) (s : State) : Out := intOp s d a a fun x i => vGet x a i &&& imm12s imm
def execOri (d a : VReg) (imm : BitVec 12) (s : State) : Out := intOp s d a a fun x i => vGet x a i ||| imm12z imm
def execXori (d a : VReg) (imm : BitVec 12) (s : State) : Out := intOp s d a a fun x i => vGet x a i ^^^ imm12z imm
def execShi (d a : VReg) (kind : BitVec 2) (n : BitVec 5) (s : State) : Out :=
  intOp s d a a fun x i => shiftKind kind.toNat (vGet x a i) n.toNat
def execMovi (d : VReg) (imm : BitVec 19) (s : State) : Out := intOp s d d d fun _ _ => imm.signExtend 32
def execMovh (d : VReg) (imm : BitVec 19) (s : State) : Out := intOp s d d d fun x i => highImm imm (vGet x d i)
def execLea (d a : VReg) (imm : BitVec 12) (s : State) : Out :=
  vecOp s false [(a, 2)] d 2 fun x i => (words64 (vGet64 x a i + imm.signExtend 64), false)

end Sys2Proof.Machine
end

