-- ==== Sys2Proof/Machine/Lanes.lean ====
section
/-! DEFINITION. Vector-scalar instructions, moves and lane instructions: majors 0x22 to 0x24 (R95 to R100). -/
namespace Sys2Proof.Machine

/-- The word a vector-scalar instruction takes: sb[31:0] (R95). -/
def sWord (x : Group) (b : SReg) : Word := (sGet x b).truncate 32

def execIadds (d a : VReg) (b : SReg) (rt : Route) (s : State) : Out := intOp s d a a fun x i => srcA x rt a i + sWord x b
def execImuls (d a : VReg) (b : SReg) (rt : Route) (s : State) : Out := intOp s d a a fun x i => srcA x rt a i * sWord x b
def execFmuls (d a : VReg) (b : SReg) (rt : Route) (s : State) : Out :=
  fltOp s d a a fun x i => f32.mul (srcA x rt a i).toNat (sWord x b).toNat
def execFfmas (d a : VReg) (b : SReg) (rt : Route) (s : State) : Out :=
  fltOp s d a a fun x i => f32.fma (srcA x rt a i).toNat (sWord x b).toNat (vGet x d i).toNat

def execVbcst (d : VReg) (a : SReg) (s : State) : Out := intOp s d d d fun x _ => sWord x a
/-- VPICK: a lane that is exited or out of range gives 0 (R73, R96). -/
def execVpick (d : SReg) (a : VReg) (lane : BitVec 7) (s : State) : Out :=
  scalarOp s [(a, 1)] d fun x => (laneRead x a lane.toNat).zeroExtend 64
/-- MOVK: every lane 0 to W − 1, whatever the mask (R96). -/
def execMovk (d a : BitVec 7) (s : State) : Out :=
  groupOp s fun x => kSet (advance x) d.toNat (kGet x a.toNat &&& fullMask x.width)
def execVlane (d : VReg) (s : State) : Out := intOp s d d d fun _ i => BitVec.ofNat 32 i

/-- LSHF: lane vb[i] of va under R73 (R97). -/
def execLshf (d a b : VReg) (s : State) : Out := intOp s d a b fun x i => laneRead x a (vGet x b i).toNat
def execLvote (d : SReg) (a : VReg) (kind : BitVec 3) (s : State) : Out :=
  scalarOp s [(a, 1)] d fun x => vote kind.toNat x a
/-- LRED: the fixed butterfly over the active lanes, into every active lane (R99). -/
def execLred (d a : VReg) (op : BitVec 3) (s : State) : Out :=
  vecOp s false [(a, 1)] d 1 fun x _ => let r := lredVal op.toNat x a; ([r.1], r.2)
/-- LSCAN: the inclusive scan in rising lane order (R100). -/
def execLscan (d a : VReg) (op : BitVec 3) (s : State) : Out :=
  vecOp s false [(a, 1)] d 1 fun x i => let r := scanAt (lscanVals op.toNat x a) i; ([r.1], r.2)

end Sys2Proof.Machine
end

