-- ==== Sys2Proof/Machine/Scalar.lean ====
section
/-! DEFINITION. Scalar instructions: majors 0x1C to 0x21 (R93, R94). Each executes once per issue, whatever the active mask. -/
namespace Sys2Proof.Machine

def execSadd (d a b : SReg) (s : State) : Out := scalarOp s [] d fun x => sGet x a + sGet x b
def execSsub (d a b : SReg) (s : State) : Out := scalarOp s [] d fun x => sGet x a - sGet x b
def execSmul (d a b : SReg) (s : State) : Out := scalarOp s [] d fun x => sGet x a * sGet x b
def execSand (d a b : SReg) (s : State) : Out := scalarOp s [] d fun x => sGet x a &&& sGet x b
def execSor (d a b : SReg) (s : State) : Out := scalarOp s [] d fun x => sGet x a ||| sGet x b
def execSxor (d a b : SReg) (s : State) : Out := scalarOp s [] d fun x => sGet x a ^^^ sGet x b
/-- The count of a scalar shift is sb[5:0] (R93). -/
def execSshl (d a b : SReg) (s : State) : Out := scalarOp s [] d fun x => sGet x a <<< ((sGet x b).toNat % 64)
def execSshr (d a b : SReg) (s : State) : Out := scalarOp s [] d fun x => sGet x a >>> ((sGet x b).toNat % 64)
def execSaddi (d a : SReg) (imm : BitVec 12) (s : State) : Out := scalarOp s [] d fun x => sGet x a + imm.signExtend 64
def execSmovi (d : SReg) (imm : BitVec 19) (s : State) : Out := scalarOp s [] d fun _ => imm.signExtend 64
def execSmovh (d : SReg) (imm : BitVec 19) (s : State) : Out := scalarOp s [] d fun x => highImm64 imm (sGet x d)
/-- SCMP: one bit, computed once, written to every active lane of kd (R94). -/
def execScmp (k : KReg) (cond : BitVec 4) (a b : SReg) (s : State) : Out :=
  kOp s false [] k fun x _ => (intCond cond.toNat (sGet x a) (sGet x b), false)

end Sys2Proof.Machine
end

