-- ==== Sys2Proof/Machine/Dispatch.lean ====
section
/-! DEFINITION. The meaning of every row of the opcode table: one arm per constructor. -/
namespace Sys2Proof.Machine

def exec (i : Instr) (s : State) : Host.Outcome State Fault Refusal :=
  match i with
  | .trap code => Sys2Proof.Machine.execTrap code s
  | .cclr bit => Sys2Proof.Machine.execCclr bit s
  | .srd d toV sr => Sys2Proof.Machine.execSrd d toV sr s
  | .swr a sr => Sys2Proof.Machine.execSwr a sr s
  | .boost d a bin => Sys2Proof.Machine.execBoost d a bin s
  | .br b => Sys2Proof.Machine.execBr b s
  | .bt k b => Sys2Proof.Machine.execBt k b s
  | .bf k b => Sys2Proof.Machine.execBf k b s
  | .call b => Sys2Proof.Machine.execCall b s
  | .bx a => Sys2Proof.Machine.execBx a s
  | .wait loads stores copies tiles => Sys2Proof.Machine.execWait loads stores copies tiles s
  | .rinit p e => Sys2Proof.Machine.execRinit p e s
  | .arv p => Sys2Proof.Machine.execArv p s
  | .rwait p => Sys2Proof.Machine.execRwait p s
  | .qwait q d => Sys2Proof.Machine.execQwait q d s
  | .qrel q => Sys2Proof.Machine.execQrel q s
  | .fence scope kind => Sys2Proof.Machine.execFence scope kind s
  | .wbase n => Sys2Proof.Machine.execWbase n s
  | .opf a b => Sys2Proof.Machine.execOpf a b s
  | .route n ka ma kb mb => Sys2Proof.Machine.execRoute n ka ma kb mb s
  | .iadd d a b rt => Sys2Proof.Machine.execIadd d a b rt s
  | .isub d a b rt => Sys2Proof.Machine.execIsub d a b rt s
  | .imul d a b rt => Sys2Proof.Machine.execImul d a b rt s
  | .imulh d a b rt => Sys2Proof.Machine.execImulh d a b rt s
  | .imin d a b rt => Sys2Proof.Machine.execImin d a b rt s
  | .imax d a b rt => Sys2Proof.Machine.execImax d a b rt s
  | .iminu d a b rt => Sys2Proof.Machine.execIminu d a b rt s
  | .imaxu d a b rt => Sys2Proof.Machine.execImaxu d a b rt s
  | .and d a b rt => Sys2Proof.Machine.execAnd d a b rt s
  | .or d a b rt => Sys2Proof.Machine.execOr d a b rt s
  | .xor d a b rt => Sys2Proof.Machine.execXor d a b rt s
  | .andn d a b rt => Sys2Proof.Machine.execAndn d a b rt s
  | .shl d a b rt => Sys2Proof.Machine.execShl d a b rt s
  | .shr d a b rt => Sys2Proof.Machine.execShr d a b rt s
  | .sar d a b rt => Sys2Proof.Machine.execSar d a b rt s
  | .rot d a b rt => Sys2Proof.Machine.execRot d a b rt s
  | .imad d a b rt => Sys2Proof.Machine.execImad d a b rt s
  | .imadw d a b rt => Sys2Proof.Machine.execImadw d a b rt s
  | .isad d a b rt => Sys2Proof.Machine.execIsad d a b rt s
  | .isel d a b k => Sys2Proof.Machine.execIsel d a b k s
  | .clz d a rt => Sys2Proof.Machine.execClz d a rt s
  | .popc d a rt => Sys2Proof.Machine.execPopc d a rt s
  | .brev d a rt => Sys2Proof.Machine.execBrev d a rt s
  | .iabs d a rt => Sys2Proof.Machine.execIabs d a rt s
  | .bfx d a b rt => Sys2Proof.Machine.execBfx d a b rt s
  | .bfi d a b rt => Sys2Proof.Machine.execBfi d a b rt s
  | .icmp k cond a b rt => Sys2Proof.Machine.execIcmp k cond a b rt s
  | .iaddi d a imm => Sys2Proof.Machine.execIaddi d a imm s
  | .andi d a imm => Sys2Proof.Machine.execAndi d a imm s
  | .ori d a imm => Sys2Proof.Machine.execOri d a imm s
  | .xori d a imm => Sys2Proof.Machine.execXori d a imm s
  | .shi d a kind n => Sys2Proof.Machine.execShi d a kind n s
  | .movi d imm => Sys2Proof.Machine.execMovi d imm s
  | .movh d imm => Sys2Proof.Machine.execMovh d imm s
  | .lea d a imm => Sys2Proof.Machine.execLea d a imm s
  | .sadd d a b => Sys2Proof.Machine.execSadd d a b s
  | .ssub d a b => Sys2Proof.Machine.execSsub d a b s
  | .smul d a b => Sys2Proof.Machine.execSmul d a b s
  | .sand d a b => Sys2Proof.Machine.execSand d a b s
  | .sor d a b => Sys2Proof.Machine.execSor d a b s
  | .sxor d a b => Sys2Proof.Machine.execSxor d a b s
  | .sshl d a b => Sys2Proof.Machine.execSshl d a b s
  | .sshr d a b => Sys2Proof.Machine.execSshr d a b s
  | .saddi d a imm => Sys2Proof.Machine.execSaddi d a imm s
  | .smovi d imm => Sys2Proof.Machine.execSmovi d imm s
  | .scmp k cond a b => Sys2Proof.Machine.execScmp k cond a b s
  | .smovh d imm => Sys2Proof.Machine.execSmovh d imm s
  | .iadds d a b rt => Sys2Proof.Machine.execIadds d a b rt s
  | .imuls d a b rt => Sys2Proof.Machine.execImuls d a b rt s
  | .fmuls d a b rt => Sys2Proof.Machine.execFmuls d a b rt s
  | .ffmas d a b rt => Sys2Proof.Machine.execFfmas d a b rt s
  | .vbcst d a => Sys2Proof.Machine.execVbcst d a s
  | .vpick d a lane => Sys2Proof.Machine.execVpick d a lane s
  | .movk d a => Sys2Proof.Machine.execMovk d a s
  | .vlane d => Sys2Proof.Machine.execVlane d s
  | .lshf d a b => Sys2Proof.Machine.execLshf d a b s
  | .lvote d a kind => Sys2Proof.Machine.execLvote d a kind s
  | .lred d a op => Sys2Proof.Machine.execLred d a op s
  | .lscan d a op => Sys2Proof.Machine.execLscan d a op s
  | .fadd d a b rt => Sys2Proof.Machine.execFadd d a b rt s
  | .fsub d a b rt => Sys2Proof.Machine.execFsub d a b rt s
  | .fmul d a b rt => Sys2Proof.Machine.execFmul d a b rt s
  | .fmin d a b rt => Sys2Proof.Machine.execFmin d a b rt s
  | .fmax d a b rt => Sys2Proof.Machine.execFmax d a b rt s
  | .ffma d a b rt => Sys2Proof.Machine.execFfma d a b rt s
  | .fcpys d a b rt => Sys2Proof.Machine.execFcpys d a b rt s
  | .fdiv d a b rt => Sys2Proof.Machine.execFdiv d a b rt s
  | .fcmp k cond a b rt => Sys2Proof.Machine.execFcmp k cond a b rt s
  | .hadd2 d a b rt => Sys2Proof.Machine.execHadd2 d a b rt s
  | .hmul2 d a b rt => Sys2Proof.Machine.execHmul2 d a b rt s
  | .hfma2 d a b rt => Sys2Proof.Machine.execHfma2 d a b rt s
  | .hmax2 d a b rt => Sys2Proof.Machine.execHmax2 d a b rt s
  | .badd2 d a b rt => Sys2Proof.Machine.execBadd2 d a b rt s
  | .bmul2 d a b rt => Sys2Proof.Machine.execBmul2 d a b rt s
  | .bfma2 d a b rt => Sys2Proof.Machine.execBfma2 d a b rt s
  | .bmax2 d a b rt => Sys2Proof.Machine.execBmax2 d a b rt s
  | .fcvt d a kind slot => Sys2Proof.Machine.execFcvt d a kind slot s
  | .frcp d a rt => Sys2Proof.Machine.execFrcp d a rt s
  | .frsq d a rt => Sys2Proof.Machine.execFrsq d a rt s
  | .fsqrt d a rt => Sys2Proof.Machine.execFsqrt d a rt s
  | .fexp2 d a rt => Sys2Proof.Machine.execFexp2 d a rt s
  | .flog2 d a rt => Sys2Proof.Machine.execFlog2 d a rt s
  | .fsin d a rt => Sys2Proof.Machine.execFsin d a rt s
  | .fcos d a rt => Sys2Proof.Machine.execFcos d a rt s
  | .ftanh d a rt => Sys2Proof.Machine.execFtanh d a rt s
  | .frnd d a rt mode => Sys2Proof.Machine.execFrnd d a rt mode s
  | .xsig d row col => Sys2Proof.Machine.execXsig d row col s
  | .ld d a w hint off => Sys2Proof.Machine.execLd d a w hint off s
  | .st d a w hint off => Sys2Proof.Machine.execSt d a w hint off s
  | .lds d a w off => Sys2Proof.Machine.execLds d a w off s
  | .sts d a w off => Sys2Proof.Machine.execSts d a w off s
  | .lda d a w scope off => Sys2Proof.Machine.execLda d a w scope off s
  | .stl d a w scope off => Sys2Proof.Machine.execStl d a w scope off s
  | .atom d a b op scope => Sys2Proof.Machine.execAtom d a b op scope s
  | .atomx d a b op scope => Sys2Proof.Machine.execAtomx d a b op scope s
  | .red a b op scope => Sys2Proof.Machine.execRed a b op scope s
  | .mwait a b cond scope => Sys2Proof.Machine.execMwait a b cond scope s
  | .cclean a b => Sys2Proof.Machine.execCclean a b s
  | .cinv a b => Sys2Proof.Machine.execCinv a b s
  | .cclinv a b => Sys2Proof.Machine.execCclinv a b s
  | .pref a b => Sys2Proof.Machine.execPref a b s
  | .smap a b => Sys2Proof.Machine.execSmap a b s
  | .sunmap b => Sys2Proof.Machine.execSunmap b s
  | .sflush b => Sys2Proof.Machine.execSflush b s
  | .swreg d a => Sys2Proof.Machine.execSwreg d a s
  | .swdel b => Sys2Proof.Machine.execSwdel b s
  | .swpos d a => Sys2Proof.Machine.execSwpos d a s
  | .swwait a => Sys2Proof.Machine.execSwwait a s
  | .bkcmd a => Sys2Proof.Machine.execBkcmd a s
  | .ladpush a b => Sys2Proof.Machine.execLadpush a b s
  | .laddone b => Sys2Proof.Machine.execLaddone b s
  | .ladstat d rung => Sys2Proof.Machine.execLadstat d rung s
  | .ldt d a n => Sys2Proof.Machine.execLdt d a n s
  | .stt d a n => Sys2Proof.Machine.execStt d a n s
  | .mzero z => Sys2Proof.Machine.execMzero z s
  | .mlda ta q slot => Sys2Proof.Machine.execMlda ta q slot s
  | .mma z ta q sa sb reuse => Sys2Proof.Machine.execMma z ta q sa sb reuse s
  | .mstScratch z slot off => Sys2Proof.Machine.execMstScratch z slot off s
  | .mstRing z slot q => Sys2Proof.Machine.execMstRing z slot q s
  | .mrel q => Sys2Proof.Machine.execMrel q s
  | .marv p => Sys2Proof.Machine.execMarv p s
  | .mwt p => Sys2Proof.Machine.execMwt p s
  | .mloop count len => Sys2Proof.Machine.execMloop count len s
  | .mgang mask => Sys2Proof.Machine.execMgang mask s
  | .xld xd row => Sys2Proof.Machine.execXld xd row s
  | .xst row xa => Sys2Proof.Machine.execXst row xa s
  | .xadd t xd xa xb => Sys2Proof.Machine.execXadd t xd xa xb s
  | .xsub t xd xa xb => Sys2Proof.Machine.execXsub t xd xa xb s
  | .xmul t xd xa xb => Sys2Proof.Machine.execXmul t xd xa xb s
  | .xfma t xd xa xb => Sys2Proof.Machine.execXfma t xd xa xb s
  | .xscl t xd xa c => Sys2Proof.Machine.execXscl t xd xa c s
  | .xaddc t xd xa c => Sys2Proof.Machine.execXaddc t xd xa c s
  | .xmax t xd xa xb => Sys2Proof.Machine.execXmax t xd xa xb s
  | .xmin t xd xa xb => Sys2Proof.Machine.execXmin t xd xa xb s
  | .xclmp t xd xa c => Sys2Proof.Machine.execXclmp t xd xa c s
  | .xcvt t xd xa u => Sys2Proof.Machine.execXcvt t xd xa u s
  | .xrsq t xd xa => Sys2Proof.Machine.execXrsq t xd xa s
  | .xsel t xd xa xb => Sys2Proof.Machine.execXsel t xd xa xb s
  | .xzero xd => Sys2Proof.Machine.execXzero xd s
  | .cp e => Sys2Proof.Machine.execCp e s
  | .cpt e => Sys2Proof.Machine.execCpt e s
  | .cpg e => Sys2Proof.Machine.execCpg e s
  | .cps e => Sys2Proof.Machine.execCps e s
  | .cpf e => Sys2Proof.Machine.execCpf e s
  | .cpr e => Sys2Proof.Machine.execCpr e s
  | .cpm e => Sys2Proof.Machine.execCpm e s
  | .cpc e => Sys2Proof.Machine.execCpc e s
  | .cpn e => Sys2Proof.Machine.execCpn e s
  | .unknownCommandEntry code e => Sys2Proof.Machine.execUnknownCommandEntry code e s
  | .copyEntryComplete x => Sys2Proof.Machine.execCopyEntryComplete x s
  | .picotDrain cluster slot team => Sys2Proof.Machine.execPicotDrain cluster slot team s
  | .loadComplete g k => Sys2Proof.Machine.execLoadComplete g k s
  | .storeComplete g k => Sys2Proof.Machine.execStoreComplete g k s
  | .stashLazyWriteback t off => Sys2Proof.Machine.execStashLazyWriteback t off s
  | .remoteThresholdExpiry g => Sys2Proof.Machine.execRemoteThresholdExpiry g s
  | .watchdogExpiry w => Sys2Proof.Machine.execWatchdogExpiry w s
  | .teamStopOutcome t => Sys2Proof.Machine.execTeamStopOutcome t s
  | .contextTermination ctx => Sys2Proof.Machine.execContextTermination ctx s
  | .gangPlace q cluster cores => Sys2Proof.Machine.execGangPlace q cluster cores s
  | .gangReservation q cluster => Sys2Proof.Machine.execGangReservation q cluster s
  | .compaction t core base => Sys2Proof.Machine.execCompaction t core base s
  | .gangSave gang => Sys2Proof.Machine.execGangSave gang s
  | .gangRestore gang cluster cores => Sys2Proof.Machine.execGangRestore gang cluster cores s
  | .ladderStarvationExpiry ladder rung => Sys2Proof.Machine.execLadderStarvationExpiry ladder rung s
  | .sweepVisit pc => Sys2Proof.Machine.execSweepVisit pc s
  | .registrationAccept k => Sys2Proof.Machine.execRegistrationAccept k s
  | .swposAnswer k => Sys2Proof.Machine.execSwposAnswer k s
  | .bankStripeApply cmd stripe => Sys2Proof.Machine.execBankStripeApply cmd stripe s
  | .poisonConsumed g => Sys2Proof.Machine.execPoisonConsumed g s
  | .shepherdScan core r => Sys2Proof.Machine.execShepherdScan core r s
  | .shepherdSkip core => Sys2Proof.Machine.execShepherdSkip core s
  | .uncorrectableError site => Sys2Proof.Machine.execUncorrectableError site s
  | .memoryStackUnreadable stack => Sys2Proof.Machine.execMemoryStackUnreadable stack s
  | .vacate v => Sys2Proof.Machine.execVacate v s
  | .nodeLaunch n => Sys2Proof.Machine.execNodeLaunch n s
  | .nodeCopy n => Sys2Proof.Machine.execNodeCopy n s
  | .nodeSweep n => Sys2Proof.Machine.execNodeSweep n s
  | .nodeBank n => Sys2Proof.Machine.execNodeBank n s
  | .nodeLadder n => Sys2Proof.Machine.execNodeLadder n s
  | .nodeColl n => Sys2Proof.Machine.execNodeColl n s
  | .nodeWaitext n => Sys2Proof.Machine.execNodeWaitext n s
  | .nodeSignal n => Sys2Proof.Machine.execNodeSignal n s
  | .nodeCommit n => Sys2Proof.Machine.execNodeCommit n s
  | .replayStart handle => Sys2Proof.Machine.execReplayStart handle s
  | .gload v => Sys2Proof.Machine.execGload v s
  | .kick v => Sys2Proof.Machine.execKick v s
  | .evict v => Sys2Proof.Machine.execEvict v s
  | .evictWithdraw v => Sys2Proof.Machine.execEvictWithdraw v s
  | .inval v => Sys2Proof.Machine.execInval v s
  | .mapRequest v => Sys2Proof.Machine.execMapRequest v s
  | .unmapRequest v => Sys2Proof.Machine.execUnmapRequest v s
  | .ctxCreate v => Sys2Proof.Machine.execCtxCreate v s
  | .ctxTerminate v => Sys2Proof.Machine.execCtxTerminate v s
  | .clusterMapWrite l v => Sys2Proof.Machine.execClusterMapWrite l v s
  | .clockChange cluster => Sys2Proof.Machine.execClockChange cluster s
  | .clockStable cluster => Sys2Proof.Machine.execClockStable cluster s
  | .powerWindowEnd mW => Sys2Proof.Machine.execPowerWindowEnd mW s
  | .boostLeaseEnd ctx cluster => Sys2Proof.Machine.execBoostLeaseEnd ctx cluster s
  | .computeThermalPoint sensor temp => Sys2Proof.Machine.execComputeThermalPoint sensor temp s
  | .memoryThermalPoint stack temp => Sys2Proof.Machine.execMemoryThermalPoint stack temp s
  | .doorbell n v => Sys2Proof.Machine.execDoorbell n v s
  | .noticeBaseWrite v => Sys2Proof.Machine.execNoticeBaseWrite v s
  | .noticeTailWrite v => Sys2Proof.Machine.execNoticeTailWrite v s
  | .hostMemWrite addr bytes => Sys2Proof.Machine.execHostMemWrite addr bytes s
  | .registerWrite off width v => Sys2Proof.Machine.execRegisterWrite off width v s
  | .pageMigration ctx va frame => Sys2Proof.Machine.execPageMigration ctx va frame s
  | .domainBoundChange sync => Sys2Proof.Machine.execDomainBoundChange sync s
  | .llcEviction line => Sys2Proof.Machine.execLlcEviction line s
  | .l1LineDrop core line => Sys2Proof.Machine.execL1LineDrop core line s
  | .linkRecoveryStart coord => Sys2Proof.Machine.execLinkRecoveryStart coord s
  | .linkRouteReturn coord => Sys2Proof.Machine.execLinkRouteReturn coord s
  | .peerUnreachable coord => Sys2Proof.Machine.execPeerUnreachable coord s
  | .fabricPortChange port up => Sys2Proof.Machine.execFabricPortChange port up s
  | .remoteAccess pkg addr op => Sys2Proof.Machine.execRemoteAccess pkg addr op s
  | .signalDelivery ctx payload coord => Sys2Proof.Machine.execSignalDelivery ctx payload coord s
  | .signalDeliveryDiscard k => Sys2Proof.Machine.execSignalDeliveryDiscard k s
  | .sigq v => Sys2Proof.Machine.execSigq v s
  | .collectivePeerData x step => Sys2Proof.Machine.execCollectivePeerData x step s
  | .cpcAbort ctx pkg => Sys2Proof.Machine.execCpcAbort ctx pkg s
  | .attestCtl v => Sys2Proof.Machine.execAttestCtl v s
  | .nop => Sys2Proof.Machine.execNop s
  | .yield => Sys2Proof.Machine.execYield s
  | .exit => Sys2Proof.Machine.execExit s
  | .pchk => Sys2Proof.Machine.execPchk s
  | .tret => Sys2Proof.Machine.execTret s
  | .ret => Sys2Proof.Machine.execRet s
  | .racq => Sys2Proof.Machine.execRacq s
  | .rrel => Sys2Proof.Machine.execRrel s
  | .ladesc => Sys2Proof.Machine.execLadesc s
  | .mend => Sys2Proof.Machine.execMend s
  | .xend => Sys2Proof.Machine.execXend s
  | .invalidationComplete => Sys2Proof.Machine.execInvalidationComplete s
  | .unmapComplete => Sys2Proof.Machine.execUnmapComplete s
  | .boostRefill => Sys2Proof.Machine.execBoostRefill s
  | .boot => Sys2Proof.Machine.execBoot s

end Sys2Proof.Machine
end

