-- ==== Sys2Proof/Machine/Issue.lean ====
section
/-! DEFINITION. Who executes, and what: the front end's choice of a group (R17, R25 to R29), its fetch (R68, R69), the skid of a
stopped team (R275), the sequencer's and the engines' turns, the restore unit's next word, the events that fall due, and the
order of events to come (DESIGN CHOICE, log 2; DEDUCED, log 5). -/
namespace Sys2Proof.Machine

/-! ## The groups of a front end -/

/-- The vector registers that an instruction reads of its own lanes or of others, as runs: its vector sources (R16). -/
def vectorUses : Instr → List (VReg × Nat)
  | .iadd _ a b _ | .isub _ a b _ | .imul _ a b _ | .imulh _ a b _ | .imin _ a b _ | .imax _ a b _ | .iminu _ a b _ | .imaxu _ a b _
  | .and _ a b _ | .or _ a b _ | .xor _ a b _ | .andn _ a b _ | .shl _ a b _ | .shr _ a b _ | .sar _ a b _ | .rot _ a b _
  | .imadw _ a b _ | .isel _ a b _ | .bfx _ a b _ | .icmp _ _ a b _ | .lshf _ a b | .fadd _ a b _ | .fsub _ a b _ | .fmul _ a b _ | .fmin _ a b _
  | .fmax _ a b _ | .fcpys _ a b _ | .fdiv _ a b _ | .fcmp _ _ a b _ | .hadd2 _ a b _ | .hmul2 _ a b _ | .hmax2 _ a b _
  | .badd2 _ a b _ | .bmul2 _ a b _ | .bmax2 _ a b _ => [(a, 1), (b, 1)]
  | .imad d a b _ | .isad d a b _ | .bfi d a b _ | .ffma d a b _ | .hfma2 d a b _ | .bfma2 d a b _ => [(d, 1), (a, 1), (b, 1)]
  | .clz _ a _ | .popc _ a _ | .brev _ a _ | .iabs _ a _ | .iaddi _ a _ | .andi _ a _ | .ori _ a _ | .xori _ a _ | .shi _ a _ _
  | .iadds _ a _ _ | .imuls _ a _ _ | .fmuls _ a _ _ | .vpick _ a _ | .lvote _ a _ | .lred _ a _ | .lscan _ a _ | .frcp _ a _
  | .frsq _ a _ | .fsqrt _ a _ | .fexp2 _ a _ | .flog2 _ a _ | .fsin _ a _ | .fcos _ a _ | .ftanh _ a _ | .frnd _ a _ _
  | .lds _ a _ _ | .ldt _ a _ => [(a, 1)]
  | .ffmas d a _ _ => [(d, 1), (a, 1)]
  | .movh d _ => [(d, 1)]
  | .fcvt _ a _ _ => [(a, 1)]
  | .lea _ a _ | .ld _ a _ _ _ | .lda _ a _ _ _ | .swreg _ a | .swpos _ a | .swwait a | .bkcmd a | .ladpush a _ => [(a, 2)]
  | .st d a w _ _ | .stl d a w _ _ => [(a, 2), (d, widthRegs (widthBytes w))]
  | .sts d a w _ => [(a, 1), (d, widthRegs (widthBytes w))]
  | .atom _ a b _ _ | .red a b _ _ | .cclean a b | .cinv a b | .cclinv a b | .pref a b | .smap a b => [(a, 2), (b, 1)]
  | .atomx _ a b op _ => [(a, 2), (b, if op = 1 then 2 else 1)]
  | .mwait a b cond _ => [(a, 2), (b, condBytes (condOf cond) / 4)]
  | .sunmap b | .sflush b | .laddone b => [(b, 1)]
  | .stt d a _ => [(a, 1), (d, 4)]
  | _ => []

/-- The vector sources of a group's instruction, by register: those its fields name, and the frame words of LADPUSH and LADESC (R264,
R265). -/
def sourcesOf (s : State) (g : GRef) (x : Group) (i : Instr) : List Nat :=
  ((vectorUses i).flatMap fun u => regRun x u.1 u.2) ++
  (match i with
    | .ladpush a b =>
      (ladderAt s (ctxOf s g) (vGet64 x a ((activeLanes x).headD 0)).toNat).elim [] fun l => regRun x (b + 1) (l.2.words - 1)
    | .ladesc => (x.body).elim [] fun b => regRun x 1 (b.words - 1)
    | _ => [])

/-- A datapath instruction (R31). -/
def isDatapath (i : Instr) : Bool :=
  match i with
  | .srd _ toV _ => toV
  | .ladstat _ _ => false
  | _ =>
    let m := encodeWord i / 2 ^ 26
    (0x0C ≤ m && m ≤ 0x1B) || (0x22 ≤ m && m ≤ 0x24) || (0x26 ≤ m && m ≤ 0x2E) || (0x30 ≤ m && m ≤ 0x38) || m == 0x3A || m == 0x3D ||
    m == 0x3E

/-- The groups resident on a front end, each with the age of its gang. -/
def residentsOn (s : State) (l core : Nat) : List (Nat × GRef) :=
  (residents s l).flatMap fun p => ((groupsOn p.2 core).filter fun q => !q.2.2.retired).map fun q =>
    (p.2.age, ({ gang := p.1, team := q.1, grp := q.2.1 } : GRef))

/-- One group is older than another (R27). -/
def olderThan (a b : Nat × GRef) : Bool :=
  decide (a.1 < b.1) || (a.1 == b.1 && (decide (a.2.team < b.2.team) || (a.2.team == b.2.team && decide (a.2.grp < b.2.grp))))

/-- A group joins a list in order of age. -/
def insertByAge (a : Nat × GRef) : List (Nat × GRef) → List (Nat × GRef)
  | [] => [a]
  | b :: bs => if olderThan a b then a :: b :: bs else b :: insertByAge a bs

/-- The groups of a front end, oldest first. -/
def byAge (s : State) (l core : Nat) : List GRef := ((residentsOn s l core).foldr insertByAge []).map Prod.snd

/-! ## The instruction of a group -/

/-- The word at a group's current entry, and the instruction it is. -/
def nextInstr (s : State) (g : GRef) (x : Group) : Option Instr :=
  match x.frontier with
  | [] => none
  | e :: _ => match fetchWord s (ctxOf s g) e.pc.toNat 0 with
    | none => none
    | some w => match decodeWord .group w with
      | .ok i => some i
      | .error _ => none

/-- A branch: it may leave its group as it stands. -/
def isBranch : Instr → Bool
  | .br _ | .bt _ _ | .bf _ _ | .call _ | .ret | .bx _ => true
  | _ => false

/-- The scalar registers that an instruction reads or writes: those it needs of the scoreboard (R15). -/
def scalarUses : Instr → List SReg
  | .srd d false _ => [d]
  | .swr a _ | .bx a | .vbcst _ a => [a]
  | .boost d a _ | .saddi d a _ | .scmp _ _ d a => [d, a]
  | .call _ | .ret => [63]
  | .qwait _ d | .smovi d _ | .smovh d _ | .vpick d _ _ | .lvote d _ _ | .xsig d _ _ | .swreg d _ | .swpos d _
  | .swdel d => [d]
  | .ladstat d _ => [d, d + 1]
  | .sadd d a b | .ssub d a b | .smul d a b | .sand d a b | .sor d a b | .sxor d a b | .sshl d a b | .sshr d a b => [d, a, b]
  | .iadds _ _ b _ | .imuls _ _ b _ | .fmuls _ _ b _ | .ffmas _ _ b _ => [b]
  | _ => []

/-- The predicate registers that an instruction reads. -/
def predicateUses : Instr → List Nat
  | .bt k _ | .bf k _ | .isel _ _ _ k => [k.toNat]
  | .movk _ a => [a.toNat]
  | _ => []

/-- The vector registers, as a run, that a datapath instruction under the scoreboard writes. -/
def vectorDest : Instr → Option (VReg × Nat)
  | .iadd d .. | .isub d .. | .imul d .. | .imulh d .. | .imin d .. | .imax d .. | .iminu d .. | .imaxu d .. | .and d .. | .or d .. | .xor d ..
  | .andn d .. | .shl d .. | .shr d .. | .sar d .. | .rot d .. | .imad d .. | .isad d .. | .isel d .. | .clz d .. | .popc d .. | .brev d ..
  | .iabs d .. | .bfx d .. | .bfi d .. | .iaddi d .. | .andi d .. | .ori d .. | .xori d .. | .shi d .. | .movi d _ | .movh d _ | .iadds d ..
  | .imuls d .. | .fmuls d .. | .ffmas d .. | .vbcst d _ | .vlane d | .lshf d .. | .lred d .. | .lscan d .. | .fadd d .. | .fsub d ..
  | .fmul d .. | .fmin d .. | .fmax d .. | .ffma d .. | .fcpys d .. | .fdiv d .. | .hadd2 d .. | .hmul2 d .. | .hfma2 d .. | .hmax2 d ..
  | .badd2 d .. | .bmul2 d .. | .bfma2 d .. | .bmax2 d .. | .fcvt d .. | .frcp d .. | .frsq d .. | .fsqrt d .. | .fexp2 d .. | .flog2 d ..
  | .fsin d .. | .fcos d .. | .ftanh d .. | .frnd d .. => some (d, 1)
  | .imadw d .. | .lea d .. => some (d, 2)
  | .srd d true sr => some (d, if srWide sr then 2 else 1)
  | _ => none

/-- The registers that a datapath instruction under the scoreboard writes, numbered as in `Group.results`. -/
def resultsOf (x : Group) (i : Instr) : List Nat :=
  ((vectorDest i).elim [] fun d => regRun x d.1 d.2) ++
  match i with
  | .vpick d _ _ | .lvote d _ _ => [256 + d.toNat]
  | .icmp k .. | .fcmp k .. => [512 + k.toNat]
  | .movk d _ => [512 + d.toNat]
  | _ => []

/-- A register that an instruction needs is not usable yet (R15): a result of a datapath instruction whose passes still run (R33, R82), or
an s register that still waits for a drover's answer (R156, R158). An instruction that only writes such an s register waits too (DESIGN
CHOICE, log 5). -/
def scoreboardHolds (s : State) (g : GRef) (x : Group) (i : Instr) : Bool :=
  ((scalarUses i).any fun r => x.pendingS &&& sPending r.toNat ≠ 0) ||
  (sourcesOf s g x i ++ (scalarUses i).map (fun r : SReg => 256 + r.toNat) ++ (predicateUses i).map (fun r => 512 + r)).any fun r => x.results.any fun p => p.1 == r

/-- The state in which a group's next instruction is executed: its operands have been read, and a remote load that has returned no
longer blocks it. -/
def beforeIssue (s : State) (g : GRef) : State :=
  { modGroup s g fun x =>
      match x.wait with
      | some { kind := .remoteLoad, .. } => { x with wait := none, reading := none }
      | _ => { x with reading := none }
    with focus := .group g }

/-- An instruction does not issue yet: a WAIT or a FENCE whose condition does not hold, or a counter that cannot rise. Its
meaning then leaves the group as it is (R15, R25). -/
def stalls (s : State) (g : GRef) (i : Instr) : Bool :=
  if isBranch i then false
  else match exec i (beforeIssue s g) with
    | .next t => findGroup t g == findGroup (beforeIssue s g) g
    | _ => false

/-- A group's own state lets it issue: it is not parked or halted, it has an entry, and it stands at no wait whose condition
does not hold (R25). -/
def runnable (s : State) (g : GRef) (x : Group) : Bool :=
  !x.retired && !x.parked && !x.halted && !x.frontier.isEmpty && x.wait.elim true (waitMet s g x)

/-- Every vector source of an instruction is found in the operand prefetch queue (R16). -/
def inQueue (s : State) (g : GRef) (x : Group) (i : Instr) : Bool := (sourcesOf s g x i).all fun r => x.queue.contains r

/-- A front end's record. -/
def frontOf (s : State) (l core : Nat) : Option Front := tabGet s.wk.fronts (4 * physCluster s l + core)

/-- The datapath of a front end's slabs can accept an instruction (R33). -/
def datapathFree (s : State) (l core : Nat) : Bool := (frontOf s l core).elim true fun f => f.busy == 0

/-- The fetch of a group's next word waits (R349). -/
def fetchWaits (s : State) (g : GRef) (x : Group) : Bool := (x.frontier.head?).elim false fun e => fetchHeld s (ctxOf s g) e.pc.toNat

/-- A group of a front end is ready (R25): runnable, its word fetched, its sources usable, read or in the queue, the datapath free for it,
and no condition of its own keeps it from issuing. A fetch that sets FETCH is ready. -/
def isReady (s : State) (l core : Nat) (g : GRef) : Bool :=
  match findGroup s g with
  | none => false
  | some x => runnable s g x && !fetchWaits s g x && match nextInstr s g x with
    | some i => !scoreboardHolds s g x i && (inQueue s g x i || x.reading == some 0) && (!isDatapath i || datapathFree s l core) &&
        !stalls s g i
    | none => true

/-- The read of the vector sources that are not in the queue goes on by a front-end cycle: how many it takes the manual leaves open
(R16: "typically 3"; DESIGN CHOICE, log 7). -/
def readOperands (s : State) (g : GRef) : State :=
  match findGroup s g with
  | none => s
  | some x => match (if runnable s g x && !fetchWaits s g x then nextInstr s g x else none) with
    | none => s
    | some i =>
      if inQueue s g x i then s
      else match x.reading with
        | some n => modGroup s g fun x => { x with reading := some (n - 1) }
        | none => let f := takeFresh s; modGroup f.2 g fun x => { x with reading := some (Config.freeNat f.1 0) }

/-- A group of a marked gang parks where the condition of its wait no longer holds (R282). -/
def parkMarked (s : State) (g : GRef) : State := if isMarked s g then modGroup s g (parkAt s g) else s

/-- Results and stagings come a front-end cycle nearer; a register whose result has become usable, or that has been staged, enters the
operand prefetch queue (R15, R16). -/
def ripen (x : Group) : Group :=
  let tick := fun (ps : List (Nat × Nat)) => ps.map fun p => (p.1, p.2 - 1)
  let results := tick x.results
  let staged := tick x.staged
  let due := ((results ++ staged).filter fun p => p.2 == 0 && decide (p.1 < 256)).map Prod.fst
  due.foldl enqueue { x with results := results.filter fun p => p.2 != 0, staged := staged.filter fun p => p.2 != 0 }

/-- A front-end cycle begins: results and stagings proceed, groups of marked gangs park, and operand reads go on. -/
def beginCycle (s : State) (l core : Nat) : State :=
  (byAge s l core).foldl (fun s g => readOperands (parkMarked (modGroup s g ripen) g) g) s

/-! ## The choice (R28) -/

/-- The aged group that aged earliest; the list is in order of age. -/
def earliestAged (s : State) (ready : List GRef) : Option GRef :=
  (ready.foldl (fun (best : Option (Nat × GRef)) g =>
    match (findGroup s g).bind Group.agedAt, best with
    | some t, some b => if t < b.1 then some (t, g) else best
    | some t, none => some (t, g)
    | none, _ => best) none).map Prod.snd

/-- The age of a group's gang. -/
def ageOf (s : State) (g : GRef) : Nat := (findGang s g.gang).elim 0 Gang.age

/-- The first ready group after the last issuer in the circular order of age; an issuer that has left keeps the place it had. Where no
group has issued there yet, the oldest ready group (DESIGN CHOICE, log 72). -/
def nextAfter (s : State) (order ready : List GRef) (f : Option Front) : Option GRef :=
  match f with
  | some f =>
    let last := (if order.contains f.last then ageOf s f.last else f.age, f.last)
    (ready.find? fun g => olderThan last (ageOf s g, g)).or ready.head?
  | none => ready.head?

/-- The group that a front end issues from, by policy. -/
def choose (s : State) (l core : Nat) (order ready : List GRef) : Option GRef :=
  let f := frontOf s l core
  match earliestAged s ready with
  | some g => some g
  | none =>
    if (clusterRegs s (physCluster s l)).policy = 1 then nextAfter s order ready f
    else
      let yielded := fun g => (findGroup s g).elim false Group.yielded
      match f with
      | some { last := g, prev := true, .. } =>
        if ready.contains g && !yielded g then some g
        else ((ready.filter fun h => !yielded h).head?).or ready.head?
      | _ => ready.head?

/-! ## A front-end cycle -/

/-- Aging counts of a front end's groups after its choice (R28); yield marks last one cycle. -/
def ageGroup (time : Nat) (ready chosen : Bool) (x : Group) : Group :=
  let x1 := { x with yielded := false }
  if chosen then { x1 with aging := 0, agedAt := none }
  else if ready then
    { x1 with aging := x.aging + 1, agedAt := if x.aging + 1 = 48 then some time else x.agedAt }
  else x1

/-- The front-end cycles for which a P-pass instruction occupies the datapath, at a code of CLK_RATIO (R33, R338). -/
def occupied (p : Nat) (ratio : BitVec 2) : Nat := if ratio = 0 then 2 * p else if ratio = 1 then p else (p + 1) / 2

/-- The cycles for which the datapath stays occupied after the one in which a group issues; `rest` where it issues no datapath
instruction. -/
def busyAfter (s : State) (l : Nat) (g : GRef) (rest : Nat) : Nat :=
  match (findGroup s g).bind (nextInstr s g), findGang s g.gang with
  | some i, some gg =>
    if isDatapath i then occupied (passesOf s gg) (clusterRegs s (physCluster s l)).ratioCur - 1 else rest
  | _, _ => rest

/-- The front end notes its choice, and the groups age. -/
def afterChoice (s : State) (l core : Nat) (order ready : List GRef) (c : Option GRef) : State :=
  let key := 4 * physCluster s l + core
  let left := (frontOf s l core).elim 0 Front.busy
  let s1 := order.foldl (fun s g => modGroup s g (ageGroup s.time (ready.contains g) (c == some g))) s
  modWk s1 fun w =>
    { w with fronts := match c with
        | some g => tabPut w.fronts key { last := g, prev := true, age := ageOf s g, busy := busyAfter s l g (left - 1) }
        | none => tabMod w.fronts key fun f => { f with prev := false, busy := left - 1 } }

/-- The cluster registers of a group's slab. -/
def slabRegs (s : State) (g : GRef) : ClusterRegs := clusterRegs s ((findGang s g.gang).elim 0 fun gg => physCluster s (clusterOf gg))

/-- Bubbles that delay an instruction: the reads of its vector sources that the queue does not serve would read some register banks in its
cycle, and each further cycle that LIMIT asks for is one (R342). How many banks they are the manual leaves open (DESIGN CHOICE, log 7). -/
def addBubbles (s : State) (g : GRef) (x : Group) (i : Instr) : State :=
  if inQueue s g x i then s
  else
    let f := takeFresh s
    modGroup f.2 g fun x => { x with bubbles := x.bubbles + BitVec.ofNat 64 ((Config.freeNat f.1 0 - 1) / (slabRegs s g).droop.toNat) }

/-- The results of an instruction that has issued are usable once its passes have ended (R15, R33). -/
def noteResults (s : State) (g : GRef) (i : Instr) (t : State) : State :=
  match findGang s g.gang with
  | some gg =>
    let n := occupied (passesOf s gg) (slabRegs s g).ratioCur
    modGroup t g fun x => if isDatapath i then { x with results := x.results ++ (resultsOf x i).map fun r => (r, n) } else x
  | none => t

/-- The skid of a group whose team was stopping as it issued, counted (DEDUCED, log 55), unless it only waits for a release: it stops at
a wait, which stays on record as ended, at a cause, at the eighth instruction, or where its frontier is empty (R272, R275). -/
def skidOn (x : Group) : Group :=
  if x.retired || (x.frames.isSome && x.wait.isNone) then x
  else
    let y := { x with skid := x.skid + 1 }
    if y.wait.isSome || Config.skidMax ≤ y.skid || y.frontier.isEmpty then haltNow y else y

/-- The stop of a group's team where the group is to stop for it: it does not run the team's handler, or another stop's halt broadcast has
reached the handler too (R275, R278, R321). -/
def stopping (s : State) (g : GRef) : Option Stop :=
  (findTeam s (grefTeam g)).bind fun t =>
    if t.handler != some g.grp || (findGang s g.gang).elim false Gang.reported ||
        (t.groups[g.grp]?).elim false (fun x => x.cause &&& cHaltb != 0) then t.stop
    else none

/-- A group that issued in the lane cycle in which its team stopped: that instruction is none of the skid, and a wait that it has begun,
or an empty frontier, stops the group (R275). -/
def stopsWith (x : Group) : Group := if x.wait.isSome || x.frontier.isEmpty then haltNow x else x

/-- The causes that a group has in a state and had not before, HALTB aside. -/
def newCauses (before after : State) (g : GRef) : BitVec 32 :=
  (findGroup after g).elim 0 ownCauses &&& ~~~((findGroup before g).elim 0 Group.cause)

/-- An instruction of the skid that raises a cause is not performed (R275). -/
def skidEffect (before after : State) (g : GRef) : State :=
  let bits := newCauses before after g
  if bits = 0 then after
  else
    let link := (findGroup before g).elim 0 curLink
    raise before g bits link [] ((findGroup after g).bind Group.point)

/-- What follows an instruction's own effect: the skid of a stopping team (R275), and the blocking point of a remote load for a group
whose wait has ended (R38). -/
def afterIssue (before : State) (g : GRef) (o : Out) : Out :=
  match o with
  | .next t =>
    let t1 := match stopping before g with
      | some st => if st.time = before.time then modGroup t g stopsWith else modGroup (skidEffect before t g) g skidOn
      | none => t
    .next { modGroup t1 g (awaitRemote t1.time) with focus := .none }
  | r => r

/-- A gang has fetched from the page of a PC (R70). -/
def noteFetch (s : State) (gang : Nat) (pc : Nat) : State :=
  modGang s gang fun gg => if gg.fetched.contains (pc / 65536) then gg else { gg with fetched := pc / 65536 :: gg.fetched }

/-- A group issues: its next instruction is executed, or its fetch sets FETCH with the entry's own link (R69, R72). -/
def issue (s : State) (g : GRef) : Out :=
  match findGroup s g with
  | none => .next s
  | some x => match nextInstr s g x with
    | some i =>
      let s1 := noteFetch (addBubbles s g x i) g.gang ((x.frontier.head?).elim 0 fun e => e.pc.toNat)
      afterIssue s1 g (match exec i (beforeIssue s1 g) with
        | .next t => .next (noteResults s1 g i t)
        | r => r)
    | none => afterIssue s g (notPerformed s g x cFetch)

/-- One cycle of a front end of a logical cluster. -/
def frontCycle (s0 : State) (l core : Nat) : Out :=
  let s := beginCycle s0 l core
  let order := byAge s l core
  let ready := order.filter (isReady s l core)
  let c := choose s l core order ready
  let s1 := afterChoice s l core order ready c
  match c with
  | some g => issue s1 g
  | none => .next s1

/-! ## The other agents -/

/-- The focus is dropped after an agent's turn. -/
def endTurn (o : Out) : Out :=
  match o with
  | .next t => .next { t with focus := .none }
  | r => r

/-- The sequencer of a team runs its next word; a fetch that fails sets FETCH (R10, R217, R219). -/
def seqTurn (s : State) (t : TRef) : Out :=
  match findGang s t.gang, findTeam s t with
  | some gg, some tm =>
    if gg.state ≠ .resident || !tm.seq.running || tm.stop.isSome || !(tm.seq.wait.elim true (seqMet tm)) ||
        fetchHeld s gg.ctx tm.seq.pc.toNat then .next s
    else match fetchWord s gg.ctx tm.seq.pc.toNat 1 with
      | none => .next (raiseTeam s t 0 cFetch none)
      | some w => match decodeWord .matrix w with
        | .ok i => endTurn (exec i { noteFetch s t.gang tm.seq.pc.toNat with focus := .seq t })
        | .error _ => .next (raiseTeam s t 0 cFetch none)
  | _, _ => .next s

/-- A copy engine turns to its suspended entry, or to the next one published. -/
def engineStep (s : State) (x : EngineRef) : Out :=
  match findEngine s x with
  | none => .next s
  | some g => match suspendedOf g with
    | some (f, _, _) => endTurn (exec (entryInstr f.code f.ent) { s with focus := .engine x })
    | none =>
      if g.published ≤ g.takenIdx then .next s
      else match nextEntry s x with
        | some v => endTurn (exec (decodeEntry v) { s with focus := .engine x })
        | none => .next s

/-- The restore unit runs the next word of its program; a program that has run out ends as at XEND. -/
def restoreStep (s : State) : Out :=
  match s.sw.restore.program with
  | [] => endTurn (exec .xend { s with focus := .restore })
  | w :: ws =>
    let s1 := { s with focus := .restore, sw := { s.sw with restore := { s.sw.restore with program := ws } } }
    match decodeWord .bank w with
    | .ok i => endTurn (exec i s1)
    | .error _ => endTurn (exec .xend s1)

/-- A write to a register of the window, or an access of another package: after a failed check of the boot neither responds, but for the
management block (R360). -/
def needsBoot : Instr → Bool
  | .gload _ | .kick _ | .evict _ | .evictWithdraw _ | .inval _ | .mapRequest _ | .unmapRequest _ | .ctxCreate _ | .ctxTerminate _
  | .clusterMapWrite _ _ | .vacate _ | .doorbell _ _ | .sigq _ | .noticeBaseWrite _ | .noticeTailWrite _ | .remoteAccess .. => true
  | _ => false

/-- What an agent does. -/
def act (s : State) : Action → Out
  | .cycle l core => frontCycle s l core
  | .seq t => seqTurn s t
  | .engine x => engineStep s x
  | .event i => if needsBoot i && (dev s).bootError != 0 then .next s else endTurn (exec i { s with focus := .none })

/-! ## Events that fall due (DESIGN CHOICE, log 2) -/

/-- The groups of resident gangs. -/
def liveGrefs (s : State) : List (GRef × Gang × Group) :=
  s.wk.gangs.flatMap fun p =>
    if p.2.state ≠ .resident then []
    else (List.range p.2.teams.length).flatMap fun t => match p.2.teams[t]? with
      | some tm => (List.range tm.groups.length).filterMap fun n =>
          (tm.groups[n]?).map fun x => (({ gang := p.1, team := t, grp := n } : GRef), p.2, x)
      | none => []

/-- The teams of resident gangs. -/
def liveTeams (s : State) : List (TRef × Gang × Team) :=
  s.wk.gangs.flatMap fun p =>
    if p.2.state ≠ .resident then []
    else (List.range p.2.teams.length).filterMap fun t => (p.2.teams[t]?).map fun tm => (({ gang := p.1, team := t } : TRef), p.2, tm)

/-- The watchdogs that run, and when each reaches its limit (R39, R220). -/
def watchdogsDue (s : State) : List (Nat × Instr) :=
  ((liveGrefs s).filterMap fun q => (q.2.2.wait).map fun w =>
    (w.began + w.paused + watchdogLimit q.2.1, Instr.watchdogExpiry (.group q.1))) ++
  ((liveTeams s).filterMap fun q => (q.2.2.seq.wait).map fun w =>
    (w.began + w.paused + watchdogLimit q.2.1, Instr.watchdogExpiry (.seq q.1))) ++
  ((liveTeams s).filterMap fun q => (q.2.2.engine.waiting).map fun b =>
    (b + watchdogLimit q.2.1, Instr.watchdogExpiry (.engine q.1)))

/-- The remote thresholds that run (R38). -/
def thresholdsDue (s : State) : List (Nat × Instr) :=
  (liveGrefs s).flatMap fun q => (q.2.2.loads.filter fun p => !p.remote.isEmpty && !p.beyond).map fun p =>
    (p.issued + remoteThreshold s, Instr.remoteThresholdExpiry q.1)

/-- The oldest frame of each rung reaches the rung's limit (R259). -/
def starvationDue (s : State) : List (Nat × Instr) :=
  s.wk.ladders.flatMap fun p => (List.range p.2.rungs.length).filterMap fun k => ((p.2.rungs[k]?).bind fun r =>
    (r.queue.head?).map fun f => (f.2 + r.limit * Config.unitsPerNs, Instr.ladderStarvationExpiry p.1 k))

/-- What the shepherd, a full signal queue and WAITEXT wait for at most: DRAIN_LIMIT, RECOVERY_LIMIT and the node's limit (R295, R327,
R357). -/
def limitsDue (s : State) : List (Nat × Instr) :=
  (s.pl.cores.filterMap fun p => p.2.draining.map fun t => (t + drainUnits s, Instr.shepherdSkip p.1)) ++
  ((List.range s.pl.signals.length).filterMap fun k => ((s.pl.signals[k]?).bind HeldSignal.since).map fun t =>
    (t + recoveryUnits s, Instr.signalDeliveryDiscard k)) ++
  s.wk.replays.flatMap fun p => (List.range p.2.nodes.length).filterMap fun k => (p.2.nodes[k]?).bind fun x =>
    if x.kind = 7 && x.state == .started then some (extLimit x, Instr.nodeCommit { replay := p.1, node := k }) else none

/-- The part's timers: windows, the refill, leases, reservations, recovery limits (R307, R341, R344, R345, R356). What the
window's power is, and which cluster a head reserves, is left open (DESIGN CHOICE, log 7). -/
def timersDue (s : State) : List (Nat × Instr) :=
  [(s.pl.windowEnd, Instr.powerWindowEnd (Config.freeNat s.fresh 901)), (s.pl.refillAt, Instr.boostRefill)] ++
  (s.pl.leases.map fun l => (l.stop, Instr.boostLeaseEnd l.ctx l.cluster)) ++
  ((List.range 16).filterMap fun q => (headOf s q).map fun p =>
    (p.2.queuedAt + Config.reserveUnits, Instr.gangReservation q (Config.freeNat s.fresh 902 % 72))) ++
  (s.pl.peers.map fun p => (p.2.since + recoveryUnits s, Instr.peerUnreachable p.1)) ++
  ((dependedPeers s).filterMap fun c => (episodeStart s c).map fun t => (t + recoveryUnits s, Instr.peerUnreachable c))

/-- A package outside the domain bound is in recovery to every other one: the first of them, by coordinate, whose recovery limit is reached by
a time and that nothing names (R347, R356). -/
def idlePeerDue (s : State) (target : Nat) : List (Nat × Instr) :=
  let t := (dev s).syncSince + recoveryUnits s
  if (dev s).sync || (dev s).bootStage != 0xFFFF || target < t then []
  else (((List.range (2 ^ 19)).find? fun c => c != ownCoord s && (tabGet s.pl.peers c).isNone && coordPresent s c).map fun c =>
    (t, Instr.peerUnreachable c)).toList

/-- An event has something to do at a time. -/
def fires (s : State) (t : Nat) (i : Instr) : Bool :=
  let now := { s with time := max s.time t }
  match i with
  | .watchdogExpiry (.group g) => (findGang s g.gang).elim false fun gg => (findGroup s g).elim false fun x => groupExpired now g gg x
  | .watchdogExpiry (.seq q) => (findGang s q.gang).elim false fun gg => (findTeam s q).elim false fun tm => seqExpired now gg tm
  | .watchdogExpiry (.engine q) => (findGang s q.gang).elim false fun gg => (findTeam s q).elim false fun tm => engineExpired now q gg tm
  | .remoteThresholdExpiry g => (findGroup s g).elim false fun x =>
      !x.retired && x.loads.any fun p => overThreshold now p && !p.beyond
  | .gangReservation q _ => mayReserve now q
  | .peerUnreachable c => !coordUnreachable s c && coordPresent s c
  | .shepherdSkip c => !(coreGangs s c).isEmpty
  | .nodeCommit n => (findNode s n).elim false (extLate now)
  | _ => true

/-- The earliest event that falls due by a time. A watchdog and a rung's limit give way to what happens in the same unit: an arrival
that completes the phase, a push that completes a group (R259, R269). -/
def nextDue (s : State) (target : Nat) : Option (Nat × Instr) :=
  (((watchdogsDue s ++ starvationDue s).filter fun p => decide (p.1 < target) && fires s p.1 p.2) ++
   ((thresholdsDue s ++ timersDue s ++ limitsDue s ++ idlePeerDue s target).filter fun p => decide (p.1 ≤ target) && fires s p.1 p.2)).foldl (fun (best : Option (Nat × Instr)) p =>
      match best with
      | some b => if p.1 < b.1 then some p else best
      | none => some p) none

/-! ## The order of events left open (DESIGN CHOICE, log 2) -/

/-- The events that may end a node, or start one. -/
def nodeEvents (s : State) : List Instr :=
  s.wk.replays.flatMap fun p => (List.range p.2.nodes.length).flatMap fun k => match p.2.nodes[k]? with
    | none => []
    | some x =>
      let n : NRef := { replay := p.1, node := k }
      [.nodeCommit n,
       match x.kind with
       | 1 => .nodeLaunch n
       | 2 => .nodeCopy n
       | 3 => .nodeSweep n
       | 4 => .nodeBank n
       | 5 => .nodeLadder n
       | 6 => .nodeColl n
       | 7 => .nodeWaitext n
       | _ => .nodeSignal n]

/-- The placements that a queue's head could take on a cluster, and the restores of reported gangs. -/
def placeEvents (s : State) (l : Nat) : List Instr :=
  let on := fun (p : Nat × Gang) (f : List Nat → Instr) =>
    ((coreLists (p.2.teams.length * p.2.launch.yoke)).find? fun cs => (fitOn s l cs p.2).isSome).toList.map f
  ((List.range 16).flatMap fun q => (headOf s q).toList.flatMap fun p => on p fun cs =>
    if p.2.state = .queued then .gangPlace q l cs else .gangRestore p.1 l cs) ++
  (s.wk.gangs.filter fun p => p.2.state == .saved && p.2.reported).flatMap fun p => on p fun cs => .gangRestore p.1 l cs

/-- The completions of a group's accesses. -/
def groupEvents (q : GRef × Gang × Group) : List Instr :=
  ((List.range (q.2.2.loads.length + q.2.2.tiles.length)).map fun k => Instr.loadComplete q.1 k) ++
  (List.range q.2.2.stores.length).map fun k => Instr.storeComplete q.1 k

/-- Events of the part that may come next. -/
def partEvents (s : State) (k : Nat) : List Instr :=
  (liveGrefs s).flatMap groupEvents ++
  (liveTeams s).flatMap (fun q => [.copyEntryComplete (.team q.1), .teamStopOutcome q.1, .poisonConsumed (trefGroup q.1 0)]) ++
  s.wk.gangs.map (fun p => .gangSave p.1) ++ nodeEvents s ++ placeEvents s (Config.freeNat k 903 % 72) ++
  s.wk.graphs.map (fun p => .replayStart p.1) ++
  (s.wk.replays.flatMap fun p => (List.range p.2.nodes.length).map fun n => .copyEntryComplete (.node { replay := p.1, node := n })) ++
  (List.range s.sw.reqs.length).flatMap (fun r => [.registrationAccept r, .swposAnswer r]) ++
  s.sw.cmds.flatMap (fun c => (List.range c.2.desc.rows).map fun j => .bankStripeApply c.1 j) ++
  s.wk.picots.flatMap (fun p => (List.range p.2.length).flatMap fun j => (List.range 4).map fun t => .picotDrain p.1 j t) ++
  s.mm.contexts.map (fun c => .contextTermination c.1) ++
  s.pl.signals.map (fun h => .signalDelivery h.ctx h.payload h.coord) ++
  [.sweepVisit (Config.freeNat k 904 % 512), .invalidationComplete, .unmapComplete, .shepherdScan (dev s).shepCore .pass,
   .clockChange (Config.freeNat k 905 % 80), .clockStable (Config.freeNat k 906 % 80)]

/-- The agents of the machine that may come next. -/
def agents (s : State) (k : Nat) : List Action :=
  ((residentsAll s).map fun p => Action.cycle p.1 p.2) ++ ((liveTeams s).map fun q => Action.seq q.1) ++
  ((allEngines s).map fun e => Action.engine e.1) ++ (partEvents s k).map Action.event
where
  /-- Every front end with a resident gang. -/
  residentsAll (s : State) : List (Nat × Nat) :=
    (s.wk.gangs.flatMap fun p => if p.2.state ≠ .resident then [] else (List.range 4).map fun c => (clusterOf p.2, c)).eraseDups

/-- The next action where none is given: the boot first, then one that the machine leaves open. -/
def openAction (s : State) : Nat × Action :=
  if (dev s).bootStage = 0 then (0, .event .boot)
  else (1, ((agents s (s.fresh + 1))[Config.freeNat s.fresh 907 % (agents s (s.fresh + 1)).length]?).getD (.event .nop))

/-- The action that comes next: the given one, or an open one. -/
def nextAction (s : State) : (Nat × Action) × List (Nat × Action) :=
  match s.agenda with
  | a :: rest => (a, rest)
  | [] => (openAction s, [])

/-! ## One step -/

/-- The progress words that rise once a write which a home held has been placed (R252). -/
def settleProgress (s : State) : State :=
  s.wk.ladders.foldl (fun s p =>
    let r := writeProgress s p.1
    r.2.elim r.1 fun g => raiseLate r.1 g cLadder) s

/-- What the part writes for system software follows: HEAD takes its notices, notices and a report that waited are written (R354, R362). -/
def settleReports (s : State) : State :=
  let s1 := advanceHead s
  writeReport (if s1.wk.notices.isEmpty then s1 else flushNotices s1 s1.wk.notices)

/-- What follows a step by itself: lines to be published and writes that nothing holds any longer are placed, in the order in which they
were held (R177, R181, R182, R317, R320, R349, R356), progress words that such a write held back follow (R252), ring fills are counted
(R211), stops settle (R271, R321), reports are written, and the caches keep to their sizes (R1). An application of the restore unit is one
moment (log 2). -/
def settle (s : State) : State :=
  if s.sw.restore.running then s
  else
    let s1 := publishDue s
    let s2 := if s1.mm.held.isEmpty then s1 else releaseHeld s1
    trimL1 (trimLlc (settleReports (settleStops (settleFills (settleProgress s2)))))

/-- The next state of a step, with what follows by itself. -/
def settled (o : Out) : Out :=
  match o with
  | .next t => .next (settle t)
  | r => r

/-- The step: the restore unit's next word while it runs; else the earliest event that falls due before the next action, else
that action, each at its time. -/
def stepOnce (s : State) : Out :=
  if s.sw.restore.running then settled (restoreStep s)
  else
    let a := nextAction s
    let target := s.time + a.1.1
    match nextDue s target with
    | some (t, i) =>
      let now := max s.time t
      settled (endTurn (exec i { s with time := now, focus := .none, agenda := (target - now, a.1.2) :: a.2, fresh := s.fresh + 4 }))
    | none =>
      settled (act { s with time := target, agenda := a.2, fresh := if s.agenda.isEmpty then s.fresh + 8 else s.fresh } a.1.2)

end Sys2Proof.Machine
end

