-- ==== Sys2Proof/Machine/Loader.lean ====
section
/-! DEFINITION. A small program laid into the machine from outside (DESIGN CHOICE, log 16): one context with one executable page, one placed gang
of one group, and an agenda that gives the turn to the agent of the word's stream. It stands for the upload, the map request and
the placement by which a program comes to run. -/
namespace Sys2Proof.Machine

/-! ## Where the program lies: local addresses in DRAM -/

/-- The table of a level of the context's translation, and the frame of the code page. -/
def loaderTable (lvl : Nat) : Nat := 0x10000 + 0x1000 * lvl
def loaderPage : Nat := 0x20000

/-- A pointer to the next table, and the leaf of an executable page of a stream kind (R113, R115). -/
def tableEntry (pa : Nat) : Nat := pa / 2 ^ 8 * 2 ^ 8 + 1
def codeLeaf (pa kind : Nat) : Nat := pa / 2 ^ 16 * 2 ^ 16 + kind * 32 + 16 + 2 + 1

/-- The bytes that the program needs, by local address. -/
def loaderImage (s : State) (kind : Nat) (code : List Byte) : List (Nat × List Byte) :=
  ((List.range 4).map fun k => (loaderTable k, natLE 8 (tableEntry (ownPhys s (loaderTable (k + 1)))))) ++
  [(loaderTable 4, natLE 8 (codeLeaf (ownPhys s loaderPage) kind)), (loaderPage, code)]

/-- Lines of the program. -/
def loaderLine (s : State) (line : Nat) : Bool :=
  ((loaderPage :: (List.range 5).map loaderTable)).any fun a => ownPhys s a / 32 == line

/-- Memory with the program: its bytes in DRAM, no other copy of their lines, its context and its executable map. -/
def loadMemory (s : State) (kind : Nat) (code : List Byte) : MemSys :=
  { s.mm with
    mem := (loaderImage s kind code).foldl (fun m p => smWrite m (ownPhys s p.1) p.2) s.mm.mem
    homes := s.mm.homes.filter fun p => !loaderLine s p.1
    narrow := s.mm.narrow.filter fun n => !loaderLine s n.line
    dropped := 0
    tlb := []
    execMaps := [{ ctx := 1, vbase := 0, units := 1, frames := [(0, ownPhys s loaderPage / 65536)] }]
    contexts := tabPut s.mm.contexts 1 { root := loaderTable 0, area := 0, fold := 0, foldBytes := 0, sigq := 0, dying := false } }

/-- The launch record of the program: one group of 16 lanes, a copy ring of 8 entries. -/
def loaderLaunch (stream : Nat) : Launch :=
  { addr := 0, entry := 0, stream := stream, width := 16, groups := 1, teams := 1, pair := false, yoke := 1, contain := false,
    idem := false, fpinv := false, prio := 1, maxBlocks := 3, entryPrio := 0, roles := 0, gridGangs := 1, scratch := 8192,
    watchdog := 1, ringEntries := 8, ringBase := 4096, notify := 4352, paramBytes := 0,
    stages := List.replicate 8 (0, 0, 0), slots := List.replicate 8 0, stampPage := 0, handler := 0, handlerArea := 0,
    params := [], wellFormed := true }

/-- The gang of the program, placed on core 0 of cluster 0. -/
def loaderGang (s : State) (t : Team) (l : Launch) : Gang :=
  { newGang 1 l 0 none (queueNumber 1 0) s.time [t] with
    state := .resident, place := some { cluster := 0, cores := [0], yoked := [] }, ids := some (0, [0]) }

/-- The team of the program. -/
def loaderTeam (s : State) (l : Launch) : Team :=
  let t := newTeam l s.time
  { t with groups := t.groups.map fun x => { x with blocks := [0], reading := some 0 }, scratchAt := [0] }

/-- The state with a program of one gang and nothing else at work: no timer falls due before the next action. -/
def loadGang (s : State) (kind : Nat) (code : List Byte) (l : Launch) (t : Team) (a : List (Nat × Action)) : State :=
  { s with
    agenda := a, focus := .none, mm := loadMemory s kind code
    wk := { Work.reset with gangs := [(1, loaderGang s t l)] }
    sw := { s.sw with restore := Restore.idle }
    pl := { s.pl with windowEnd := s.time + Config.powerWindowUnits, refillAt := s.time + refillUnits
                      leases := [], peers := [] } }

/-- A group-stream word runs in the group's next front-end cycle. -/
def loadGroupWord (s : State) (w : Nat) : State :=
  let l := loaderLaunch 0
  loadGang s 0 (natLE 4 w) l (loaderTeam s l) [(0, .cycle 0 0)]

/-- A matrix-stream word runs at the sequencer's next turn; its stream starts at the page's second word. -/
def loadMatrixWord (s : State) (w : Nat) : State :=
  let l := loaderLaunch 4
  loadGang s 1 (natLE 4 0 ++ natLE 4 w) l (loaderTeam s l) [(0, .seq { gang := 1, team := 0 })]

/-- A bank word is the next word of the restore unit. -/
def loadBankWord (s : State) (w : Nat) : State :=
  { s with focus := .none, sw := { s.sw with restore := { Restore.idle with program := [BitVec.ofNat 32 w], running := true } } }

/-- A copy-ring entry is published by group 0, and its engine has the next turn. -/
def loadEntry (s : State) (w : Nat) : State :=
  let l := loaderLaunch 0
  let t := loaderTeam s l
  let t' := { t with
    groups := t.groups.map fun x => { x with copies := 1 }
    scratch := smWrite t.scratch l.ringBase (natLE 32 w)
    engine := { t.engine with published := 1, pubs := [0] } }
  loadGang s 0 [] l t' [(0, .engine (.team { gang := 1, team := 0 }))]

/-- An instruction of the opcode table placed where the next step finds it. -/
def loadWord (s : State) (nbits w : Nat) : State :=
  if 32 < nbits then loadEntry s w
  else match tableKind w with
    | .group => loadGroupWord s w
    | .matrix => loadMatrixWord s w
    | .bank => loadBankWord s w

end Sys2Proof.Machine
end

