-- ==== Sys2Proof/Safety.lean ====
section
/-! DEFINITION. What counts as a safe run, in the terms that statements use: no step stops the machine, and every state keeps the
canonical form of memory. -/
namespace Sys2Proof.Safety

/-- A step that answers a next state. -/
def Steps (s : Machine.State) : Prop := ∃ t, Machine.step s = .next t

/-- The memory of a state keeps its canonical form. -/
def MemoryOk (s : Machine.State) : Prop := Machine.Memory.wf s.mm.mem = true

/-- `n` steps, each of which answers a next state. -/
def Reaches : Nat → Machine.State → Machine.State → Prop
  | 0, s, t => s = t
  | n + 1, s, t => ∃ u, Machine.step s = .next u ∧ Reaches n u t

/-- Every run from a state, however long, keeps the canonical form of memory. -/
def SafeFrom (s : Machine.State) : Prop := ∀ n t, Reaches n s t → MemoryOk t

end Sys2Proof.Safety
end

