-- ==== Sys2Proof/Claims.lean ====
section
/-! DEFINITION. The words in which the statements speak: who is executing, what one instruction leaves unchanged, what a vector, scalar
or predicate result is. -/
namespace Sys2Proof.Claims
open Sys2Proof.Machine

/-! ## Who is executing -/

/-- The group that is executing, and its record. -/
def Issues (s : State) (g : GRef) (x : Group) : Prop := s.focus = .group g ∧ findGroup s g = some x

/-- The sequencer that is executing, its gang and its team. -/
def Sequences (s : State) (t : TRef) (gg : Gang) (tm : Team) : Prop :=
  s.focus = .seq t ∧ findGang s t.gang = some gg ∧ findTeam s t = some tm

/-- An instruction answers a next state with a property. -/
def Answers (i : Instr) (s : State) (P : State → Prop) : Prop := ∃ t, exec i s = .next t ∧ P t

/-- The registers of a group are held in their canonical form, in at most 64 lanes (R5, R42). -/
def RegsOk (x : Group) : Prop := x.width ≤ 64 ∧ smWf x.v = true ∧ smWf x.s = true ∧ smWf x.k = true

/-- A team's scratchpad, tile registers and accumulators are held in their canonical form. -/
def TeamOk (tm : Team) : Prop := smWf tm.scratch = true ∧ smWf tm.ta = true ∧ smWf tm.z = true

/-- What every team and every group holds is in that form, and so are the registers of every group that a ladder may still form. -/
def RegistersOk (s : State) : Prop :=
  (∀ p ∈ s.wk.gangs, ∀ tm ∈ p.2.teams, TeamOk tm ∧ ∀ x ∈ tm.groups, RegsOk x) ∧
  ∀ p ∈ s.wk.ladders, ∀ r ∈ p.2.rungs, r.launch.width ≤ 64

/-- A row of the opcode table that is an event: neither a word of a stream nor an entry of a copy ring. -/
def IsEvent (i : Instr) : Prop := streamOf i = none ∧ entryCode i = none

/-! ## Frames -/

/-- The byte at a physical address as a reader reads it at its home (R168). -/
def byteAt (s : State) (r : Option GRef) (pa : Nat) : List Byte := homeRead s pa 1 r

/-- Every byte of memory reads as before, to every reader. -/
def SameMemory (s t : State) : Prop := ∀ r pa, byteAt t r pa = byteAt s r pa

/-- Only the record of group `g` changes, to `y`: every other group, every team's and gang's state, every byte of memory, the time
and every register of the window stay. -/
def OnlyGroup (s t : State) (g : GRef) (y : Group) : Prop :=
  t = setGroup s g y ∧ findGroup t g = some y ∧ (∀ h, h ≠ g → findGroup t h = findGroup s h) ∧ SameMemory s t

/-- Group `g` comes to `y`, and every other group stays. -/
def GroupBecomes (s t : State) (g : GRef) (y : Group) : Prop :=
  findGroup t g = some y ∧ ∀ h, h ≠ g → findGroup t h = findGroup s h

/-- No contained instance is at work in a group's accesses: it belongs to none that has not escaped, and its node has nothing staged, and
no published write on its way (R315 to R320). -/
def Uncontained (s : State) (g : GRef) : Prop :=
  containedOf s (some g) = none ∧
  ∀ n, instOf s (some g) = some n → (∀ p ∈ s.mm.provisional, p.node ≠ n) ∧ ∀ line, ∀ w ∈ (homeOf s line).writes, w.node ≠ some n

/-- Every group stays but for what its monitors have seen: the wait it stands at (R149). -/
def OthersKeep (s t : State) (g : GRef) : Prop :=
  ∀ h z, h ≠ g → findGroup s h = some z → ∃ w, findGroup t h = some { z with wait := w }

/-- A list of writes by key, in order: each key written holds what the last write to it left. -/
def LastWrites {α : Type} (es : List (Nat × α)) (new : Nat → α) : Prop :=
  ∀ (k : Nat) (e : Nat × α), es[k]? = some e → (∀ (j : Nat) (f : Nat × α), k < j → es[j]? = some f → f.1 ≠ e.1) → new e.1 = e.2

/-- Every key that a list does not write keeps its value. -/
def KeepsOthers {α β : Type} (es : List (Nat × α)) (old new : Nat → β) : Prop := ∀ r, (∀ e ∈ es, e.1 ≠ r) → new r = old r

/-- A list of stores, in order: each stored byte reads back to group `g` as the last store to it left it, and every other byte reads
as before, to every reader. -/
def StoresBytes (s t : State) (g : GRef) (es : List (Nat × Byte)) : Prop :=
  LastWrites (es.map fun e => (e.1, [e.2])) (byteAt t (some g)) ∧ ∀ r, KeepsOthers es (byteAt s r) (byteAt t r)

/-- The bytes that the lanes of a store write through their leaves, in rising order of lanes (R138). -/
def laneStores (x : Group) (d : VReg) (n : Nat) (ls : List Leaf) : List (Nat × Byte) :=
  ((activeLanes x).zip ls).flatMap fun q => (List.range n).map fun k => (q.2.pa + k, ((storeBytes x d n q.1)[k]?).getD 0)

/-- The LLC's copy of every line holds the line's 32 bytes. -/
def LinesOk (s : State) : Prop := ∀ p ∈ s.mm.homes, ∀ b, p.2.llc = some b → b.length = 32

/-- A line that no narrow holder, no stash and no node holds bytes of. -/
def PlainLine (s : State) (line : Nat) : Prop :=
  (∀ m ∈ s.mm.narrow, m.line ≠ line) ∧ stashAt s line = none ∧ ∀ p ∈ s.mm.provisional, p.line ≠ line

/-- The bytes a lane of a load takes as it issues (R120, R125, R139): the row of a SWEPT page, a column line, a core's copy under its
lease, or the home. -/
def loadedBytes (s : State) (g : GRef) (x : Group) (n hint : Nat) (l : Leaf) : List Byte :=
  if l.mtype = 1 then dramRead s l.pa n
  else if hint = 3 then (columnLoad s (coreIdOf s g) l.pa n (some g)).2
  else match l1Hit s (coreIdOf s g) (l.pa / 32) x.acq g with
    | some c => sliceLine c.data l.pa n
    | none => homeRead s l.pa n (some g)

/-- Team `t` comes to `y`, every other team stays, and so does every byte of memory. -/
def TeamBecomes (s u : State) (t : TRef) (y : Team) : Prop :=
  findTeam u t = some y ∧ (∀ v, v ≠ t → findTeam u v = findTeam s v) ∧ SameMemory s u

/-- The team whose sequencer stands at a wait that begins now (R220). -/
def seqWaits (s : State) (tm : Team) (k : WaitKind) : Team :=
  { tm with seq := { tm.seq with wait := some { kind := k, began := s.time, paused := 0, satAt := none } } }

/-! ## Copy engines (R207, R209) -/

/-- A copy engine that may take its next entry now: none of its entries is suspended or waits for a peer, and fresh numbers are unused
(R207, R246, R276). -/
def MayTake (s : State) (x : EngineRef) (g : Engine) : Prop :=
  s.focus = .engine x ∧ findEngine s x = some g ∧ suspendedOf g = none ∧ engineRuns s x = true ∧ g.takenIdx < g.published ∧
  g.flight.length < 16 ∧ ∀ f ∈ g.flight, f.id < s.fresh ∧ cpcWaits f = false

/-- The engine has taken its next entry, with a progress and the ring slot it claimed. -/
def EntryTaken (u : State) (x : EngineRef) (g : Engine) (code : Nat) (e : Entry) (p : Progress) (slot : Option (Nat × Nat)) : Prop :=
  ∃ f, findEngine u x = some { g with takenIdx := g.takenIdx + 1, pubs := g.pubs.drop 1, waiting := none, flight := g.flight ++ [f] } ∧
    f.idx = g.takenIdx ∧ f.code = code ∧ f.ent = e ∧ f.pub = (g.pubs.head?).getD 0 ∧ f.prog = p ∧ f.slot = slot

/-- No scratchpad block of the engine's team is mapped onto memory. -/
def NoStash (s : State) (x : EngineRef) : Prop := ∀ t tm, x = .team t → findTeam s t = some tm → tm.stash = []

/-- A byte of a global source, as the engine reads it; where `noSwept`, not of SWEPT memory. -/
def globalByte (s : State) (x : EngineRef) (noSwept : Bool) (va : Nat) (b : Byte) : Prop := readPiece s x noSwept (.glob va) 1 = .ok [b]

/-- A byte of a team's own scratchpad, within its allocation. -/
def scratchByte (tm : Team) (m : SMap 8) (off : Nat) (b : Byte) : Prop := off < scratchLimit tm ∧ off < 2 ^ 20 ∧ smGet m off = b

/-- A virtual address names local NORMAL memory that an access of any number so far, or of the next one, may write now, in a line that
nothing else holds bytes of. -/
def PlainTarget (s : State) (ctx va : Nat) (l : Leaf) : Prop :=
  translate s ctx va = some l ∧ l.mtype = 0 ∧ l.w = true ∧ isRemote s l.pa = false ∧
  (∀ id, id ≤ s.fresh → mustHold s l.mlock l.pa id = false) ∧ PlainLine s (l.pa / 32)

/-! ## Notices (R354) -/

/-- The times at which MSI-X vector 0 is sent for the notices that have become visible by now: where HEAD passes TAIL with one. -/
def msixNow (s : State) : List Nat :=
  ((List.range (dev s).noticeVis.length).zip (dev s).noticeVis).filterMap fun p =>
    if p.2 ≤ s.time ∧ ((dev s).noticeHead + 2 ^ 32 - ((dev s).noticeVis.length - p.1)) % 2 ^ 32 = (dev s).noticeTail then some p.2 else none

/-! ## Frontiers (R17 to R19) -/

/-- A frontier in its order: each entry stands before the later ones, with other lanes; so no two hold one priority and one PC. -/
def FrontierOk (fs : List FEntry) : Prop := fs.Pairwise fun a b => feBefore a b = true ∧ a.mask &&& b.mask = 0

/-- Where a lane of a group stands: the priority and the PC of the entry that holds it. -/
def laneAt (x : Group) (i : Nat) : Option (BitVec 8 × BitVec 56) :=
  (x.frontier.find? fun e => laneIn e.mask i).map fun e => (e.prio, e.pc)

/-- The gangs are held by number, no number twice. -/
def GangsDistinct (s : State) : Prop := (s.wk.gangs.map Prod.fst).Pairwise (· < ·)

/-- The gangs are distinct, and every frontier of every group, the frozen ones too, is in its order. -/
def FrontiersOk (s : State) : Prop :=
  GangsDistinct s ∧ ∀ p ∈ s.wk.gangs, ∀ tm ∈ p.2.teams, ∀ x ∈ tm.groups, FrontierOk x.frontier ∧ ∀ f, x.frozen = some f → FrontierOk f

/-- A group whose active lanes move, lane i to `f i`: its frontier stays in its order, every other lane stands where it stood. -/
def Moves (x : Group) (fs : List FEntry) (f : Nat → BitVec 8 × BitVec 56) : Prop :=
  FrontierOk fs ∧ ∀ i, laneAt { x with frontier := fs } i = if laneIn (active x) i then some (f i) else laneAt x i

/-! ## Rows (R134, R163) -/

/-- A bank word that writes row register `xd` and nothing else: each of `n` elements of `bo` bytes comes to `f`, and every byte beyond
them to 0. -/
def RowResult (s t : State) (xd : BitVec 2) (bo n : Nat) (f : Nat → Nat) : Prop :=
  t = { s with sw := { s.sw with restore := { s.sw.restore with x := t.sw.restore.x } } } ∧
  (∀ y, y ≠ xd → xGet t.sw.restore y = xGet s.sw.restore y) ∧
  (∀ k, k < n → elemAt bo (xGet t.sw.restore xd) k = f k % 2 ^ (8 * bo)) ∧
  ∀ b, n * bo ≤ b → smGet (xGet t.sw.restore xd) b = 0

/-- A bank word of a type writes every element of its destination. -/
def WritesRow (i : Instr) (ty : BitVec 3) (xd : BitVec 2) (f : BType → Restore → Nat → Nat) : Prop :=
  ∀ s, s.focus = .restore → s.sw.restore.x.length = 4 → (∀ r ∈ s.sw.restore.x, smWf r = true) →
    let t := BType.ofCode ty.toNat
    Answers i s fun u => RowResult s u xd t.bytes (2048 / t.bytes) (f t s.sw.restore)

/-! ## Results -/

/-- A lane's register lies in a run of `n` registers that starts at the register of a field. -/
def InRun (x : Group) (d : VReg) (n r : Nat) : Prop := physReg x d ≤ r ∧ r < physReg x d + n

/-- A vector result of `n` registers from `d` (R71): each active lane's register `d + j` takes `f lane j`, every other register of every
lane stays, the entry advances, and nothing else of the group changes. -/
def VectorResult (x y : Group) (d : VReg) (n : Nat) (f : Nat → Nat → Word) : Prop :=
  y = { x with v := y.v, frontier := (advance x).frontier } ∧
  (∀ i ∈ activeLanes x, ∀ j, j < n → vRaw y (physReg x d + j) i = f i j) ∧
  (∀ r i, i < 64 → ¬ (i ∈ activeLanes x ∧ InRun x d n r) → vRaw y r i = vRaw x r i)

/-- A finite value as an integer number of units of 2^-k. -/
def valueAt (k : Nat) : FVal → Int
  | .num neg m e => (if neg then -1 else 1) * (m * 2 ^ (e + k).toNat : Nat)
  | _ => 0

/-- The integer condition of a number of R53: eq, ne, lt, le, gt, ge on signed values, ltu, leu, gtu, geu on unsigned ones. -/
def conditionHolds {n : Nat} (c : Nat) (x y : BitVec n) : Bool :=
  ([decide (x = y), decide (x ≠ y), decide (x.toInt < y.toInt), decide (x.toInt ≤ y.toInt), decide (y.toInt < x.toInt),
    decide (y.toInt ≤ x.toInt), decide (x.toNat < y.toNat), decide (x.toNat ≤ y.toNat), decide (y.toNat < x.toNat),
    decide (y.toNat ≤ x.toNat)][c]?).getD false

/-- A scalar result (R42, R71): register `d` takes `v`, s0 discards it, every other register stays, the entry advances, and nothing
else of the group changes. -/
def ScalarResult (x y : Group) (d : SReg) (v : Word64) : Prop :=
  y = { x with s := y.s, frontier := (advance x).frontier } ∧
  (d ≠ 0 → sGet y d = v) ∧ sGet y 0 = 0 ∧ (∀ r : SReg, r ≠ d → sGet y r = sGet x r)

/-- A predicate result (R42, R71): bit i of register `k` takes `f i` in each active lane, its other bits and every other register
stay, the entry advances, and nothing else of the group changes. -/
def PredicateResult (x y : Group) (k : KReg) (f : Nat → Bool) : Prop :=
  y = { x with k := y.k, frontier := (advance x).frontier } ∧
  (∀ i ∈ activeLanes x, laneIn (kGet y k.toNat) i = f i) ∧
  (∀ i, i < 64 → laneIn (active x) i = false → laneIn (kGet y k.toNat) i = laneIn (kGet x k.toNat) i) ∧
  (∀ j, j ≠ k.toNat → j ≠ 0 → kGet y j = kGet x j)

/-- An instruction writes a vector result and changes nothing else, in every state in which it may be performed: no role or window
cause (R9, R71), and no lane's operation invalid where FPINV is enabled (R74). -/
def WritesVector (i : Instr) (vec : Bool) (uses : List (VReg × Nat)) (d : VReg) (n : Nat)
    (f : State → GRef → Group → Nat → Nat → Word) (bad : Group → Nat → Bool) : Prop :=
  ∀ s g x, Issues s g x → RegsOk x → regCauses x vec ((d, n) :: uses) = 0 →
    (fpinvOn s g = true → ∀ k ∈ activeLanes x, bad x k = false) →
    Answers i s fun t => ∃ y, OnlyGroup s t g y ∧ VectorResult x y d n (f s g x)

/-- An instruction writes a scalar register once and changes nothing else. -/
def WritesScalar (i : Instr) (uses : List (VReg × Nat)) (d : SReg) (f : State → GRef → Group → Word64) : Prop :=
  ∀ s g x, Issues s g x → RegsOk x → regCauses x false uses = 0 →
    Answers i s fun t => ∃ y, OnlyGroup s t g y ∧ ScalarResult x y d (f s g x)

/-- An instruction writes a predicate register in the active lanes and changes nothing else. -/
def WritesPredicate (i : Instr) (vec : Bool) (uses : List (VReg × Nat)) (k : KReg) (f : Group → Nat → Bool)
    (bad : Group → Nat → Bool) : Prop :=
  ∀ s g x, Issues s g x → RegsOk x → regCauses x vec uses = 0 →
    (fpinvOn s g = true → ∀ l ∈ activeLanes x, bad x l = false) →
    Answers i s fun t => ∃ y, OnlyGroup s t g y ∧ PredicateResult x y k (f x)

/-- No lane's operation is invalid: the operations of integers. -/
def neverBad (_ : Group) (_ : Nat) : Bool := false

/-- A vector result of one register from two integer sources (R71, R87). -/
def WritesInteger (i : Instr) (d a b : VReg) (f : Group → Nat → Word) : Prop :=
  WritesVector i false [(a, 1), (b, 1)] d 1 (fun _ _ x l _ => f x l) neverBad

/-- A vector result of one register from two floating-point sources: `f` gives each lane's code and whether its operation was
invalid (R74, R101). -/
def WritesFloat (i : Instr) (d a b : VReg) (f : Group → Nat → Nat × Bool) : Prop :=
  WritesVector i true [(a, 1), (b, 1)] d 1 (fun _ _ x l _ => BitVec.ofNat 32 (f x l).1) fun x l => (f x l).2

/-- An instruction changes only the record of the group that executes it, to `f` of it. -/
def ChangesGroup (i : Instr) (f : State → GRef → Group → Group) : Prop :=
  ∀ s g x, Issues s g x → Answers i s fun t => OnlyGroup s t g (f s g x)

end Sys2Proof.Claims
end

