-- ==== Sys2Proof/Laws/Sparse.lean ====
section
/-! SUPPORT. The laws of sparse maps, tables and lists: read after write, and that every write keeps the canonical form. -/
namespace Sys2Proof.Machine

/-! ## Canonical maps -/

/-- A bound below which no key of a canonical map lies. -/
def loBelow (lo : Option Nat) (k : Nat) : Prop := ∀ l, lo = some l → l < k

theorem smWfFrom_cons {w : Nat} (lo : Option Nat) (k : Nat) (v : BitVec w) (m : SMap w) :
    smWfFrom lo ((k, v) :: m) = true ↔ loBelow lo k ∧ v ≠ 0 ∧ smWfFrom (some k) m = true := by
  cases lo <;> simp [smWfFrom, loBelow, and_assoc]

theorem loBelow_some {l k : Nat} : loBelow (some l) k ↔ l < k := by simp [loBelow]

theorem smWfFrom_mono {w : Nat} {lo lo' : Option Nat} {m : SMap w} (h : smWfFrom lo m = true)
    (hl : ∀ k, loBelow lo k → loBelow lo' k) : smWfFrom lo' m = true := by
  cases m with
  | nil => rfl
  | cons p m =>
    obtain ⟨k, v⟩ := p
    rw [smWfFrom_cons] at h ⊢
    exact ⟨hl k h.1, h.2⟩

/-- In a canonical map whose keys exceed `l`, every key up to `l` reads 0. -/
theorem smGet_below {w : Nat} {l : Nat} {m : SMap w} (h : smWfFrom (some l) m = true) {k : Nat} (hk : k ≤ l) :
    smGet m k = 0 := by
  induction m generalizing l with
  | nil => rfl
  | cons p m ih =>
    obtain ⟨k', v⟩ := p
    rw [smWfFrom_cons, loBelow_some] at h
    have hne : ¬ k' = k := by omega
    simp only [smGet, hne, if_false]
    exact ih h.2.2 (by omega)

theorem smDel_wf {w : Nat} {lo : Option Nat} {m : SMap w} (h : smWfFrom lo m = true) (k : Nat) :
    smWfFrom lo (smDel m k) = true := by
  induction m generalizing lo with
  | nil => rfl
  | cons p m ih =>
    obtain ⟨k', v⟩ := p
    have h' := (smWfFrom_cons lo k' v m).1 h
    simp only [smDel]
    split
    · exact smWfFrom_mono h'.2.2 fun j hj => fun l hl => by
        have := h'.1 l hl
        have := loBelow_some.1 hj
        omega
    · split
      · exact h
      · exact (smWfFrom_cons _ _ _ _).2 ⟨h'.1, h'.2.1, ih h'.2.2⟩

theorem smPut_wf {w : Nat} {lo : Option Nat} {m : SMap w} (h : smWfFrom lo m = true) {k : Nat} {v : BitVec w} (hv : v ≠ 0)
    (hk : loBelow lo k) : smWfFrom lo (smPut m k v) = true := by
  induction m generalizing lo with
  | nil => exact (smWfFrom_cons _ _ _ _).2 ⟨hk, hv, rfl⟩
  | cons p m ih =>
    obtain ⟨k', v'⟩ := p
    have h' := (smWfFrom_cons lo k' v' m).1 h
    simp only [smPut]
    split
    · rename_i hlt
      exact (smWfFrom_cons _ _ _ _).2 ⟨hk, hv, (smWfFrom_cons _ _ _ _).2 ⟨loBelow_some.2 hlt, h'.2⟩⟩
    · split
      · rename_i heq
        subst heq
        exact (smWfFrom_cons _ _ _ _).2 ⟨h'.1, hv, h'.2.2⟩
      · exact (smWfFrom_cons _ _ _ _).2 ⟨h'.1, h'.2.1, ih h'.2.2 (loBelow_some.2 (by omega))⟩

/-- A write keeps the canonical form. -/
theorem smSet_wf {w : Nat} {m : SMap w} (h : smWf m = true) (k : Nat) (v : BitVec w) : smWf (smSet m k v) = true := by
  unfold smSet
  split
  · exact smDel_wf h k
  · rename_i hv
    exact smPut_wf h hv (fun _ hl => by cases hl)

/-- A run of writes keeps the canonical form. -/
theorem smWrite_wf {w : Nat} {m : SMap w} (h : smWf m = true) (k : Nat) (vs : List (BitVec w)) :
    smWf (smWrite m k vs) = true := by
  induction vs generalizing m k with
  | nil => exact h
  | cons v vs ih => exact ih (smSet_wf h k v) (k + 1)

/-- Writes at the keys of a list keep the canonical form. -/
theorem smSet_foldl_wf {w : Nat} {α : Type} {m : SMap w} (h : smWf m = true) (f : α → Nat) (g : α → BitVec w) (l : List α) :
    smWf (l.foldl (fun m p => smSet m (f p) (g p)) m) = true := by
  induction l generalizing m with
  | nil => exact h
  | cons a l ih => exact ih (smSet_wf h _ _)

theorem smFilter_wf {w : Nat} {lo : Option Nat} {m : SMap w} (h : smWfFrom lo m = true) (p : Nat × BitVec w → Bool) :
    smWfFrom lo (m.filter p) = true := by
  induction m generalizing lo with
  | nil => rfl
  | cons a m ih =>
    obtain ⟨k, v⟩ := a
    have h' := (smWfFrom_cons lo k v m).1 h
    simp only [List.filter_cons]
    split
    · exact (smWfFrom_cons _ _ _ _).2 ⟨h'.1, h'.2.1, ih h'.2.2⟩
    · exact smWfFrom_mono (ih h'.2.2) fun j hj => fun l hl => by
        have := h'.1 l hl
        have := loBelow_some.1 hj
        omega

/-- A cut keeps the canonical form. -/
theorem smCut_wf {w : Nat} {m : SMap w} (h : smWf m = true) (lo hi : Nat) : smWf (smCut m lo hi) = true :=
  smFilter_wf h _

/-! ## Read after write -/

theorem smGet_smPut {w : Nat} (m : SMap w) (k j : Nat) (v : BitVec w) :
    smGet (smPut m k v) j = if k = j then v else smGet m j := by
  induction m with
  | nil => simp [smPut, smGet]
  | cons p m ih =>
    obtain ⟨k', v'⟩ := p
    simp only [smPut]
    split
    · simp [smGet]
    · split
      · rename_i heq
        subst heq
        simp only [smGet]
        split <;> rfl
      · rename_i h1 h2
        simp only [smGet]
        by_cases hk : k' = j
        · have : ¬ k = j := by omega
          simp [hk, this]
        · simp [hk, ih]

theorem smGet_smDel {w : Nat} {lo : Option Nat} {m : SMap w} (h : smWfFrom lo m = true) (k j : Nat) :
    smGet (smDel m k) j = if k = j then 0 else smGet m j := by
  induction m generalizing lo with
  | nil => simp [smDel, smGet]
  | cons p m ih =>
    obtain ⟨k', v'⟩ := p
    have h' := (smWfFrom_cons lo k' v' m).1 h
    simp only [smDel]
    split
    · rename_i heq
      subst heq
      by_cases hk : k' = j
      · subst hk; simp [smGet_below h'.2.2 (Nat.le_refl k')]
      · simp [smGet, hk]
    · split
      · rename_i hlt
        by_cases hk : k = j
        · subst hk
          have hne : ¬ k' = k := by omega
          simp [smGet, hne, smGet_below h'.2.2 (by omega : k ≤ k')]
        · simp [hk]
      · simp only [smGet]
        by_cases hk : k' = j
        · have : ¬ k = j := by omega
          simp [hk, this]
        · simp [hk, ih h'.2.2]

/-- The value written is read at its key; every other key reads as before. -/
theorem smGet_smSet {w : Nat} {m : SMap w} (h : smWf m = true) (k j : Nat) (v : BitVec w) :
    smGet (smSet m k v) j = if k = j then v else smGet m j := by
  unfold smSet
  split
  · rename_i hv
    rw [smGet_smDel h, hv]
  · exact smGet_smPut m k j v

/-- A run of writes is read at its keys; every other key reads as before. -/
theorem smGet_smWrite {w : Nat} {m : SMap w} (h : smWf m = true) (k j : Nat) (vs : List (BitVec w)) :
    smGet (smWrite m k vs) j = if k ≤ j ∧ j < k + vs.length then (vs[j - k]?).getD 0 else smGet m j := by
  induction vs generalizing m k with
  | nil =>
    rw [if_neg (by simp only [List.length_nil]; omega)]
    rfl
  | cons v vs ih =>
    rw [smWrite, ih (smSet_wf h k v), smGet_smSet h]
    simp only [List.length_cons]
    by_cases h1 : k + 1 ≤ j ∧ j < k + 1 + vs.length
    · have h2 : k ≤ j ∧ j < k + (vs.length + 1) := by omega
      have h3 : j - k = (j - (k + 1)) + 1 := by omega
      rw [if_pos h1, if_pos h2, h3, List.getElem?_cons_succ]
    · rw [if_neg h1]
      by_cases hk : k = j
      · subst hk
        have h2 : k ≤ k ∧ k < k + (vs.length + 1) := by omega
        simp [h2]
      · have h2 : ¬ (k ≤ j ∧ j < k + (vs.length + 1)) := by omega
        simp [hk, h2]

theorem smGet_filter {w : Nat} (m : SMap w) (p : Nat → Bool) (j : Nat) :
    smGet (m.filter fun q => p q.1) j = if p j then smGet m j else 0 := by
  induction m with
  | nil => simp [smGet]
  | cons a m ih =>
    obtain ⟨k, v⟩ := a
    simp only [List.filter_cons]
    by_cases hk : k = j
    · subst hk
      cases hp : p k <;> simp [smGet, hp, ih]
    · cases hp : p k <;> simp [smGet, hk, ih]

/-! ## Tables and lists -/

theorem tabGet_tabMod {α : Type} (m : Table α) (k j : Nat) (f : α → α) :
    tabGet (tabMod m k f) j = if k = j then (tabGet m j).map f else tabGet m j := by
  induction m with
  | nil => simp [tabMod, tabGet]
  | cons p m ih =>
    obtain ⟨k', v⟩ := p
    simp only [tabMod, List.map_cons] at ih ⊢
    by_cases hk : k' = k
    · subst hk
      simp only [if_true, tabGet]
      split
      · simp
      · rename_i h2
        rw [ih, if_neg h2]
    · simp only [hk, if_false, tabGet]
      split
      · rename_i h2
        have : ¬ k = j := by omega
        simp [this]
      · exact ih

theorem tabGet_tabPut {α : Type} (m : Table α) (k j : Nat) (v : α) :
    tabGet (tabPut m k v) j = if k = j then some v else tabGet m j := by
  induction m with
  | nil => simp [tabPut, tabGet]
  | cons p m ih =>
    obtain ⟨k', v'⟩ := p
    simp only [tabPut]
    split
    · simp [tabGet]
    · split
      · rename_i heq
        subst heq
        simp only [tabGet]
        split <;> rfl
      · simp only [tabGet]
        by_cases hk : k' = j
        · have : ¬ k = j := by omega
          simp [hk, this]
        · simp [hk, ih]

theorem listMod_getElem? {α : Type} (l : List α) (i j : Nat) (f : α → α) :
    (listMod l i f)[j]? = if i = j then (l[j]?).map f else l[j]? := by
  induction l generalizing i j with
  | nil => simp [listMod]
  | cons a l ih =>
    cases i with
    | zero => cases j <;> simp [listMod]
    | succ i => cases j <;> simp [listMod, ih]

@[simp] theorem listMod_length {α : Type} (l : List α) (i : Nat) (f : α → α) : (listMod l i f).length = l.length := by
  induction l generalizing i with
  | nil => rfl
  | cons a l ih => cases i <;> simp [listMod, ih]

end Sys2Proof.Machine
end

