-- ==== Sys2Proof/Laws/State.lean ====
section
/-! SUPPORT. One lemma for each field of the state, of a team and of a group after each named update, so that no proof unfolds a
record update. -/
namespace Sys2Proof.Machine

/-! ## Updates of the state -/

@[simp] theorem modGang_time (s : State) (n : Nat) (f : Gang → Gang) : (modGang s n f).time = s.time := rfl
@[simp] theorem modGang_fresh (s : State) (n : Nat) (f : Gang → Gang) : (modGang s n f).fresh = s.fresh := rfl
@[simp] theorem modGang_agenda (s : State) (n : Nat) (f : Gang → Gang) : (modGang s n f).agenda = s.agenda := rfl
@[simp] theorem modGang_focus (s : State) (n : Nat) (f : Gang → Gang) : (modGang s n f).focus = s.focus := rfl
@[simp] theorem modGang_mm (s : State) (n : Nat) (f : Gang → Gang) : (modGang s n f).mm = s.mm := rfl
@[simp] theorem modGang_sw (s : State) (n : Nat) (f : Gang → Gang) : (modGang s n f).sw = s.sw := rfl
@[simp] theorem modGang_pl (s : State) (n : Nat) (f : Gang → Gang) : (modGang s n f).pl = s.pl := rfl

@[simp] theorem modGang_gangs (s : State) (n : Nat) (f : Gang → Gang) : (modGang s n f).wk.gangs = tabMod s.wk.gangs n f := rfl

@[simp] theorem modTeam_time (s : State) (t : TRef) (f : Team → Team) : (modTeam s t f).time = s.time := rfl
@[simp] theorem modTeam_fresh (s : State) (t : TRef) (f : Team → Team) : (modTeam s t f).fresh = s.fresh := rfl
@[simp] theorem modTeam_agenda (s : State) (t : TRef) (f : Team → Team) : (modTeam s t f).agenda = s.agenda := rfl
@[simp] theorem modTeam_focus (s : State) (t : TRef) (f : Team → Team) : (modTeam s t f).focus = s.focus := rfl
@[simp] theorem modTeam_mm (s : State) (t : TRef) (f : Team → Team) : (modTeam s t f).mm = s.mm := rfl
@[simp] theorem modTeam_sw (s : State) (t : TRef) (f : Team → Team) : (modTeam s t f).sw = s.sw := rfl
@[simp] theorem modTeam_pl (s : State) (t : TRef) (f : Team → Team) : (modTeam s t f).pl = s.pl := rfl

@[simp] theorem modGroup_time (s : State) (g : GRef) (f : Group → Group) : (modGroup s g f).time = s.time := rfl
@[simp] theorem modGroup_fresh (s : State) (g : GRef) (f : Group → Group) : (modGroup s g f).fresh = s.fresh := rfl
@[simp] theorem modGroup_agenda (s : State) (g : GRef) (f : Group → Group) : (modGroup s g f).agenda = s.agenda := rfl
@[simp] theorem modGroup_focus (s : State) (g : GRef) (f : Group → Group) : (modGroup s g f).focus = s.focus := rfl
@[simp] theorem modGroup_mm (s : State) (g : GRef) (f : Group → Group) : (modGroup s g f).mm = s.mm := rfl
@[simp] theorem modGroup_sw (s : State) (g : GRef) (f : Group → Group) : (modGroup s g f).sw = s.sw := rfl
@[simp] theorem modGroup_pl (s : State) (g : GRef) (f : Group → Group) : (modGroup s g f).pl = s.pl := rfl

@[simp] theorem setGroup_time (s : State) (g : GRef) (x : Group) : (setGroup s g x).time = s.time := rfl
@[simp] theorem setGroup_fresh (s : State) (g : GRef) (x : Group) : (setGroup s g x).fresh = s.fresh := rfl
@[simp] theorem setGroup_agenda (s : State) (g : GRef) (x : Group) : (setGroup s g x).agenda = s.agenda := rfl
@[simp] theorem setGroup_focus (s : State) (g : GRef) (x : Group) : (setGroup s g x).focus = s.focus := rfl
@[simp] theorem setGroup_mm (s : State) (g : GRef) (x : Group) : (setGroup s g x).mm = s.mm := rfl
@[simp] theorem setGroup_sw (s : State) (g : GRef) (x : Group) : (setGroup s g x).sw = s.sw := rfl
@[simp] theorem setGroup_pl (s : State) (g : GRef) (x : Group) : (setGroup s g x).pl = s.pl := rfl

@[simp] theorem beginWait_time (s : State) (g : GRef) (x : Group) (k : WaitKind) : (beginWait s g x k).time = s.time := rfl
@[simp] theorem beginWait_fresh (s : State) (g : GRef) (x : Group) (k : WaitKind) : (beginWait s g x k).fresh = s.fresh := rfl
@[simp] theorem beginWait_agenda (s : State) (g : GRef) (x : Group) (k : WaitKind) : (beginWait s g x k).agenda = s.agenda := rfl
@[simp] theorem beginWait_focus (s : State) (g : GRef) (x : Group) (k : WaitKind) : (beginWait s g x k).focus = s.focus := rfl
@[simp] theorem beginWait_mm (s : State) (g : GRef) (x : Group) (k : WaitKind) : (beginWait s g x k).mm = s.mm := rfl
@[simp] theorem beginWait_sw (s : State) (g : GRef) (x : Group) (k : WaitKind) : (beginWait s g x k).sw = s.sw := rfl
@[simp] theorem beginWait_pl (s : State) (g : GRef) (x : Group) (k : WaitKind) : (beginWait s g x k).pl = s.pl := rfl

@[simp] theorem modMm_time (s : State) (f : MemSys → MemSys) : (modMm s f).time = s.time := rfl
@[simp] theorem modMm_fresh (s : State) (f : MemSys → MemSys) : (modMm s f).fresh = s.fresh := rfl
@[simp] theorem modMm_agenda (s : State) (f : MemSys → MemSys) : (modMm s f).agenda = s.agenda := rfl
@[simp] theorem modMm_focus (s : State) (f : MemSys → MemSys) : (modMm s f).focus = s.focus := rfl
@[simp] theorem modMm_sw (s : State) (f : MemSys → MemSys) : (modMm s f).sw = s.sw := rfl
@[simp] theorem modMm_wk (s : State) (f : MemSys → MemSys) : (modMm s f).wk = s.wk := rfl
@[simp] theorem modMm_pl (s : State) (f : MemSys → MemSys) : (modMm s f).pl = s.pl := rfl

@[simp] theorem modMm_mm (s : State) (f : MemSys → MemSys) : (modMm s f).mm = f s.mm := rfl

@[simp] theorem modWk_time (s : State) (f : Work → Work) : (modWk s f).time = s.time := rfl
@[simp] theorem modWk_fresh (s : State) (f : Work → Work) : (modWk s f).fresh = s.fresh := rfl
@[simp] theorem modWk_agenda (s : State) (f : Work → Work) : (modWk s f).agenda = s.agenda := rfl
@[simp] theorem modWk_focus (s : State) (f : Work → Work) : (modWk s f).focus = s.focus := rfl
@[simp] theorem modWk_mm (s : State) (f : Work → Work) : (modWk s f).mm = s.mm := rfl
@[simp] theorem modWk_sw (s : State) (f : Work → Work) : (modWk s f).sw = s.sw := rfl
@[simp] theorem modWk_pl (s : State) (f : Work → Work) : (modWk s f).pl = s.pl := rfl

@[simp] theorem modWk_wk (s : State) (f : Work → Work) : (modWk s f).wk = f s.wk := rfl

@[simp] theorem modSw_time (s : State) (f : Sweep → Sweep) : (modSw s f).time = s.time := rfl
@[simp] theorem modSw_fresh (s : State) (f : Sweep → Sweep) : (modSw s f).fresh = s.fresh := rfl
@[simp] theorem modSw_agenda (s : State) (f : Sweep → Sweep) : (modSw s f).agenda = s.agenda := rfl
@[simp] theorem modSw_focus (s : State) (f : Sweep → Sweep) : (modSw s f).focus = s.focus := rfl
@[simp] theorem modSw_mm (s : State) (f : Sweep → Sweep) : (modSw s f).mm = s.mm := rfl
@[simp] theorem modSw_wk (s : State) (f : Sweep → Sweep) : (modSw s f).wk = s.wk := rfl
@[simp] theorem modSw_pl (s : State) (f : Sweep → Sweep) : (modSw s f).pl = s.pl := rfl

@[simp] theorem modSw_sw (s : State) (f : Sweep → Sweep) : (modSw s f).sw = f s.sw := rfl

@[simp] theorem modDev_time (s : State) (f : Regs → Regs) : (modDev s f).time = s.time := rfl
@[simp] theorem modDev_fresh (s : State) (f : Regs → Regs) : (modDev s f).fresh = s.fresh := rfl
@[simp] theorem modDev_agenda (s : State) (f : Regs → Regs) : (modDev s f).agenda = s.agenda := rfl
@[simp] theorem modDev_focus (s : State) (f : Regs → Regs) : (modDev s f).focus = s.focus := rfl
@[simp] theorem modDev_mm (s : State) (f : Regs → Regs) : (modDev s f).mm = s.mm := rfl
@[simp] theorem modDev_sw (s : State) (f : Regs → Regs) : (modDev s f).sw = s.sw := rfl
@[simp] theorem modDev_wk (s : State) (f : Regs → Regs) : (modDev s f).wk = s.wk := rfl

@[simp] theorem modDev_dev (s : State) (f : Regs → Regs) : dev (modDev s f) = f (dev s) := rfl

@[simp] theorem modCluster_time (s : State) (c : Nat) (f : ClusterRegs → ClusterRegs) : (modCluster s c f).time = s.time := rfl
@[simp] theorem modCluster_fresh (s : State) (c : Nat) (f : ClusterRegs → ClusterRegs) : (modCluster s c f).fresh = s.fresh := rfl
@[simp] theorem modCluster_agenda (s : State) (c : Nat) (f : ClusterRegs → ClusterRegs) : (modCluster s c f).agenda = s.agenda := rfl
@[simp] theorem modCluster_focus (s : State) (c : Nat) (f : ClusterRegs → ClusterRegs) : (modCluster s c f).focus = s.focus := rfl
@[simp] theorem modCluster_mm (s : State) (c : Nat) (f : ClusterRegs → ClusterRegs) : (modCluster s c f).mm = s.mm := rfl
@[simp] theorem modCluster_sw (s : State) (c : Nat) (f : ClusterRegs → ClusterRegs) : (modCluster s c f).sw = s.sw := rfl
@[simp] theorem modCluster_wk (s : State) (c : Nat) (f : ClusterRegs → ClusterRegs) : (modCluster s c f).wk = s.wk := rfl

@[simp] theorem putHome_time (s : State) (l : Nat) (h : Home) : (putHome s l h).time = s.time := rfl
@[simp] theorem putHome_fresh (s : State) (l : Nat) (h : Home) : (putHome s l h).fresh = s.fresh := rfl
@[simp] theorem putHome_agenda (s : State) (l : Nat) (h : Home) : (putHome s l h).agenda = s.agenda := rfl
@[simp] theorem putHome_focus (s : State) (l : Nat) (h : Home) : (putHome s l h).focus = s.focus := rfl
@[simp] theorem putHome_sw (s : State) (l : Nat) (h : Home) : (putHome s l h).sw = s.sw := rfl
@[simp] theorem putHome_wk (s : State) (l : Nat) (h : Home) : (putHome s l h).wk = s.wk := rfl
@[simp] theorem putHome_pl (s : State) (l : Nat) (h : Home) : (putHome s l h).pl = s.pl := rfl

@[simp] theorem takeFresh_time (s : State) : (takeFresh s).2.time = s.time := rfl
@[simp] theorem takeFresh_agenda (s : State) : (takeFresh s).2.agenda = s.agenda := rfl
@[simp] theorem takeFresh_focus (s : State) : (takeFresh s).2.focus = s.focus := rfl
@[simp] theorem takeFresh_mm (s : State) : (takeFresh s).2.mm = s.mm := rfl
@[simp] theorem takeFresh_sw (s : State) : (takeFresh s).2.sw = s.sw := rfl
@[simp] theorem takeFresh_wk (s : State) : (takeFresh s).2.wk = s.wk := rfl
@[simp] theorem takeFresh_pl (s : State) : (takeFresh s).2.pl = s.pl := rfl
@[simp] theorem takeFresh_number (s : State) : (takeFresh s).1 = s.fresh := rfl
@[simp] theorem takeFresh_fresh (s : State) : (takeFresh s).2.fresh = s.fresh + 1 := rfl

/-! ## Updates of a group -/

@[simp] theorem advance_width (x : Group) : (advance x).width = x.width := by unfold advance; split <;> rfl
@[simp] theorem advance_copyRole (x : Group) : (advance x).copyRole = x.copyRole := by unfold advance; split <;> rfl
@[simp] theorem advance_live (x : Group) : (advance x).live = x.live := by unfold advance; split <;> rfl
@[simp] theorem advance_v (x : Group) : (advance x).v = x.v := by unfold advance; split <;> rfl
@[simp] theorem advance_s (x : Group) : (advance x).s = x.s := by unfold advance; split <;> rfl
@[simp] theorem advance_k (x : Group) : (advance x).k = x.k := by unfold advance; split <;> rfl
@[simp] theorem advance_routes (x : Group) : (advance x).routes = x.routes := by unfold advance; split <;> rfl
@[simp] theorem advance_wbase (x : Group) : (advance x).wbase = x.wbase := by unfold advance; split <;> rfl
@[simp] theorem advance_owned (x : Group) : (advance x).owned = x.owned := by unfold advance; split <;> rfl
@[simp] theorem advance_blocks (x : Group) : (advance x).blocks = x.blocks := by unfold advance; split <;> rfl
@[simp] theorem advance_queue (x : Group) : (advance x).queue = x.queue := by unfold advance; split <;> rfl
@[simp] theorem advance_loads (x : Group) : (advance x).loads = x.loads := by unfold advance; split <;> rfl
@[simp] theorem advance_stores (x : Group) : (advance x).stores = x.stores := by unfold advance; split <;> rfl
@[simp] theorem advance_tiles (x : Group) : (advance x).tiles = x.tiles := by unfold advance; split <;> rfl
@[simp] theorem advance_copies (x : Group) : (advance x).copies = x.copies := by unfold advance; split <;> rfl
@[simp] theorem advance_bankCmds (x : Group) : (advance x).bankCmds = x.bankCmds := by unfold advance; split <;> rfl
@[simp] theorem advance_cause (x : Group) : (advance x).cause = x.cause := by unfold advance; split <;> rfl
@[simp] theorem advance_skid (x : Group) : (advance x).skid = x.skid := by unfold advance; split <;> rfl
@[simp] theorem advance_epc (x : Group) : (advance x).epc = x.epc := by unfold advance; split <;> rfl
@[simp] theorem advance_lct (x : Group) : (advance x).lct = x.lct := by unfold advance; split <;> rfl
@[simp] theorem advance_acq (x : Group) : (advance x).acq = x.acq := by unfold advance; split <;> rfl
@[simp] theorem advance_bubbles (x : Group) : (advance x).bubbles = x.bubbles := by unfold advance; split <;> rfl
@[simp] theorem advance_aging (x : Group) : (advance x).aging = x.aging := by unfold advance; split <;> rfl
@[simp] theorem advance_agedAt (x : Group) : (advance x).agedAt = x.agedAt := by unfold advance; split <;> rfl
@[simp] theorem advance_yielded (x : Group) : (advance x).yielded = x.yielded := by unfold advance; split <;> rfl
@[simp] theorem advance_phases (x : Group) : (advance x).phases = x.phases := by unfold advance; split <;> rfl
@[simp] theorem advance_wait (x : Group) : (advance x).wait = x.wait := by unfold advance; split <;> rfl
@[simp] theorem advance_parked (x : Group) : (advance x).parked = x.parked := by unfold advance; split <;> rfl
@[simp] theorem advance_halted (x : Group) : (advance x).halted = x.halted := by unfold advance; split <;> rfl
@[simp] theorem advance_frozen (x : Group) : (advance x).frozen = x.frozen := by unfold advance; split <;> rfl
@[simp] theorem advance_pendingS (x : Group) : (advance x).pendingS = x.pendingS := by unfold advance; split <;> rfl
@[simp] theorem advance_body (x : Group) : (advance x).body = x.body := by unfold advance; split <;> rfl
@[simp] theorem advance_retired (x : Group) : (advance x).retired = x.retired := by unfold advance; split <;> rfl
@[simp] theorem advance_reading (x : Group) : (advance x).reading = x.reading := by unfold advance; split <;> rfl
@[simp] theorem advance_point (x : Group) : (advance x).point = x.point := by unfold advance; split <;> rfl
@[simp] theorem advance_frames (x : Group) : (advance x).frames = x.frames := by unfold advance; split <;> rfl
@[simp] theorem advance_cancelled (x : Group) : (advance x).cancelled = x.cancelled := by unfold advance; split <;> rfl
@[simp] theorem advance_results (x : Group) : (advance x).results = x.results := by unfold advance; split <;> rfl
@[simp] theorem advance_staged (x : Group) : (advance x).staged = x.staged := by unfold advance; split <;> rfl

@[simp] theorem retarget_width (x : Group) (p : BitVec 8) (pc : BitVec 56) : (retarget x p pc).width = x.width := by unfold retarget; split <;> rfl
@[simp] theorem retarget_copyRole (x : Group) (p : BitVec 8) (pc : BitVec 56) : (retarget x p pc).copyRole = x.copyRole := by unfold retarget; split <;> rfl
@[simp] theorem retarget_live (x : Group) (p : BitVec 8) (pc : BitVec 56) : (retarget x p pc).live = x.live := by unfold retarget; split <;> rfl
@[simp] theorem retarget_v (x : Group) (p : BitVec 8) (pc : BitVec 56) : (retarget x p pc).v = x.v := by unfold retarget; split <;> rfl
@[simp] theorem retarget_s (x : Group) (p : BitVec 8) (pc : BitVec 56) : (retarget x p pc).s = x.s := by unfold retarget; split <;> rfl
@[simp] theorem retarget_k (x : Group) (p : BitVec 8) (pc : BitVec 56) : (retarget x p pc).k = x.k := by unfold retarget; split <;> rfl
@[simp] theorem retarget_routes (x : Group) (p : BitVec 8) (pc : BitVec 56) : (retarget x p pc).routes = x.routes := by unfold retarget; split <;> rfl
@[simp] theorem retarget_wbase (x : Group) (p : BitVec 8) (pc : BitVec 56) : (retarget x p pc).wbase = x.wbase := by unfold retarget; split <;> rfl
@[simp] theorem retarget_owned (x : Group) (p : BitVec 8) (pc : BitVec 56) : (retarget x p pc).owned = x.owned := by unfold retarget; split <;> rfl
@[simp] theorem retarget_blocks (x : Group) (p : BitVec 8) (pc : BitVec 56) : (retarget x p pc).blocks = x.blocks := by unfold retarget; split <;> rfl
@[simp] theorem retarget_queue (x : Group) (p : BitVec 8) (pc : BitVec 56) : (retarget x p pc).queue = x.queue := by unfold retarget; split <;> rfl
@[simp] theorem retarget_loads (x : Group) (p : BitVec 8) (pc : BitVec 56) : (retarget x p pc).loads = x.loads := by unfold retarget; split <;> rfl
@[simp] theorem retarget_stores (x : Group) (p : BitVec 8) (pc : BitVec 56) : (retarget x p pc).stores = x.stores := by unfold retarget; split <;> rfl
@[simp] theorem retarget_tiles (x : Group) (p : BitVec 8) (pc : BitVec 56) : (retarget x p pc).tiles = x.tiles := by unfold retarget; split <;> rfl
@[simp] theorem retarget_copies (x : Group) (p : BitVec 8) (pc : BitVec 56) : (retarget x p pc).copies = x.copies := by unfold retarget; split <;> rfl
@[simp] theorem retarget_bankCmds (x : Group) (p : BitVec 8) (pc : BitVec 56) : (retarget x p pc).bankCmds = x.bankCmds := by unfold retarget; split <;> rfl
@[simp] theorem retarget_cause (x : Group) (p : BitVec 8) (pc : BitVec 56) : (retarget x p pc).cause = x.cause := by unfold retarget; split <;> rfl
@[simp] theorem retarget_skid (x : Group) (p : BitVec 8) (pc : BitVec 56) : (retarget x p pc).skid = x.skid := by unfold retarget; split <;> rfl
@[simp] theorem retarget_epc (x : Group) (p : BitVec 8) (pc : BitVec 56) : (retarget x p pc).epc = x.epc := by unfold retarget; split <;> rfl
@[simp] theorem retarget_lct (x : Group) (p : BitVec 8) (pc : BitVec 56) : (retarget x p pc).lct = x.lct := by unfold retarget; split <;> rfl
@[simp] theorem retarget_acq (x : Group) (p : BitVec 8) (pc : BitVec 56) : (retarget x p pc).acq = x.acq := by unfold retarget; split <;> rfl
@[simp] theorem retarget_bubbles (x : Group) (p : BitVec 8) (pc : BitVec 56) : (retarget x p pc).bubbles = x.bubbles := by unfold retarget; split <;> rfl
@[simp] theorem retarget_aging (x : Group) (p : BitVec 8) (pc : BitVec 56) : (retarget x p pc).aging = x.aging := by unfold retarget; split <;> rfl
@[simp] theorem retarget_agedAt (x : Group) (p : BitVec 8) (pc : BitVec 56) : (retarget x p pc).agedAt = x.agedAt := by unfold retarget; split <;> rfl
@[simp] theorem retarget_yielded (x : Group) (p : BitVec 8) (pc : BitVec 56) : (retarget x p pc).yielded = x.yielded := by unfold retarget; split <;> rfl
@[simp] theorem retarget_phases (x : Group) (p : BitVec 8) (pc : BitVec 56) : (retarget x p pc).phases = x.phases := by unfold retarget; split <;> rfl
@[simp] theorem retarget_wait (x : Group) (p : BitVec 8) (pc : BitVec 56) : (retarget x p pc).wait = x.wait := by unfold retarget; split <;> rfl
@[simp] theorem retarget_parked (x : Group) (p : BitVec 8) (pc : BitVec 56) : (retarget x p pc).parked = x.parked := by unfold retarget; split <;> rfl
@[simp] theorem retarget_halted (x : Group) (p : BitVec 8) (pc : BitVec 56) : (retarget x p pc).halted = x.halted := by unfold retarget; split <;> rfl
@[simp] theorem retarget_frozen (x : Group) (p : BitVec 8) (pc : BitVec 56) : (retarget x p pc).frozen = x.frozen := by unfold retarget; split <;> rfl
@[simp] theorem retarget_pendingS (x : Group) (p : BitVec 8) (pc : BitVec 56) : (retarget x p pc).pendingS = x.pendingS := by unfold retarget; split <;> rfl
@[simp] theorem retarget_body (x : Group) (p : BitVec 8) (pc : BitVec 56) : (retarget x p pc).body = x.body := by unfold retarget; split <;> rfl
@[simp] theorem retarget_retired (x : Group) (p : BitVec 8) (pc : BitVec 56) : (retarget x p pc).retired = x.retired := by unfold retarget; split <;> rfl
@[simp] theorem retarget_reading (x : Group) (p : BitVec 8) (pc : BitVec 56) : (retarget x p pc).reading = x.reading := by unfold retarget; split <;> rfl
@[simp] theorem retarget_point (x : Group) (p : BitVec 8) (pc : BitVec 56) : (retarget x p pc).point = x.point := by unfold retarget; split <;> rfl
@[simp] theorem retarget_frames (x : Group) (p : BitVec 8) (pc : BitVec 56) : (retarget x p pc).frames = x.frames := by unfold retarget; split <;> rfl
@[simp] theorem retarget_cancelled (x : Group) (p : BitVec 8) (pc : BitVec 56) : (retarget x p pc).cancelled = x.cancelled := by unfold retarget; split <;> rfl
@[simp] theorem retarget_results (x : Group) (p : BitVec 8) (pc : BitVec 56) : (retarget x p pc).results = x.results := by unfold retarget; split <;> rfl
@[simp] theorem retarget_staged (x : Group) (p : BitVec 8) (pc : BitVec 56) : (retarget x p pc).staged = x.staged := by unfold retarget; split <;> rfl

@[simp] theorem endWait_width (x : Group) : (endWait x).width = x.width := rfl
@[simp] theorem endWait_copyRole (x : Group) : (endWait x).copyRole = x.copyRole := rfl
@[simp] theorem endWait_frontier (x : Group) : (endWait x).frontier = x.frontier := rfl
@[simp] theorem endWait_live (x : Group) : (endWait x).live = x.live := rfl
@[simp] theorem endWait_v (x : Group) : (endWait x).v = x.v := rfl
@[simp] theorem endWait_s (x : Group) : (endWait x).s = x.s := rfl
@[simp] theorem endWait_k (x : Group) : (endWait x).k = x.k := rfl
@[simp] theorem endWait_routes (x : Group) : (endWait x).routes = x.routes := rfl
@[simp] theorem endWait_wbase (x : Group) : (endWait x).wbase = x.wbase := rfl
@[simp] theorem endWait_owned (x : Group) : (endWait x).owned = x.owned := rfl
@[simp] theorem endWait_blocks (x : Group) : (endWait x).blocks = x.blocks := rfl
@[simp] theorem endWait_queue (x : Group) : (endWait x).queue = x.queue := rfl
@[simp] theorem endWait_loads (x : Group) : (endWait x).loads = x.loads := rfl
@[simp] theorem endWait_stores (x : Group) : (endWait x).stores = x.stores := rfl
@[simp] theorem endWait_tiles (x : Group) : (endWait x).tiles = x.tiles := rfl
@[simp] theorem endWait_copies (x : Group) : (endWait x).copies = x.copies := rfl
@[simp] theorem endWait_bankCmds (x : Group) : (endWait x).bankCmds = x.bankCmds := rfl
@[simp] theorem endWait_cause (x : Group) : (endWait x).cause = x.cause := rfl
@[simp] theorem endWait_skid (x : Group) : (endWait x).skid = x.skid := rfl
@[simp] theorem endWait_epc (x : Group) : (endWait x).epc = x.epc := rfl
@[simp] theorem endWait_lct (x : Group) : (endWait x).lct = x.lct := rfl
@[simp] theorem endWait_acq (x : Group) : (endWait x).acq = x.acq := rfl
@[simp] theorem endWait_bubbles (x : Group) : (endWait x).bubbles = x.bubbles := rfl
@[simp] theorem endWait_aging (x : Group) : (endWait x).aging = x.aging := rfl
@[simp] theorem endWait_agedAt (x : Group) : (endWait x).agedAt = x.agedAt := rfl
@[simp] theorem endWait_yielded (x : Group) : (endWait x).yielded = x.yielded := rfl
@[simp] theorem endWait_phases (x : Group) : (endWait x).phases = x.phases := rfl
@[simp] theorem endWait_parked (x : Group) : (endWait x).parked = x.parked := rfl
@[simp] theorem endWait_halted (x : Group) : (endWait x).halted = x.halted := rfl
@[simp] theorem endWait_frozen (x : Group) : (endWait x).frozen = x.frozen := rfl
@[simp] theorem endWait_pendingS (x : Group) : (endWait x).pendingS = x.pendingS := rfl
@[simp] theorem endWait_body (x : Group) : (endWait x).body = x.body := rfl
@[simp] theorem endWait_retired (x : Group) : (endWait x).retired = x.retired := rfl
@[simp] theorem endWait_reading (x : Group) : (endWait x).reading = x.reading := rfl
@[simp] theorem endWait_point (x : Group) : (endWait x).point = x.point := rfl
@[simp] theorem endWait_frames (x : Group) : (endWait x).frames = x.frames := rfl
@[simp] theorem endWait_cancelled (x : Group) : (endWait x).cancelled = x.cancelled := rfl
@[simp] theorem endWait_results (x : Group) : (endWait x).results = x.results := rfl
@[simp] theorem endWait_staged (x : Group) : (endWait x).staged = x.staged := rfl

@[simp] theorem sSet_width (x : Group) (r : SReg) (v : Word64) : (sSet x r v).width = x.width := by unfold sSet; split <;> rfl
@[simp] theorem sSet_copyRole (x : Group) (r : SReg) (v : Word64) : (sSet x r v).copyRole = x.copyRole := by unfold sSet; split <;> rfl
@[simp] theorem sSet_frontier (x : Group) (r : SReg) (v : Word64) : (sSet x r v).frontier = x.frontier := by unfold sSet; split <;> rfl
@[simp] theorem sSet_live (x : Group) (r : SReg) (v : Word64) : (sSet x r v).live = x.live := by unfold sSet; split <;> rfl
@[simp] theorem sSet_v (x : Group) (r : SReg) (v : Word64) : (sSet x r v).v = x.v := by unfold sSet; split <;> rfl
@[simp] theorem sSet_k (x : Group) (r : SReg) (v : Word64) : (sSet x r v).k = x.k := by unfold sSet; split <;> rfl
@[simp] theorem sSet_routes (x : Group) (r : SReg) (v : Word64) : (sSet x r v).routes = x.routes := by unfold sSet; split <;> rfl
@[simp] theorem sSet_wbase (x : Group) (r : SReg) (v : Word64) : (sSet x r v).wbase = x.wbase := by unfold sSet; split <;> rfl
@[simp] theorem sSet_owned (x : Group) (r : SReg) (v : Word64) : (sSet x r v).owned = x.owned := by unfold sSet; split <;> rfl
@[simp] theorem sSet_blocks (x : Group) (r : SReg) (v : Word64) : (sSet x r v).blocks = x.blocks := by unfold sSet; split <;> rfl
@[simp] theorem sSet_queue (x : Group) (r : SReg) (v : Word64) : (sSet x r v).queue = x.queue := by unfold sSet; split <;> rfl
@[simp] theorem sSet_loads (x : Group) (r : SReg) (v : Word64) : (sSet x r v).loads = x.loads := by unfold sSet; split <;> rfl
@[simp] theorem sSet_stores (x : Group) (r : SReg) (v : Word64) : (sSet x r v).stores = x.stores := by unfold sSet; split <;> rfl
@[simp] theorem sSet_tiles (x : Group) (r : SReg) (v : Word64) : (sSet x r v).tiles = x.tiles := by unfold sSet; split <;> rfl
@[simp] theorem sSet_copies (x : Group) (r : SReg) (v : Word64) : (sSet x r v).copies = x.copies := by unfold sSet; split <;> rfl
@[simp] theorem sSet_bankCmds (x : Group) (r : SReg) (v : Word64) : (sSet x r v).bankCmds = x.bankCmds := by unfold sSet; split <;> rfl
@[simp] theorem sSet_cause (x : Group) (r : SReg) (v : Word64) : (sSet x r v).cause = x.cause := by unfold sSet; split <;> rfl
@[simp] theorem sSet_skid (x : Group) (r : SReg) (v : Word64) : (sSet x r v).skid = x.skid := by unfold sSet; split <;> rfl
@[simp] theorem sSet_epc (x : Group) (r : SReg) (v : Word64) : (sSet x r v).epc = x.epc := by unfold sSet; split <;> rfl
@[simp] theorem sSet_lct (x : Group) (r : SReg) (v : Word64) : (sSet x r v).lct = x.lct := by unfold sSet; split <;> rfl
@[simp] theorem sSet_acq (x : Group) (r : SReg) (v : Word64) : (sSet x r v).acq = x.acq := by unfold sSet; split <;> rfl
@[simp] theorem sSet_bubbles (x : Group) (r : SReg) (v : Word64) : (sSet x r v).bubbles = x.bubbles := by unfold sSet; split <;> rfl
@[simp] theorem sSet_aging (x : Group) (r : SReg) (v : Word64) : (sSet x r v).aging = x.aging := by unfold sSet; split <;> rfl
@[simp] theorem sSet_agedAt (x : Group) (r : SReg) (v : Word64) : (sSet x r v).agedAt = x.agedAt := by unfold sSet; split <;> rfl
@[simp] theorem sSet_yielded (x : Group) (r : SReg) (v : Word64) : (sSet x r v).yielded = x.yielded := by unfold sSet; split <;> rfl
@[simp] theorem sSet_phases (x : Group) (r : SReg) (v : Word64) : (sSet x r v).phases = x.phases := by unfold sSet; split <;> rfl
@[simp] theorem sSet_wait (x : Group) (r : SReg) (v : Word64) : (sSet x r v).wait = x.wait := by unfold sSet; split <;> rfl
@[simp] theorem sSet_parked (x : Group) (r : SReg) (v : Word64) : (sSet x r v).parked = x.parked := by unfold sSet; split <;> rfl
@[simp] theorem sSet_halted (x : Group) (r : SReg) (v : Word64) : (sSet x r v).halted = x.halted := by unfold sSet; split <;> rfl
@[simp] theorem sSet_frozen (x : Group) (r : SReg) (v : Word64) : (sSet x r v).frozen = x.frozen := by unfold sSet; split <;> rfl
@[simp] theorem sSet_pendingS (x : Group) (r : SReg) (v : Word64) : (sSet x r v).pendingS = x.pendingS := by unfold sSet; split <;> rfl
@[simp] theorem sSet_body (x : Group) (r : SReg) (v : Word64) : (sSet x r v).body = x.body := by unfold sSet; split <;> rfl
@[simp] theorem sSet_retired (x : Group) (r : SReg) (v : Word64) : (sSet x r v).retired = x.retired := by unfold sSet; split <;> rfl
@[simp] theorem sSet_reading (x : Group) (r : SReg) (v : Word64) : (sSet x r v).reading = x.reading := by unfold sSet; split <;> rfl
@[simp] theorem sSet_point (x : Group) (r : SReg) (v : Word64) : (sSet x r v).point = x.point := by unfold sSet; split <;> rfl
@[simp] theorem sSet_frames (x : Group) (r : SReg) (v : Word64) : (sSet x r v).frames = x.frames := by unfold sSet; split <;> rfl
@[simp] theorem sSet_cancelled (x : Group) (r : SReg) (v : Word64) : (sSet x r v).cancelled = x.cancelled := by unfold sSet; split <;> rfl
@[simp] theorem sSet_results (x : Group) (r : SReg) (v : Word64) : (sSet x r v).results = x.results := by unfold sSet; split <;> rfl
@[simp] theorem sSet_staged (x : Group) (r : SReg) (v : Word64) : (sSet x r v).staged = x.staged := by unfold sSet; split <;> rfl

@[simp] theorem kSet_width (x : Group) (k : Nat) (m : Mask) : (kSet x k m).width = x.width := by unfold kSet; split <;> rfl
@[simp] theorem kSet_copyRole (x : Group) (k : Nat) (m : Mask) : (kSet x k m).copyRole = x.copyRole := by unfold kSet; split <;> rfl
@[simp] theorem kSet_frontier (x : Group) (k : Nat) (m : Mask) : (kSet x k m).frontier = x.frontier := by unfold kSet; split <;> rfl
@[simp] theorem kSet_live (x : Group) (k : Nat) (m : Mask) : (kSet x k m).live = x.live := by unfold kSet; split <;> rfl
@[simp] theorem kSet_v (x : Group) (k : Nat) (m : Mask) : (kSet x k m).v = x.v := by unfold kSet; split <;> rfl
@[simp] theorem kSet_s (x : Group) (k : Nat) (m : Mask) : (kSet x k m).s = x.s := by unfold kSet; split <;> rfl
@[simp] theorem kSet_routes (x : Group) (k : Nat) (m : Mask) : (kSet x k m).routes = x.routes := by unfold kSet; split <;> rfl
@[simp] theorem kSet_wbase (x : Group) (k : Nat) (m : Mask) : (kSet x k m).wbase = x.wbase := by unfold kSet; split <;> rfl
@[simp] theorem kSet_owned (x : Group) (k : Nat) (m : Mask) : (kSet x k m).owned = x.owned := by unfold kSet; split <;> rfl
@[simp] theorem kSet_blocks (x : Group) (k : Nat) (m : Mask) : (kSet x k m).blocks = x.blocks := by unfold kSet; split <;> rfl
@[simp] theorem kSet_queue (x : Group) (k : Nat) (m : Mask) : (kSet x k m).queue = x.queue := by unfold kSet; split <;> rfl
@[simp] theorem kSet_loads (x : Group) (k : Nat) (m : Mask) : (kSet x k m).loads = x.loads := by unfold kSet; split <;> rfl
@[simp] theorem kSet_stores (x : Group) (k : Nat) (m : Mask) : (kSet x k m).stores = x.stores := by unfold kSet; split <;> rfl
@[simp] theorem kSet_tiles (x : Group) (k : Nat) (m : Mask) : (kSet x k m).tiles = x.tiles := by unfold kSet; split <;> rfl
@[simp] theorem kSet_copies (x : Group) (k : Nat) (m : Mask) : (kSet x k m).copies = x.copies := by unfold kSet; split <;> rfl
@[simp] theorem kSet_bankCmds (x : Group) (k : Nat) (m : Mask) : (kSet x k m).bankCmds = x.bankCmds := by unfold kSet; split <;> rfl
@[simp] theorem kSet_cause (x : Group) (k : Nat) (m : Mask) : (kSet x k m).cause = x.cause := by unfold kSet; split <;> rfl
@[simp] theorem kSet_skid (x : Group) (k : Nat) (m : Mask) : (kSet x k m).skid = x.skid := by unfold kSet; split <;> rfl
@[simp] theorem kSet_epc (x : Group) (k : Nat) (m : Mask) : (kSet x k m).epc = x.epc := by unfold kSet; split <;> rfl
@[simp] theorem kSet_lct (x : Group) (k : Nat) (m : Mask) : (kSet x k m).lct = x.lct := by unfold kSet; split <;> rfl
@[simp] theorem kSet_acq (x : Group) (k : Nat) (m : Mask) : (kSet x k m).acq = x.acq := by unfold kSet; split <;> rfl
@[simp] theorem kSet_bubbles (x : Group) (k : Nat) (m : Mask) : (kSet x k m).bubbles = x.bubbles := by unfold kSet; split <;> rfl
@[simp] theorem kSet_aging (x : Group) (k : Nat) (m : Mask) : (kSet x k m).aging = x.aging := by unfold kSet; split <;> rfl
@[simp] theorem kSet_agedAt (x : Group) (k : Nat) (m : Mask) : (kSet x k m).agedAt = x.agedAt := by unfold kSet; split <;> rfl
@[simp] theorem kSet_yielded (x : Group) (k : Nat) (m : Mask) : (kSet x k m).yielded = x.yielded := by unfold kSet; split <;> rfl
@[simp] theorem kSet_phases (x : Group) (k : Nat) (m : Mask) : (kSet x k m).phases = x.phases := by unfold kSet; split <;> rfl
@[simp] theorem kSet_wait (x : Group) (k : Nat) (m : Mask) : (kSet x k m).wait = x.wait := by unfold kSet; split <;> rfl
@[simp] theorem kSet_parked (x : Group) (k : Nat) (m : Mask) : (kSet x k m).parked = x.parked := by unfold kSet; split <;> rfl
@[simp] theorem kSet_halted (x : Group) (k : Nat) (m : Mask) : (kSet x k m).halted = x.halted := by unfold kSet; split <;> rfl
@[simp] theorem kSet_frozen (x : Group) (k : Nat) (m : Mask) : (kSet x k m).frozen = x.frozen := by unfold kSet; split <;> rfl
@[simp] theorem kSet_pendingS (x : Group) (k : Nat) (m : Mask) : (kSet x k m).pendingS = x.pendingS := by unfold kSet; split <;> rfl
@[simp] theorem kSet_body (x : Group) (k : Nat) (m : Mask) : (kSet x k m).body = x.body := by unfold kSet; split <;> rfl
@[simp] theorem kSet_retired (x : Group) (k : Nat) (m : Mask) : (kSet x k m).retired = x.retired := by unfold kSet; split <;> rfl
@[simp] theorem kSet_reading (x : Group) (k : Nat) (m : Mask) : (kSet x k m).reading = x.reading := by unfold kSet; split <;> rfl
@[simp] theorem kSet_point (x : Group) (k : Nat) (m : Mask) : (kSet x k m).point = x.point := by unfold kSet; split <;> rfl
@[simp] theorem kSet_frames (x : Group) (k : Nat) (m : Mask) : (kSet x k m).frames = x.frames := by unfold kSet; split <;> rfl
@[simp] theorem kSet_cancelled (x : Group) (k : Nat) (m : Mask) : (kSet x k m).cancelled = x.cancelled := by unfold kSet; split <;> rfl
@[simp] theorem kSet_results (x : Group) (k : Nat) (m : Mask) : (kSet x k m).results = x.results := by unfold kSet; split <;> rfl
@[simp] theorem kSet_staged (x : Group) (k : Nat) (m : Mask) : (kSet x k m).staged = x.staged := by unfold kSet; split <;> rfl

@[simp] theorem enqueue_width (x : Group) (r : Nat) : (enqueue x r).width = x.width := rfl
@[simp] theorem enqueue_copyRole (x : Group) (r : Nat) : (enqueue x r).copyRole = x.copyRole := rfl
@[simp] theorem enqueue_frontier (x : Group) (r : Nat) : (enqueue x r).frontier = x.frontier := rfl
@[simp] theorem enqueue_live (x : Group) (r : Nat) : (enqueue x r).live = x.live := rfl
@[simp] theorem enqueue_v (x : Group) (r : Nat) : (enqueue x r).v = x.v := rfl
@[simp] theorem enqueue_s (x : Group) (r : Nat) : (enqueue x r).s = x.s := rfl
@[simp] theorem enqueue_k (x : Group) (r : Nat) : (enqueue x r).k = x.k := rfl
@[simp] theorem enqueue_routes (x : Group) (r : Nat) : (enqueue x r).routes = x.routes := rfl
@[simp] theorem enqueue_wbase (x : Group) (r : Nat) : (enqueue x r).wbase = x.wbase := rfl
@[simp] theorem enqueue_owned (x : Group) (r : Nat) : (enqueue x r).owned = x.owned := rfl
@[simp] theorem enqueue_blocks (x : Group) (r : Nat) : (enqueue x r).blocks = x.blocks := rfl
@[simp] theorem enqueue_loads (x : Group) (r : Nat) : (enqueue x r).loads = x.loads := rfl
@[simp] theorem enqueue_stores (x : Group) (r : Nat) : (enqueue x r).stores = x.stores := rfl
@[simp] theorem enqueue_tiles (x : Group) (r : Nat) : (enqueue x r).tiles = x.tiles := rfl
@[simp] theorem enqueue_copies (x : Group) (r : Nat) : (enqueue x r).copies = x.copies := rfl
@[simp] theorem enqueue_bankCmds (x : Group) (r : Nat) : (enqueue x r).bankCmds = x.bankCmds := rfl
@[simp] theorem enqueue_cause (x : Group) (r : Nat) : (enqueue x r).cause = x.cause := rfl
@[simp] theorem enqueue_skid (x : Group) (r : Nat) : (enqueue x r).skid = x.skid := rfl
@[simp] theorem enqueue_epc (x : Group) (r : Nat) : (enqueue x r).epc = x.epc := rfl
@[simp] theorem enqueue_lct (x : Group) (r : Nat) : (enqueue x r).lct = x.lct := rfl
@[simp] theorem enqueue_acq (x : Group) (r : Nat) : (enqueue x r).acq = x.acq := rfl
@[simp] theorem enqueue_bubbles (x : Group) (r : Nat) : (enqueue x r).bubbles = x.bubbles := rfl
@[simp] theorem enqueue_aging (x : Group) (r : Nat) : (enqueue x r).aging = x.aging := rfl
@[simp] theorem enqueue_agedAt (x : Group) (r : Nat) : (enqueue x r).agedAt = x.agedAt := rfl
@[simp] theorem enqueue_yielded (x : Group) (r : Nat) : (enqueue x r).yielded = x.yielded := rfl
@[simp] theorem enqueue_phases (x : Group) (r : Nat) : (enqueue x r).phases = x.phases := rfl
@[simp] theorem enqueue_wait (x : Group) (r : Nat) : (enqueue x r).wait = x.wait := rfl
@[simp] theorem enqueue_parked (x : Group) (r : Nat) : (enqueue x r).parked = x.parked := rfl
@[simp] theorem enqueue_halted (x : Group) (r : Nat) : (enqueue x r).halted = x.halted := rfl
@[simp] theorem enqueue_frozen (x : Group) (r : Nat) : (enqueue x r).frozen = x.frozen := rfl
@[simp] theorem enqueue_pendingS (x : Group) (r : Nat) : (enqueue x r).pendingS = x.pendingS := rfl
@[simp] theorem enqueue_body (x : Group) (r : Nat) : (enqueue x r).body = x.body := rfl
@[simp] theorem enqueue_retired (x : Group) (r : Nat) : (enqueue x r).retired = x.retired := rfl
@[simp] theorem enqueue_reading (x : Group) (r : Nat) : (enqueue x r).reading = x.reading := rfl
@[simp] theorem enqueue_point (x : Group) (r : Nat) : (enqueue x r).point = x.point := rfl
@[simp] theorem enqueue_frames (x : Group) (r : Nat) : (enqueue x r).frames = x.frames := rfl
@[simp] theorem enqueue_cancelled (x : Group) (r : Nat) : (enqueue x r).cancelled = x.cancelled := rfl
@[simp] theorem enqueue_results (x : Group) (r : Nat) : (enqueue x r).results = x.results := rfl
@[simp] theorem enqueue_staged (x : Group) (r : Nat) : (enqueue x r).staged = x.staged := rfl

@[simp] theorem enqueueAll_width (rs : List Nat) (x : Group) : (rs.foldl enqueue x).width = x.width := by
  induction rs generalizing x with
  | nil => rfl
  | cons r rs ih => exact ih (enqueue x r)
@[simp] theorem enqueueAll_copyRole (rs : List Nat) (x : Group) : (rs.foldl enqueue x).copyRole = x.copyRole := by
  induction rs generalizing x with
  | nil => rfl
  | cons r rs ih => exact ih (enqueue x r)
@[simp] theorem enqueueAll_frontier (rs : List Nat) (x : Group) : (rs.foldl enqueue x).frontier = x.frontier := by
  induction rs generalizing x with
  | nil => rfl
  | cons r rs ih => exact ih (enqueue x r)
@[simp] theorem enqueueAll_live (rs : List Nat) (x : Group) : (rs.foldl enqueue x).live = x.live := by
  induction rs generalizing x with
  | nil => rfl
  | cons r rs ih => exact ih (enqueue x r)
@[simp] theorem enqueueAll_v (rs : List Nat) (x : Group) : (rs.foldl enqueue x).v = x.v := by
  induction rs generalizing x with
  | nil => rfl
  | cons r rs ih => exact ih (enqueue x r)
@[simp] theorem enqueueAll_s (rs : List Nat) (x : Group) : (rs.foldl enqueue x).s = x.s := by
  induction rs generalizing x with
  | nil => rfl
  | cons r rs ih => exact ih (enqueue x r)
@[simp] theorem enqueueAll_k (rs : List Nat) (x : Group) : (rs.foldl enqueue x).k = x.k := by
  induction rs generalizing x with
  | nil => rfl
  | cons r rs ih => exact ih (enqueue x r)
@[simp] theorem enqueueAll_routes (rs : List Nat) (x : Group) : (rs.foldl enqueue x).routes = x.routes := by
  induction rs generalizing x with
  | nil => rfl
  | cons r rs ih => exact ih (enqueue x r)
@[simp] theorem enqueueAll_wbase (rs : List Nat) (x : Group) : (rs.foldl enqueue x).wbase = x.wbase := by
  induction rs generalizing x with
  | nil => rfl
  | cons r rs ih => exact ih (enqueue x r)
@[simp] theorem enqueueAll_owned (rs : List Nat) (x : Group) : (rs.foldl enqueue x).owned = x.owned := by
  induction rs generalizing x with
  | nil => rfl
  | cons r rs ih => exact ih (enqueue x r)
@[simp] theorem enqueueAll_blocks (rs : List Nat) (x : Group) : (rs.foldl enqueue x).blocks = x.blocks := by
  induction rs generalizing x with
  | nil => rfl
  | cons r rs ih => exact ih (enqueue x r)
@[simp] theorem enqueueAll_loads (rs : List Nat) (x : Group) : (rs.foldl enqueue x).loads = x.loads := by
  induction rs generalizing x with
  | nil => rfl
  | cons r rs ih => exact ih (enqueue x r)
@[simp] theorem enqueueAll_stores (rs : List Nat) (x : Group) : (rs.foldl enqueue x).stores = x.stores := by
  induction rs generalizing x with
  | nil => rfl
  | cons r rs ih => exact ih (enqueue x r)
@[simp] theorem enqueueAll_tiles (rs : List Nat) (x : Group) : (rs.foldl enqueue x).tiles = x.tiles := by
  induction rs generalizing x with
  | nil => rfl
  | cons r rs ih => exact ih (enqueue x r)
@[simp] theorem enqueueAll_copies (rs : List Nat) (x : Group) : (rs.foldl enqueue x).copies = x.copies := by
  induction rs generalizing x with
  | nil => rfl
  | cons r rs ih => exact ih (enqueue x r)
@[simp] theorem enqueueAll_bankCmds (rs : List Nat) (x : Group) : (rs.foldl enqueue x).bankCmds = x.bankCmds := by
  induction rs generalizing x with
  | nil => rfl
  | cons r rs ih => exact ih (enqueue x r)
@[simp] theorem enqueueAll_cause (rs : List Nat) (x : Group) : (rs.foldl enqueue x).cause = x.cause := by
  induction rs generalizing x with
  | nil => rfl
  | cons r rs ih => exact ih (enqueue x r)
@[simp] theorem enqueueAll_skid (rs : List Nat) (x : Group) : (rs.foldl enqueue x).skid = x.skid := by
  induction rs generalizing x with
  | nil => rfl
  | cons r rs ih => exact ih (enqueue x r)
@[simp] theorem enqueueAll_epc (rs : List Nat) (x : Group) : (rs.foldl enqueue x).epc = x.epc := by
  induction rs generalizing x with
  | nil => rfl
  | cons r rs ih => exact ih (enqueue x r)
@[simp] theorem enqueueAll_lct (rs : List Nat) (x : Group) : (rs.foldl enqueue x).lct = x.lct := by
  induction rs generalizing x with
  | nil => rfl
  | cons r rs ih => exact ih (enqueue x r)
@[simp] theorem enqueueAll_acq (rs : List Nat) (x : Group) : (rs.foldl enqueue x).acq = x.acq := by
  induction rs generalizing x with
  | nil => rfl
  | cons r rs ih => exact ih (enqueue x r)
@[simp] theorem enqueueAll_bubbles (rs : List Nat) (x : Group) : (rs.foldl enqueue x).bubbles = x.bubbles := by
  induction rs generalizing x with
  | nil => rfl
  | cons r rs ih => exact ih (enqueue x r)
@[simp] theorem enqueueAll_aging (rs : List Nat) (x : Group) : (rs.foldl enqueue x).aging = x.aging := by
  induction rs generalizing x with
  | nil => rfl
  | cons r rs ih => exact ih (enqueue x r)
@[simp] theorem enqueueAll_agedAt (rs : List Nat) (x : Group) : (rs.foldl enqueue x).agedAt = x.agedAt := by
  induction rs generalizing x with
  | nil => rfl
  | cons r rs ih => exact ih (enqueue x r)
@[simp] theorem enqueueAll_yielded (rs : List Nat) (x : Group) : (rs.foldl enqueue x).yielded = x.yielded := by
  induction rs generalizing x with
  | nil => rfl
  | cons r rs ih => exact ih (enqueue x r)
@[simp] theorem enqueueAll_phases (rs : List Nat) (x : Group) : (rs.foldl enqueue x).phases = x.phases := by
  induction rs generalizing x with
  | nil => rfl
  | cons r rs ih => exact ih (enqueue x r)
@[simp] theorem enqueueAll_wait (rs : List Nat) (x : Group) : (rs.foldl enqueue x).wait = x.wait := by
  induction rs generalizing x with
  | nil => rfl
  | cons r rs ih => exact ih (enqueue x r)
@[simp] theorem enqueueAll_parked (rs : List Nat) (x : Group) : (rs.foldl enqueue x).parked = x.parked := by
  induction rs generalizing x with
  | nil => rfl
  | cons r rs ih => exact ih (enqueue x r)
@[simp] theorem enqueueAll_halted (rs : List Nat) (x : Group) : (rs.foldl enqueue x).halted = x.halted := by
  induction rs generalizing x with
  | nil => rfl
  | cons r rs ih => exact ih (enqueue x r)
@[simp] theorem enqueueAll_frozen (rs : List Nat) (x : Group) : (rs.foldl enqueue x).frozen = x.frozen := by
  induction rs generalizing x with
  | nil => rfl
  | cons r rs ih => exact ih (enqueue x r)
@[simp] theorem enqueueAll_pendingS (rs : List Nat) (x : Group) : (rs.foldl enqueue x).pendingS = x.pendingS := by
  induction rs generalizing x with
  | nil => rfl
  | cons r rs ih => exact ih (enqueue x r)
@[simp] theorem enqueueAll_body (rs : List Nat) (x : Group) : (rs.foldl enqueue x).body = x.body := by
  induction rs generalizing x with
  | nil => rfl
  | cons r rs ih => exact ih (enqueue x r)
@[simp] theorem enqueueAll_retired (rs : List Nat) (x : Group) : (rs.foldl enqueue x).retired = x.retired := by
  induction rs generalizing x with
  | nil => rfl
  | cons r rs ih => exact ih (enqueue x r)

@[simp] theorem enqueueAll_reading (rs : List Nat) (x : Group) : (rs.foldl enqueue x).reading = x.reading := by
  induction rs generalizing x with
  | nil => rfl
  | cons r rs ih => exact ih (enqueue x r)

@[simp] theorem enqueueAll_point (rs : List Nat) (x : Group) : (rs.foldl enqueue x).point = x.point := by
  induction rs generalizing x with
  | nil => rfl
  | cons r rs ih => exact ih (enqueue x r)

@[simp] theorem enqueueAll_frames (rs : List Nat) (x : Group) : (rs.foldl enqueue x).frames = x.frames := by
  induction rs generalizing x with
  | nil => rfl
  | cons r rs ih => exact ih (enqueue x r)
@[simp] theorem enqueueAll_cancelled (rs : List Nat) (x : Group) : (rs.foldl enqueue x).cancelled = x.cancelled := by
  induction rs generalizing x with
  | nil => rfl
  | cons r rs ih => exact ih (enqueue x r)
@[simp] theorem enqueueAll_results (rs : List Nat) (x : Group) : (rs.foldl enqueue x).results = x.results := by
  induction rs generalizing x with
  | nil => rfl
  | cons r rs ih => exact ih (enqueue x r)
@[simp] theorem enqueueAll_staged (rs : List Nat) (x : Group) : (rs.foldl enqueue x).staged = x.staged := by
  induction rs generalizing x with
  | nil => rfl
  | cons r rs ih => exact ih (enqueue x r)

@[simp] theorem vWrite_width (x : Group) (ws : List (Nat × Word)) (rs : List Nat) : (vWrite x ws rs).width = x.width := by simp [vWrite]
@[simp] theorem vWrite_copyRole (x : Group) (ws : List (Nat × Word)) (rs : List Nat) : (vWrite x ws rs).copyRole = x.copyRole := by simp [vWrite]
@[simp] theorem vWrite_frontier (x : Group) (ws : List (Nat × Word)) (rs : List Nat) : (vWrite x ws rs).frontier = x.frontier := by simp [vWrite]
@[simp] theorem vWrite_live (x : Group) (ws : List (Nat × Word)) (rs : List Nat) : (vWrite x ws rs).live = x.live := by simp [vWrite]
@[simp] theorem vWrite_s (x : Group) (ws : List (Nat × Word)) (rs : List Nat) : (vWrite x ws rs).s = x.s := by simp [vWrite]
@[simp] theorem vWrite_k (x : Group) (ws : List (Nat × Word)) (rs : List Nat) : (vWrite x ws rs).k = x.k := by simp [vWrite]
@[simp] theorem vWrite_routes (x : Group) (ws : List (Nat × Word)) (rs : List Nat) : (vWrite x ws rs).routes = x.routes := by simp [vWrite]
@[simp] theorem vWrite_wbase (x : Group) (ws : List (Nat × Word)) (rs : List Nat) : (vWrite x ws rs).wbase = x.wbase := by simp [vWrite]
@[simp] theorem vWrite_owned (x : Group) (ws : List (Nat × Word)) (rs : List Nat) : (vWrite x ws rs).owned = x.owned := by simp [vWrite]
@[simp] theorem vWrite_blocks (x : Group) (ws : List (Nat × Word)) (rs : List Nat) : (vWrite x ws rs).blocks = x.blocks := by simp [vWrite]
@[simp] theorem vWrite_loads (x : Group) (ws : List (Nat × Word)) (rs : List Nat) : (vWrite x ws rs).loads = x.loads := by simp [vWrite]
@[simp] theorem vWrite_stores (x : Group) (ws : List (Nat × Word)) (rs : List Nat) : (vWrite x ws rs).stores = x.stores := by simp [vWrite]
@[simp] theorem vWrite_tiles (x : Group) (ws : List (Nat × Word)) (rs : List Nat) : (vWrite x ws rs).tiles = x.tiles := by simp [vWrite]
@[simp] theorem vWrite_copies (x : Group) (ws : List (Nat × Word)) (rs : List Nat) : (vWrite x ws rs).copies = x.copies := by simp [vWrite]
@[simp] theorem vWrite_bankCmds (x : Group) (ws : List (Nat × Word)) (rs : List Nat) : (vWrite x ws rs).bankCmds = x.bankCmds := by simp [vWrite]
@[simp] theorem vWrite_cause (x : Group) (ws : List (Nat × Word)) (rs : List Nat) : (vWrite x ws rs).cause = x.cause := by simp [vWrite]
@[simp] theorem vWrite_skid (x : Group) (ws : List (Nat × Word)) (rs : List Nat) : (vWrite x ws rs).skid = x.skid := by simp [vWrite]
@[simp] theorem vWrite_epc (x : Group) (ws : List (Nat × Word)) (rs : List Nat) : (vWrite x ws rs).epc = x.epc := by simp [vWrite]
@[simp] theorem vWrite_lct (x : Group) (ws : List (Nat × Word)) (rs : List Nat) : (vWrite x ws rs).lct = x.lct := by simp [vWrite]
@[simp] theorem vWrite_acq (x : Group) (ws : List (Nat × Word)) (rs : List Nat) : (vWrite x ws rs).acq = x.acq := by simp [vWrite]
@[simp] theorem vWrite_bubbles (x : Group) (ws : List (Nat × Word)) (rs : List Nat) : (vWrite x ws rs).bubbles = x.bubbles := by simp [vWrite]
@[simp] theorem vWrite_aging (x : Group) (ws : List (Nat × Word)) (rs : List Nat) : (vWrite x ws rs).aging = x.aging := by simp [vWrite]
@[simp] theorem vWrite_agedAt (x : Group) (ws : List (Nat × Word)) (rs : List Nat) : (vWrite x ws rs).agedAt = x.agedAt := by simp [vWrite]
@[simp] theorem vWrite_yielded (x : Group) (ws : List (Nat × Word)) (rs : List Nat) : (vWrite x ws rs).yielded = x.yielded := by simp [vWrite]
@[simp] theorem vWrite_phases (x : Group) (ws : List (Nat × Word)) (rs : List Nat) : (vWrite x ws rs).phases = x.phases := by simp [vWrite]
@[simp] theorem vWrite_wait (x : Group) (ws : List (Nat × Word)) (rs : List Nat) : (vWrite x ws rs).wait = x.wait := by simp [vWrite]
@[simp] theorem vWrite_parked (x : Group) (ws : List (Nat × Word)) (rs : List Nat) : (vWrite x ws rs).parked = x.parked := by simp [vWrite]
@[simp] theorem vWrite_halted (x : Group) (ws : List (Nat × Word)) (rs : List Nat) : (vWrite x ws rs).halted = x.halted := by simp [vWrite]
@[simp] theorem vWrite_frozen (x : Group) (ws : List (Nat × Word)) (rs : List Nat) : (vWrite x ws rs).frozen = x.frozen := by simp [vWrite]
@[simp] theorem vWrite_pendingS (x : Group) (ws : List (Nat × Word)) (rs : List Nat) : (vWrite x ws rs).pendingS = x.pendingS := by simp [vWrite]
@[simp] theorem vWrite_body (x : Group) (ws : List (Nat × Word)) (rs : List Nat) : (vWrite x ws rs).body = x.body := by simp [vWrite]
@[simp] theorem vWrite_retired (x : Group) (ws : List (Nat × Word)) (rs : List Nat) : (vWrite x ws rs).retired = x.retired := by simp [vWrite]
@[simp] theorem vWrite_reading (x : Group) (ws : List (Nat × Word)) (rs : List Nat) : (vWrite x ws rs).reading = x.reading := by simp [vWrite]
@[simp] theorem vWrite_point (x : Group) (ws : List (Nat × Word)) (rs : List Nat) : (vWrite x ws rs).point = x.point := by simp [vWrite]
@[simp] theorem vWrite_frames (x : Group) (ws : List (Nat × Word)) (rs : List Nat) : (vWrite x ws rs).frames = x.frames := by simp [vWrite]
@[simp] theorem vWrite_cancelled (x : Group) (ws : List (Nat × Word)) (rs : List Nat) : (vWrite x ws rs).cancelled = x.cancelled := by simp [vWrite]
@[simp] theorem vWrite_results (x : Group) (ws : List (Nat × Word)) (rs : List Nat) : (vWrite x ws rs).results = x.results := by simp [vWrite]
@[simp] theorem vWrite_staged (x : Group) (ws : List (Nat × Word)) (rs : List Nat) : (vWrite x ws rs).staged = x.staged := by simp [vWrite]

@[simp] theorem vWrite_v (x : Group) (ws : List (Nat × Word)) (rs : List Nat) :
    (vWrite x ws rs).v = ws.foldl (fun m p => smSet m p.1 p.2) x.v := by simp [vWrite]

@[simp] theorem vecResult_width (x : Group) (d : VReg) (n : Nat) (f : Nat → List Word) : (vecResult x d n f).width = x.width := by simp [vecResult]
@[simp] theorem vecResult_copyRole (x : Group) (d : VReg) (n : Nat) (f : Nat → List Word) : (vecResult x d n f).copyRole = x.copyRole := by simp [vecResult]
@[simp] theorem vecResult_live (x : Group) (d : VReg) (n : Nat) (f : Nat → List Word) : (vecResult x d n f).live = x.live := by simp [vecResult]
@[simp] theorem vecResult_s (x : Group) (d : VReg) (n : Nat) (f : Nat → List Word) : (vecResult x d n f).s = x.s := by simp [vecResult]
@[simp] theorem vecResult_k (x : Group) (d : VReg) (n : Nat) (f : Nat → List Word) : (vecResult x d n f).k = x.k := by simp [vecResult]
@[simp] theorem vecResult_routes (x : Group) (d : VReg) (n : Nat) (f : Nat → List Word) : (vecResult x d n f).routes = x.routes := by simp [vecResult]
@[simp] theorem vecResult_wbase (x : Group) (d : VReg) (n : Nat) (f : Nat → List Word) : (vecResult x d n f).wbase = x.wbase := by simp [vecResult]
@[simp] theorem vecResult_owned (x : Group) (d : VReg) (n : Nat) (f : Nat → List Word) : (vecResult x d n f).owned = x.owned := by simp [vecResult]
@[simp] theorem vecResult_blocks (x : Group) (d : VReg) (n : Nat) (f : Nat → List Word) : (vecResult x d n f).blocks = x.blocks := by simp [vecResult]
@[simp] theorem vecResult_loads (x : Group) (d : VReg) (n : Nat) (f : Nat → List Word) : (vecResult x d n f).loads = x.loads := by simp [vecResult]
@[simp] theorem vecResult_stores (x : Group) (d : VReg) (n : Nat) (f : Nat → List Word) : (vecResult x d n f).stores = x.stores := by simp [vecResult]
@[simp] theorem vecResult_tiles (x : Group) (d : VReg) (n : Nat) (f : Nat → List Word) : (vecResult x d n f).tiles = x.tiles := by simp [vecResult]
@[simp] theorem vecResult_copies (x : Group) (d : VReg) (n : Nat) (f : Nat → List Word) : (vecResult x d n f).copies = x.copies := by simp [vecResult]
@[simp] theorem vecResult_bankCmds (x : Group) (d : VReg) (n : Nat) (f : Nat → List Word) : (vecResult x d n f).bankCmds = x.bankCmds := by simp [vecResult]
@[simp] theorem vecResult_cause (x : Group) (d : VReg) (n : Nat) (f : Nat → List Word) : (vecResult x d n f).cause = x.cause := by simp [vecResult]
@[simp] theorem vecResult_skid (x : Group) (d : VReg) (n : Nat) (f : Nat → List Word) : (vecResult x d n f).skid = x.skid := by simp [vecResult]
@[simp] theorem vecResult_epc (x : Group) (d : VReg) (n : Nat) (f : Nat → List Word) : (vecResult x d n f).epc = x.epc := by simp [vecResult]
@[simp] theorem vecResult_lct (x : Group) (d : VReg) (n : Nat) (f : Nat → List Word) : (vecResult x d n f).lct = x.lct := by simp [vecResult]
@[simp] theorem vecResult_acq (x : Group) (d : VReg) (n : Nat) (f : Nat → List Word) : (vecResult x d n f).acq = x.acq := by simp [vecResult]
@[simp] theorem vecResult_bubbles (x : Group) (d : VReg) (n : Nat) (f : Nat → List Word) : (vecResult x d n f).bubbles = x.bubbles := by simp [vecResult]
@[simp] theorem vecResult_aging (x : Group) (d : VReg) (n : Nat) (f : Nat → List Word) : (vecResult x d n f).aging = x.aging := by simp [vecResult]
@[simp] theorem vecResult_agedAt (x : Group) (d : VReg) (n : Nat) (f : Nat → List Word) : (vecResult x d n f).agedAt = x.agedAt := by simp [vecResult]
@[simp] theorem vecResult_yielded (x : Group) (d : VReg) (n : Nat) (f : Nat → List Word) : (vecResult x d n f).yielded = x.yielded := by simp [vecResult]
@[simp] theorem vecResult_phases (x : Group) (d : VReg) (n : Nat) (f : Nat → List Word) : (vecResult x d n f).phases = x.phases := by simp [vecResult]
@[simp] theorem vecResult_wait (x : Group) (d : VReg) (n : Nat) (f : Nat → List Word) : (vecResult x d n f).wait = x.wait := by simp [vecResult]
@[simp] theorem vecResult_parked (x : Group) (d : VReg) (n : Nat) (f : Nat → List Word) : (vecResult x d n f).parked = x.parked := by simp [vecResult]
@[simp] theorem vecResult_halted (x : Group) (d : VReg) (n : Nat) (f : Nat → List Word) : (vecResult x d n f).halted = x.halted := by simp [vecResult]
@[simp] theorem vecResult_frozen (x : Group) (d : VReg) (n : Nat) (f : Nat → List Word) : (vecResult x d n f).frozen = x.frozen := by simp [vecResult]
@[simp] theorem vecResult_pendingS (x : Group) (d : VReg) (n : Nat) (f : Nat → List Word) : (vecResult x d n f).pendingS = x.pendingS := by simp [vecResult]
@[simp] theorem vecResult_body (x : Group) (d : VReg) (n : Nat) (f : Nat → List Word) : (vecResult x d n f).body = x.body := by simp [vecResult]
@[simp] theorem vecResult_retired (x : Group) (d : VReg) (n : Nat) (f : Nat → List Word) : (vecResult x d n f).retired = x.retired := by simp [vecResult]
@[simp] theorem vecResult_reading (x : Group) (d : VReg) (n : Nat) (f : Nat → List Word) : (vecResult x d n f).reading = x.reading := by simp [vecResult]
@[simp] theorem vecResult_point (x : Group) (d : VReg) (n : Nat) (f : Nat → List Word) : (vecResult x d n f).point = x.point := by simp [vecResult]
@[simp] theorem vecResult_frames (x : Group) (d : VReg) (n : Nat) (f : Nat → List Word) : (vecResult x d n f).frames = x.frames := by simp [vecResult]
@[simp] theorem vecResult_cancelled (x : Group) (d : VReg) (n : Nat) (f : Nat → List Word) : (vecResult x d n f).cancelled = x.cancelled := by simp [vecResult]
@[simp] theorem vecResult_results (x : Group) (d : VReg) (n : Nat) (f : Nat → List Word) : (vecResult x d n f).results = x.results := by simp [vecResult]
@[simp] theorem vecResult_staged (x : Group) (d : VReg) (n : Nat) (f : Nat → List Word) : (vecResult x d n f).staged = x.staged := by simp [vecResult]
@[simp] theorem vecResult_queue (x : Group) (d : VReg) (n : Nat) (f : Nat → List Word) : (vecResult x d n f).queue = x.queue := by simp [vecResult, vWrite]

@[simp] theorem vecResult_frontier (x : Group) (d : VReg) (n : Nat) (f : Nat → List Word) :
    (vecResult x d n f).frontier = (advance x).frontier := by simp [vecResult]

/-! ## Updates of a team -/

@[simp] theorem modPoint_groups (t : Team) (p : Nat) (f : Point → Point) : (modPoint t p f).groups = t.groups := rfl
@[simp] theorem modPoint_scratch (t : Team) (p : Nat) (f : Point → Point) : (modPoint t p f).scratch = t.scratch := rfl
@[simp] theorem modPoint_scratchBytes (t : Team) (p : Nat) (f : Point → Point) : (modPoint t p f).scratchBytes = t.scratchBytes := rfl
@[simp] theorem modPoint_rings (t : Team) (p : Nat) (f : Point → Point) : (modPoint t p f).rings = t.rings := rfl
@[simp] theorem modPoint_engine (t : Team) (p : Nat) (f : Point → Point) : (modPoint t p f).engine = t.engine := rfl
@[simp] theorem modPoint_seq (t : Team) (p : Nat) (f : Point → Point) : (modPoint t p f).seq = t.seq := rfl
@[simp] theorem modPoint_ta (t : Team) (p : Nat) (f : Point → Point) : (modPoint t p f).ta = t.ta := rfl
@[simp] theorem modPoint_taFmt (t : Team) (p : Nat) (f : Point → Point) : (modPoint t p f).taFmt = t.taFmt := rfl
@[simp] theorem modPoint_z (t : Team) (p : Nat) (f : Point → Point) : (modPoint t p f).z = t.z := rfl
@[simp] theorem modPoint_skips (t : Team) (p : Nat) (f : Point → Point) : (modPoint t p f).skips = t.skips := rfl
@[simp] theorem modPoint_stash (t : Team) (p : Nat) (f : Point → Point) : (modPoint t p f).stash = t.stash := rfl
@[simp] theorem modPoint_stop (t : Team) (p : Nat) (f : Point → Point) : (modPoint t p f).stop = t.stop := rfl
@[simp] theorem modPoint_handler (t : Team) (p : Nat) (f : Point → Point) : (modPoint t p f).handler = t.handler := rfl
@[simp] theorem modPoint_drains (t : Team) (p : Nat) (f : Point → Point) : (modPoint t p f).drains = t.drains := rfl
@[simp] theorem modPoint_scratchAt (t : Team) (p : Nat) (f : Point → Point) : (modPoint t p f).scratchAt = t.scratchAt := rfl
@[simp] theorem modPoint_retired (t : Team) (p : Nat) (f : Point → Point) : (modPoint t p f).retired = t.retired := rfl
@[simp] theorem modRing_groups (t : Team) (q : Nat) (f : Ring → Ring) : (modRing t q f).groups = t.groups := rfl
@[simp] theorem modRing_scratch (t : Team) (q : Nat) (f : Ring → Ring) : (modRing t q f).scratch = t.scratch := rfl
@[simp] theorem modRing_scratchBytes (t : Team) (q : Nat) (f : Ring → Ring) : (modRing t q f).scratchBytes = t.scratchBytes := rfl
@[simp] theorem modRing_points (t : Team) (q : Nat) (f : Ring → Ring) : (modRing t q f).points = t.points := rfl
@[simp] theorem modRing_engine (t : Team) (q : Nat) (f : Ring → Ring) : (modRing t q f).engine = t.engine := rfl
@[simp] theorem modRing_seq (t : Team) (q : Nat) (f : Ring → Ring) : (modRing t q f).seq = t.seq := rfl
@[simp] theorem modRing_ta (t : Team) (q : Nat) (f : Ring → Ring) : (modRing t q f).ta = t.ta := rfl
@[simp] theorem modRing_taFmt (t : Team) (q : Nat) (f : Ring → Ring) : (modRing t q f).taFmt = t.taFmt := rfl
@[simp] theorem modRing_z (t : Team) (q : Nat) (f : Ring → Ring) : (modRing t q f).z = t.z := rfl
@[simp] theorem modRing_skips (t : Team) (q : Nat) (f : Ring → Ring) : (modRing t q f).skips = t.skips := rfl
@[simp] theorem modRing_stash (t : Team) (q : Nat) (f : Ring → Ring) : (modRing t q f).stash = t.stash := rfl
@[simp] theorem modRing_stop (t : Team) (q : Nat) (f : Ring → Ring) : (modRing t q f).stop = t.stop := rfl
@[simp] theorem modRing_handler (t : Team) (q : Nat) (f : Ring → Ring) : (modRing t q f).handler = t.handler := rfl
@[simp] theorem modRing_drains (t : Team) (q : Nat) (f : Ring → Ring) : (modRing t q f).drains = t.drains := rfl
@[simp] theorem modRing_scratchAt (t : Team) (q : Nat) (f : Ring → Ring) : (modRing t q f).scratchAt = t.scratchAt := rfl
@[simp] theorem modRing_retired (t : Team) (q : Nat) (f : Ring → Ring) : (modRing t q f).retired = t.retired := rfl

end Sys2Proof.Machine
end

