-- ==== Sys2Proof/Laws/Find.lean ====
section
/-! SUPPORT. What a lookup finds after an update of a gang, a team or a group, and that an update of a group leaves every byte of
memory as every reader sees it. -/
namespace Sys2Proof.Machine

/-! ## Lookups after updates -/

theorem findGang_modGang (s : State) (n k : Nat) (f : Gang → Gang) :
    findGang (modGang s n f) k = if n = k then (findGang s k).map f else findGang s k := tabGet_tabMod ..

theorem findTeam_modTeam (s : State) (t u : TRef) (f : Team → Team) :
    findTeam (modTeam s t f) u = if t = u then (findTeam s u).map f else findTeam s u := by
  unfold findTeam modTeam
  rw [findGang_modGang]
  cases hg : findGang s u.gang with
  | none => simp
  | some gg =>
    by_cases h1 : t.gang = u.gang
    · simp only [h1, if_true, Option.map_some, listMod_getElem?]
      by_cases h2 : t.team = u.team
      · have : t = u := by cases t; cases u; simp_all
        simp [this]
      · have : ¬ t = u := fun h => h2 (by rw [h])
        simp [h2, this]
    · have : ¬ t = u := fun h => h1 (by rw [h])
      simp [h1, this]

theorem findGang_modTeam (s : State) (t : TRef) (n : Nat) (f : Team → Team) :
    findGang (modTeam s t f) n =
      if t.gang = n then (findGang s n).map fun g => { g with teams := listMod g.teams t.team f } else findGang s n :=
  findGang_modGang ..

theorem findGroup_modGroup (s : State) (g h : GRef) (f : Group → Group) :
    findGroup (modGroup s g f) h = if g = h then (findGroup s h).map f else findGroup s h := by
  unfold findGroup modGroup
  rw [findTeam_modTeam]
  cases ht : findTeam s (grefTeam h) with
  | none => simp
  | some tm =>
    by_cases h1 : grefTeam g = grefTeam h
    · simp only [h1, if_true, Option.map_some, listMod_getElem?]
      by_cases h2 : g.grp = h.grp
      · have : g = h := by
          cases g; cases h
          simp_all [grefTeam]
        simp [this]
      · have : ¬ g = h := fun e => h2 (by rw [e])
        simp [h2, this]
    · have : ¬ g = h := fun e => h1 (by rw [e])
      simp [h1, this]

/-- The group put in place is found. -/
theorem findGroup_setGroup {s : State} {g : GRef} {x : Group} (h : findGroup s g = some x) (y : Group) :
    findGroup (setGroup s g y) g = some y := by
  rw [setGroup, findGroup_modGroup, if_pos rfl, h]; rfl

/-- Every other group is found as before. -/
theorem findGroup_setGroup_ne (s : State) {g h : GRef} (hne : h ≠ g) (y : Group) :
    findGroup (setGroup s g y) h = findGroup s h := by
  rw [setGroup, findGroup_modGroup, if_neg (Ne.symm hne)]

/-- A change of a team that keeps its groups finds every group as before. -/
theorem findGroup_modTeam_groups (s : State) (t : TRef) (g : GRef) (f : Team → Team) (hf : ∀ tm, (f tm).groups = tm.groups) :
    findGroup (modTeam s t f) g = findGroup s g := by
  unfold findGroup
  rw [findTeam_modTeam]
  by_cases ht : t = grefTeam g
  · cases h : findTeam s (grefTeam g) with
    | none => simp
    | some tm => simp [ht, hf]
  · simp [ht]

/-! ## Reads at the homes do not look at a group's registers -/

theorem allStash_modTeam (s : State) (t : TRef) (f : Team → Team) (hf : ∀ tm, (f tm).stash = tm.stash) :
    allStash (modTeam s t f) = allStash s := by
  unfold allStash modTeam modGang tabMod
  simp only [List.flatMap_map]
  congr 1
  funext p
  split
  · rename_i hp
    simp only [listMod_length, listMod_getElem?]
    congr 1
    funext k
    split
    · cases hk : p.2.teams[k]? <;> simp [hf, hp]
    · rfl
  · rfl

theorem stashBytes_modTeam (s : State) (t : TRef) (f : Team → Team) (h1 : ∀ tm, (f tm).stash = tm.stash)
    (h2 : ∀ tm, (f tm).scratch = tm.scratch) (line : Nat) : stashBytes (modTeam s t f) line = stashBytes s line := by
  unfold stashBytes stashAt
  rw [allStash_modTeam s t f h1]
  split
  · rename_i u m i hm
    have : stashLine (modTeam s t f) u m i = stashLine s u m i := by
      unfold stashLine
      rw [findTeam_modTeam]
      split
      · cases findTeam s u <;> simp [h2]
      · rfl
    rw [this]
  · rfl

theorem instOf_modTeam (s : State) (t : TRef) (f : Team → Team) (r : Option GRef) :
    instOf (modTeam s t f) r = instOf s r := by
  cases r with
  | none => rfl
  | some g =>
    simp only [instOf, Option.bind_some, findGang_modTeam]
    split
    · cases findGang s g.gang <;> rfl
    · rfl

/-- A team whose scratchpad and mappings stay leaves every line as it reads. -/
theorem lineView_modTeam (s : State) (t : TRef) (f : Team → Team) (h1 : ∀ tm, (f tm).stash = tm.stash)
    (h2 : ∀ tm, (f tm).scratch = tm.scratch) (line : Nat) (r : Option GRef) :
    lineView (modTeam s t f) line r = lineView s line r := by
  have hh : homeOf (modTeam s t f) line = homeOf s line := rfl
  have hd : dramLine (modTeam s t f) line = dramLine s line := rfl
  have hn : narrowBytes (modTeam s t f) line = narrowBytes s line := rfl
  have hp : provBytes (modTeam s t f) line r = provBytes s line r := by
    unfold provBytes; rw [instOf_modTeam]; rfl
  unfold lineView
  rw [hh, hd, hn, hp, stashBytes_modTeam s t f h1 h2, instOf_modTeam]

/-- An update of a group leaves every byte of memory as every reader sees it. -/
theorem homeRead_modGroup (s : State) (g : GRef) (f : Group → Group) (pa n : Nat) (r : Option GRef) :
    homeRead (modGroup s g f) pa n r = homeRead s pa n r := by
  unfold homeRead modGroup
  rw [lineView_modTeam]
  · intro _; rfl
  · intro _; rfl

theorem homeRead_setGroup (s : State) (g : GRef) (x : Group) (pa n : Nat) (r : Option GRef) :
    homeRead (setGroup s g x) pa n r = homeRead s pa n r := homeRead_modGroup ..

end Sys2Proof.Machine
end

