-- ==== Sys2Proof/Laws/Results.lean ====
section
/-! SUPPORT. What the shapes of the register instructions do, once: a vector, scalar or predicate result, a change of the group alone,
and an instruction that is not performed. -/
namespace Sys2Proof.Machine
open Sys2Proof.Claims

/-! ## Writes of many words -/

theorem smGet_foldl_ne {w : Nat} {ws : List (Nat × BitVec w)} {m : SMap w} (h : smWf m = true) {k : Nat}
    (hk : ∀ p ∈ ws, p.1 ≠ k) : smGet (ws.foldl (fun m p => smSet m p.1 p.2) m) k = smGet m k := by
  induction ws generalizing m with
  | nil => rfl
  | cons p ws ih =>
    simp only [List.foldl_cons]
    rw [ih (smSet_wf h _ _) fun q hq => hk q (List.mem_cons_of_mem _ hq), smGet_smSet h, if_neg (hk p List.mem_cons_self)]

theorem smGet_foldl_eq {w : Nat} {ws : List (Nat × BitVec w)} {m : SMap w} (h : smWf m = true) {k : Nat} {v : BitVec w}
    (hv : ∀ p ∈ ws, p.1 = k → p.2 = v) (hk : ∃ p ∈ ws, p.1 = k) :
    smGet (ws.foldl (fun m p => smSet m p.1 p.2) m) k = v := by
  induction ws generalizing m with
  | nil => obtain ⟨p, hp, _⟩ := hk; simp at hp
  | cons p ws ih =>
    simp only [List.foldl_cons]
    by_cases hr : ∃ q ∈ ws, q.1 = k
    · exact ih (smSet_wf h _ _) (fun q hq => hv q (List.mem_cons_of_mem _ hq)) hr
    · rw [smGet_foldl_ne (smSet_wf h _ _) fun q hq e => hr ⟨q, hq, e⟩, smGet_smSet h]
      obtain ⟨q, hq, e⟩ := hk
      rcases List.mem_cons.1 hq with rfl | hq'
      · rw [if_pos e, hv _ List.mem_cons_self e]
      · exact absurd ⟨q, hq', e⟩ hr

theorem activeLanes_lt {x : Group} {i : Nat} (h : i ∈ activeLanes x) : i < x.width := by
  simp only [activeLanes, List.mem_filter, List.mem_range] at h
  exact h.1

theorem mem_laneWrites {x : Group} {d : VReg} {n : Nat} {f : Nat → List Word} {p : Nat × Word} :
    p ∈ laneWrites x d n f ↔ ∃ i ∈ activeLanes x, ∃ j, j < n ∧ p = ((physReg x d + j) * 64 + i, ((f i)[j]?).getD 0) := by
  simp only [laneWrites, List.mem_flatMap, List.mem_map, List.mem_range]
  constructor
  · rintro ⟨i, hi, j, hj, rfl⟩; exact ⟨i, hi, j, hj, rfl⟩
  · rintro ⟨i, hi, j, hj, rfl⟩; exact ⟨i, hi, j, hj, rfl⟩

/-- The record after a vector result is what R71 says. -/
theorem vecResult_spec {x : Group} (h : RegsOk x) (d : VReg) (n : Nat) (f : Nat → List Word) :
    VectorResult x (vecResult x d n f) d n fun i j => ((f i)[j]?).getD 0 := by
  have hv : (vecResult x d n f).v = (laneWrites x d n f).foldl (fun m p => smSet m p.1 p.2) x.v := by
    simp [vecResult]
  refine ⟨?_, ?_, ?_⟩
  · unfold vecResult vWrite advance
    split <;> rfl
  · intro i hi j hj
    unfold vRaw
    rw [hv]
    apply smGet_foldl_eq h.2.1
    · intro p hp e
      obtain ⟨i', hi', j', hj', rfl⟩ := mem_laneWrites.1 hp
      have h1 := activeLanes_lt hi
      have h2 := activeLanes_lt hi'
      have h3 := h.1
      have : i' = i ∧ j' = j := by simp only at e; omega
      rw [this.1, this.2]
    · exact ⟨_, mem_laneWrites.2 ⟨i, hi, j, hj, rfl⟩, rfl⟩
  · intro r i hi hn
    unfold vRaw
    rw [hv]
    apply smGet_foldl_ne h.2.1
    intro p hp e
    obtain ⟨i', hi', j', hj', rfl⟩ := mem_laneWrites.1 hp
    have h2 := activeLanes_lt hi'
    have h3 := h.1
    simp only at e
    have h4 : i' = i ∧ physReg x d + j' = r := by omega
    exact hn ⟨h4.1 ▸ hi', by unfold InRun; omega⟩

/-! ## The shapes -/

theorem onGroup_issues {s : State} {g : GRef} {x : Group} (h : Issues s g x) (f : GRef → Group → Out) :
    onGroup s f = f g x := by
  simp [onGroup, h.1, h.2]

theorem onlyGroup_setGroup {s : State} {g : GRef} {x : Group} (h : Issues s g x) (y : Group) :
    OnlyGroup s (setGroup s g y) g y :=
  ⟨rfl, findGroup_setGroup h.2 y, fun _ hne => findGroup_setGroup_ne s hne y, fun r pa => homeRead_setGroup s g y pa 1 r⟩

theorem performedThen_zero (s : State) (g : GRef) (y : Group) : performedThen s g y 0 = .next (setGroup s g y) := by
  simp [performedThen]

/-- FPINV is not set where it is not enabled or no lane's operation is invalid. -/
theorem fpCause_zero {s : State} {g : GRef} {x : Group} {bad : Nat → Bool}
    (h : fpinvOn s g = true → ∀ k ∈ activeLanes x, bad k = false) : fpCause s g ((activeLanes x).any bad) = 0 := by
  unfold fpCause
  cases hf : fpinvOn s g with
  | false => simp
  | true =>
    have : (activeLanes x).any bad = false := by
      rw [List.any_eq_false]
      intro k hk
      simp [h hf k hk]
    simp [this]

/-- A vector instruction in a state that lets it be performed. -/
theorem vecOp_spec {s : State} {g : GRef} {x : Group} (h : Issues s g x) (hr : RegsOk x) {vec : Bool} {uses : List (VReg × Nat)}
    {d : VReg} {n : Nat} {f : Group → Nat → List Word × Bool} (hc : regCauses x vec ((d, n) :: uses) = 0)
    (hf : fpinvOn s g = true → ∀ k ∈ activeLanes x, (f x k).2 = false) :
    ∃ t, vecOp s vec uses d n f = .next t ∧ ∃ y, OnlyGroup s t g y ∧ VectorResult x y d n fun i j => ((f x i).1[j]?).getD 0 := by
  refine ⟨setGroup s g (vecResult x d n fun i => (f x i).1), ?_, _, onlyGroup_setGroup h _, vecResult_spec hr d n _⟩
  rw [vecOp, onGroup_issues h]
  simp only [hc, if_true]
  rw [fpCause_zero hf, performedThen_zero]

/-- A change of the group alone. -/
theorem groupOp_spec {s : State} {g : GRef} {x : Group} (h : Issues s g x) (f : Group → Group) :
    ∃ t, groupOp s f = .next t ∧ OnlyGroup s t g (f x) :=
  ⟨setGroup s g (f x), by rw [groupOp, onGroup_issues h], onlyGroup_setGroup h _⟩

/-- The scalar registers after one is written. -/
theorem sGet_sSet {x : Group} (h : RegsOk x) (d r : SReg) (v : Word64) :
    sGet (sSet x d v) r = if r = 0 then 0 else if r = d then v else sGet x r := by
  unfold sGet
  by_cases hr : r = 0
  · rw [if_pos hr, if_pos hr]
  · rw [if_neg hr, if_neg hr, if_neg hr]
    unfold sSet
    by_cases hd : d = 0
    · rw [if_pos hd, if_neg fun e => hr (e.trans hd)]
    · rw [if_neg hd]
      have : d.toNat = r.toNat ↔ r = d := ⟨fun e => (BitVec.eq_of_toNat_eq e).symm, fun e => by rw [e]⟩
      rw [smGet_smSet h.2.2.1]
      simp only [this]

/-- The entry advanced changes no register. -/
theorem regsOk_advance {x : Group} (h : RegsOk x) : RegsOk (advance x) := by
  simpa [RegsOk] using h

/-- A scalar instruction in a state that lets it be performed. -/
theorem scalarOp_spec {s : State} {g : GRef} {x : Group} (h : Issues s g x) (hr : RegsOk x) {uses : List (VReg × Nat)} {d : SReg}
    {f : Group → Word64} (hc : regCauses x false uses = 0) :
    ∃ t, scalarOp s uses d f = .next t ∧ ∃ y, OnlyGroup s t g y ∧ ScalarResult x y d (f x) := by
  refine ⟨setGroup s g (sSet (advance x) d (f x)), ?_, _, onlyGroup_setGroup h _, ?_, ?_, ?_, ?_⟩
  · rw [scalarOp, onGroup_issues h]; simp only [hc, if_true]
  · unfold sSet advance; split <;> split <;> rfl
  · intro hd; rw [sGet_sSet (regsOk_advance hr), if_neg hd, if_pos rfl]
  · rw [sGet_sSet (regsOk_advance hr), if_pos rfl]
  · intro r hne
    rw [sGet_sSet (regsOk_advance hr), if_neg hne]
    by_cases h0 : r = 0
    · rw [if_pos h0, h0]; rfl
    · rw [if_neg h0]; unfold sGet; simp

/-- The mask of a list of lanes holds exactly those lanes. -/
theorem maskOf_lane {ls : List Nat} {i : Nat} (hi : i < 64) (hl : ∀ l ∈ ls, l < 64) : laneIn (maskOf ls) i = decide (i ∈ ls) := by
  have key : ∀ (ls : List Nat) (m : Mask), (∀ l ∈ ls, l < 64) →
      laneIn (ls.foldl (fun m i => m ||| BitVec.ofNat 64 (2 ^ i)) m) i = (laneIn m i || decide (i ∈ ls)) := by
    intro ls
    induction ls with
    | nil => intro m _; simp
    | cons l ls ih =>
      intro m h
      rw [List.foldl_cons, ih _ fun k hk => h k (List.mem_cons_of_mem _ hk)]
      have hb : (BitVec.ofNat 64 (2 ^ l)).getLsbD i = decide (i = l) := by
        rw [BitVec.getLsbD_ofNat, Nat.testBit_two_pow]
        have : decide (l = i) = decide (i = l) := by simp [eq_comm]
        simp [hi, this]
      simp only [laneIn, BitVec.getLsbD_or, hb, List.mem_cons, Bool.decide_or, Bool.or_assoc]
  rw [maskOf, key ls 0 hl]
  simp [laneIn]

theorem mem_activeLanes {x : Group} {i : Nat} : i ∈ activeLanes x ↔ i < x.width ∧ laneIn (active x) i = true := by
  simp [activeLanes]

/-- An instruction with a predicate destination in a state that lets it be performed. -/
theorem kOp_spec {s : State} {g : GRef} {x : Group} (h : Issues s g x) (hr : RegsOk x) {vec : Bool} {uses : List (VReg × Nat)}
    {k : KReg} {f : Group → Nat → Bool × Bool} (hc : regCauses x vec uses = 0)
    (hf : fpinvOn s g = true → ∀ l ∈ activeLanes x, (f x l).2 = false) (hk : k ≠ 0) :
    ∃ t, kOp s vec uses k f = .next t ∧ ∃ y, OnlyGroup s t g y ∧ PredicateResult x y k fun i => (f x i).1 := by
  have hk0 : k.toNat ≠ 0 := fun e => hk (BitVec.eq_of_toNat_eq (by simpa using e))
  refine ⟨setGroup s g (kSet (advance x) k.toNat ((kGet x k.toNat &&& ~~~active x) |||
    maskOf ((activeLanes x).filter fun i => (f x i).1))), ?_, _, onlyGroup_setGroup h _, ?_, ?_, ?_, ?_⟩
  · rw [kOp, onGroup_issues h]; simp only [hc, if_true]
    rw [fpCause_zero hf, performedThen_zero]
  · unfold kSet advance; split <;> split <;> rfl
  · intro i hi
    have h64 : i < 64 := Nat.lt_of_lt_of_le (activeLanes_lt hi) hr.1
    have hm := maskOf_lane (ls := (activeLanes x).filter fun i => (f x i).1) h64 fun l hl =>
      Nat.lt_of_lt_of_le (activeLanes_lt (List.mem_filter.1 hl |>.1)) hr.1
    have ha := (mem_activeLanes.1 hi).2
    unfold laneIn at hm ha ⊢
    simp only [kGet, hk0, if_false, kSet, smGet_smSet (regsOk_advance hr).2.2.2, if_true, BitVec.getLsbD_or, BitVec.getLsbD_and,
      BitVec.getLsbD_not, hm, ha]
    simp [hi]
  · intro i h64 hi
    have hm := maskOf_lane (ls := (activeLanes x).filter fun i => (f x i).1) h64 fun l hl =>
      Nat.lt_of_lt_of_le (activeLanes_lt (List.mem_filter.1 hl |>.1)) hr.1
    have hn : i ∉ activeLanes x := fun h => by simp [(mem_activeLanes.1 h).2] at hi
    unfold laneIn at hm hi ⊢
    simp only [kGet, hk0, if_false, kSet, smGet_smSet (regsOk_advance hr).2.2.2, if_true, BitVec.getLsbD_or, BitVec.getLsbD_and,
      BitVec.getLsbD_not, hm, hi]
    simp [hn, h64]
  · intro j hj hj0
    simp only [kGet, hj0, hk0, if_false, kSet, smGet_smSet (regsOk_advance hr).2.2.2, if_neg (Ne.symm hj)]
    simp

/-! ## From the meaning to the statement -/

/-- An integer instruction whose meaning is the shared operation. -/
theorem writesInteger_of {i : Instr} {d a b : VReg} {f f' : Group → Nat → Word}
    (h : ∀ s, exec i s = intOp s d a b f') (hf : ∀ x l, f' x l = f x l) : WritesInteger i d a b f := by
  intro s g x hi hr hc hb
  obtain ⟨t, h1, y, h2, h3⟩ := vecOp_spec (f := fun x i => ([f' x i], false)) hi hr hc (fun _ _ _ => rfl)
  refine ⟨t, (h s).trans h1, y, h2, ?_⟩
  obtain ⟨e1, e2, e3⟩ := h3
  refine ⟨e1, fun l hl j hj => ?_, e3⟩
  obtain rfl : j = 0 := by omega
  rw [e2 l hl 0 hj]; simp [hf]

/-- A floating-point one. -/
theorem writesFloat_of {i : Instr} {d a b : VReg} {f f' : Group → Nat → Nat × Bool}
    (h : ∀ s, exec i s = fltOp s d a b f') (hf : ∀ x l, f' x l = f x l) : WritesFloat i d a b f := by
  intro s g x hi hr hc hb
  obtain ⟨t, h1, y, h2, h3⟩ := vecOp_spec (f := fun x i => ([BitVec.ofNat 32 (f' x i).1], (f' x i).2)) hi hr hc
    (fun h k hk => by have := hb h k hk; simpa [hf] using this)
  refine ⟨t, (h s).trans h1, y, h2, ?_⟩
  obtain ⟨e1, e2, e3⟩ := h3
  refine ⟨e1, fun l hl j hj => ?_, e3⟩
  obtain rfl : j = 0 := by omega
  rw [e2 l hl 0 hj]; simp [hf]

/-- Any with a vector result. -/
theorem writesVector_of {i : Instr} {vec : Bool} {uses : List (VReg × Nat)} {d : VReg} {n : Nat}
    {f : State → GRef → Group → Nat → Nat → Word} {bad : Group → Nat → Bool} {f' : Group → Nat → List Word × Bool}
    (h : ∀ s, exec i s = vecOp s vec uses d n f') (hf : ∀ s g x l j, j < n → (((f' x l).1)[j]?).getD 0 = f s g x l j)
    (hb : ∀ x l, (f' x l).2 = bad x l) : WritesVector i vec uses d n f bad := by
  intro s g x hi hr hc hbad
  obtain ⟨t, h1, y, h2, h3⟩ := vecOp_spec (f := f') hi hr hc (fun h k hk => by rw [hb]; exact hbad h k hk)
  refine ⟨t, (h s).trans h1, y, h2, ?_⟩
  obtain ⟨e1, e2, e3⟩ := h3
  exact ⟨e1, fun l hl j hj => by rw [e2 l hl j hj]; exact hf s g x l j hj, e3⟩

/-- One with a scalar result. -/
theorem writesScalar_of {i : Instr} {uses : List (VReg × Nat)} {d : SReg} {f : State → GRef → Group → Word64} {f' : Group → Word64}
    (h : ∀ s, exec i s = scalarOp s uses d f') (hf : ∀ s g x, RegsOk x → f' x = f s g x) : WritesScalar i uses d f := by
  intro s g x hi hr hc
  obtain ⟨t, h1, y, h2, h3⟩ := scalarOp_spec (f := f') (d := d) hi hr hc
  exact ⟨t, (h s).trans h1, y, h2, hf s g x hr ▸ h3⟩

/-- One with a predicate result. -/
theorem writesPredicate_of {i : Instr} {vec : Bool} {uses : List (VReg × Nat)} {k : KReg} {f bad : Group → Nat → Bool}
    {f' : Group → Nat → Bool × Bool} (hk : k ≠ 0)
    (h : ∀ s, exec i s = kOp s vec uses k f') (hf : ∀ x l, (f' x l).1 = f x l) (hb : ∀ x l, (f' x l).2 = bad x l) :
    WritesPredicate i vec uses k f bad := by
  intro s g x hi hr hc hbad
  obtain ⟨t, h1, y, h2, h3⟩ := kOp_spec (f := f') (k := k) hi hr hc (fun h k hk => by rw [hb]; exact hbad h k hk) hk
  refine ⟨t, (h s).trans h1, y, h2, ?_⟩
  have : (fun i => (f' x i).1) = f x := funext fun l => hf x l
  exact this ▸ h3

end Sys2Proof.Machine
end

