-- ==== Sys2Proof/Certificates/Slice0/Obligations.lean ====
section
/-! DEFINITION. The statements. Each says which rule of the manual it formalises. -/

open Sys2Proof Sys2Proof.Machine Sys2Proof.Claims

/-! ## Encodings -/

/-- Every well-formed word of the three streams decodes to the instruction that it encodes, with every operand at every value that
the maps admit (R50 to R58, R67). -/
def Obligations.DecodeOfEncodeIsTheInstruction : Prop :=
  ∀ i k, streamOf i = some k → WellFormed i → decodeWord k (BitVec.ofNat 32 (encodeWord i)) = .ok i

/-- Every copy-ring entry decodes to its command with every field at every value, and a code outside R60's list to an unknown
command with its code (R60, R208, R237). -/
def Obligations.CopyEntriesDecode : Prop :=
  (∀ i code e, entryCode i = some (code, e) → (∀ c, i = .unknownCommandEntry c e → c.toNat = 0 ∨ 9 < c.toNat) →
    decodeEntry (leNat (encode i)) = i ∧ (encode i).length = 32) ∧
  ∀ v, ∃ code e, entryCode (decodeEntry v) = some (code, e) ∧ code = v % 256 ∧ e = entryOf v

/-- Words of every stream as the manual's examples and tables write them. -/
def Obligations.KnownWordsDecode : Prop :=
  decodeWord .group 0x30202040 = .ok (.iadd 4 2 2 0) ∧
  decodeWord .group 0x3C2050C0 = .ok (.shl 4 5 6 0) ∧
  decodeWord .group 0x4C902100 = .ok (.icmp 1 2 2 8 0) ∧
  decodeWord .group 0x50306080 = .ok (.iaddi 6 6 128) ∧
  decodeWord .group 0x702850C0 = .ok (.sadd 5 5 6) ∧
  decodeWord .group 0x88508043 = .ok (.ffmas 10 8 2 0) ∧
  decodeWord .group 0x90208120 = .ok (.lshf 4 8 9) ∧
  decodeWord .group 0x04000000 = .ok .nop ∧
  decodeWord .group 0x04800000 = .ok .exit ∧
  decodeWord .matrix 0x00000000 = .ok .mend ∧
  decodeWord .bank 0x00000000 = .ok .xend

/-- Majors that the maps of R50, R56 and R58 do not assign are refused under RSVMAJ (R67), whatever the other bits. -/
def Obligations.ReservedMajorsAreRefused : Prop :=
  (∀ (m : BitVec 6) (low : BitVec 26), (m = 0 ∨ m = 0x25 ∨ m = 0x3F) → decodeWord .group (m ++ low) = .error .rsvMaj) ∧
  (∀ (m : BitVec 4) (low : BitVec 28), 0xA ≤ m.toNat → decodeWord .matrix (m ++ low) = .error .rsvMaj) ∧
  (∀ (m : BitVec 5) (low : BitVec 27), 0x10 ≤ m.toNat → decodeWord .bank (m ++ low) = .error .rsvMaj)

/-! ## The machine as a whole -/

/-- The canonical form of memory is kept by every step (log 4 says what an unlisted byte reads as), and so are the 32 bytes of every
line that the LLC holds. -/
def Obligations.EveryStepKeepsMemoryCanonical : Prop :=
  (∀ s t, Safety.MemoryOk s → step s = .next t → Safety.MemoryOk t) ∧ ∀ s t, LinesOk s → step s = .next t → LinesOk t

/-- The registers of every group keep their canonical form in at most 64 lanes (R5, R42), whatever the step. -/
def Obligations.EveryStepKeepsRegistersCanonical : Prop :=
  ∀ s t, RegistersOk s → step s = .next t → RegistersOk t

/-- R17, R19: every frontier stays in its order, with no lane in two entries and no two entries of one priority and PC; and no two
gangs come to bear one number. -/
def Obligations.EveryStepKeepsFrontiersInOrder : Prop :=
  ∀ s t, FrontiersOk s → step s = .next t → FrontiersOk t

/-- Every step answers a next state: no step stops the machine, whatever the state, where the order of events to come names events
(log 2). -/
def Obligations.EveryStepAnswersANextState : Prop :=
  ∀ s, (∀ a ∈ s.agenda, ∀ i, a.2 = .event i → IsEvent i) → ∃ t, step s = .next t

/-- The package right after reset keeps the four forms. The registers of the window right after reset, as their field maps give
them: those of every cluster (R26, R337, R338, R340, R342), of power and time (R343, R344, R347), of repair (R334), of the fabric
(R356), of the host block (R353), of ISTAT (R312) and of the boot (R362). -/
def Obligations.ResetKeepsTheInvariants : Prop :=
  (Safety.MemoryOk State.reset ∧ LinesOk State.reset ∧ RegistersOk State.reset ∧
   FrontiersOk State.reset) ∧
  (let r := windowRead State.reset
   (∀ c, c < 80 →
     r (0x300000 + 0x1000 * c) 4 = 0 ∧ r (0x300008 + 0x1000 * c) 4 = 0 ∧ r (0x300010 + 0x1000 * c) 4 = 0b1010 ∧
     r (0x300018 + 0x1000 * c) 4 = 0x505 ∧ r (0x300020 + 0x1000 * c) 4 = 24) ∧
   r 0x200000 8 = 0 ∧ r 0x200008 8 = 3600 ∧ r 0x200010 8 = 0 ∧ r 0x200018 8 = 100 ∧ r 0x200020 8 = 50000 * 2 ^ 32 + 50 * 2 ^ 16 + 100 ∧
   r 0x200030 8 = 100 * 2 ^ 16 + 8 ∧
   r 0x400000 8 = 16384 ∧ r 0x400008 8 = 1000 * 2 ^ 16 + 1 ∧ r 0x400010 8 = 0 ∧ r 0x400018 8 = 0 ∧
   r 0x500008 8 = 2000 ∧ r 0x500010 8 = 500 ∧ r 0x500020 8 = 0 ∧
   (∀ n, n < 64 → r (16 * n) 8 = 0) ∧ r 0x400 8 = 0 ∧ r 0x408 8 = 0 ∧ r 0x410 8 = 0 ∧
   r 0x100030 8 = 1 ∧ (∀ l, l < 72 → r (0x100100 + 4 * l) 4 = 2 ^ 30 + 10 * (l / 9) + l % 9) ∧
   r 0x600000 8 = 0 ∧ r 0x600140 8 = 0 ∧ r 0x600148 8 = 0)

/-- A front end's cycle runs the instruction that the word at the chosen group's entry decodes to: the step is exec of that
instruction at the state in which the group issues, with what every cycle adds around it: results and stagings proceed (R15, R16), groups
of marked gangs park and operand reads go on (R16, R282), the choice is noted and the groups age (R28), the datapath is occupied (R33),
reads may bubble (R342), the page fetched from is noted (R70), the registers written are in use until the passes end (R15), and a group of
a stopping team counts the instruction in its skid (R275). The other agents run what they decode: a sequencer the word at its PC (R217), a
copy engine the next entry of its ring (R207), the restore unit the next word of its program (R134), the part the event whose turn it is;
an event that a failed boot shuts out (R360) changes nothing. The agenda, the priority of the running restore unit, and what settles after
every step, are the model's own (DESIGN CHOICE, log 2); so is how many reads an operand takes (log 7). -/
def Obligations.StepRunsTheDecodedInstruction : Prop :=
  (∀ s dt l core rest g x e es w i,
     let now : State := beginCycle { s with time := s.time + dt, agenda := rest } l core
     let ready := (byAge now l core).filter (isReady now l core)
     let s1 := afterChoice now l core (byAge now l core) ready (some g)
     s.sw.restore.running = false → s.agenda = (dt, .cycle l core) :: rest → nextDue s (s.time + dt) = none →
     choose now l core (byAge now l core) ready = some g →
     findGroup s1 g = some x → x.frontier = e :: es → fetchWord s1 (ctxOf s1 g) e.pc.toNat 0 = some w → decodeWord .group w = .ok i →
     let s2 := noteFetch (addBubbles s1 g x i) g.gang e.pc.toNat
     step s = settled (afterIssue s2 g (match exec i (beforeIssue s2 g) with
       | .next t => .next (noteResults s2 g i t)
       | r => r))) ∧
  ((∀ s dt t rest gg tm w i,
     let now : State := { s with time := s.time + dt, agenda := rest }
     s.sw.restore.running = false → s.agenda = (dt, .seq t) :: rest → nextDue s (s.time + dt) = none →
     findGang now t.gang = some gg → findTeam now t = some tm → gg.state = .resident → tm.seq.running = true → tm.stop = none →
     tm.seq.wait = none → fetchHeld now gg.ctx tm.seq.pc.toNat = false → fetchWord now gg.ctx tm.seq.pc.toNat 1 = some w →
     decodeWord .matrix w = .ok i →
     step s = settled (endTurn (exec i { noteFetch now t.gang tm.seq.pc.toNat with focus := .seq t }))) ∧
   (∀ s dt x rest g v,
     let now : State := { s with time := s.time + dt, agenda := rest }
     s.sw.restore.running = false → s.agenda = (dt, .engine x) :: rest → nextDue s (s.time + dt) = none →
     findEngine now x = some g → suspendedOf g = none → g.takenIdx < g.published → nextEntry now x = some v →
     step s = settled (endTurn (exec (decodeEntry v) { now with focus := .engine x }))) ∧
   (∀ s w ws i,
     s.sw.restore.running = true → s.sw.restore.program = w :: ws → decodeWord .bank w = .ok i →
     step s = settled (endTurn (exec i
       { s with focus := .restore, sw := { s.sw with restore := { s.sw.restore with program := ws } } }))) ∧
   ∀ s dt i rest,
     let now : State := { s with time := s.time + dt, agenda := rest }
     s.sw.restore.running = false → s.agenda = (dt, .event i) :: rest → nextDue s (s.time + dt) = none →
     step s = if needsBoot i = true ∧ (dev s).bootError ≠ 0 then settled (.next now)
       else settled (endTurn (exec i { now with focus := .none })))

/-! ## Register instructions (R74, R87 to R106) -/

/-- R87: the sixteen members of majors 0x0C to 0x0F, each with its value in every active lane. The layout of the RRR words of majors
0x0C to 0x0F, bit by bit (R47, R87): major, d, a, b, rt and minor from bit 31 down. -/
def Obligations.IntegerPairsAndTheirWords : Prop :=
  (∀ (d a b : VReg) (rt : Route),
     WritesInteger (.iadd d a b rt) d a b (fun x i => srcA x rt a i + srcB x rt b i) ∧
     WritesInteger (.isub d a b rt) d a b (fun x i => srcA x rt a i - srcB x rt b i) ∧
     WritesInteger (.imul d a b rt) d a b (fun x i => srcA x rt a i * srcB x rt b i) ∧
     WritesInteger (.imulh d a b rt) d a b (fun x i =>
       (((srcA x rt a i).signExtend 64 * (srcB x rt b i).signExtend 64) >>> 32).truncate 32) ∧
     WritesInteger (.imin d a b rt) d a b (fun x i => BitVec.ofInt 32 (min (srcA x rt a i).toInt (srcB x rt b i).toInt)) ∧
     WritesInteger (.imax d a b rt) d a b (fun x i => BitVec.ofInt 32 (max (srcA x rt a i).toInt (srcB x rt b i).toInt)) ∧
     WritesInteger (.iminu d a b rt) d a b (fun x i => BitVec.ofNat 32 (min (srcA x rt a i).toNat (srcB x rt b i).toNat)) ∧
     WritesInteger (.imaxu d a b rt) d a b (fun x i => BitVec.ofNat 32 (max (srcA x rt a i).toNat (srcB x rt b i).toNat)) ∧
     WritesInteger (.and d a b rt) d a b (fun x i => srcA x rt a i &&& srcB x rt b i) ∧
     WritesInteger (.or d a b rt) d a b (fun x i => srcA x rt a i ||| srcB x rt b i) ∧
     WritesInteger (.xor d a b rt) d a b (fun x i => srcA x rt a i ^^^ srcB x rt b i) ∧
     WritesInteger (.andn d a b rt) d a b (fun x i => srcA x rt a i &&& ~~~srcB x rt b i) ∧
     WritesInteger (.shl d a b rt) d a b (fun x i => srcA x rt a i <<< ((srcB x rt b i).toNat % 32)) ∧
     WritesInteger (.shr d a b rt) d a b (fun x i => srcA x rt a i >>> ((srcB x rt b i).toNat % 32)) ∧
     WritesInteger (.sar d a b rt) d a b (fun x i => (srcA x rt a i).sshiftRight ((srcB x rt b i).toNat % 32)) ∧
     WritesInteger (.rot d a b rt) d a b (fun x i => (srcA x rt a i).rotateLeft ((srcB x rt b i).toNat % 32))) ∧
  (∀ (d a b : VReg) (rt : Route),
     decodeWord .group (12#6 ++ d ++ a ++ b ++ rt ++ 0#2) = .ok (.iadd d a b rt) ∧
     decodeWord .group (12#6 ++ d ++ a ++ b ++ rt ++ 1#2) = .ok (.isub d a b rt) ∧
     decodeWord .group (12#6 ++ d ++ a ++ b ++ rt ++ 2#2) = .ok (.imul d a b rt) ∧
     decodeWord .group (12#6 ++ d ++ a ++ b ++ rt ++ 3#2) = .ok (.imulh d a b rt) ∧
     decodeWord .group (13#6 ++ d ++ a ++ b ++ rt ++ 0#2) = .ok (.imin d a b rt) ∧
     decodeWord .group (13#6 ++ d ++ a ++ b ++ rt ++ 1#2) = .ok (.imax d a b rt) ∧
     decodeWord .group (13#6 ++ d ++ a ++ b ++ rt ++ 2#2) = .ok (.iminu d a b rt) ∧
     decodeWord .group (13#6 ++ d ++ a ++ b ++ rt ++ 3#2) = .ok (.imaxu d a b rt) ∧
     decodeWord .group (14#6 ++ d ++ a ++ b ++ rt ++ 0#2) = .ok (.and d a b rt) ∧
     decodeWord .group (14#6 ++ d ++ a ++ b ++ rt ++ 1#2) = .ok (.or d a b rt) ∧
     decodeWord .group (14#6 ++ d ++ a ++ b ++ rt ++ 2#2) = .ok (.xor d a b rt) ∧
     decodeWord .group (14#6 ++ d ++ a ++ b ++ rt ++ 3#2) = .ok (.andn d a b rt) ∧
     decodeWord .group (15#6 ++ d ++ a ++ b ++ rt ++ 0#2) = .ok (.shl d a b rt) ∧
     decodeWord .group (15#6 ++ d ++ a ++ b ++ rt ++ 1#2) = .ok (.shr d a b rt) ∧
     decodeWord .group (15#6 ++ d ++ a ++ b ++ rt ++ 2#2) = .ok (.sar d a b rt) ∧
     decodeWord .group (15#6 ++ d ++ a ++ b ++ rt ++ 3#2) = .ok (.rot d a b rt))

/-- R88 to R90: the members of majors 0x10 to 0x12, each with its value in every active lane. IMADW writes the exact signed product, low
word first; IMAD, ISAD and BFI read their destination; CLZ, POPC and BREV are said by the bits of their results. The layout of their
words, bit by bit: in ISEL the k register stands in the place of the route, b is zero in major 0x11, and IMADW with an odd d is refused
under REGFLD. -/
def Obligations.IntegerThirdOperandsAndBitFieldsWriteTheirResults : Prop :=
  (∀ (d a b : VReg) (rt : Route) (k : KReg),
    WritesInteger (.imad d a b rt) d a b (fun x i => srcA x rt a i * srcB x rt b i + vGet x d i) ∧
    WritesVector (.imadw d a b rt) false [(a, 1), (b, 1)] d 2
      (fun _ _ x i j => BitVec.ofInt 32 ((srcA x rt a i).toInt * (srcB x rt b i).toInt / (if j = 0 then 1 else 2 ^ 32))) neverBad ∧
    WritesInteger (.isad d a b rt) d a b (fun x i =>
      vGet x d i + BitVec.ofNat 32 ((srcA x rt a i).toInt - (srcB x rt b i).toInt).natAbs) ∧
    WritesInteger (.isel d a b k) d a b (fun x i => if laneIn (kGet x k.toNat) i then vGet x a i else vGet x b i) ∧
    WritesInteger (.clz d a rt) d a a (fun x i => clzW (srcA x rt a i)) ∧
    WritesInteger (.popc d a rt) d a a (fun x i => popcW (srcA x rt a i)) ∧
    WritesInteger (.brev d a rt) d a a (fun x i => brevW (srcA x rt a i)) ∧
    WritesInteger (.iabs d a rt) d a a (fun x i => BitVec.ofNat 32 (srcA x rt a i).toInt.natAbs) ∧
    WritesInteger (.bfx d a b rt) d a b (fun x i => bfxW (srcA x rt a i) (srcB x rt b i)) ∧
    WritesInteger (.bfi d a b rt) d a b (fun x i => bfiW (vGet x d i) (srcA x rt a i) (srcB x rt b i))) ∧
  (∀ x : Word, x ≠ 0 → (clzW x).toNat < 32 ∧ 2 ^ (31 - (clzW x).toNat) ≤ x.toNat ∧ x.toNat < 2 ^ (32 - (clzW x).toNat)) ∧
  clzW 0 = 32 ∧
  (∀ x : Word, (popcW x).toNat = ((List.range 32).filter x.getLsbD).length) ∧
  (∀ (x : Word) j, j < 32 → (brevW x).getLsbD j = x.getLsbD (31 - j)) ∧
  (∀ (x y : Word) j, j < 32 →
    (bfxW x y).getLsbD j = (decide (j < bitsOf y.toNat 13 8) && x.getLsbD (y.toNat % 32 + j))) ∧
  (∀ (old x y : Word) j, j < 32 →
    (bfiW old x y).getLsbD j =
      if y.toNat % 32 ≤ j ∧ j < y.toNat % 32 + bitsOf y.toNat 13 8 then x.getLsbD (j - y.toNat % 32) else old.getLsbD j) ∧
  (∀ (d a b : VReg) (rt : Route) (k : KReg),
     decodeWord .group (16#6 ++ d ++ a ++ b ++ rt ++ 0#2) = .ok (.imad d a b rt) ∧
     decodeWord .group (16#6 ++ d ++ a ++ b ++ rt ++ 1#2) = (if d.toNat % 2 = 0 then .ok (.imadw d a b rt) else .error .regFld) ∧
     decodeWord .group (16#6 ++ d ++ a ++ b ++ rt ++ 2#2) = .ok (.isad d a b rt) ∧
     decodeWord .group (16#6 ++ d ++ a ++ b ++ k ++ 3#2) = .ok (.isel d a b k) ∧
     decodeWord .group (17#6 ++ d ++ a ++ 0#7 ++ rt ++ 0#2) = .ok (.clz d a rt) ∧
     decodeWord .group (17#6 ++ d ++ a ++ 0#7 ++ rt ++ 1#2) = .ok (.popc d a rt) ∧
     decodeWord .group (17#6 ++ d ++ a ++ 0#7 ++ rt ++ 2#2) = .ok (.brev d a rt) ∧
     decodeWord .group (17#6 ++ d ++ a ++ 0#7 ++ rt ++ 3#2) = .ok (.iabs d a rt) ∧
     decodeWord .group (18#6 ++ d ++ a ++ b ++ rt ++ 0#2) = .ok (.bfx d a b rt) ∧
     decodeWord .group (18#6 ++ d ++ a ++ b ++ rt ++ 1#2) = .ok (.bfi d a b rt))

/-- R92: the immediate instructions. R93, R96, R98: the instructions with a scalar destination, once per issue, whatever the active
mask; s0 discards. R91, R94, R96, R102: the instructions with a predicate destination. ICMP and SCMP compare as R53 numbers the
conditions. -/
def Obligations.ImmediatesScalarsAndPredicatesWriteTheirResults : Prop :=
  (∀ (d a : VReg) (imm : BitVec 12) (imm19 : BitVec 19) (kind : BitVec 2) (n : BitVec 5),
     WritesInteger (.iaddi d a imm) d a a (fun x i => vGet x a i + imm.signExtend 32) ∧
     WritesInteger (.andi d a imm) d a a (fun x i => vGet x a i &&& imm.signExtend 32) ∧
     WritesInteger (.ori d a imm) d a a (fun x i => vGet x a i ||| imm.zeroExtend 32) ∧
     WritesInteger (.xori d a imm) d a a (fun x i => vGet x a i ^^^ imm.zeroExtend 32) ∧
     WritesInteger (.shi d a kind n) d a a (fun x i =>
       if kind = 0 then vGet x a i <<< n.toNat else if kind = 1 then vGet x a i >>> n.toNat
       else if kind = 2 then (vGet x a i).sshiftRight n.toNat else (vGet x a i).rotateLeft n.toNat) ∧
     WritesInteger (.movi d imm19) d d d (fun _ _ => imm19.signExtend 32) ∧
     WritesInteger (.movh d imm19) d d d (fun x i => imm19 ++ (vGet x d i).truncate 13) ∧
     WritesVector (.lea d a imm) false [(a, 2)] d 2
       (fun _ _ x i j => ((vGet64 x a i + imm.signExtend 64) >>> (32 * j)).truncate 32) neverBad) ∧
  ((∀ (d a b : SReg) (imm : BitVec 12) (imm19 : BitVec 19),
     WritesScalar (.sadd d a b) [] d (fun _ _ x => sGet x a + sGet x b) ∧
     WritesScalar (.ssub d a b) [] d (fun _ _ x => sGet x a - sGet x b) ∧
     WritesScalar (.smul d a b) [] d (fun _ _ x => sGet x a * sGet x b) ∧
     WritesScalar (.sand d a b) [] d (fun _ _ x => sGet x a &&& sGet x b) ∧
     WritesScalar (.sor d a b) [] d (fun _ _ x => sGet x a ||| sGet x b) ∧
     WritesScalar (.sxor d a b) [] d (fun _ _ x => sGet x a ^^^ sGet x b) ∧
     WritesScalar (.sshl d a b) [] d (fun _ _ x => sGet x a <<< ((sGet x b).toNat % 64)) ∧
     WritesScalar (.sshr d a b) [] d (fun _ _ x => sGet x a >>> ((sGet x b).toNat % 64)) ∧
     WritesScalar (.saddi d a imm) [] d (fun _ _ x => sGet x a + imm.signExtend 64) ∧
     WritesScalar (.smovi d imm19) [] d (fun _ _ _ => imm19.signExtend 64) ∧
     WritesScalar (.smovh d imm19) [] d (fun _ _ x =>
       ((sGet x d >>> 32).truncate 32 : BitVec 32) ++ imm19 ++ ((sGet x d).truncate 13 : BitVec 13))) ∧
   (∀ (d : SReg) (a : VReg) (lane : BitVec 7),
     WritesScalar (.vpick d a lane) [(a, 1)] d (fun _ _ x =>
       if lane.toNat < x.width ∧ laneIn x.live lane.toNat = true then (vGet x a lane.toNat).zeroExtend 64 else 0)) ∧
   (∀ (d : SReg) (a : VReg), ∃ f : Group → Word64,
     WritesScalar (.lvote d a 0) [(a, 1)] d (fun _ _ x => f x) ∧
     ∀ x i, i < 64 → x.width ≤ 64 → (f x).getLsbD i = (decide (i ∈ activeLanes x) && decide (vGet x a i ≠ 0))) ∧
   ∀ (d : SReg) (a : VReg),
     WritesScalar (.lvote d a 1) [(a, 1)] d (fun _ _ x => if ∃ i ∈ activeLanes x, vGet x a i ≠ 0 then 1 else 0) ∧
     WritesScalar (.lvote d a 2) [(a, 1)] d (fun _ _ x => if ∀ i ∈ activeLanes x, vGet x a i ≠ 0 then 1 else 0)) ∧
  ((∀ (k : KReg) (c : BitVec 4) (a b : VReg) (rt : Route), k ≠ 0 → c.toNat < 10 →
     WritesPredicate (.icmp k c a b rt) false [(a, 1), (b, 1)] k
       (fun x i => conditionHolds c.toNat (srcA x rt a i) (srcB x rt b i)) neverBad) ∧
   (∀ (k : KReg) (c : BitVec 4) (a b : SReg), k ≠ 0 → c.toNat < 10 →
     WritesPredicate (.scmp k c a b) false [] k (fun x _ => conditionHolds c.toNat (sGet x a) (sGet x b)) neverBad) ∧
   (∀ (k : KReg) (c : BitVec 4) (a b : VReg) (rt : Route), k ≠ 0 →
     WritesPredicate (.fcmp k c a b rt) true [(a, 1), (b, 1)] k
       (fun x i => (fltCond c.toNat (srcA x rt a i).toNat (srcB x rt b i).toNat).1)
       (fun x i => (fltCond c.toNat (srcA x rt a i).toNat (srcB x rt b i).toNat).2)) ∧
   ∀ (d a : BitVec 7), d ≠ 0 → ∀ s g x, Issues s g x → RegsOk x → Answers (.movk d a) s fun t => ∃ y, OnlyGroup s t g y ∧
     y = { x with k := y.k, frontier := (advance x).frontier } ∧
     (∀ i, i < 64 → laneIn (kGet y d.toNat) i = (decide (i < x.width) && laneIn (kGet x a.toNat) i)) ∧
     ∀ j, j ≠ d.toNat → j ≠ 0 → kGet y j = kGet x j)

/-- R95 to R97, R99, R100: LRED gives every active lane the value of the fixed butterfly, whatever the operation: at each distance h =
1, 2, 4 up to half the width, the value at every multiple of 2h is combined with the one h above it, an absent one giving way. LSCAN
gives each active lane the combination of the active lanes up to it, from the lowest. The operations are the eight of R99. -/
def Obligations.LaneInstructionsWriteTheirResults : Prop :=
  (∀ (d a : VReg) (b : SReg) (rt : Route),
    WritesInteger (.iadds d a b rt) d a a (fun x i => srcA x rt a i + (sGet x b).truncate 32) ∧
    WritesInteger (.imuls d a b rt) d a a (fun x i => srcA x rt a i * (sGet x b).truncate 32) ∧
    WritesFloat (.fmuls d a b rt) d a a (fun x i => f32.mul (srcA x rt a i).toNat ((sGet x b).toNat % 2 ^ 32)) ∧
    WritesFloat (.ffmas d a b rt) d a a (fun x i =>
      f32.fma (srcA x rt a i).toNat ((sGet x b).toNat % 2 ^ 32) (vGet x d i).toNat) ∧
    WritesInteger (.vbcst d b) d d d (fun x _ => (sGet x b).truncate 32) ∧
    WritesInteger (.vlane d) d d d (fun _ i => BitVec.ofNat 32 i)) ∧
  (∀ (d a b : VReg),
    WritesInteger (.lshf d a b) d a b (fun x i =>
      if (vGet x b i).toNat < x.width ∧ laneIn x.live (vGet x b i).toNat = true then vGet x a (vGet x b i).toNat else 0)) ∧
  ∀ (d a : VReg) (op : BitVec 3),
    WritesVector (.lred d a op) false [(a, 1)] d 1 (fun _ _ x _ _ => (lredVal op.toNat x a).1) (fun x _ => (lredVal op.toNat x a).2) ∧
    WritesVector (.lscan d a op) false [(a, 1)] d 1 (fun _ _ x i _ => (scanAt (lscanVals op.toNat x a) i).1)
      (fun x i => (scanAt (lscanVals op.toNat x a) i).2) ∧
    (let pass := fun (h : Nat) (t : Nat → Option Word) (j : Nat) =>
       match t j, t (j + h) with
       | some p, some q => some (redOp op.toNat p q).1
       | some p, none => some p
       | none, q => q
     ∀ x, x.width ∈ [16, 32, 64] → activeLanes x ≠ [] →
       let t0 := fun i => if i ∈ activeLanes x then some (vGet x a i) else none
       let t4 := pass 8 (pass 4 (pass 2 (pass 1 t0)))
       let t := if x.width = 16 then t4 else if x.width = 32 then pass 16 t4 else pass 32 (pass 16 t4)
       t 0 = some (lredVal op.toNat x a).1) ∧
    (∀ x i, i ∈ activeLanes x → ∀ j js, (activeLanes x).filter (fun j => decide (j ≤ i)) = j :: js →
      (scanAt (lscanVals op.toNat x a) i).1 = js.foldl (fun acc k => (redOp op.toNat acc (vGet x a k)).1) (vGet x a j)) ∧
    ∀ p q : Word, (redOp 0 p q).1 = p + q ∧
      (redOp 1 p q).1 = BitVec.ofInt 32 (min p.toInt q.toInt) ∧ (redOp 2 p q).1 = BitVec.ofInt 32 (max p.toInt q.toInt) ∧
      (redOp 3 p q).1 = BitVec.ofNat 32 (min p.toNat q.toNat) ∧ (redOp 4 p q).1 = BitVec.ofNat 32 (max p.toNat q.toNat) ∧
      (redOp 5 p q).1 = BitVec.ofNat 32 (f32.add p.toNat q.toNat).1 ∧
      (redOp 6 p q).1 = BitVec.ofNat 32 (f32.minMax false p.toNat q.toNat).1 ∧
      (redOp 7 p q).1 = BitVec.ofNat 32 (f32.minMax true p.toNat q.toNat).1

/-- R101: majors 0x26 and 0x27. Every round is F32 to nearest even; FCPYS takes bits [30:0] of x and bit 31 of y. R103: majors 0x29
and 0x2A. Each register holds two elements, computed each on its own in F16 or B16; the instruction is invalid in a lane where
either element is. The special values of R105's table, and R101's zeros and NaNs, as codes: what each function gives, and whether it
is invalid. -/
def Obligations.FloatArithmeticWritesItsResults : Prop :=
  (∀ (d a b : VReg) (rt : Route),
     WritesFloat (.fadd d a b rt) d a b (fun x i => f32.add (srcA x rt a i).toNat (srcB x rt b i).toNat) ∧
     WritesFloat (.fsub d a b rt) d a b (fun x i => f32.sub (srcA x rt a i).toNat (srcB x rt b i).toNat) ∧
     WritesFloat (.fmul d a b rt) d a b (fun x i => f32.mul (srcA x rt a i).toNat (srcB x rt b i).toNat) ∧
     WritesFloat (.fmin d a b rt) d a b (fun x i => f32.minMax false (srcA x rt a i).toNat (srcB x rt b i).toNat) ∧
     WritesFloat (.fmax d a b rt) d a b (fun x i => f32.minMax true (srcA x rt a i).toNat (srcB x rt b i).toNat) ∧
     WritesFloat (.ffma d a b rt) d a b
       (fun x i => f32.fma (srcA x rt a i).toNat (srcB x rt b i).toNat (vGet x d i).toNat) ∧
     WritesVector (.fcpys d a b rt) true [(a, 1), (b, 1)] d 1
       (fun _ _ x i _ => (srcB x rt b i &&& 0x80000000#32) ||| (srcA x rt a i &&& 0x7FFFFFFF#32)) neverBad ∧
     WritesFloat (.fdiv d a b rt) d a b (fun x i => f32.div (f32.dec (srcA x rt a i).toNat) (f32.dec (srcB x rt b i).toNat))) ∧
  (∀ (d a b : VReg) (rt : Route),
     let halves := fun (f : Nat → Nat → Nat → Nat × Bool) (x : Group) (i : Nat) =>
       let lo := f ((srcA x rt a i).toNat % 65536) ((srcB x rt b i).toNat % 65536) ((vGet x d i).toNat % 65536)
       let hi := f ((srcA x rt a i).toNat / 65536) ((srcB x rt b i).toNat / 65536) ((vGet x d i).toNat / 65536)
       (lo.1 + 65536 * hi.1, lo.2 || hi.2)
     WritesFloat (.hadd2 d a b rt) d a b (halves fun p q _ => f16.add p q) ∧
     WritesFloat (.hmul2 d a b rt) d a b (halves fun p q _ => f16.mul p q) ∧
     WritesFloat (.hfma2 d a b rt) d a b (halves fun p q r => f16.fma p q r) ∧
     WritesFloat (.hmax2 d a b rt) d a b (halves fun p q _ => f16.minMax true p q) ∧
     WritesFloat (.badd2 d a b rt) d a b (halves fun p q _ => b16.add p q) ∧
     WritesFloat (.bmul2 d a b rt) d a b (halves fun p q _ => b16.mul p q) ∧
     WritesFloat (.bfma2 d a b rt) d a b (halves fun p q r => b16.fma p q r) ∧
     WritesFloat (.bmax2 d a b rt) d a b (halves fun p q _ => b16.minMax true p q)) ∧
  ([0, 0x80000000, 0x7F800000, 0xFF800000].map f32.rcp =
     [(0x7F800000, false), (0xFF800000, false), (0, false), (0x80000000, false)] ∧
   [0, 0x80000000, 0x7F800000, 0xFF800000, 0xBF800000].map f32.rsqrt =
     [(0x7F800000, false), (0xFF800000, false), (0, false), (0x7FC00000, true), (0x7FC00000, true)] ∧
   [0, 0x80000000, 0x7F800000, 0xFF800000, 0xBF800000].map f32.sqrt =
     [(0, false), (0x80000000, false), (0x7F800000, false), (0x7FC00000, true), (0x7FC00000, true)] ∧
   [0, 0x80000000, 0x7F800000, 0xFF800000].map f32.exp2 =
     [(0x3F800000, false), (0x3F800000, false), (0x7F800000, false), (0, false)] ∧
   [0, 0x80000000, 0x7F800000, 0xFF800000, 0xBF800000].map f32.log2 =
     [(0xFF800000, false), (0xFF800000, false), (0x7F800000, false), (0x7FC00000, true), (0x7FC00000, true)] ∧
   [0, 0x80000000, 0x7F800000, 0xFF800000].map f32.sin =
     [(0, false), (0x80000000, false), (0x7FC00000, true), (0x7FC00000, true)] ∧
   [0, 0x7F800000, 0xFF800000].map f32.cos = [(0x3F800000, false), (0x7FC00000, true), (0x7FC00000, true)] ∧
   [0, 0x80000000, 0x7F800000, 0xFF800000].map f32.tanh =
     [(0, false), (0x80000000, false), (0x3F800000, false), (0xBF800000, false)] ∧
   [f32.add 0x3F800000 0xBF800000, f32.add 0x80000000 0x80000000, f32.add 0x7F800000 0xFF800000, f32.mul 0 0x7F800000,
     f32.minMax false 0x7FC00000 0x3F800000, f32.minMax true 0x80000000 0] =
     [(0, false), (0x80000000, false), (0x7FC00000, true), (0x7FC00000, true), (0x3F800000, false), (0, false)])

/-- R104 to R106: conversions, the special functions and FRND. FCVT takes the rounding mode, the saturate bit and, for kinds 8 and
9, the format and scale of a slot of its grid; a slot that kinds 8 and 9 cannot use makes it not performed, and sets SLOT. Every kind of
R104's table, and FRND, on codes whose results the table gives: ties and directed rounds, NaNs, values out of range with and without the
saturate bit, and the examples of R104 and R106. -/
def Obligations.ConversionsAndSpecialFunctionsWriteTheirResults : Prop :=
  (let sl := fun (f : SlotFmt) (scale : Int) (m : RMode) (sat : Bool) => ({ fmt := f, scale := scale, mode := m, sat := sat } : Slot)
   let rne := sl .f32 0 .rne false
   let sat := sl .f32 0 .rne true
   let rtz := sl .f32 0 .rtz false
   let rup := sl .f32 0 .rup false
   ([fcvt 0 rne 0x40200000, fcvt 0 rup 0x40200000, fcvt 0 rtz 0xC02CCCCD, fcvt 0 (sl .f32 0 .rdn false) 0xC02CCCCD] =
      [(2, false), (3, false), (0xFFFFFFFE, false), (0xFFFFFFFD, false)] ∧
    [fcvt 0 rne 0x7FC00000, fcvt 0 sat 0x7FC00000, fcvt 0 rne 0x4F32D05E, fcvt 0 sat 0x4F32D05E, fcvt 0 sat 0xCF32D05E] =
      [(0x80000000, true), (0, true), (0x80000000, true), (0x7FFFFFFF, true), (0x80000000, true)] ∧
    [fcvt 1 rne 0xFFFFFFFF, fcvt 1 rne 0x01000001, fcvt 1 rup 0x01000001] =
      [(0xBF800000, false), (0x4B800000, false), (0x4B800001, false)] ∧
    [fcvt 2 rne 0xBF800000, fcvt 2 sat 0xBF800000, fcvt 2 rne 0xBE800000, fcvt 2 rne 0x4F32D05E, fcvt 2 sat 0x7FC00000] =
      [(0xFFFFFFFF, true), (0, true), (0, false), (0xB2D05E00, false), (0, true)] ∧
    [fcvt 3 rne 0xFFFFFFFF, fcvt 3 rtz 0xFFFFFFFF] = [(0x4F800000, false), (0x4F7FFFFF, false)] ∧
    [fcvt 4 rne 0x477FF000, fcvt 4 sat 0x477FF000, fcvt 4 rtz 0x477FF000, fcvt 4 rne 0x7FC00000, fcvt 4 rne 0x7F800001] =
      [(0x7C00, false), (0x7BFF, false), (0x7BFF, false), (0x7E00, false), (0x7E00, true)] ∧
    [fcvt 5 rne 0xFFFF3C00, fcvt 5 rne 0x7E00, fcvt 5 rne 0x7D00] = [(0x3F800000, false), (0x7FC00000, false), (0x7FC00000, true)] ∧
    [fcvt 6 rne 0x3F808000, fcvt 6 rup 0x3F808000, fcvt 6 rne 0x7F7FFFFF, fcvt 6 sat 0x7F7FFFFF] =
      [(0x3F80, false), (0x3F81, false), (0x7F80, false), (0x7F7F, false)] ∧
    [fcvt 7 rne 0x3F81, fcvt 7 rne 0x7F81] = [(0x3F810000, false), (0x7FC00000, true)] ∧
    [fcvt 8 (sl .q4 (-2) .rne false) 0x3FA66666, fcvt 8 (sl .i8 0 .rne false) 0x43480000, fcvt 8 (sl .i8 0 .rne true) 0x43480000,
      fcvt 8 (sl .q4 (-2) .rne false) 0x7FC00000] = [(5, false), (0x80, true), (0x7F, true), (0, true)] ∧
    [fcvt 9 (sl .q4 (-2) .rne false) 5, fcvt 9 (sl .i8 1 .rne false) 0xFF, fcvt 9 (sl .f32 1 .rne true) 0x7F7FFFFF] =
      [(0x3FA00000, false), (0xC0000000, false), (0x7F800000, false)] ∧
    [f32.toIntegral .rtz 0xC02CCCCD, f32.toIntegral .rup 0xBE99999A, f32.toIntegral .rne 0x40200000, f32.toIntegral .rdn 0x3F000000,
      f32.toIntegral .rne 0xFF800000, f32.toIntegral .rne 0x7F800001] =
      [(0xC0000000, false), (0x80000000, false), (0x40000000, false), (0, false), (0xFF800000, false), (0x7FC00000, true)])) ∧
  (∀ (d a : VReg) (rt : Route) (mode : BitVec 2),
    WritesFloat (.frcp d a rt) d a a (fun x i => f32.rcp (srcA x rt a i).toNat) ∧
    WritesFloat (.frsq d a rt) d a a (fun x i => f32.rsqrt (srcA x rt a i).toNat) ∧
    WritesFloat (.fsqrt d a rt) d a a (fun x i => f32.sqrt (srcA x rt a i).toNat) ∧
    WritesFloat (.fexp2 d a rt) d a a (fun x i => f32.exp2 (srcA x rt a i).toNat) ∧
    WritesFloat (.flog2 d a rt) d a a (fun x i => f32.log2 (srcA x rt a i).toNat) ∧
    WritesFloat (.fsin d a rt) d a a (fun x i => f32.sin (srcA x rt a i).toNat) ∧
    WritesFloat (.fcos d a rt) d a a (fun x i => f32.cos (srcA x rt a i).toNat) ∧
    WritesFloat (.ftanh d a rt) d a a (fun x i => f32.tanh (srcA x rt a i).toNat) ∧
    WritesFloat (.frnd d a rt mode) d a a (fun x i => f32.toIntegral (RMode.ofCode mode.toNat) (srcA x rt a i).toNat)) ∧
  ∀ (d a : VReg) (kind : BitVec 7) (slot : BitVec 3) s g x, Issues s g x → RegsOk x →
    let sl := slotOf s g slot.toNat
    (slotUnusable kind.toNat sl = true →
      exec (.fcvt d a kind slot) s = notPerformed s g x (cSlot ||| regCauses x true [(d, 1), (a, 1)])) ∧
    (slotUnusable kind.toNat sl = false → regCauses x true [(d, 1), (a, 1), (a, 1)] = 0 →
      (fpinvOn s g = true → ∀ k ∈ activeLanes x, (fcvt kind.toNat sl (vGet x a k).toNat).2 = false) →
      Answers (.fcvt d a kind slot) s fun t => ∃ y, OnlyGroup s t g y ∧
        VectorResult x y d 1 fun i _ => BitVec.ofNat 32 (fcvt kind.toNat sl (vGet x a i).toNat).1)

/-- R74: a round to F32 gives a code whose value no other finite code comes nearer to, and of two as near the even one; wherever the
result is finite. The values are compared as integers, in units of 2^-400. -/
def Obligations.RoundingGivesTheNearestValue : Prop :=
  ∀ neg m e, -300 ≤ e →
    let v := FVal.num neg m e
    let c := f32.rne v
    c % 2 ^ 31 < f32.infCode →
    ∀ z, z < 2 ^ 32 → z % 2 ^ 31 < f32.infCode →
      let near := (valueAt 400 v - valueAt 400 (f32.dec c)).natAbs
      let far := (valueAt 400 v - valueAt 400 (f32.dec z)).natAbs
      near ≤ far ∧ (near = far → valueAt 400 (f32.dec z) ≠ valueAt 400 (f32.dec c) → c % 2 = 0)

/-- R9, R43, R71, R72: an instruction on registers with a role or window cause is not performed: it answers the state in which its
causes are raised with its own link, and nothing is written. R74, R72: where the launch enables FPINV and an active lane's operation
is invalid, FADD and FMUL first write every result and then set FPINV, with the link of the entry advanced past them. -/
def Obligations.CausesOfRegisterInstructions : Prop :=
  (∀ s g x, Issues s g x → ∀ (d a b : VReg) (rt : Route),
     (x.copyRole = true → regCauses x true [(d, 1), (a, 1), (b, 1)] &&& cRole = cRole) ∧
     (∀ i, i ∈ [Instr.fadd d a b rt, .fsub d a b rt, .fmul d a b rt, .fmin d a b rt, .fmax d a b rt, .ffma d a b rt, .fcpys d a b rt,
         .fdiv d a b rt, .hadd2 d a b rt, .hmul2 d a b rt, .hfma2 d a b rt, .hmax2 d a b rt, .badd2 d a b rt, .bmul2 d a b rt,
         .bfma2 d a b rt, .bmax2 d a b rt] →
       regCauses x true [(d, 1), (a, 1), (b, 1)] ≠ 0 →
       exec i s = .next (raise s g (regCauses x true [(d, 1), (a, 1), (b, 1)]) (curLink x) [] none)) ∧
     (∀ i, i ∈ [Instr.iadd d a b rt, .isub d a b rt, .imul d a b rt, .imulh d a b rt, .imin d a b rt, .imax d a b rt, .iminu d a b rt,
         .imaxu d a b rt, .and d a b rt, .or d a b rt, .xor d a b rt, .andn d a b rt, .shl d a b rt, .shr d a b rt, .sar d a b rt,
         .rot d a b rt, .imad d a b rt, .isad d a b rt, .bfx d a b rt, .bfi d a b rt] →
       ¬ ((physReg x d) / 64 < x.owned ∧ (physReg x a) / 64 < x.owned ∧ (physReg x b) / 64 < x.owned) →
       exec i s = .next (raise s g cWindow (curLink x) [] none))) ∧
  (∀ s g x (d a b : VReg) (rt : Route) (i : Instr) (f : Nat → Nat → Nat × Bool),
     (i = .fadd d a b rt ∧ f = f32.add ∨ i = .fmul d a b rt ∧ f = f32.mul) →
     Issues s g x → RegsOk x → regCauses x true [(d, 1), (a, 1), (b, 1)] = 0 → fpinvOn s g = true →
     (∃ k ∈ activeLanes x, (f (srcA x rt a k).toNat (srcB x rt b k).toNat).2 = true) →
     ∃ y, VectorResult x y d 1 (fun k _ => BitVec.ofNat 32 (f (srcA x rt a k).toNat (srcB x rt b k).toNat).1) ∧
       exec i s = .next (raise (setGroup s g y) g cFpinv (curLink y) [] none))

/-! ## The group (R75 to R86) -/

/-- R75, R79, R80, R85, R86: the instructions that change a group's own record. OPF starts the staging of two registers, which enter the
operand prefetch queue as it completes, after cycles that the manual leaves open (DESIGN CHOICE, log 7); of a register that is not owned it
is not performed. R80, R44: SRD reads the registers of R44 into an s register, sr.lane as the lowest active lane; and into v registers,
sr.lane as each lane's index, a 64-bit register into a pair. -/
def Obligations.GroupRecordAndSpecialRegisters : Prop :=
  (ChangesGroup .nop (fun _ _ x => advance x) ∧
   ChangesGroup .yield (fun _ _ x => { advance x with yielded := true }) ∧
   (∀ s g x, Issues s g x → isMarked s g = false → Answers .pchk s fun t => OnlyGroup s t g (advance x)) ∧
   (∀ s g x, Issues s g x → isMarked s g = true → x.wait = none → Answers .pchk s fun t => OnlyGroup s t g
     { x with parked := true, wait := some { kind := .pchk, began := s.time, paused := 0, satAt := none } }) ∧
   (∀ n s g x, Issues s g x → Answers (.cclr n) s fun t => ∃ y, OnlyGroup s t g y ∧ y = { advance x with cause := y.cause } ∧
     ∀ m, m < 32 → y.cause.getLsbD m = (x.cause.getLsbD m && decide (m ≠ n.toNat))) ∧
   (∀ n, ChangesGroup (.wbase n) fun _ _ x => { advance x with wbase := 32 * n.toNat }) ∧
   (∀ s g x, Issues s g x → RegsOk x → Answers .rrel s fun t => ∃ y, OnlyGroup s t g y ∧
     if 1 < x.owned then
       y = { advance x with owned := x.owned - 1, blocks := x.blocks.dropLast, v := y.v,
                            queue := x.queue.filter fun r => decide (r / 64 ≠ x.owned - 1)
                            staged := x.staged.filter fun p => decide (p.1 / 64 ≠ x.owned - 1) } ∧
       ∀ r i, i < 64 → vRaw y r i = if r / 64 = x.owned - 1 then 0 else vRaw x r i
     else y = advance x) ∧
   (∀ (a b : VReg) s g x, Issues s g x →
     if physReg x a / 64 < x.owned ∧ physReg x b / 64 < x.owned then
       Answers (.opf a b) s fun t => ∃ p q, GroupBecomes s t g
           { advance x with staged := x.staged ++ [(physReg x a, p), (physReg x b, q)] } ∧
         t = { s with fresh := t.fresh, wk := t.wk } ∧ SameMemory s t
     else exec (.opf a b) s = .next (raise s g cWindow (curLink x) [] none)) ∧
   (∀ n ka ma kb mb s g x, Issues s g x → Answers (.route n ka ma kb mb) s fun t => ∃ y, OnlyGroup s t g y ∧
     y = { advance x with routes := y.routes } ∧
     tabGet y.routes n.toNat = some { ka := ka, ma := ma, kb := kb, mb := mb } ∧
     ∀ m, m ≠ n.toNat → tabGet y.routes m = tabGet x.routes m) ∧
   (∀ a, ChangesGroup (.swr a 0x09) fun _ _ x => { advance x with epc := sGet x a }) ∧
   (∀ a, ChangesGroup (.swr a 0x0E) fun _ _ x => { advance x with bubbles := sGet x a }) ∧
   ∀ a s g x tm, Issues s g x → findTeam s (grefTeam g) = some tm → Answers (.swr a 0x0F) s fun t =>
     findTeam t (grefTeam g) = some { tm with skips := sGet x a, groups := listMod tm.groups g.grp fun _ => advance x } ∧
     (∀ u, u ≠ grefTeam g → findTeam t u = findTeam s u) ∧ SameMemory s t) ∧
  ((∀ s g x gg, Issues s g x → RegsOk x → findGang s g.gang = some gg → ∀ (d : SReg) n v,
     (n, v) ∈ [(0x00, ((activeLanes x).head?).getD 0), (0x01, g.grp), (0x02, g.team), (0x03, gg.index), (0x04, x.width),
       (0x07, s.time), (0x08, x.cause.toNat), (0x09, x.epc.toNat), (0x0A, x.skid), (0x0B, x.lct), (0x0C, x.acq),
       (0x0D, passesOf s gg), (0x0E, x.bubbles.toNat), (0x10, if x.frozen.isSome then 1 else x.frontier.length)] →
     Answers (.srd d false (BitVec.ofNat 8 n)) s fun t => ∃ y, OnlyGroup s t g y ∧ ScalarResult x y d (BitVec.ofNat 64 v)) ∧
   (∀ s g x gg c cs, Issues s g x → RegsOk x → findGang s g.gang = some gg → gg.ids = some (c, cs) → ∀ d : SReg,
     (Answers (.srd d false 0x05) s fun t => ∃ y, OnlyGroup s t g y ∧ ScalarResult x y d (BitVec.ofNat 64 c)) ∧
     ∀ k, cs[g.team]? = some k →
       Answers (.srd d false 0x06) s fun t => ∃ y, OnlyGroup s t g y ∧ ScalarResult x y d (BitVec.ofNat 64 k)) ∧
   (∀ s g x tm, Issues s g x → RegsOk x → findTeam s (grefTeam g) = some tm → ∀ d : SReg,
     Answers (.srd d false 0x0F) s fun t => ∃ y, OnlyGroup s t g y ∧ ScalarResult x y d tm.skips) ∧
   (∀ (d : VReg) , WritesVector (.srd d true 0x00) false [] d 1 (fun _ _ _ i _ => BitVec.ofNat 32 i) neverBad ∧
     WritesVector (.srd d true 0x04) false [] d 1 (fun _ _ x _ _ => BitVec.ofNat 32 x.width) neverBad ∧
     WritesVector (.srd d true 0x08) false [] d 1 (fun _ _ x _ _ => x.cause) neverBad ∧
     WritesVector (.srd d true 0x07) false [] d 2 (fun s _ _ _ j => BitVec.ofNat 32 (s.time / 2 ^ (32 * j))) neverBad ∧
     WritesVector (.srd d true 0x09) false [] d 2 (fun _ _ x _ j => BitVec.ofNat 32 (x.epc.toNat / 2 ^ (32 * j))) neverBad))

/-- R18, R19, R82, R83: BR, CALL, RET and BX move all active lanes; CALL writes the link to s63. R18 to R20, R82: BT and BF move the
active lanes that branch to (p, T) and the others to the next PC, at the present priority. A split that would give a 17th entry is
not performed and sets FRONTIER. -/
def Obligations.BranchesMoveTheCurrentEntry : Prop :=
  (∀ s g x e es, Issues s g x → RegsOk x → FrontierOk x.frontier → x.frontier = e :: es → ∀ (b : Branch) (a : SReg),
     let target := BitVec.ofInt 56 (e.pc.toNat + 4 * b.off.toInt)
     (Answers (.br b) s fun t => ∃ fs, OnlyGroup s t g { x with frontier := fs } ∧ Moves x fs fun _ => (b.prio, target)) ∧
     (Answers (.call b) s fun t => ∃ y, OnlyGroup s t g y ∧ y = { x with frontier := y.frontier, s := y.s } ∧
       Moves x y.frontier (fun _ => (b.prio, target)) ∧
       sGet y 63 = BitVec.ofNat 64 (e.prio.toNat * 2 ^ 56 + (e.pc + 4).toNat) ∧ ∀ r, r ≠ 63 → sGet y r = sGet x r) ∧
     (Answers .ret s fun t => ∃ fs, OnlyGroup s t g { x with frontier := fs } ∧
       Moves x fs fun _ => (((sGet x 63) >>> 56).truncate 8, (sGet x 63).truncate 56)) ∧
     (Answers (.bx a) s fun t => ∃ fs, OnlyGroup s t g { x with frontier := fs } ∧
       Moves x fs fun _ => (((sGet x a) >>> 56).truncate 8, (sGet x a).truncate 56))) ∧
  (∀ s g x e es, Issues s g x → FrontierOk x.frontier → x.frontier = e :: es → ∀ (k : KReg) (b : Branch) i m,
     (i, m) ∈ [(Instr.bt k b, kGet x k.toNat), (Instr.bf k b, ~~~kGet x k.toNat)] →
     let target := BitVec.ofInt 56 (e.pc.toNat + 4 * b.off.toInt)
     let place := fun l => if laneIn m l then (b.prio, target) else (e.prio, e.pc + 4)
     let splits := m &&& e.mask ≠ 0 ∧ m &&& e.mask ≠ e.mask
     let meets := (b.prio, target) = (e.prio, e.pc + 4) ∨
       ∃ f ∈ es, (f.prio, f.pc) = (b.prio, target) ∨ (f.prio, f.pc) = (e.prio, e.pc + 4)
     (¬ splits ∨ x.frontier.length < 16 ∨ (x.frontier.length = 16 ∧ meets) →
       Answers i s fun t => ∃ fs, OnlyGroup s t g { x with frontier := fs } ∧ Moves x fs place) ∧
     (splits → x.frontier.length = 16 → ¬ meets → exec i s = .next (raise s g cFrontier (curLink x) [] none)))

/-- R72, R274, R275: a cause stops a running team, with a halt broadcast to every sibling: one that waits or is parked stops at once with
the link of its wait. In the lane cycle of the stop it makes a co-stopped group, and of the two the one whose watchdog expired, else the
lower, is the stopping one. In a team that has stopped before, or whose gang is in the fold, it is recorded and stops nothing a second time;
while its gang is being saved it is reported with that, among the late causes that R283 judges. In the group whose handler runs it ends the
handler, and the union of the group's causes is reported (R281). Remote loads outstanding beyond their threshold are cancelled where a group
stops (R276). The co-stop in the cycle of the stop, the link of a sibling in a handler and the causes that come in a save are the model's
reading (DEDUCED, log 55). -/
def Obligations.ACauseStopsTheRunningTeam : Prop :=
  ∀ s g x gg tm (bits : BitVec 32) (link : Word64), GangsDistinct s → findGroup s g = some x → findGang s g.gang = some gg →
    findTeam s (grefTeam g) = some tm →
    let t := raise s g bits link [] none
    let together := fun (st : Stop) => st.time = s.time ∧ st.written = none ∧ st.report = false ∧ tm.handler = none
    let kept := fun (z : Group) => if z.cause &&& (cWdog ||| cRzvinit) = 0 then none else z.point
    let stops := fun (z : Group) (l : Word64) =>
      { z with epc := l, halted := true, parked := false, frames := none
               loads := z.loads.filter fun p => !p.beyond
               cancelled := z.cancelled ++ z.loads.filter PendLoad.beyond }
    let alone := fun (z : Group) => { z with cause := (z.cause &&& ~~~cHaltb) ||| bits, skid := 0, point := kept z }
    (gg.state = .resident → tm.stop = none → tm.handler ≠ some g.grp → x.retired = false →
      findGroup t g = some (if x.halted then alone x else stops (alone x) link) ∧
      (∀ h z, grefTeam h = grefTeam g → h ≠ g → findGroup s h = some z →
        (z.retired = true → findGroup t h = some z) ∧
        (z.retired = false → z.wait = none → z.parked = false →
          findGroup t h = some { z with cause := z.cause ||| cHaltb, skid := 0 }) ∧
        (z.retired = false → z.wait ≠ none ∨ z.parked = true →
          findGroup t h = some (stops { z with cause := z.cause ||| cHaltb, skid := 0 }
            (if z.frozen.isSome then z.epc else curLink z)))) ∧
      ∃ tm' st, findTeam t (grefTeam g) = some tm' ∧ tm'.stop = some st ∧ st.group = g.grp ∧ st.causes = bits ∧ st.time = s.time) ∧
    (∀ st, gg.state = .resident → tm.stop = some st → tm.handler ≠ some g.grp → together st → x.retired = false →
      findGroup t g = some (if x.halted then alone x else stops (alone x) link) ∧
      (∀ h, h ≠ g → findGroup t h = findGroup s h) ∧
      ∃ tm' st', findTeam t (grefTeam g) = some tm' ∧ tm'.stop = some st' ∧ st'.time = s.time ∧
        st'.group = (if st.causes &&& cWdog ≠ 0 ∧ bits &&& cWdog = 0 then st.group
          else if st.causes &&& cWdog = 0 ∧ bits &&& cWdog ≠ 0 then g.grp else min st.group g.grp)) ∧
    (∀ st, gg.state = .resident → tm.stop = some st → tm.handler ≠ some g.grp → ¬ together st →
      let z := { x with cause := x.cause ||| bits, point := kept x }
      let y := if x.halted || x.retired then z else stops z link
      (gg.reported = false → OnlyGroup s t g y) ∧
      (gg.reported = true → findGroup t g = some y ∧ (∀ h, h ≠ g → findGroup t h = findGroup s h) ∧
        ∃ tm' st', findTeam t (grefTeam g) = some tm' ∧ tm'.stop = some st' ∧ st'.report = true ∧ st'.written = none ∧
          st'.causes &&& bits = bits ∧ st'.late = st.late ||| bits)) ∧
    (∀ st, gg.state = .resident → tm.stop = some st → tm.handler = some g.grp →
      findGroup t g = some
        { stops { x with cause := x.cause ||| bits, point := kept x } link with
          frontier := (x.frozen).getD x.frontier, frozen := none, wait := none } ∧
      (∀ h, h ≠ g → findGroup t h = findGroup s h) ∧
      ∃ tm' st', findTeam t (grefTeam g) = some tm' ∧ tm'.handler = none ∧ tm'.stop = some st' ∧ st'.group = g.grp ∧
        st'.causes = (x.cause &&& ~~~cHaltb) ||| (bits &&& ~~~cTrapi) ∧ st'.time = st.time ∧ st'.report = true ∧ st'.written = none) ∧
    (gg.state ≠ .resident → OnlyGroup s t g { x with cause := x.cause ||| bits, point := kept x, epc := link }) ∧
    (∀ h, grefTeam h ≠ grefTeam g → findGroup t h = findGroup s h) ∧ SameMemory s t

/-- R77, R78: TRAP advances the entry and sets TRAPI with the link of the entry after it; TRET outside a handler is not performed
and sets TRAPI. In a handler TRET gives the frozen current entry the link of sr.epc and clears every HALTB; where no cause is left
every group resumes, and else the team stops again in the lowest group that holds one (R281). Under the halt broadcast of a report the
team stays stopped, with no group and no cause of its own (R278; DEDUCED, log 55). -/
def Obligations.TrapAndReturnHaveTheirEffects : Prop :=
  (∀ code : BitVec 16, decodeWord .group (0x0500#16 ++ code) = .ok (.trap code)) ∧ decodeWord .group 0x05400000 = .ok .tret ∧
  (∀ s g x code, Issues s g x →
    exec (.trap code) s = .next (raise (setGroup s g (advance x)) g cTrapi (curLink (advance x)) [] none)) ∧
  (∀ s g x tm, Issues s g x → findTeam s (grefTeam g) = some tm → tm.handler ≠ some g.grp →
    exec .tret s = .next (raise s g cTrapi (curLink x) [] none)) ∧
  ∀ s g x gg tm e es, Issues s g x → findGang s g.gang = some gg → findTeam s (grefTeam g) = some tm → tm.handler = some g.grp →
    x.retired = false → x.frozen = some (e :: es) → FrontierOk (e :: es) →
    Answers .tret s fun t => ∃ tm' y, findTeam t (grefTeam g) = some tm' ∧ findGroup t g = some y ∧ tm'.handler = none ∧
      y.frozen = none ∧ FrontierOk y.frontier ∧
      (∀ i, laneAt y i = if laneIn e.mask i then some ((x.epc >>> 56).truncate 8, x.epc.truncate 56)
                         else laneAt { x with frontier := e :: es } i) ∧
      y.v = x.v ∧ y.s = x.s ∧ y.k = x.k ∧
      (gg.reported = true → ∀ st, tm.stop = some st → ∃ st', tm'.stop = some st' ∧ st'.group = 255 ∧ st'.causes = 0 ∧
        st'.time = st.time ∧ st'.report = true ∧ st'.written = none) ∧
      (gg.reported = false → (∀ z ∈ tm.groups, z.retired = false → z.cause &&& ~~~cHaltb = 0) →
        tm'.stop = none ∧ ∀ z ∈ tm'.groups, z.retired = false → z.halted = false ∧ z.wait = none ∧ z.cause = 0) ∧
      (gg.reported = false → ∀ n z, tm.groups[n]? = some z → z.retired = false → z.cause &&& ~~~cHaltb ≠ 0 →
        (∀ m w, m < n → tm.groups[m]? = some w → w.retired = false → w.cause &&& ~~~cHaltb = 0) →
        ∃ st, tm'.stop = some st ∧ st.group = n ∧ st.causes = z.cause &&& ~~~cHaltb ∧
          ∀ w ∈ tm'.groups, w.retired = false → w.halted = true ∧ w.skid = 0) ∧
      SameMemory s t

/-- R76, R18, R21, R8: EXIT retires the active lanes and removes the current entry; the last entry retires the group, and the last
group of the last team of a gang its gang. -/
def Obligations.ExitRetiresLanesGroupsAndGangs : Prop :=
  ∀ s g x gg tm e es, Issues s g x → findGang s g.gang = some gg → findTeam s (grefTeam g) = some tm → tm.handler ≠ some g.grp →
    x.frontier = e :: es → x.body = none → x.retired = false →
    (es ≠ [] → Answers .exit s fun t => OnlyGroup s t g { x with live := x.live &&& ~~~e.mask, frontier := es }) ∧
    (es = [] → (∃ n z, n ≠ g.grp ∧ tm.groups[n]? = some z ∧ z.retired = false) →
      Answers .exit s fun t => ∃ y, OnlyGroup s t g y ∧ y.retired = true ∧ y.frontier = [] ∧ y.live = x.live &&& ~~~e.mask ∧
        y.wait = none ∧ (x.loads = [] → x.tiles = [] → y.blocks = [] ∧ y.owned = 0) ∧
        (x.loads ≠ [] ∨ x.tiles ≠ [] → y.blocks = x.blocks ∧ y.owned = x.owned)) ∧
    (es = [] → (∀ n z, n ≠ g.grp → tm.groups[n]? = some z → z.retired = true) → tm.retired = false → tm.stop = none →
      tm.stash = [] → tm.seq.running = false → tm.engine.flight = [] → tm.engine.completed = tm.engine.published →
      gg.state = .resident → (∀ n u, n ≠ g.team → gg.teams[n]? = some u → u.retired = true) →
      Answers .exit s fun t => ∃ gg', findGang t g.gang = some gg' ∧ gg'.state = .retired ∧
        ∃ y, findGroup t g = some y ∧ y.retired = true)

/-- R84, R150: WAIT and FENCE advance once their conditions hold, and until then change nothing. R43, R85, R308: RACQ takes the next
block, zeroed in every lane, where a block is free: on its core, and for a yoked group of more than 32 lanes half of it on the core
whose slab carries the upper lanes (R12), which is that of the yoke's last slab (DEDUCED, log 27); beyond 1 + M blocks it is not performed,
and while none is free it waits. -/
def Obligations.WaitsHoldUntilTheirConditions : Prop :=
  (∀ s g x, Issues s g x →
     (∀ l st c ti,
       let holds := (l = 63 ∨ x.loads.length ≤ l.toNat) ∧ (st = 63 ∨ x.stores.length ≤ st.toNat) ∧ (c = 63 ∨ x.copies ≤ c.toNat) ∧
         (ti = 63 ∨ x.tiles.length ≤ ti.toNat)
       (holds → Answers (.wait l st c ti) s fun t => OnlyGroup s t g (advance x)) ∧
       (¬ holds → exec (.wait l st c ti) s = .next s)) ∧
     ∀ scope kind : BitVec 3, scope.toNat < 6 → kind.toNat < 2 →
       let skew := if scope.toNat = 0 then 0 else if scope.toNat < 4 then 8 else 100
       let holds := x.loads = [] ∧ x.stores = [] ∧ x.tiles = [] ∧ x.lct + skew ≤ s.time
       (holds → Answers (.fence scope kind) s fun t => OnlyGroup s t g
         (if kind = 1 then { advance x with acq := s.time } else advance x)) ∧
       (¬ holds → exec (.fence scope kind) s = .next s)) ∧
  (∀ s g x gg, Issues s g x → RegsOk x → findGang s g.gang = some gg →
     (1 + gg.launch.maxBlocks ≤ x.owned → exec .racq s = .next (raise s g cWindow (curLink x) [] none)) ∧
     (x.owned < 1 + gg.launch.maxBlocks → ∀ u, freeBlock s g = some u →
       Answers .racq s fun t => ∃ y, OnlyGroup s t g y ∧
         y = { advance x with wait := none, owned := x.owned + 1, blocks := x.blocks ++ [u], v := y.v } ∧
         ∀ r i, i < 64 → vRaw y r i = if r / 64 = x.owned then 0 else vRaw x r i) ∧
     (x.owned < 1 + gg.launch.maxBlocks → freeBlock s g = none → x.wait = none →
       Answers .racq s fun t => OnlyGroup s t g
         { x with parked := x.parked || isMarked s g
                  wait := some { kind := .racq, began := s.time, paused := 0, satAt := none } }) ∧
     ∀ u, freeBlock s g = some u → 0 < gg.launch.width → 16 ∣ gg.launch.width →
       let split := 2 ≤ gg.launch.yoke ∧ 32 < gg.launch.width
       let n := if split then 2 else gg.launch.width / 16
       let free := fun k c => k % n = 0 ∧ k + n ≤ 192 ∧ ∀ b ∈ regsTaken s (clusterOf gg) c, k + n ≤ b.1 ∨ b.1 + b.2 ≤ k
       free (u % 192) (coreOf gg g.team g.grp) ∧ (¬ split → u < 192) ∧
         (split → ∃ c, yokedCore gg g.team = some c ∧ free (u / 192) c))

/-- R34 to R37: RINIT, ARV and RWAIT; an arrival follows the group's stores at team scope (R37): it is not performed while one is held, nor
while a load of the scratchpad waits for its data (DEDUCED, log 63). R211 to R213: QWAIT takes the slot at next take, and QREL frees the
oldest slot taken; a sequencer that reaches the ring in the same cycle takes it first, and QWAIT waits. -/
def Obligations.RendezvousAndStageRings : Prop :=
  (∀ s g x tm, GangsDistinct s → Issues s g x → findTeam s (grefTeam g) = some tm → ∀ (p : BitVec 5) q, tm.points[p.toNat]? = some q →
     (∀ e : BitVec 8, e ≠ 0 →
       (q.e = e.toNat → Answers (.rinit p e) s fun t => OnlyGroup s t g (advance x)) ∧
       (q.e = 0 → Answers (.rinit p e) s fun t => ∃ tm', findTeam t (grefTeam g) = some tm' ∧ findGroup t g = some (advance x) ∧
         tm'.points[p.toNat]? = some { e := e.toNat, count := 0, phase := 0, bitmap := 0 } ∧
         (∀ n, n ≠ p.toNat → tm'.points[n]? = tm.points[n]?) ∧ SameMemory s t) ∧
       (q.e ≠ 0 → q.e ≠ e.toNat → q.count ≠ 0 → exec (.rinit p e) s = .next (raise s g cRzvinit (curLink x) [] (some p.toNat))) ∧
       (q.e ≠ 0 → q.e ≠ e.toNat → q.count = 0 →
         (∀ z ∈ tm.groups, z.retired = false → z.halted = false → ∀ w, z.wait = some w → ∀ ph, w.kind ≠ .rwait p.toNat ph) →
         (∀ w, tm.seq.wait = some w → ∀ ph, w.kind ≠ .rwait p.toNat ph) →
         Answers (.rinit p e) s fun t => ∃ tm', findTeam t (grefTeam g) = some tm' ∧
           tm'.points[p.toNat]? = some { e := e.toNat, count := 0, phase := 0, bitmap := 0 } ∧
           (∀ z ∈ tm'.groups, tabGet z.phases p.toNat = none) ∧ tabGet tm'.seq.phases p.toNat = none)) ∧
     (q.e = 0 → exec (.arv p) s = .next (raise s g cRzvinit (curLink x) [] (some p.toNat)) ∧
       exec (.rwait p) s = .next (raise s g cRzvinit (curLink x) [] (some p.toNat))) ∧
     (q.e ≠ 0 → arrivalHeld x = true → exec (.arv p) s = .next s) ∧
     (q.e ≠ 0 → arrivalHeld x = false → Answers (.arv p) s fun t => ∃ tm', findTeam t (grefTeam g) = some tm' ∧
       findGroup t g = some { advance x with phases := tabPut x.phases p.toNat q.phase } ∧
       (∀ n, n ≠ p.toNat → tm'.points[n]? = tm.points[n]?) ∧
       tm'.points[p.toNat]? = some (if q.count + 1 = q.e then { e := q.e, count := 0, phase := q.phase + 1, bitmap := 0 }
         else { e := q.e, count := q.count + 1, phase := q.phase, bitmap := q.bitmap ||| BitVec.ofNat 32 (2 ^ g.grp) }) ∧
       (∀ h, h ≠ g → findGroup t h = findGroup s h) ∧ SameMemory s t) ∧
     (q.e ≠ 0 → x.wait = none → ∀ r, tabGet x.phases p.toNat = some r → r + 1 = q.phase →
       Answers (.rwait p) s fun t => OnlyGroup s t g { advance x with acq := s.time }) ∧
     (q.e ≠ 0 → x.wait = none → (∀ r, tabGet x.phases p.toNat = some r → r + 1 ≠ q.phase) →
       Answers (.rwait p) s fun t => OnlyGroup s t g
         { x with parked := x.parked || isMarked s g
                  wait := some { kind := .rwait p.toNat q.phase, began := s.time, paused := 0, satAt := none } }) ∧
     ∀ w ph, q.e ≠ 0 → x.wait = some w → w.kind = .rwait p.toNat ph → ph < q.phase →
       Answers (.rwait p) s fun t => OnlyGroup s t g { advance x with wait := none, acq := s.time }) ∧
  (∀ s g x tm, GangsDistinct s → Issues s g x → RegsOk x → findTeam s (grefTeam g) = some tm → ∀ (q : BitVec 3) r, tm.rings[q.toNat]? = some r →
     (∀ d : SReg, r.slots ≠ 0 → 0 < r.filled → mayTake tm q.toNat (g.grp + 1) ((x.wait.map Wait.began).getD s.time) = true →
       x.wait ≠ none ∨ seqTakes s (grefTeam g) q.toNat = false →
       Answers (.qwait q d) s fun t => ∃ tm' y, findTeam t (grefTeam g) = some tm' ∧ findGroup t g = some y ∧
         tm'.rings[q.toNat]? = some { r with filled := r.filled - 1, take := (r.take + 1) % r.slots, taken := r.taken ++ [r.take] } ∧
         (∀ n, n ≠ q.toNat → tm'.rings[n]? = tm.rings[n]?) ∧
         (d ≠ 0 → sGet y d = BitVec.ofNat 64 (r.take + if r.phases.getLsbD r.take then 256 else 0)) ∧
         (∀ e, e ≠ d → sGet y e = sGet x e) ∧ y = { advance x with wait := none, acq := s.time, s := y.s } ∧
         (∀ h, h ≠ g → findGroup t h = findGroup s h) ∧ SameMemory s t) ∧
     (∀ d : SReg, r.slots ≠ 0 → r.filled = 0 ∨ seqTakes s (grefTeam g) q.toNat = true → x.wait = none →
       Answers (.qwait q d) s fun t => OnlyGroup s t g
       { x with parked := x.parked || isMarked s g
                wait := some { kind := .qwait q.toNat, began := s.time, paused := 0, satAt := none } }) ∧
     (r.taken = [] → exec (.qrel q) s = .next (raise s g cQueue (curLink x) [] none)) ∧
     ∀ k ks, r.taken = k :: ks → tm.drains = [] → Answers (.qrel q) s fun t => ∃ tm', findTeam t (grefTeam g) = some tm' ∧
       tm'.rings[q.toNat]? = some { r with taken := ks, free := r.free + 1 } ∧ (∀ n, n ≠ q.toNat → tm'.rings[n]? = tm.rings[n]?) ∧
       findGroup t g = some (advance x) ∧ (∀ h, h ≠ g → findGroup t h = findGroup s h) ∧ SameMemory s t)

/-- R81, R345: BOOST with bin 0 ends the context's lease and grants 0, and one that is refused grants 0 and changes nothing else; a
grant is the least of the request, the pool and 65,535, and takes the place of the context's lease on the cluster, whose remaining
time, in whole microseconds (DEDUCED, log 18), joins the pool first; a grant of 0 leaves no lease. R344, R345: a lease ends at its end
time, and each millisecond REFILL µs join the pool, up to CAP. -/
def Obligations.BoostFollowsThePool : Prop :=
  (∀ s g x gg, Issues s g x → RegsOk x → findGang s g.gang = some gg → ∀ (d a : SReg) (bin : BitVec 3),
     let c := physCluster s (clusterOf gg)
     let refused := bin.toNat ≤ (clusterRegs s c).binBase.toNat ∨ 1 ≤ computeState s (stackOf c) ∨ 2 ≤ s.pl.powerStep ∨ (dev s).pool = 0
     (bin ≠ 0 → refused →
       Answers (.boost d a bin) s fun t => ∃ y, OnlyGroup s t g y ∧ ScalarResult x y d 0) ∧
     ∀ held kept, (∀ l ∈ held, l.ctx = gg.ctx ∧ l.cluster = c) → (∀ l ∈ kept, ¬ (l.ctx = gg.ctx ∧ l.cluster = c)) →
       s.pl.leases = held ++ kept → held.length ≤ 1 →
       let pool := (dev s).pool + (held.map fun l => (l.stop - s.time) / 4000).sum
       (bin = 0 → Answers (.boost d a bin) s fun t => ∃ y, findGroup t g = some y ∧ ScalarResult x y d 0 ∧
         t.pl.leases = kept ∧ dev t = { dev s with pool := pool } ∧ SameMemory s t) ∧
       (bin ≠ 0 → ¬ refused →
         let grant := min (sGet x a).toNat (min pool 65535)
         Answers (.boost d a bin) s fun t => ∃ y, findGroup t g = some y ∧ ScalarResult x y d (BitVec.ofNat 64 grant) ∧
           dev t = { dev s with pool := pool - grant } ∧
           t.pl.leases = kept ++ (if grant = 0 then []
             else [{ ctx := gg.ctx, cluster := c, bin := bin, stop := s.time + grant * 4000 }]) ∧ SameMemory s t)) ∧
  ((∀ s ctx c, Answers (.boostLeaseEnd ctx c) s fun u => u = { s with pl := { s.pl with leases := u.pl.leases } } ∧
     ∀ l, l ∈ u.pl.leases ↔ l ∈ s.pl.leases ∧ ¬ (l.ctx = ctx ∧ l.cluster = c ∧ l.stop ≤ s.time)) ∧
   ∀ s, (s.time < s.pl.refillAt → exec .boostRefill s = .next s) ∧
     (s.pl.refillAt ≤ s.time →
       let r := dev s
       Answers .boostRefill s fun u => u = { s with pl := { s.pl with refillAt := s.pl.refillAt + 4000000, dev := dev u } } ∧
         dev u = { r with pool := (dev u).pool } ∧
         (r.pool ≤ r.cap * 1000 → (dev u).pool = min (r.cap * 1000) (r.pool + r.refill)) ∧ (r.cap * 1000 < r.pool → (dev u).pool = r.pool)))

/-! ## Memory (R107 to R153, R168 to R182) -/

/-- R138 to R140, R144: LD and LDA take the data of every active lane as they issue and raise the load counter; they write no
memory. That they take it as they issue, where the home may serve it at any moment until the load completes, is the model's reading
(DEDUCED, log 12). A lane of another package's memory is served when the load completes, unless a copy in the group's own L1 serves it
(R120, R355), and a lane of the window reads its register. -/
def Obligations.LoadsTakeTheirData : Prop :=
  ∀ s g x (d a : VReg) (w : MWidth) ls, Issues s g x → x.loads.length < 62 →
    let n : Nat := 2 ^ w.toNat
    regCauses x false [(d, widthRegs n), (a, 2)] = 0 → anyPoison s g ls n = false → coreRoom s g (activeLanes x).length = true →
    let vas := fun (off : Int) => (activeLanes x).map (laneAddr x a (off * n))
    let joined := fun t p => GroupBecomes s t g { advance x with loads := x.loads ++ [p] } ∧ p.regs = regRun x d (widthRegs n) ∧
      p.holds = 0 ∧ p.beyond = false ∧ p.issued = s.time
    let filled := fun (p : PendLoad) (value : Leaf → List Byte) => p.remote = [] ∧ p.todo = [] ∧
      p.writes = (ls.zip (activeLanes x)).flatMap fun q => (laneKeys x d n q.2).zip (loadWords (value q.1))
    let local_ := ∀ l ∈ ls, isRemote s l.pa = false ∧ readWaits s g l = false
    let kind := fun (hint : BitVec 2) => if hint = 3 then Access.column else .load
    (∀ (hint : BitVec 2) (off : BitVec 7), checkAll s (ctxOf s g) (vas off.toInt) n (kind hint) = .ok ls → local_ →
      (∀ l ∈ ls, l.mtype ≠ 2) →
      Answers (.ld d a w hint off) s fun t => (hint ≠ 1 → SameMemory s t) ∧ ∃ p, joined t p ∧ filled p (loadedBytes s g x n hint.toNat)) ∧
    (∀ (hint : BitVec 2) (off : BitVec 7), hint ≠ 3 → checkAll s (ctxOf s g) (vas off.toInt) n .load = .ok ls → local_ →
      (∀ l ∈ ls, l.mtype = 2) →
      Answers (.ld d a w hint off) s fun t => SameMemory s t ∧ ∃ p, joined t p ∧
        filled p fun l => natLE n (windowRead s (localOf l.pa - Config.windowBase) n)) ∧
    (∀ (hint : BitVec 2) (off : BitVec 7), checkAll s (ctxOf s g) (vas off.toInt) n (kind hint) = .ok ls → Uncontained s g →
      (∀ l ∈ ls, isRemote s l.pa = true ∧ l.mtype ≠ 2 ∧ copyServes s g (coreIdOf s g) x.acq hint.toNat l = false) →
      Answers (.ld d a w hint off) s fun t => SameMemory s t ∧ ∃ p, joined t p ∧ p.writes = [] ∧
        p.remote = (ls.map fun l => pkgOf l.pa).eraseDups ∧
        p.todo = (ls.zip ((vas off.toInt).zip (activeLanes x))).map fun q =>
          { pa := q.1.pa, width := n, keys := laneKeys x d n q.2.2, mtype := q.1.mtype, va := q.2.1
            lease := if q.1.mtype = 0 ∧ hint ≠ 3 then some q.1.lease else none }) ∧
    (∀ (hint : BitVec 2) (off : BitVec 7), hint ≠ 1 → checkAll s (ctxOf s g) (vas off.toInt) n (kind hint) = .ok ls → Uncontained s g →
      (∀ l ∈ ls, isRemote s l.pa = true ∧ copyServes s g (coreIdOf s g) x.acq hint.toNat l = true) →
      Answers (.ld d a w hint off) s fun t => SameMemory s t ∧ ∃ p, joined t p ∧ filled p fun l =>
        ((l1Hit s (coreIdOf s g) (l.pa / 32) x.acq g).map fun c => sliceLine c.data l.pa n).getD []) ∧
    ∀ scope (off : BitVec 4), checkAll s (ctxOf s g) (vas off.toInt) n .load = .ok ls → local_ →
      (∀ l ∈ ls, l.mtype = 1 ∨ (l.mtype = 0 ∧ ∀ m ∈ s.mm.narrow, m.line = l.pa / 32 → outside m (some g) = false)) →
      Answers (.lda d a w scope off) s fun t => SameMemory s t ∧ ∃ p, joined t p ∧ p.acquire = true ∧ p.servedAt = s.time ∧
        filled p fun l => if l.mtype = 1 then dramRead s l.pa n else homeRead s l.pa n (some g)

/-- R138, R141, R145: ST and STL write the bytes of the active lanes in rising order, and no other byte, and raise the store
counter; STL first performs the wait of a release fence at its scope, or at dom scope where a lane goes to another package (R355). A store
to a register of the window writes it (R118); a contained instance's store to a CONT page is staged: its own group reads the bytes, and no
reader of another instance sees a change (R316). -/
def Obligations.StoresWriteTheirBytes : Prop :=
  ∀ s g x (d a : VReg) (w : MWidth) ls, LinesOk s → Issues s g x → x.wait = none → x.stores.length < 62 → w.toNat ≤ 4 →
    let n : Nat := 2 ^ w.toNat
    regCauses x false [(d, widthRegs n), (a, 2)] = 0 → coreRoom s g (activeLanes x).length = true →
    (∀ l ∈ ls, waitsToWrite s l.mlock l.pa (some g) s.fresh = false) →
    let vas := fun (off : Int) => (activeLanes x).map (laneAddr x a (off * n))
    let joined := fun t => OthersKeep s t g ∧ ∃ p, findGroup t g = some { advance x with stores := x.stores ++ [p] } ∧ p.holds = 0 ∧
      p.remote = ((ls.filter fun l => isRemote s l.pa).map fun l => pkgOf l.pa).eraseDups ∧ s.time ≤ p.done
    let free := containedOf s (some g) = none
    let normal := ∀ l ∈ ls, l.mtype = 0 ∧ ∀ k, k < n → PlainLine s ((l.pa + k) / 32)
    (∀ (hint : BitVec 2) (off : BitVec 7), checkAll s (ctxOf s g) (vas off.toInt) n .store = .ok ls → normal → free →
      Answers (.st d a w hint off) s fun t => joined t ∧ StoresBytes s t g (laneStores x d n ls)) ∧
    (∀ (hint : BitVec 2) (off : BitVec 7), checkAll s (ctxOf s g) (vas off.toInt) n .store = .ok ls → (∀ l ∈ ls, l.mtype = 1) → free →
      Memory.wf s.mm.mem = true →
      Answers (.st d a w hint off) s fun t => joined t ∧
        KeepsOthers (laneStores x d n ls) (fun pa => dramRead s pa 1) (fun pa => dramRead t pa 1) ∧
        LastWrites (laneStores x d n ls) fun pa => smGet t.mm.mem pa) ∧
    (∀ (hint : BitVec 2) (off : BitVec 7) k l, checkAll s (ctxOf s g) (vas off.toInt) n .store = .ok ls → activeLanes x = [k] → ls = [l] →
      l.mtype = 2 → isRemote s l.pa = false → instOf s (some g) = none →
      exec (.st d a w hint off) s = .next (pushStore
        (windowWrite { s with fresh := s.fresh + 1 } (localOf l.pa - Config.windowBase) n (leNat (storeBytes x d n k)))
        g s.fresh s.time 0 [] 1 false)) ∧
    (∀ (hint : BitVec 2) (off : BitVec 7) i line, checkAll s (ctxOf s g) (vas off.toInt) n .store = .ok ls → normal →
      containedOf s (some g) = some i → (∀ l ∈ ls, l.cont = true ∧ isRemote s l.pa = false ∧ l.pa / 32 = line) →
      overQuota s i line = false → Memory.wf s.mm.mem = true →
      Answers (.st d a w hint off) s fun t => joined t ∧
        LastWrites ((laneStores x d n ls).map fun e => (e.1, [e.2])) (byteAt t (some g)) ∧
        KeepsOthers (laneStores x d n ls) (byteAt s (some g)) (byteAt t (some g)) ∧
        ∀ r, instOf s r ≠ some i → ∀ pa, byteAt t r pa = byteAt s r pa) ∧
    ∀ (scope : BitVec 3) (off : BitVec 4), scope.toNat < 6 → checkAll s (ctxOf s g) (vas off.toInt) n .store = .ok ls →
      let wait := if scope.toNat ≤ 3 ∧ ∃ l ∈ ls, isRemote s l.pa = true then 4 else scope.toNat
      (¬ fenceReady s x wait = true → exec (.stl d a w scope off) s = .next s) ∧
      (fenceReady s x wait = true → normal → free → s.mm.narrow = [] → s.mm.monitors = [] →
        (∀ p ∈ s.wk.gangs, ∀ tm ∈ p.2.teams, ∀ z ∈ tm.groups, ∀ u, z.wait = some u → ∀ addr c y sc, u.kind ≠ .mwait addr c y sc) →
        Answers (.stl d a w scope off) s fun t => joined t ∧ StoresBytes s t g (laneStores x d n ls))

/-- R111, R116, R118, R138: an access that some lane may not make is performed in no lane, and sets what its checks found: ALIGN for
a misaligned address, PAGE for one without a leaf, PERM for a page that the access may not write, and for a column load of a page that
is not NORMAL. That a misaligned address without a leaf sets both ALIGN and PAGE is the model's reading (DEDUCED, log 25). -/
def Obligations.AccessesThatFailAreNotPerformed : Prop :=
  (∀ s g x (d a : VReg) (w : MWidth) b, Issues s g x → x.loads.length < 62 → x.stores.length < 62 →
    let n : Nat := 2 ^ w.toNat
    regCauses x false [(d, widthRegs n), (a, 2)] = 0 →
    let vas := fun (off : Int) => (activeLanes x).map (laneAddr x a (off * n))
    let stopped := Host.Outcome.next (raise s g b (curLink x) [] none)
    (∀ (hint : BitVec 2) (off : BitVec 7),
      checkAll s (ctxOf s g) (vas off.toInt) n (if hint = 3 then .column else .load) = .error b →
      exec (.ld d a w hint off) s = stopped) ∧
    (∀ (hint : BitVec 2) (off : BitVec 7), checkAll s (ctxOf s g) (vas off.toInt) n .store = .error b →
      exec (.st d a w hint off) s = stopped) ∧
    (∀ scope (off : BitVec 4), checkAll s (ctxOf s g) (vas off.toInt) n .load = .error b → exec (.lda d a w scope off) s = stopped) ∧
    ∀ scope (off : BitVec 4), checkAll s (ctxOf s g) (vas off.toInt) n .store = .error b → exec (.stl d a w scope off) s = stopped) ∧
  ∀ s ctx vas n acc b, checkAll s ctx vas n acc = .error b →
    (cAlign &&& b ≠ 0 ↔ ∃ va ∈ vas, va % n ≠ 0) ∧
    (cPage &&& b ≠ 0 ↔ ∃ va ∈ vas, translate s ctx va = none) ∧
    (acc = .store → ∀ va ∈ vas, ∀ l, translate s ctx va = some l → l.w = false → cPerm &&& b ≠ 0) ∧
    (acc = .column → ∀ va ∈ vas, ∀ l, translate s ctx va = some l → l.mtype ≠ 0 → cPerm &&& b ≠ 0)

/-- R146 to R148: ATOM, ATOMX and RED over any lanes join their counter. Where all lanes name one word, they act on it in rising order
of lanes, each on what the one before has left: the new word is that of R147's table, and each lane's destination takes the word it found.
No other byte changes. -/
def Obligations.AtomicsPerformTheTable : Prop :=
  ∀ s g x (d a b : VReg) (scope : BitVec 2) ls, LinesOk s → Issues s g x → x.wait = none → Uncontained s g →
    x.loads.length < 62 → x.stores.length < 62 → anyPoison s g ls 4 = false → coreRoom s g (activeLanes x).length = true →
    checkAll s (ctxOf s g) ((activeLanes x).map (laneAddr x a 0)) 4 .atomic = .ok ls →
    (∀ l ∈ ls, isRemote s l.pa = false ∧ waitsToWrite s l.mlock l.pa (some g) s.fresh = false ∧ l.mtype = 0 ∧
      PlainLine s (l.pa / 32)) →
    let forms : List (Instr × Option VReg × Bool × Nat) :=
      (List.range 8).flatMap fun op => [(.atom d a b (BitVec.ofNat 3 op) scope, some d, false, op),
        (.red a b (BitVec.ofNat 3 op) scope, none, false, op)] ++
        (if op < 4 then [(Instr.atomx d a b (BitVec.ofNat 3 op) scope, some d, true, op)] else [])
    ∀ i dest isX op, (i, dest, isX, op) ∈ forms →
      regCauses x false ((a, 2) :: (b, if isX && op == 1 then 2 else 1) :: (dest.map fun r => (r, 1)).toList) = 0 →
      (∃ t, exec i s = .next t ∧ OthersKeep s t g ∧ (∀ r pa, (∀ l ∈ ls, pa < l.pa ∨ l.pa + 4 ≤ pa) → byteAt t r pa = byteAt s r pa) ∧
        match dest with
        | some r => ∃ p, findGroup t g = some { advance x with loads := x.loads ++ [p] } ∧ p.holds = 0 ∧ p.todo = [] ∧
            p.writes.map Prod.fst = (activeLanes x).map fun k => physReg x r * 64 + k
        | none => ∃ p, findGroup t g = some { advance x with stores := x.stores ++ [p] } ∧ p.holds = 0) ∧
      ∀ pa, activeLanes x ≠ [] → (∀ l ∈ ls, l.pa = pa) →
        let new := fun (m : Word) (k : Nat) =>
          let y := vGet x b k
          if isX then
            [y, if m = y then vRaw x (physReg x b + 1) k else m, BitVec.ofNat 32 (f32.add m.toNat y.toNat).1,
              BitVec.ofNat 32 ((b16.add (m.toNat % 65536) (y.toNat % 65536)).1 +
                65536 * (b16.add (m.toNat / 65536) (y.toNat / 65536)).1)].getD op 0
          else
            [m + y, if m.toInt ≤ y.toInt then m else y, if m.toInt ≤ y.toInt then y else m, if m.toNat ≤ y.toNat then m else y,
              if m.toNat ≤ y.toNat then y else m, m &&& y, m ||| y, m ^^^ y].getD op 0
        let found := fun (n : Nat) => ((activeLanes x).take n).foldl new
          (BitVec.ofNat 32 (leNat (sliceLine (lineLatest s (pa / 32) (some g)) pa 4)))
        ∃ t, exec i s = .next t ∧
          (∀ j, j < 4 → byteAt t (some g) (pa + j) = [((natLE 4 (found (activeLanes x).length).toNat)[j]?).getD 0]) ∧
          ∀ r, dest = some r → ∃ y' p, findGroup t g = some y' ∧ y'.loads = x.loads ++ [p] ∧
            p.writes = (List.range (activeLanes x).length).map fun n => (physReg x r * 64 + ((activeLanes x)[n]?).getD 0, found n)

/-- R149: MWAIT on a word that satisfies its condition completes, and acquires; on any other it waits, its monitor armed. -/
def Obligations.MwaitCompletesOrArmsAMonitor : Prop :=
  ∀ s g x (a b : VReg) (c : BitVec 3) (scope : BitVec 2) k ks l, Issues s g x → x.wait = none → c.toNat < 4 →
    activeLanes x = k :: ks → regCauses x false [(a, 2), (b, if c = 3 then 2 else 1)] = 0 →
    let n : Nat := if c = 3 then 8 else 4
    checkAccess s (ctxOf s g) (laneAddr x a 0 k) n .mwait = .ok l → anyPoison s g [l] n = false → isRemote s l.pa = false →
    readWaits s g l = false → l.mtype ≠ 2 → (∀ m ∈ s.mm.narrow, m.line ≠ l.pa / 32) →
    let m := leNat (if l.mtype = 1 then dramRead s l.pa n else homeRead s l.pa n (some g))
    let y := if c = 3 then (vGet64 x b k).toNat % 2 ^ 48 else (vGet x b k).toNat
    let holds := if c = 0 then m = y else if c = 1 then m ≠ y else if c = 2 then y ≤ m else y ≤ m % 2 ^ 48
    (m < 2 ^ (8 * n) → holds → Answers (.mwait a b c scope) s fun t => SameMemory s t ∧ GroupBecomes s t g
      { advance x with acq := max x.acq s.time }) ∧
    (m < 2 ^ (8 * n) → ¬ holds → Answers (.mwait a b c scope) s fun t => SameMemory s t ∧ ∃ w, GroupBecomes s t g
      { x with wait := some w, parked := x.parked || isMarked s g } ∧ w.kind = .mwait l.pa (condOf c) y scope ∧ w.began = s.time ∧
        (l.mtype = 1 → w.satAt = none))

/-- R142, R143, R153: LDS, STS, LDT and STT outside stash mappings read and write the scratchpad of the team they name, in rising
order of lanes, and no byte of memory. A publishing STS, one of whose lanes writes the notify word (R143, R205, R206): in a group without the
copy role it sets ROLE, at another width than 4 bytes ALIGN; the entries it publishes are the new value less the old, modulo 2^32; more
than the ring has room for, or more than 62, set QUEUE; it waits for a release at dev scope and for room in the copy counter, and then
publishes them and raises the copy counter by their number. -/
def Obligations.ScratchpadAccessesReadAndWrite : Prop :=
  ∀ s g x tm (d a : VReg), GangsDistinct s → Issues s g x → findTeam s (grefTeam g) = some tm → tm.stash = [] → TeamOk tm →
    (∀ (w : MWidth) (off : BitVec 7),
      let n : Nat := 2 ^ w.toNat
      let offs := (activeLanes x).map (laneScratch x a (off.toInt * n))
      regCauses x false [(d, widthRegs n), (a, 1)] = 0 → (∀ o ∈ offs, o % n = 0 ∧ o + n ≤ scratchLimit tm ∧ o + n ≤ 2 ^ 20) →
      (x.loads.length < 62 → Answers (.lds d a w off) s fun t => SameMemory s t ∧ ∃ p, GroupBecomes s t g
        { advance x with loads := x.loads ++ [p] } ∧ p.todo = [] ∧ p.regs = regRun x d (widthRegs n) ∧
        p.writes = (offs.zip (activeLanes x)).flatMap fun q =>
          (laneKeys x d n q.2).zip (loadWords (smRange tm.scratch q.1 n))) ∧
      ∀ gg, findGang s g.gang = some gg → x.stores.length < 62 →
        let es := ((activeLanes x).zip offs).flatMap fun q => (List.range n).map fun k => (q.2 + k, ((storeBytes x d n q.1)[k]?).getD 0)
        let written := fun t tm' => SameMemory s t ∧ findTeam t (grefTeam g) = some tm' ∧
          KeepsOthers es (smGet tm.scratch) (smGet tm'.scratch) ∧ LastWrites es (smGet tm'.scratch)
        let notifies := ((activeLanes x).zip offs).filter fun q => decide (q.2 < gg.launch.notify + 4 ∧ gg.launch.notify < q.2 + n)
        (gg.launch.ringEntries = 0 ∨ notifies = [] → Answers (.sts d a w off) s fun t => ∃ p tm', written t tm' ∧
          GroupBecomes s t g { advance x with stores := x.stores ++ [p] } ∧ tm'.engine = tm.engine) ∧
        (0 < gg.launch.ringEntries → ∀ i o, notifies.getLast? = some (i, o) →
          (x.copyRole = false ∨ n ≠ 4 → exec (.sts d a w off) s = .next (raise s g
            ((if x.copyRole then 0 else cRole) ||| (if n = 4 then 0 else cAlign)) (curLink x) [] none)) ∧
          (x.copyRole = true → n = 4 →
            let k := ((vGet x d i).toNat + 2 ^ 32 - leNat (smRange tm.scratch gg.launch.notify 4)) % 2 ^ 32
            let misused := gg.launch.ringEntries - (tm.engine.published - tm.engine.takenIdx) < k ∨ 62 < k
            let ready := x.loads = [] ∧ x.stores = [] ∧ x.tiles = [] ∧ x.lct + 8 ≤ s.time ∧ x.copies + k ≤ 62
            (misused → exec (.sts d a w off) s = .next (raise s g cQueue (curLink x) [] none)) ∧
            (¬ misused → ¬ ready → exec (.sts d a w off) s = .next s) ∧
            (¬ misused → ready → Answers (.sts d a w off) s fun t => ∃ p tm', written t tm' ∧
              GroupBecomes s t g { advance x with stores := x.stores ++ [p], copies := x.copies + k } ∧
              tm'.engine = { tm.engine with published := tm.engine.published + k
                                            pubs := tm.engine.pubs ++ List.replicate k g.grp })))) ∧
    ∀ (m : VReg) k ks, activeLanes x = k :: ks → x.width ≤ 64 →
      let base := ((vGet x a k).toNat + 16 * m.toNat) % 2 ^ 32
      regCauses x false [(d, 4), (a, 1)] = 0 → x.tiles.length < 62 → base % 16 = 0 → base + 16 * x.width ≤ scratchLimit tm →
      base + 16 * x.width ≤ 2 ^ 20 → 0 < x.width →
      (Answers (.ldt d a m) s fun t => SameMemory s t ∧ ∃ p, GroupBecomes s t g { advance x with tiles := x.tiles ++ [p] } ∧
        p.regs = regRun x d 4 ∧ p.writes = (activeLanes x).flatMap fun i => (List.range 4).map fun j =>
          ((physReg x d + j) * 64 + i, BitVec.ofNat 32 (leNat (smRange tm.scratch (base + 4 * (j * x.width + i)) 4)))) ∧
      Answers (.stt d a m) s fun t => SameMemory s t ∧ ∃ p tm', findTeam t (grefTeam g) = some tm' ∧
        GroupBecomes s t g { advance x with tiles := x.tiles ++ [p] } ∧ p.writes = [] ∧
        (∀ i ∈ activeLanes x, ∀ j, j < 4 → smRange tm'.scratch (base + 4 * (j * x.width + i)) 4 =
          natLE 4 (vRaw x (physReg x d + j) i).toNat) ∧
        ∀ o, (∀ i ∈ activeLanes x, ∀ j, j < 4 → o < base + 4 * (j * x.width + i) ∨ base + 4 * (j * x.width + i) + 4 ≤ o) →
          smGet tm'.scratch o = smGet tm.scratch o

/-- R15, R16, R138, R153: a load that completes writes its data to its destination registers, which enter the operand prefetch queue, a
tile transfer likewise, and a store gives its completion time to sr.lct; each leaves its counter. -/
def Obligations.OutstandingAccessesComplete : Prop :=
  ∀ s g x tm, findTeam s (grefTeam g) = some tm → findGroup s g = some x → RegsOk x → x.retired = false → ∀ k,
    let filled := fun (y : Group) (ws : List (Nat × Word)) =>
      KeepsOthers ws (smGet x.v) (smGet y.v) ∧ LastWrites ws (smGet y.v)
    (∀ p, x.loads[k]? = some p → p.todo = [] → p.holds = 0 → p.beyond = false → p.servedAt ≤ s.time → x.wait = none → p.again = false →
      (∀ n ∈ p.remote, recovering s n = false ∧ unreachable s n = false) →
      Answers (.loadComplete g k) s fun t => SameMemory s t ∧ ∃ y, GroupBecomes s t g y ∧ filled y p.writes ∧
        y = { x with loads := x.loads.eraseIdx k, acq := if p.acquire then max x.acq p.servedAt else x.acq, v := y.v, queue := y.queue }) ∧
    (∀ p, x.loads.length ≤ k → x.tiles[k - x.loads.length]? = some p → p.holds = 0 →
      Answers (.loadComplete g k) s fun t => SameMemory s t ∧ ∃ y, GroupBecomes s t g y ∧ filled y p.writes ∧
        y = { x with tiles := x.tiles.eraseIdx (k - x.loads.length), v := y.v, queue := y.queue }) ∧
    ∀ p, x.stores[k]? = some p → p.holds = 0 → (∀ n ∈ p.remote, recovering s n = false) →
      Answers (.storeComplete g k) s fun t => SameMemory s t ∧ GroupBecomes s t g
        { x with stores := x.stores.eraseIdx k, lct := max x.lct p.done }

/-- R151: CCLEAN writes the latest data of every named line back to DRAM and changes no reader's view; CINV leaves each named line
as DRAM holds it; CCLINV does both; PREF changes no byte. R120, R123, R126: an eviction of the LLC writes dirty data back and drops
the copy, and a dropped L1 line is gone; neither changes a byte that is read at the homes. On a stack at its 105 °C point an eviction waits
(R349). Maintenance of a line whose data is in the LLC alone, and an eviction, act on a locked page at once (DESIGN CHOICE, log 21). -/
def Obligations.CacheMaintenanceAndEviction : Prop :=
  (∀ s g x (a b : VReg), Issues s g x → LinesOk s → Safety.MemoryOk s → regCauses x false [(a, 2), (b, 1)] = 0 →
     (Answers (.pref a b) s fun t => SameMemory s t ∧ GroupBecomes s t g (advance x)) ∧
     (x.stores.length < 62 → x.wait = none → coreRoom s g 1 = true →
       let named := (namedLines x a b).map (32 * ·)
       let plain := fun (ls : List Leaf) => ∀ l ∈ ls, l.mtype = 0 ∧ isRemote s l.pa = false ∧ PlainLine s (l.pa / 32) ∧
         cacheWaits s g (l.pa / 32) = false
       let pushed := fun t (late : Leaf → Nat) (ls : List Leaf) => ∃ p, GroupBecomes s t g { advance x with stores := x.stores ++ [p] } ∧
         p.holds = 0 ∧ s.time ≤ p.done ∧ ∀ l ∈ ls, late l ≤ p.done
       let pending := fun (l : Leaf) => (homeOf s (l.pa / 32)).dirty = true ∨ (homeOf s (l.pa / 32)).writes ≠ []
       (∀ ls, checkAll s (ctxOf s g) named 1 .clean = .ok ls → plain ls →
         Answers (.cclean a b) s fun t => SameMemory s t ∧
           pushed t (fun l => if (homeOf s (l.pa / 32)).writes = [] then 0 else (homeOf s (l.pa / 32)).last) ls ∧
           ∀ l ∈ ls, pending l → dramLine t (l.pa / 32) = lineLatest s (l.pa / 32) none) ∧
       ∀ ls, checkAll s (ctxOf s g) named 1 .invalidate = .ok ls → plain ls →
         (Answers (.cinv a b) s fun t => pushed t (fun l => (homeOf s (l.pa / 32)).lease) ls ∧
           (∀ line r, (∀ l ∈ ls, l.pa / 32 ≠ line) → lineView t line r = lineView s line r) ∧
           ∀ l ∈ ls, ∀ r, lineView t (l.pa / 32) r = dramLine s (l.pa / 32)) ∧
         Answers (.cclinv a b) s fun t => pushed t (fun l => (homeOf s (l.pa / 32)).lease) ls ∧
           (∀ line r, (∀ l ∈ ls, l.pa / 32 ≠ line) → lineView t line r = lineView s line r) ∧
           ∀ l ∈ ls, ∀ r, pending l → lineView t (l.pa / 32) r = lineLatest s (l.pa / 32) none)) ∧
  ((∀ s line, hotAt s (32 * line) = true → exec (.llcEviction line) s = .next s) ∧
   (∀ s line, hotAt s (32 * line) = false → LinesOk s → Safety.MemoryOk s → (homeOf s line).writes = [] →
     (∀ b, (homeOf s line).llc = some b → (homeOf s line).dirty = false → b = dramLine s line) →
     Answers (.llcEviction line) s fun t => SameMemory s t ∧ (homeOf t line).llc = none ∧ (homeOf t line).dirty = false ∧
       (∀ b, (homeOf s line).llc = some b → dramLine t line = b) ∧ t.wk = s.wk ∧ t.mm.l1 = s.mm.l1) ∧
   ∀ s core line, Answers (.l1LineDrop core line) s fun t => SameMemory s t ∧ t.wk = s.wk ∧
     (∀ c ∈ t.mm.l1, ¬ (c.core = core ∧ c.line = line)) ∧
     ∀ c ∈ s.mm.l1, ¬ (c.core = core ∧ c.line = line) → c ∈ t.mm.l1)

/-- R122, R152: SMAP maps a page at a block that reads as zero; SUNMAP and SFLUSH write its dirty lines back, so that the team reads
them as before, and SUNMAP ends the mapping; so does the lazy write-back of one line. R177, R182, R349: while its page is locked, its stack
is at its 105 °C point or a copy engine owns one of them, dirty lines stay, and these are not performed and issued again (DEDUCED,
log 21). -/
def Obligations.StashInstructionsMapAndWriteBack : Prop :=
  ∀ s g x gg tm (a b : VReg), GangsDistinct s → LinesOk s → Issues s g x → x.wait = none → findGang s g.gang = some gg →
    gg.node = none → findTeam s (grefTeam g) = some tm → TeamOk tm → s.mm.narrow = [] → ∀ k ks, activeLanes x = k :: ks →
    (∀ l, regCauses x false [(a, 2), (b, 1)] = 0 → checkAccess s (ctxOf s g) (laneAddr x a 0 k) 4096 .load = .ok l →
      l.mtype = 0 → isRemote s l.pa = false → allStash s = [] →
      let off := (vGet x b k).toNat
      off % 4096 = 0 → off < 2 ^ 20 → off + 4096 ≤ scratchLimit tm → blockBusy gg.launch off = false →
      Answers (.smap a b) s fun t => SameMemory s t ∧ GroupBecomes s t g (advance x) ∧
        ∃ tm', findTeam t (grefTeam g) = some tm' ∧
          tm'.stash = [{ off := off, va := laneAddr x a 0 k, addr := l.pa, filled := 0, dirty := 0 }] ∧
          (∀ o, smGet tm'.scratch o = if off ≤ o ∧ o < off + 4096 then 0 else smGet tm.scratch o)) ∧
    ∀ m, allStash s = [(grefTeam g, m)] → m.off % 4096 = 0 → m.off < 2 ^ 20 → m.off + 4096 ≤ scratchLimit tm → m.addr % 4096 = 0 →
      (∀ i, i < 128 → execFrame s (m.addr + 32 * i) = false) →
      let kept := fun t => ∀ pa, byteAt t (some g) pa = byteAt s (some g) pa
      (regCauses x false [(b, 1)] = 0 → x.stores.length < 62 → vGet x b k = BitVec.ofNat 32 m.off →
        (stashHeld s (grefTeam g) m = true → exec (.sunmap b) s = .next s ∧ exec (.sflush b) s = .next s) ∧
        (stashHeld s (grefTeam g) m = false → Answers (.sunmap b) s fun t => OthersKeep s t g ∧ kept t ∧
          ∃ p tm', findGroup t g = some { advance x with stores := x.stores ++ [p] } ∧ findTeam t (grefTeam g) = some tm' ∧
            tm'.stash = [] ∧ allStash t = [] ∧
            (∀ o, smGet tm'.scratch o = if m.off ≤ o ∧ o < m.off + 4096 then 0 else smGet tm.scratch o)) ∧
        (stashHeld s (grefTeam g) m = false → Answers (.sflush b) s fun t => OthersKeep s t g ∧ kept t ∧
          ∃ p, findGroup t g = some { advance x with stores := x.stores ++ [p] } ∧
            ∃ m', allStash t = [(grefTeam g, m')] ∧ (∀ i, i < 128 → m'.dirty.getLsbD i = false) ∧ m'.filled = m.filled)) ∧
      (stashHeld s (grefTeam g) m = true → ∀ off, exec (.stashLazyWriteback (grefTeam g) off) s = .next s) ∧
      ∀ i, i < 128 → stashHeld s (grefTeam g) m = false → Answers (.stashLazyWriteback (grefTeam g) (m.off + 32 * i)) s fun t => kept t ∧
        ∃ m', allStash t = [(grefTeam g, m')] ∧ (∀ j, j < 128 → m'.dirty.getLsbD j = (m.dirty.getLsbD j && decide (j ≠ i))) ∧
          m'.filled = m.filled ∧ findGroup t g = some x

/-! ## The sweep and the bank adders (R127 to R136, R154 to R165) -/

/-- R154 to R159: SWREG and SWPOS leave a request with the drover and a scalar register that waits for its answer; a descriptor that
is not well formed gives 0 and SWEEP. SWREG is not performed, and issued again, while its descriptor can not be read yet: an earlier access
of the group to it waits, a copy engine owns its line, or its stack is at the 105 °C point (R154, R177, R181, R349). SWDEL ends the
registration of its handle, and of no other, and of a dead handle it is not performed and sets SWEEP with its own link (DEDUCED, log 55);
SWWAIT completes when every registration of the row has been applied to it. R131, R156, R158: the drover decides a registration and answers a position: the
waiting scalar register takes the handle, 0 with SWEEP, or the pass, the applied bit and the ordinal. -/
def Obligations.SweepInstructionsAndTheDrover : Prop :=
  (∀ s g x, Issues s g x → RegsOk x → Uncontained s g → ∀ (d : SReg) (a : VReg),
     let ctx := ctxOf s g
     let va := laneAddr x a 0 (((activeLanes x).head?).getD 0)
     let waits := fun t => GroupBecomes s t g { advance x with pendingS := x.pendingS ||| BitVec.ofNat 64 (2 ^ d.toNat) }
     (regCauses x false [(a, 2)] = 0 → (∃ desc, readDesc s ctx va (some g) false = .ok desc) → descWaits s g va false = true →
       exec (.swreg d a) s = .next s) ∧
     (regCauses x false [(a, 2)] = 0 → ∀ desc, readDesc s ctx va (some g) false = .ok desc → descWaits s g va false = false →
       (∀ ws, desc.wellFormed = true → programWords s ctx desc.program 16 = some ws →
         Answers (.swreg d a) s fun t => waits t ∧ SameMemory s t ∧
           t.sw = { s.sw with reqs := s.sw.reqs ++ [.register (some g) none ctx d.toNat desc ws] }) ∧
       (desc.wellFormed = false ∨ programWords s ctx desc.program 16 = none → ∃ y, ScalarResult x y d 0 ∧
         exec (.swreg d a) s = .next (raise (setGroup (escapeOf s (some g)) g y) g cSweep (curLink y) [] none))) ∧
     (regCauses x false [(a, 2)] = 0 → ∀ l, translate s ctx va = some l → l.mtype ≠ 2 → isRemote s l.pa = false →
       Answers (.swpos d a) s fun t => waits t ∧ SameMemory s t ∧
         t.sw = { s.sw with reqs := s.sw.reqs ++ [.position g ctx d.toNat (localOf l.pa)] }) ∧
     (x.stores.length < 62 → x.wait = none →
       (∀ r, (s.sw.regs.find? fun r => r.ctx == ctx && handleWord r.handle == sGet x d) = some r →
         Answers (.swdel d) s fun t => t.sw = { s.sw with regs := s.sw.regs.filter fun q => q.handle ≠ r.handle } ∧ SameMemory s t ∧
           OthersKeep s t g ∧ ∃ p, findGroup t g = some { advance x with stores := x.stores ++ [p] } ∧ p.holds = 0) ∧
       ((∀ r ∈ s.sw.regs, ¬ (r.ctx = ctx ∧ handleWord r.handle = sGet x d)) →
         exec (.swdel d) s = .next (raise s g cSweep (curLink x) [] none))) ∧
     (regCauses x false [(a, 2)] = 0 → x.wait = none → ∀ l, translate s ctx va = some l → l.mtype ≠ 2 → isRemote s l.pa = false →
       let q := (queueOf s (channelAt (localOf l.pa)) (ordinalAt (localOf l.pa))).filter fun p => p.1.ctx == ctx
       (q ≠ [] → (∀ p ∈ q, p.1.mode ≠ 0 ∧ (appliedAt p.1 p.2).isSome = true ∧ p.2 ∉ p.1.skipped) →
         Answers (.swwait a) s fun t => ∃ acq, GroupBecomes s t g { advance x with acq := acq } ∧ SameMemory s t ∧ x.acq ≤ acq ∧
           ∀ p ∈ q, ∀ k, appliedAt p.1 p.2 = some k → k ≤ acq) ∧
       (q = [] → exec (.swwait a) s = .next (raise (setGroup s g (advance x)) g cSweep (curLink (advance x)) [] none)) ∧
       ((∃ p ∈ q, p.1.mode ≠ 0 ∧ appliedAt p.1 p.2 = none) →
         Answers (.swwait a) s fun t => ∃ w, GroupBecomes s t g { x with wait := some w, parked := x.parked || isMarked s g } ∧
           SameMemory s t ∧ w.began = s.time))) ∧
  (∀ s k g x d, d < 64 → d ≠ 0 → findGroup s g = some x → RegsOk x →
     let answered := fun t v => ∃ y, GroupBecomes s t g y ∧ sGet y (BitVec.ofNat 7 d) = v ∧
       (∀ r : SReg, r.toNat ≠ d → sGet y r = sGet x r) ∧ y = { x with s := y.s, pendingS := x.pendingS &&& ~~~BitVec.ofNat 64 (2 ^ d) }
     let s1 := modSw s fun w => { w with reqs := w.reqs.eraseIdx k }
     (∀ ctx desc ws, s.sw.reqs[k]? = some (.register (some g) none ctx d desc ws) →
       (∀ r, acceptReg s1 ctx desc ws none = some r →
         Answers (.registrationAccept k) s fun t => answered t (handleWord r.handle) ∧ SameMemory s t ∧ t.sw.regs = s.sw.regs ++ [r] ∧
           t.sw.reqs = s.sw.reqs.eraseIdx k ∧ t.sw.nextHandle = s.sw.nextHandle + 1) ∧
       (acceptReg s1 ctx desc ws none = none → ∃ y u, sGet y (BitVec.ofNat 7 d) = 0 ∧ findGroup u g = some y ∧ u.sw.regs = s.sw.regs ∧
         exec (.registrationAccept k) s = .next (raise u g cSweep (curLink y) [] none))) ∧
     (∀ ctx loc, s.sw.reqs[k]? = some (.position g ctx d loc) →
       let dr := droverOf s (channelAt loc)
       let hit := match (queueOf s (channelAt loc) (ordinalAt loc)).head? with
         | some (r, l) => r.ctx = ctx ∧ (tabGet r.applied l).isSome = true
         | none => False
       Answers (.swposAnswer k) s fun t => SameMemory s t ∧ t.sw = { s.sw with reqs := s.sw.reqs.eraseIdx k } ∧
         ∃ v, answered t v ∧ (dr.ord < 2 ^ 31 → v.toNat / 2 ^ 32 = dr.pass % 2 ^ 32 ∧ v.toNat % 2 ^ 31 = dr.ord ∧
           (v.getLsbD 31 = true ↔ hit))))

/-- R128, R132, R135: a visit completes the drover's next ordinal, and loads the restore unit for the registration whose turn it is;
a stripe with an uncorrectable error is skipped and counts as applied. R160, R161: a bank command enters with BKCMD, which waits while
eight of the group's are outstanding or its descriptor can not be read yet (R154, R181), and is refused with SWEEP where its descriptor, its stamp or its program is not as it must be. Its
stripes load the unit one by one; one held by a locked page or a hot stack waits, one with an uncorrectable error is skipped with
FAULT, and one whose rows are not all there ends the command: its stamp is written with FAULT. -/
def Obligations.VisitsAndBankCommandsLoadTheRestoreUnit : Prop :=
  (∀ s pc,
    let old := droverOf s pc
    let ord := (old.ord + 1) % 786432
    let now : Drover := { ord := ord, pass := if ord = 0 then old.pass + 1 else old.pass }
    Answers (.sweepVisit pc) s fun t => (∀ q, droverOf t q = if q = pc then now else droverOf s q) ∧
      (turnOf s pc ord = none → SameMemory s t ∧ t.wk = s.wk ∧ t.sw = { s.sw with drovers := t.sw.drovers }) ∧
      ∀ r, turnOf s pc ord = some r → (stripePoisoned s (stripeRows pc ord r.offsets) r.program = false →
        SameMemory s t ∧ t.wk = s.wk ∧ t.sw.restore =
          { rowAt := stripeRows pc ord r.offsets, rows := (stripeRows pc ord r.offsets).map (rowRead s),
            written := (stripeRows pc ord r.offsets).map fun _ => false, x := [[], [], [], []], c := r.consts, program := r.program,
            running := true, job := .visit r.handle pc ord }) ∧
        (stripePoisoned s (stripeRows pc ord r.offsets) r.program = true → t.sw.restore = s.sw.restore ∧
          (∀ q ∈ s.sw.regs, q.handle ≠ r.handle → q ∈ t.sw.regs) ∧
          ∀ q ∈ s.sw.regs, q.handle = r.handle → ∃ q' ∈ t.sw.regs, q'.handle = r.handle ∧ appliedAt q' ord = some s.time ∧
            ord ∈ q'.skipped)) ∧
  (∀ s g x a, Issues s g x → Uncontained s g → regCauses x false [(a, 2)] = 0 →
    let va := laneAddr x a 0 (((activeLanes x).head?).getD 0)
    (Config.bankCmdMax ≤ x.bankCmds → exec (.bkcmd a) s = .next s) ∧
    (x.bankCmds < Config.bankCmdMax →
      ∀ e, readDesc s (ctxOf s g) va (some g) true = .error e → exec (.bkcmd a) s = .next (raise s g e (curLink x) [] none)) ∧
    (x.bankCmds < Config.bankCmdMax → ∀ desc, readDesc s (ctxOf s g) va (some g) true = .ok desc →
      (descWaits s g va true = true → exec (.bkcmd a) s = .next s) ∧
      (descWaits s g va true = false →
      (∀ ws, desc.wellFormed = true → stampOk s (ctxOf s g) desc.stamp = true → programWords s (ctxOf s g) desc.program 16 = some ws →
        Answers (.bkcmd a) s fun t => SameMemory s t ∧ GroupBecomes s t g { advance x with bankCmds := x.bankCmds + 1 } ∧
          tabGet t.sw.cmds s.fresh = some { ctx := ctxOf s g, who := some g, node := none, desc := desc, program := ws, done := [],
                                            fault := false } ∧
          ∀ k, k ≠ s.fresh → tabGet t.sw.cmds k = tabGet s.sw.cmds k) ∧
      (desc.wellFormed = false ∨ stampOk s (ctxOf s g) desc.stamp = false ∨ programWords s (ctxOf s g) desc.program 16 = none →
        exec (.bkcmd a) s =
          .next (raise (setGroup (escapeOf s (some g)) g (advance x)) g cSweep (curLink (advance x)) [] none))))) ∧
  ∀ s cmd k c, tabGet s.sw.cmds cmd = some c → cmd ≤ s.fresh → k < c.desc.rows → k ∉ c.done → c.stamping = false →
    (∀ rs, commandRows s c k = some rs →
      ((∃ r ∈ rs, r.2 = true ∨ memStackState s (stackAt r.1) = 4) → exec (.bankStripeApply cmd k) s = .next s) ∧
      ((∀ r ∈ rs, r.2 = false ∧ memStackState s (stackAt r.1) ≠ 4) →
        (stripePoisoned s (rs.map Prod.fst) c.program = false →
          Answers (.bankStripeApply cmd k) s fun t => SameMemory s t ∧ t.wk = s.wk ∧ t.sw.cmds = s.sw.cmds ∧ t.sw.restore =
            { rowAt := rs.map Prod.fst, rows := (rs.map Prod.fst).map (rowRead s), written := rs.map fun _ => false,
              x := [[], [], [], []], c := c.desc.consts, program := c.program, running := true, job := .stripe cmd k }) ∧
        (stripePoisoned s (rs.map Prod.fst) c.program = true → c.done.length + 1 < c.desc.rows →
          Answers (.bankStripeApply cmd k) s fun t => t.sw.restore = s.sw.restore ∧
            tabGet t.sw.cmds cmd = some { c with done := k :: c.done, fault := true } ∧
            ∀ n, n ≠ cmd → tabGet t.sw.cmds n = tabGet s.sw.cmds n))) ∧
    (commandRows s c k = none → ∀ g x l, c.node = none → c.who = some g → findGroup s g = some x → LinesOk s →
      PlainTarget s c.ctx c.desc.stamp l → l.pa % 8 = 0 →
      Answers (.bankStripeApply cmd k) s fun t => t.sw.restore = s.sw.restore ∧ tabGet t.sw.cmds cmd = none ∧
        (∃ w, findGroup t g = some { x with wait := w, bankCmds := x.bankCmds - 1 }) ∧
        sliceLine (lineLatest t (l.pa / 32) none) l.pa 8 = natLE 8 (c.desc.seqno % 2 ^ 48 + 2 ^ 48))

/-- R163, R164: the bank words that combine rows element by element: float types round the exact result once, integer types saturate
it, a constant enters unrounded. R134, R163 to R165: XLD, XST, XZERO and XCVT move and convert whole rows; XEND restores the written
rows at one moment, and what asked for the application goes on. -/
def Obligations.BankWordsActOnRows : Prop :=
  (∀ (ty : BitVec 3) (xd xa xb : BitVec 2) (c : BitVec 3), ty.toNat < 6 →
     let el := fun (t : BType) (r : Restore) y k => elemAt t.bytes (xGet r y) k
     let both := fun (t : BType) (fv : FFmt → Nat) (iv : Int) => match t.float with
       | some f => fv f
       | none => wrapNat (8 * t.bytes) (max (-(2 ^ (8 * t.bytes - 1) : Nat)) (min ((2 ^ (8 * t.bytes - 1) : Nat) - 1) iv))
     let int : BType → Nat → Int := fun t v => sextNat (8 * t.bytes) v
     let k32 : Restore → Nat → Word := fun r n => (r.c[n]?).getD 0
     WritesRow (.xadd ty xd xa xb) ty xd (fun t r k =>
       both t (fun f => f.rne ((f.dec (el t r xa k)).add (f.dec (el t r xb k))).1) (int t (el t r xa k) + int t (el t r xb k))) ∧
     WritesRow (.xsub ty xd xa xb) ty xd (fun t r k =>
       both t (fun f => f.rne ((f.dec (el t r xa k)).add (f.dec (el t r xb k)).neg).1) (int t (el t r xa k) - int t (el t r xb k))) ∧
     WritesRow (.xmul ty xd xa xb) ty xd (fun t r k =>
       both t (fun f => f.rne ((f.dec (el t r xa k)).mul (f.dec (el t r xb k))).1) (int t (el t r xa k) * int t (el t r xb k))) ∧
     WritesRow (.xscl ty xd xa c) ty xd (fun t r k =>
       both t (fun f => f.rne ((f.dec (el t r xa k)).mul (f32.dec (k32 r c.toNat).toNat)).1)
         (int t (el t r xa k) * (k32 r c.toNat).toInt)) ∧
     WritesRow (.xaddc ty xd xa c) ty xd (fun t r k =>
       both t (fun f => f.rne ((f.dec (el t r xa k)).add (f32.dec (k32 r c.toNat).toNat)).1)
         (int t (el t r xa k) + (k32 r c.toNat).toInt)) ∧
     WritesRow (.xmax ty xd xa xb) ty xd (fun t r k =>
       both t (fun f => (f.minMax true (el t r xa k) (el t r xb k)).1) (max (int t (el t r xa k)) (int t (el t r xb k)))) ∧
     WritesRow (.xmin ty xd xa xb) ty xd (fun t r k =>
       both t (fun f => (f.minMax false (el t r xa k) (el t r xb k)).1) (min (int t (el t r xa k)) (int t (el t r xb k)))) ∧
     WritesRow (.xclmp ty xd xa c) ty xd (fun t r k =>
       both t (fun f => (f.minMax false (f.minMax true (el t r xa k) (f.rne (f32.dec (k32 r c.toNat).toNat))).1
           (f.rne (f32.dec (k32 r (c.toNat + 1)).toNat))).1)
         (min (max (int t (el t r xa k)) (k32 r c.toNat).toInt) (k32 r (c.toNat + 1)).toInt)) ∧
     WritesRow (.xsel ty xd xa xb) ty xd (fun t r k => if int t (el t r xd k) < 0 then el t r xa k else el t r xb k) ∧
     (ty.toNat < 3 →
       WritesRow (.xfma ty xd xa xb) ty xd (fun t r k =>
         both t (fun f => (f.fma (el t r xa k) (el t r xb k) (el t r xd k)).1) 0) ∧
       WritesRow (.xrsq ty xd xa) ty xd (fun t r k => both t (fun f => (f.rsqrt (el t r xa k)).1) 0))) ∧
  ((∀ s (xd row : BitVec 2), s.focus = .restore → s.sw.restore.x.length = 4 →
     let only := fun t => t = { s with sw := { s.sw with restore := { s.sw.restore with x := t.sw.restore.x } } }
     (Answers (.xld xd row) s fun t => only t ∧ xGet t.sw.restore xd = (s.sw.restore.rows[row.toNat]?).getD [] ∧
       ∀ y, y ≠ xd → xGet t.sw.restore y = xGet s.sw.restore y) ∧
     (Answers (.xzero xd) s fun t => only t ∧ xGet t.sw.restore xd = [] ∧ ∀ y, y ≠ xd → xGet t.sw.restore y = xGet s.sw.restore y) ∧
     (∀ xa, row.toNat < s.sw.restore.rows.length → row.toNat < s.sw.restore.written.length → Answers (.xst row xa) s fun t =>
       t = { s with sw := { s.sw with restore := { s.sw.restore with rows := t.sw.restore.rows, written := t.sw.restore.written } } } ∧
       t.sw.restore.rows[row.toNat]? = some (xGet s.sw.restore xa) ∧ t.sw.restore.written[row.toNat]? = some true ∧
       ∀ n, n ≠ row.toNat → t.sw.restore.rows[n]? = s.sw.restore.rows[n]? ∧ t.sw.restore.written[n]? = s.sw.restore.written[n]?) ∧
     (∀ xa, s.sw.restore.rows.length ≤ row.toNat → s.sw.restore.written.length ≤ row.toNat → exec (.xst row xa) s = .next s)) ∧
   (∀ s (ty u : BitVec 3) (xd xa : BitVec 2), s.focus = .restore → s.sw.restore.x.length = 4 → ty.toNat < 6 → u.toNat < 6 →
     (∀ r ∈ s.sw.restore.x, smWf r = true) →
     let a := BType.ofCode ty.toNat
     let b := BType.ofCode u.toNat
     (ty = u → Answers (.xcvt ty xd xa u) s fun t => xGet t.sw.restore xd = xGet s.sw.restore xa) ∧
     (ty ≠ u → Answers (.xcvt ty xd xa u) s fun t =>
       RowResult s t xd b.bytes (2048 / max a.bytes b.bytes) fun k => bankCvt a b (elemAt a.bytes (xGet s.sw.restore xa) k))) ∧
   ∀ s, s.focus = .restore → Safety.MemoryOk s →
     let r := s.sw.restore
     r.rowAt.length = r.rows.length → r.rowAt.length = r.written.length → r.rowAt.Nodup → (∀ a ∈ r.rowAt, a % 2048 = 0) →
     (∀ m ∈ r.rows, smWf m = true ∧ ∀ p ∈ m, p.1 < 2048) →
     let restored := fun (t : State) => t.sw.restore = Restore.idle ∧
       ∀ pa, smGet t.mm.mem pa = match (List.range r.rowAt.length).find? fun k => r.written[k]? == some true &&
           decide (ownPhys s ((r.rowAt[k]?).getD 0) ≤ pa) && decide (pa < ownPhys s ((r.rowAt[k]?).getD 0) + 2048) with
         | some k => smGet ((r.rows[k]?).getD []) (pa - ownPhys s ((r.rowAt[k]?).getD 0))
         | none => smGet s.mm.mem pa
     (r.job = .none → Answers .xend s restored) ∧
     (∀ h pc ord, r.job = .visit h pc ord → Answers .xend s fun t => restored t ∧
       ∀ q ∈ s.sw.regs, q.handle = h → ∃ q' ∈ t.sw.regs, q'.handle = h ∧ appliedAt q' ord = some s.time) ∧
     ∀ cmd k c, r.job = .stripe cmd k → tabGet s.sw.cmds cmd = some c → c.done.length + 1 < c.desc.rows →
       Answers .xend s fun t => restored t ∧ tabGet t.sw.cmds cmd = some { c with done := k :: c.done })

/-! ## Ladders, the sequencer and the copy engines (R199 to R272) -/

/-- R249, R250, R257, R264, R265: LADPUSH gives each active lane the next item of the ladder, and LADESC sends its item to the next
rung; the frame words are read as the instruction issues, and after its release the frames join the tail of the rung's queue. Without a
body, or on the last rung, LADESC is not performed. R251 to R253, R259, R260, R266, R267: LADDONE retires the items of its lanes with
their values, and the progress word rises after they are visible; LADSTAT reads a rung's counts; a frame that has waited its rung's limit
gives a partial group. That a full group is queued and acquires one unit after the append that completes it, a partial one at its very
unit, and that the progress word is written once for an instruction, are readings of log 67. -/
def Obligations.LaddersMoveTheirItems : Prop :=
  (∀ s g x, Issues s g x → Uncontained s g → x.wait = none →
     let words := fun (r : VReg) n (lanes : List Nat) =>
       x.frames.getD (lanes.map fun i => (i, (List.range n).map fun j => vRaw x (physReg x r + j) i))
     (∀ (a b : VReg) id l r rs, ladderAt s (ctxOf s g) (vGet64 x a (((activeLanes x).head?).getD 0)).toNat = some (id, l) →
       tabGet s.wk.ladders id = some l → l.rungs = r :: rs →
       let n := (activeLanes x).length
       let ws := words (b + 1) (l.words - 1) (activeLanes x)
       regCauses x false [(a, 2), (b, l.words)] = 0 → n ≤ l.window → l.nextIndex + n ≤ 2 ^ 32 →
       (fenceReady s x 3 = false → Answers (.ladpush a b) s fun t => GroupBecomes s t g { x with frames := some ws } ∧ SameMemory s t) ∧
       (fenceReady s x 3 = true → pushFits s id l g s.time n = true →
         (Answers (.ladpush a b) s fun t => SameMemory s t ∧ findGroup t g = some { advance x with frames := none } ∧
           ∃ l', tabGet t.wk.ladders id = some l' ∧ l'.nextIndex = l.nextIndex + n ∧ l'.released = l.released) ∧
         (r.queue.length + n < r.launch.width →
           Answers (.ladpush a b) s fun t => GroupBecomes s t g { advance x with frames := none } ∧ ∃ l' r', tabGet t.wk.ladders id = some l' ∧
             l'.rungs = r' :: rs ∧ r'.entered = r.entered + n ∧ r'.queue = r.queue ++
               ((List.range n).zip (activeLanes x)).map fun p =>
                 (BitVec.ofNat 32 (l.nextIndex + p.1) :: (tabGet ws p.2).getD [], s.time)) ∧
         (r.queue.length < r.launch.width → r.launch.width ≤ r.queue.length + n → r.queue.length + n < 2 * r.launch.width → GangsDistinct s →
           Answers (.ladpush a b) s fun t => ∃ m gg y, findGang s m = none ∧ findGang t m = some gg ∧ gg.state = .queued ∧
             gg.launch = r.launch ∧ gg.queuedAt = s.time + 1 ∧ findGroup t { gang := m, team := 0, grp := 0 } = some y ∧
             y.live = fullMask r.launch.width ∧ y.acq = s.time + 1)) ∧
       (fenceReady s x 3 = true → pushFits s id l g s.time n = false → Answers (.ladpush a b) s fun t => ∃ w, GroupBecomes s t g
         { x with wait := some w, frames := some ws, parked := x.parked || isMarked s g } ∧ w.kind = .ladpush id n ∧ w.began = s.time ∧ SameMemory s t)) ∧
     (∀ b l r, x.body = some b → tabGet s.wk.ladders b.ladder = some l → l.rungs[b.rung + 1]? = some r →
       let ws := words 1 (b.words - 1) (activeLanes x)
       regCauses x false [(1, b.words - 1)] = 0 → activeLanes x ≠ [] → (∀ i ∈ activeLanes x, (itemOf b i).isSome = true) →
       (fenceReady s x 3 = false → Answers .ladesc s fun t => OnlyGroup s t g { x with frames := some ws }) ∧
       (fenceReady s x 3 = true → r.queue.length + (activeLanes x).length < r.launch.width →
       Answers .ladesc s fun t => SameMemory s t ∧
         GroupBecomes s t g { advance x with frames := none, body := some { b with left := b.left ||| maskOf (activeLanes x) } } ∧
         ∃ l' r', tabGet t.wk.ladders b.ladder = some l' ∧ l'.rungs[b.rung + 1]? = some r' ∧
           r'.entered = r.entered + (activeLanes x).length ∧ r'.queue = r.queue ++ (activeLanes x).map fun i =>
             (BitVec.ofNat 32 ((itemOf b i).getD 0) :: (tabGet ws i).getD [], s.time))) ∧
     (∀ b l, x.body = some b → tabGet s.wk.ladders b.ladder = some l → l.rungs.length ≤ b.rung + 1 →
       regCauses x false [(1, b.words - 1)] = 0 → exec .ladesc s = .next (raise s g cLadder (curLink x) [] none)) ∧
     (x.body = none → exec .ladesc s = .next (raise s g cLadder (curLink x) [] none))) ∧
  ((∀ s g x, Issues s g x → RegsOk x → x.wait = none →
     (x.body = none → ∀ v d k, regCauses x false [(v, 1)] = 0 → exec (.laddone v) s = .next (raise s g cLadder (curLink x) [] none) ∧
       exec (.ladstat d k) s = .next (raise s g cLadder (curLink x) [] none)) ∧
     ∀ b l, x.body = some b → tabGet s.wk.ladders b.ladder = some l →
       (∀ (d : SReg) (k : BitVec 7) r, l.rungs[k.toNat]? = some r →
         Answers (.ladstat d k) s fun t => ∃ y, OnlyGroup s t g y ∧ y = { advance x with s := y.s } ∧
           (d ≠ 0 → sGet y d = BitVec.ofNat 64 (r.partials % 65536 * 2 ^ 48 + r.full % 65536 * 2 ^ 32 + r.entered % 2 ^ 32)) ∧
           (d ≠ 127 → sGet y (d + 1) = BitVec.ofNat 64 (r.queue.length % 2 ^ 32 * 2 ^ 32 + r.escalated % 2 ^ 32)) ∧
           ∀ e, e ≠ d → e ≠ d + 1 → sGet y e = sGet x e) ∧
       (∀ v, regCauses x false [(v, 1)] = 0 → (∀ i ∈ activeLanes x, itemOf b i = none) →
         exec (.laddone v) s = .next (raise s g cLadder (curLink x) [] none)) ∧
       ∀ v k n lf, LinesOk s → Uncontained s g → regCauses x false [(v, 1)] = 0 → activeLanes x = [k] → itemOf b k = some n →
         l.order = 0 → PlainTarget s l.ctx (l.result + 4 * n) lf → lf.x = false → (l.result + 4 * n) % 4 = 0 →
         waitsToWrite s lf.mlock lf.pa (some g) s.fresh = false →
         let y : Group := { advance x with body := some { b with left := b.left ||| maskOf [k] } }
         (n ≠ l.counted → (∀ q ∈ l.retired, q.holds = 0 → l.counted ∉ q.items) →
           Answers (.laddone v) s fun t => OthersKeep s t g ∧ findGroup t g = some y ∧
             StoresBytes s t g ((List.range 4).map fun j => (lf.pa + j, ((natLE 4 (vGet x v k).toNat)[j]?).getD 0)) ∧
             ∃ q, q.items = [n] ∧ q.holds = 0 ∧ q.who = g ∧ s.time ≤ q.vis ∧
               tabGet t.wk.ladders b.ladder = some { l with retired := l.retired ++ [q] }) ∧
         ∀ lp u v1, n = l.counted → l.retired = [] →
           ladWrite { setGroup s g y with fresh := s.fresh + 1 } l.ctx (l.result + 4 * n) 0 (vGet x v k).toNat (some g)
             (coreIdOf (setGroup s g y) g) s.fresh = (u, .at_ v1) →
           PlainTarget u l.ctx l.progress lp → lp.x = false → lp.pa % 4 = 0 → l.progress % 4 = 0 → lp.pa / 32 ≠ lf.pa / 32 →
           Answers (.laddone v) s fun t => OthersKeep s t g ∧ findGroup t g = some y ∧
             sliceLine (lineLatest t (lf.pa / 32) none) lf.pa 4 = natLE 4 (vGet x v k).toNat ∧
             sliceLine (lineLatest t (lp.pa / 32) none) lp.pa 4 = natLE 4 (n + 1) ∧
             ∃ l' p at_, tabGet t.wk.ladders b.ladder = some l' ∧ l'.counted = n + 1 ∧ l'.retired = [] ∧
               l'.passes.getLast? = some p ∧ p.value = n + 1 ∧ p.at_ = some at_ ∧ s.time + 8 ≤ at_) ∧
   ∀ s id k l r f fs, tabGet s.wk.ladders id = some l → l.rungs[k]? = some r → r.queue = f :: fs →
     f.2 + r.limit * Config.unitsPerNs ≤ s.time → f.2 < s.time → GangsDistinct s →
     let m := min (r.queue.takeWhile fun q => decide (q.2 < s.time)).length r.launch.width
     Answers (.ladderStarvationExpiry id k) s fun t => SameMemory s t ∧ (∀ h z, findGroup s h = some z → findGroup t h = some z) ∧
       (∃ n gg y, findGang s n = none ∧ findGang t n = some gg ∧ gg.state = .queued ∧ gg.ctx = l.ctx ∧ gg.launch = r.launch ∧
         findGroup t { gang := n, team := 0, grp := 0 } = some y ∧ y.live = fullMask m ∧ y.acq = s.time ∧ gg.queuedAt = s.time ∧
         (t.wk.queues[gg.queue]?) = (s.wk.queues[gg.queue]?).map fun q => q ++ [n]) ∧
       ∃ l' r', tabGet t.wk.ladders id = some l' ∧ l'.rungs[k]? = some r' ∧ r'.queue = r.queue.drop m ∧
         r'.partials + r'.full = r.partials + r.full + 1 ∧ (m < r.launch.width → r'.partials = r.partials + 1))

/-- R217, R219, R221 to R223, R227 to R229: the words of the matrix stream that work the sequencer itself, and what a word that is
not performed sets in group 0. -/
def Obligations.SequencerWordsHaveTheirEffects : Prop :=
  ∀ s t gg tm, GangsDistinct s → Sequences s t gg tm →
    (∀ mask : BitVec 4, Answers (.mgang mask) s fun u => TeamBecomes s u t { tm with seq := { seqNext tm.seq with
      mask := if mask &&& BitVec.ofNat 4 (2 ^ gg.launch.yoke - 1) = 0 then 1 else mask &&& BitVec.ofNat 4 (2 ^ gg.launch.yoke - 1) } }) ∧
    (∀ count len, Answers (.mloop count len) s fun u => TeamBecomes s u t { tm with seq := { tm.seq with
      pc := tm.seq.pc + 4, wait := none, loops := { first := tm.seq.pc + 4, left := count.toNat - 1,
                                                    stop := tm.seq.pc + 4 + 4 * BitVec.ofNat 56 len.toNat } :: tm.seq.loops } }) ∧
    ((∃ x ∈ tm.groups, x.retired = false) →
      Answers .mend s fun u => TeamBecomes s u t { tm with seq := { tm.seq with running := false, wait := none } }) ∧
    (∀ z : BitVec 3, Answers (.mzero z) s fun u => ∃ tm', TeamBecomes s u t tm' ∧ tm' = { tm with seq := seqNext tm.seq, z := tm'.z } ∧
      ∀ n r c, r < 64 → c < 256 → smGet tm'.z (zKey n r c) = if n = z.toNat then 0 else smGet tm.z (zKey n r c)) ∧
    (∀ q : BitVec 3, (ringOf tm q.toNat).slots = 0 → exec (.mrel q) s = .next (raiseTeam s t 0 cQueue none)) ∧
    (∀ (q : BitVec 3) r, tm.rings[q.toNat]? = some r → r.slots ≠ 0 →
      (r.taken = [] → exec (.mrel q) s = .next (raiseTeam s t 0 cQueue none)) ∧
      ∀ k ks, r.taken = k :: ks → tm.drains = [] → Answers (.mrel q) s fun u => TeamBecomes s u t
        { tm with seq := seqNext tm.seq, rings := listMod tm.rings q.toNat fun _ => { r with taken := ks, free := r.free + 1 } }) ∧
    (∀ (p : BitVec 5) q, tm.points[p.toNat]? = some q →
      (q.e = 0 → exec (.marv p) s = .next (raiseTeam s t 0 cRzvinit (some p.toNat)) ∧
        exec (.mwt p) s = .next (raiseTeam s t 0 cRzvinit (some p.toNat))) ∧
      (q.e ≠ 0 →
        let after : Point := if q.count + 1 = q.e then { q with count := 0, bitmap := 0, phase := q.phase + 1 }
          else { q with count := q.count + 1 }
        let seq : Seq := { seqNext tm.seq with phases := tabPut tm.seq.phases p.toNat q.phase }
        Answers (.marv p) s fun u =>
          TeamBecomes s u t { tm with seq := seq, points := listMod tm.points p.toNat fun _ => after }) ∧
      (q.e ≠ 0 → tm.seq.wait = none → ∀ r, tabGet tm.seq.phases p.toNat = some r → r + 1 = q.phase →
        Answers (.mwt p) s fun u => TeamBecomes s u t { tm with seq := seqNext tm.seq }) ∧
      (q.e ≠ 0 → tm.seq.wait = none → (∀ r, tabGet tm.seq.phases p.toNat = some r → r + 1 ≠ q.phase) →
        Answers (.mwt p) s fun u => TeamBecomes s u t (seqWaits s tm (WaitKind.rwait p.toNat q.phase)))) ∧
    (tm.seq.loops = [] → (seqNext tm.seq).pc = tm.seq.pc + 4 ∧ (seqNext tm.seq).loops = []) ∧
    (∀ l ls, tm.seq.loops = l :: ls →
      (tm.seq.pc + 4 ≠ l.stop → (seqNext tm.seq).pc = tm.seq.pc + 4 ∧ (seqNext tm.seq).loops = l :: ls) ∧
      (tm.seq.pc + 4 = l.stop → 0 < l.left → (seqNext tm.seq).pc = l.first ∧
        (seqNext tm.seq).loops = { l with left := l.left - 1 } :: ls)) ∧
    ∀ n x, causeGroup tm 0 = some n → tm.groups[n]? = some x → ∀ bits,
      raiseTeam s t 0 bits none = raise s (trefGroup t n) bits (curLink x) [] none

/-- R12, R199 to R204, R219, R224 to R226: MLDA takes a tile from the slot at next take, MMA adds the products of the tile and a slot into
the selected columns of an accumulator with one rounding each, whatever the order of its terms, and MST writes an accumulator's
selected columns through a slot. A format that the word cannot use, or a tile of another format, sets SLOT and a slot that is too small
QUEUE, in MLDA, MMA and MST; a ring that is not declared QUEUE whatever else the word breaks (log 25). The odd half of an L6 tile is log 75's. -/
def Obligations.MatrixWordsMoveAndMultiplyTiles : Prop :=
  (∀ s t gg tm, GangsDistinct s → Sequences s t gg tm → TeamOk tm → ∀ (q slot : BitVec 3) r, tm.rings[q.toNat]? = some r →
    let f := Slot.ofWord ((gg.launch.slots[slot.toNat]?).getD 0)
    let taken : Ring := { r with filled := r.filled - 1, take := (r.take + 1) % r.slots, taken := r.taken ++ [r.take] }
    let rings := listMod tm.rings q.toNat fun _ => taken
    let may := mayTake tm q.toNat 0 ((tm.seq.wait.map Wait.began).getD s.time)
    (∀ ta : BitVec 2, (tileK f.fmt).isSome = true → (f.fmt = .l6 → ta.toNat % 2 = 0) → r.slots ≠ 0 →
      tileBytes f.fmt ≤ r.slotBytes →
      (may = true → Answers (.mlda ta q slot) s fun u => ∃ tm', TeamBecomes s u t tm' ∧
        tm' = { tm with seq := seqNext tm.seq, rings := rings, ta := tm'.ta, taFmt := tm'.taFmt } ∧
        (tm.taFmt.length = 4 → tm'.taFmt[ta.toNat]? = some (some f.fmt.num)) ∧
        ∀ k, smGet tm'.ta k = if 4096 * ta.toNat ≤ k ∧ k < 4096 * ta.toNat + tileBytes f.fmt
          then smGet tm.scratch (r.base + r.take * r.slotBytes + (k - 4096 * ta.toNat)) else smGet tm.ta k) ∧
      (may = false → tm.seq.wait = none → Answers (.mlda ta q slot) s fun u => TeamBecomes s u t (seqWaits s tm (WaitKind.mlda q.toNat)))) ∧
    (∀ ta : BitVec 2,
      let unusable := (tileK f.fmt).isNone = true ∨ (f.fmt = .l6 ∧ ta.toNat % 2 = 1)
      (unusable → exec (.mlda ta q slot) s = .next (raiseTeam s t 0 (if r.slots = 0 then cQueue ||| cSlot else cSlot) none)) ∧
      (¬ unusable → r.slots = 0 ∨ r.slotBytes < tileBytes f.fmt → exec (.mlda ta q slot) s = .next (raiseTeam s t 0 cQueue none))) ∧
    (∀ (z : BitVec 3) (ta : BitVec 2) (sb : BitVec 3) reuse kk,
      let b := Slot.ofWord ((gg.launch.slots[sb.toNat]?).getD 0)
      let cols := 64 * gg.launch.yoke
      mmaK f.fmt b.fmt = some kk → tileMatches tm ta.toNat f.fmt = true → r.slots ≠ 0 → kk * cols * b.fmt.bits / 8 ≤ r.slotBytes →
      may = true → gg.launch.yoke ≤ 4 →
      Answers (.mma z ta q slot sb reuse) s fun u => ∃ tm', TeamBecomes s u t tm' ∧
        tm' = { tm with seq := seqNext tm.seq, rings := rings, z := tm'.z, skips := tm'.skips } ∧
        tm'.skips = tm.skips + BitVec.ofNat 64 (64 * kk -
          ((List.range 64).map fun i => (rowTerms s.fresh tm ta.toNat f kk i).length).sum) ∧
        ∀ n i c, i < 64 → c < 256 → smGet tm'.z (zKey n i c) =
          let terms := rowTerms s.fresh tm ta.toNat f kk i
          if n = z.toNat ∧ c < cols ∧ tm.seq.mask.getLsbD (c / 64) = true ∧ terms ≠ [] then
            BitVec.ofNat 48 (sumOnce (terms.map fun p => mmaTerm f b p.2
              (packedCode tm.scratch (r.base + r.take * r.slotBytes) b.fmt.bits (p.1 * cols + c))) (smGet tm.z (zKey n i c)).toNat)
          else smGet tm.z (zKey n i c)) ∧
    (∀ (z : BitVec 3) (ta : BitVec 2) (sb : BitVec 3) reuse,
      let b := Slot.ofWord ((gg.launch.slots[sb.toNat]?).getD 0)
      let ends := fun bits => exec (.mma z ta q slot sb reuse) s = .next (raiseTeam s t 0 bits none)
      let small := fun kk => r.slots = 0 ∨ r.slotBytes < kk * (64 * gg.launch.yoke) * b.fmt.bits / 8
      (mmaK f.fmt b.fmt = none → ends (if r.slots = 0 then cSlot ||| cQueue else cSlot)) ∧
      ∀ kk, mmaK f.fmt b.fmt = some kk →
        (tm.taFmt[ta.toNat]? = some none ∨ (∃ k, tm.taFmt[ta.toNat]? = some (some k) ∧ k ≠ f.fmt.num ∧ k ≠ oddHalf) →
          ends (if r.slots = 0 then cQueue ||| cSlot else cSlot)) ∧
        (tileMatches tm ta.toNat f.fmt = true → small kk → ends cQueue) ∧
        (tileMatches tm ta.toNat f.fmt = true → ¬ small kk → may = false → tm.seq.wait = none →
          Answers (.mma z ta q slot sb reuse) s fun u => TeamBecomes s u t (seqWaits s tm (WaitKind.mlda q.toNat)))) ∧
    (∀ z : BitVec 3,
      let unusable := f.fmt = .fx64 ∨ f.fmt = .reserved
      (unusable → exec (.mstRing z slot q) s = .next (raiseTeam s t 0 (if r.slots = 0 then cQueue ||| cSlot else cSlot) none)) ∧
      (∀ off : BitVec 21, unusable → exec (.mstScratch z slot off) s = .next (raiseTeam s t 0 cSlot none)) ∧
      (¬ unusable → r.slots = 0 ∨ r.slotBytes < mstBytes gg f →
        exec (.mstRing z slot q) s = .next (raiseTeam s t 0 cQueue none)) ∧
      ∀ off : BitVec 21, ¬ unusable → 32 * off.toNat < 2 ^ 20 → scratchLimit tm < 32 * off.toNat + mstBytes gg f →
        exec (.mstScratch z slot off) s = .next (raiseTeam s t 0 cPerm none)) ∧
    (∀ z : BitVec 3, f.fmt ≠ .fx64 → f.fmt ≠ .reserved → mstBytes gg f ≤ r.slotBytes → 0 < r.slots → tm.drains = [] → tm.stash = [] →
      (0 < r.free → engineClaims s t q.toNat = false → drainClaims s t q.toNat = false →
        Answers (.mstRing z slot q) s fun u => ∃ tm', TeamBecomes s u t tm' ∧
        tm' = { tm with seq := seqNext tm.seq, scratch := tm'.scratch, rings := listMod tm.rings q.toNat fun _ =>
          { r with free := r.free - 1, next := (r.next + 1) % r.slots, filled := r.filled + 1,
                   phases := r.phases ^^^ BitVec.ofNat 16 (2 ^ r.next) } } ∧
        (∀ o, o < r.base + r.next * r.slotBytes ∨ r.base + r.next * r.slotBytes + mstBytes gg f ≤ o →
          smGet tm'.scratch o = smGet tm.scratch o) ∧
        ∀ i j, i < 64 → j < gg.launch.yoke → j < 4 → tm.seq.mask.getLsbD j = true →
          smRange tm'.scratch (r.base + r.next * r.slotBytes + i * (8 * f.fmt.bits * gg.launch.yoke) + j * (8 * f.fmt.bits))
            (8 * f.fmt.bits) = mstSegment tm z.toNat f i j) ∧
      (r.free = 0 ∨ engineClaims s t q.toNat = true ∨ drainClaims s t q.toNat = true → tm.seq.wait = none →
        Answers (.mstRing z slot q) s fun u => TeamBecomes s u t (seqWaits s tm (WaitKind.mst q.toNat)))) ∧
    ∀ (z : BitVec 3) (off : BitVec 21), f.fmt ≠ .fx64 → f.fmt ≠ .reserved → tm.stash = [] →
      let o := 32 * off.toNat
      o < 2 ^ 20 → o + mstBytes gg f ≤ scratchLimit tm → o + 1 ≤ scratchLimit tm →
      Answers (.mstScratch z slot off) s fun u => ∃ tm', TeamBecomes s u t tm' ∧
        tm' = { tm with seq := seqNext tm.seq, scratch := tm'.scratch } ∧
        (∀ k, k < o ∨ o + mstBytes gg f ≤ k → smGet tm'.scratch k = smGet tm.scratch k) ∧
        ∀ i j, i < 64 → j < gg.launch.yoke → j < 4 → tm.seq.mask.getLsbD j = true →
          smRange tm'.scratch (o + i * (8 * f.fmt.bits * gg.launch.yoke) + j * (8 * f.fmt.bits)) (8 * f.fmt.bits) =
            mstSegment tm z.toNat f i j) ∧
  ∀ p q old, p.Perm q → sumOnce p old = sumOnce q old

/-- R207, R208, R236, R248: a copy engine takes its entries in order: a refused entry, and one of an unknown code, is skipped with
BADCMD; CPN moves nothing; an entry whose resource is not free is not taken, and the engine waits; one that could be taken, but whose byte
13 is not its ring's next slot, is skipped. That a fault which names no ring comes before the wait for the resource, and byte 13 after it,
is a reading of log 23; that no ring is looked at for a CPN is log 64's. -/
def Obligations.CopyEntriesAreTakenInOrder : Prop :=
  ∀ s x g e, GangsDistinct s → MayTake s x g → NoStash s x →
    let forms : List (Instr × Nat) := [(.cp e, 1), (.cpt e, 2), (.cpg e, 3), (.cps e, 4), (.cpf e, 5), (.cpr e, 6), (.cpm e, 7), (.cpc e, 8),
      (.cpn e, 9)]
    (∀ i code, (i, code) ∈ forms → entryBad s x code e = true →
      Answers i s fun u => EntryTaken u x g code e (.done 3) none ∧ SameMemory s u) ∧
    (∀ code : BitVec 8, Answers (.unknownCommandEntry code e) s fun u => EntryTaken u x g code.toNat e (.done 3) none ∧ SameMemory s u) ∧
    (entryBad s x 9 e = false → Answers (.cpn e) s fun u => EntryTaken u x g 9 e (.done 0) none ∧ SameMemory s u) ∧
    (∀ i code, (i, code) ∈ forms → entryBad s x code e = false → resourceFree s x code e = false →
      Answers i s fun u => findEngine u x = some { g with waiting := some (g.waiting.getD s.time) } ∧ SameMemory s u) ∧
    (∀ i code, (i, code) ∈ forms → entryBad s x code e = false → resourceFree s x code e = true → slotStale s x code e = true →
      Answers i s fun u => EntryTaken u x g code e (.done 3) none ∧ SameMemory s u) ∧
    (∀ b, b ∈ [e.flags.getLsbD 4, e.flags.getLsbD 5, e.flags.getLsbD 6, e.flags.getLsbD 7, e.slots.getLsbD 3, e.slots.getLsbD 7,
        entryArrives e && decide (24 ≤ e.point.toNat), !entryArrives e && e.point != 0] → b = true →
      ∀ code, entryBad s x code e = true) ∧
    ∀ code, code ∈ [1, 2, 3, 4, 5, 6, 7, 9] → destKind e = 3 → entryBad s x code e = true

/-- R205, R211, R237, R240 to R246: what a team's engine does with an entry that it takes, in the turn in which it takes it. Into
scratchpad, or the slot that it claims, CP, CPT, CPG and CPF place the bytes that their rules name, as they stood at the take, to the end of
the first destination sector, where the entry is done or goes on in a later turn (R238); CPS, and these into memory, write them at their
addresses (stated for a piece in one line); CPR adds an element to the latest value of its word and rounds once (R188); CPM fills a picot;
CPC sends its buffer. The turns, and a source that is kept as it stood at the take, are readings of log 23; the add of a CPR in its turn is
log 58's. -/
def Obligations.CopyEntriesMoveTheirData : Prop :=
  ∀ s t gg tm g e (data : Nat → Byte), GangsDistinct s → MayTake s (.team t) g → findGang s t.gang = some gg → findTeam s t = some tm →
    tm.stash = [] → TeamOk tm →
    let x := EngineRef.team t
    let n := entryBytesTotal e
    let rb := e.rowBytes.toNat
    let src := e.src.toNat
    let dst := e.dst.toNat
    let old := smWrite tm.scratch (gg.launch.notify + 4) (natLE 4 ((g.takenIdx + 1) % 2 ^ 32))
    let w := cptWidth (engineSlot s x (srcSlot e)).fmt
    let rows := ∀ r c, r < e.rows.toNat → c < rb →
      if srcScratch e then scratchByte tm old (src % 2 ^ 32 + r * pitchOf e + c) (data (r * rb + c))
      else globalByte s x false (src + r * pitchOf e + c) (data (r * rb + c))
    let columns := ∀ r el k, r < e.rows.toNat → el * w + k < rb → k < w →
      globalByte s x true (src + 32 * e.stride.toNat * (r / (32 / w)) + 32 * el + w * (r % (32 / w)) + k) (data (r * rb + el * w + k))
    let named := fun (table r : Nat) => leNat (smRange tm.scratch (table + 8 * r) 8)
    let names := fun (table : Nat) => table + 8 * e.rows.toNat ≤ scratchLimit tm ∧ table + 8 * e.rows.toNat ≤ 2 ^ 20 ∧
      ∀ r, r < e.rows.toNat → named table r % 4 = 0 ∧ named table r < 2 ^ 57
    let gathered := names src ∧ ∀ r c, r < e.rows.toNat → c < rb → globalByte s x false (named src r + c) (data (r * rb + c))
    let filled := ∀ r c, r < e.rows.toNat → c < rb → (natLE 8 src)[c % 8]? = some (data (r * rb + c))
    let forms : List (Instr × Nat × Prop) := [(.cp e, 1, rows), (.cpt e, 2, columns), (.cpg e, 3, gathered), (.cpf e, 5, filled)]
    let turn := fun (o : Nat) => min n (1024 - o % 1024)
    let prog := fun (m : Nat) => if m < n then Progress.suspended m false else .done 0
    let placed := fun (tm' : Team) (o : Nat) => ∀ k, k < turn o → smGet tm'.scratch (o + k) = data k
    let clear := fun (tm' : Team) (o m : Nat) => ∀ k, k < o ∨ o + m ≤ k → smGet tm'.scratch k = smGet old k
    (∀ i code p, (i, code, p) ∈ forms → p → entryBad s x code e = false →
      (destKind e = 2 → dst % 2 ^ 32 + n ≤ 2 ^ 20 →
        Answers i s fun u => EntryTaken u x g code e (prog (turn (dst % 2 ^ 32))) none ∧ SameMemory s u ∧
          ∃ tm', findTeam u t = some tm' ∧ placed tm' (dst % 2 ^ 32) ∧ clear tm' (dst % 2 ^ 32) (turn (dst % 2 ^ 32))) ∧
      ∀ r, destKind e = 1 → tm.rings[dstByte e 0]? = some r → 0 < r.free → dstByte e 1 = r.next → tm.drains = [] →
        let o := r.base + r.next * r.slotBytes
        o + r.slotBytes ≤ scratchLimit tm → o + r.slotBytes ≤ 2 ^ 20 →
        Answers i s fun u => EntryTaken u x g code e (prog (turn o)) (some (dstByte e 0, r.next)) ∧ SameMemory s u ∧
          ∃ tm', findTeam u t = some tm' ∧ placed tm' o ∧ clear tm' o r.slotBytes ∧
            tm'.rings = listMod tm.rings (dstByte e 0) fun _ => { r with free := r.free - 1, next := (r.next + 1) % r.slots }) ∧
    (LinesOk s → gg.node = none → ∀ i code p va sv l, e.rows.toNat = 1 → va % 32 + n ≤ 32 → PlainTarget s gg.ctx va l → l.x = false →
      waitsToWrite s l.mlock l.pa (some (teamAgent t)) s.fresh = false → entryBad s x code e = false →
      (i, code, p, va, sv) ∈ [(Instr.cp e, 1, rows ∧ destKind e = 0, dst, src % 32 + n), (.cpt e, 2, columns ∧ destKind e = 0 ∧ n = w, dst, n),
        (.cpg e, 3, gathered ∧ destKind e = 0, dst, named src 0 % 32 + n), (.cpf e, 5, filled ∧ destKind e = 0 ∧ n ≤ 8, dst, n),
        (.cps e, 4, rows ∧ names (dst % 2 ^ 32), named (dst % 2 ^ 32) 0, src % 32 + n)] →
      p → sv ≤ 32 →
      Answers i s fun u => EntryTaken u x g code e (.done 0) none ∧
        StoresBytes s u (teamAgent t) ((List.range n).map fun k => (l.pa + k, data k))) ∧
    (LinesOk s → gg.node = none → ∀ l,
      let m := sliceLine (lineLatest s (l.pa / 32) (some (teamAgent t))) l.pa (reduceDst (engineSlot s x (dstSlot e)).fmt)
      let a := engineSlot s x (srcSlot e)
      let b := engineSlot s x (dstSlot e)
      let ws := reduceSrc a.fmt
      let wd := reduceDst b.fmt
      let r := reduceElem b (leNat m) (a.dec (leNat ((List.range ws).map data)))
      e.rows.toNat = 1 → rb = ws → (∀ k, k < ws → scratchByte tm old (src + k) (data k)) → PlainTarget s gg.ctx dst l → l.x = false →
      waitsToWrite s l.mlock l.pa (some (teamAgent t)) s.fresh = false → readHeld s l = false →
      errorFor s (some (teamAgent t)) l.pa wd = false → entryBad s x 6 e = false →
      Answers (.cpr e) s fun u => EntryTaken u x g 6 e (.done (if r.2 then 4 else 0)) none ∧
        StoresBytes s u (teamAgent t) ((List.range wd).map fun k => (l.pa + k, ((natLE wd r.1)[k]?).getD 0))) ∧
    (rows → entryBad s x 7 e = false → resourceFree s x 7 e = true →
      Answers (.cpm e) s fun u => EntryTaken u x g 7 e (.multicast 0) none ∧ SameMemory s u ∧ ∃ ps, tabGet u.wk.picots (clusterOf gg) = some ps ∧
        some { data := (List.range n).map data, teams := (List.range 4).filter fun k => dstByte e 2 / 2 ^ k % 2 == 1,
               ring := dstByte e 0, pub := t, idx := g.takenIdx, ready := true } ∈ ps) ∧
    (rows → gg.node = none → entryBad s x 8 e = false → coordPresent s (cpcPeer e) = true → coordUnreachable s (cpcPeer e) = false →
      (gg.ctx, cpcPeer e) ∉ s.pl.aborts →
      Answers (.cpc e) s fun u => EntryTaken u x g 8 e (.cpcWait ((List.range n).map data)) none ∧ SameMemory s u)

/-- R34, R206, R209, R210, R211: the oldest entry in flight completes once its writes are visible: its slot's fill rises, its stamp
is written where it asks for one or its status is not OK, it arrives at its point, its publisher's copy counter falls; an offset that no
stamp has sets STAMP, whether one is due or not. Until then nothing happens. R212, R214, R246, R247, R359: a picot's drain fills the next slot of its team's
ring, behind a copy engine that is ready to claim it, and the last drain frees the picot; a matched collective step writes what its
operation makes of the two sides, to the end of the first destination sector in its first turn, and sides that differ end it with FAULT;
the end of a peer's part of a context ends its steps with ABORT. The turns are readings of log 23, what a step's data may be log 64's. -/
def Obligations.CopyEntriesCompleteAndPicotsDrain : Prop :=
  (∀ s t gg tm g f fs st, GangsDistinct s → findEngine s (.team t) = some g → g.flight = f :: fs → findGang s t.gang = some gg →
     gg.state = .resident → findTeam s t = some tm → tm.stash = [] → (∃ z ∈ tm.groups, z.retired = false) → f.prog = .done st →
     (∀ h ∈ fs, h.id ≠ f.id) →
     let rings := match f.slot with
       | some (q, k) => listMod tm.rings q fun r => { r with filled := r.filled + 1, phases := r.phases ^^^ BitVec.ofNat 16 (2 ^ k) }
       | none => tm.rings
     let engine : Engine := { g with flight := fs, completed := g.completed + 1 }
     let groups := listMod tm.groups f.pub fun z => { z with copies := z.copies - 1 }
     let p := f.ent.point.toNat
     let stamped := entryStamps f.ent = true ∨ st ≠ 0
     let off := f.ent.stampOff.toNat
     (s.time < f.visAt ∨ (∃ h ∈ s.mm.held, h.id = f.id) → exec (.copyEntryComplete (.team t)) s = .next s) ∧
     (f.visAt ≤ s.time → (∀ h ∈ s.mm.held, h.id ≠ f.id) →
       (¬ stamped → off < 65536 → off % 8 = 0 → entryArrives f.ent = false → Answers (.copyEntryComplete (.team t)) s fun u =>
         TeamBecomes s u t { tm with engine := engine, rings := rings, groups := groups }) ∧
       (∀ q, ¬ stamped → off < 65536 → off % 8 = 0 → entryArrives f.ent = true → p < 24 → tm.points[p]? = some q → q.e ≠ 0 →
         let after : Point := if q.count + 1 = q.e then { q with count := 0, bitmap := 0, phase := q.phase + 1 }
           else { q with count := q.count + 1 }
         Answers (.copyEntryComplete (.team t)) s fun u =>
           TeamBecomes s u t { tm with engine := engine, rings := rings, groups := groups, points := listMod tm.points p fun _ => after }) ∧
       (∀ l, stamped → off < 65536 → off % 8 = 0 → PlainTarget s gg.ctx (gg.launch.stampPage + off) l → LinesOk s → gg.node = none →
         waitsToWrite s l.mlock l.pa (some (teamAgent t)) f.id = false →
         let word := (f.idx + 1) % 2 ^ 48 + st * 2 ^ 48
         Answers (.copyEntryComplete (.team t)) s fun u => (∃ tm', findTeam u t = some tm' ∧ tm'.engine = engine ∧ tm'.rings = rings) ∧
           StoresBytes s u (teamAgent t) ((List.range 8).map fun k => (l.pa + k, ((natLE 8 word)[k]?).getD 0))) ∧
       ∀ n, 65536 ≤ off ∨ off % 8 ≠ 0 → causeGroup tm f.pub = some n → entryArrives f.ent = false →
         Answers (.copyEntryComplete (.team t)) s fun u => (∃ z, findGroup u (trefGroup t n) = some z ∧ z.cause.getLsbD 12 = true) ∧
           SameMemory s u ∧ ∃ tm', findTeam u t = some tm' ∧ tm'.engine = engine)) ∧
  ((∀ s cluster slot team ps p gg tm r, GangsDistinct s → tabGet s.wk.picots cluster = some ps → ps[slot]? = some (some p) →
     team ∈ p.teams → findGang s p.pub.gang = some gg → gg.state = .resident → findTeam s { p.pub with team := team } = some tm →
     tm.rings[p.ring]? = some r → 0 < r.free → tm.drains = [] → tm.stash = [] → TeamOk tm → p.ready = true →
     p.data.length ≤ r.slotBytes →
     let o := r.base + r.next * r.slotBytes
     (engineClaims s { p.pub with team := team } p.ring = true → exec (.picotDrain cluster slot team) s = .next s) ∧
     (engineClaims s { p.pub with team := team } p.ring = false → Answers (.picotDrain cluster slot team) s fun u =>
       ∃ tm', TeamBecomes s u { p.pub with team := team } tm' ∧
       tm' = { tm with scratch := tm'.scratch, rings := listMod tm.rings p.ring fun _ =>
         { r with free := r.free - 1, next := (r.next + 1) % r.slots, filled := r.filled + 1,
                  phases := r.phases ^^^ BitVec.ofNat 16 (2 ^ r.next) } } ∧
       (∀ k, k < p.data.length → some (smGet tm'.scratch (o + k)) = p.data[k]?) ∧
       (∀ k, k < o ∨ o + r.slotBytes ≤ k → smGet tm'.scratch k = smGet tm.scratch k) ∧
       ∃ ps', tabGet u.wk.picots cluster = some ps' ∧ ps'[slot]? = some (
         if p.teams.filter (fun k => k != team) = [] then none else some { p with teams := p.teams.filter fun k => k != team }))) ∧
   (∀ s t gg tm g f pre step, GangsDistinct s → findGang s t.gang = some gg → findTeam s t = some tm → findEngine s (.team t) = some g →
     g.flight.find? (fun f => cpcWaits f && cpcPeer f.ent == step.peer && cpcTag f.ent == step.tag) = some f → f.prog = .cpcWait pre → tm.stash = [] → TeamOk tm →
     let e := f.ent
     let n := entryBytesTotal e
     let rb := e.rowBytes.toNat
     let off := e.src.toNat % 2 ^ 32
     let ended := fun (u : State) (st : Nat) => ∃ g', findEngine u (.team t) = some g' ∧ ∀ q ∈ g'.flight, q.id = f.id → q.prog = .done st
     let agrees := step.rows = e.rows.toNat ∧ step.rowBytes = rb ∧
       step.op = (if cpcOp e = 2 then 3 else if cpcOp e = 3 then 2 else cpcOp e) ∧
       (cpcOp e = 1 → step.slot = ((gg.launch.slots[srcSlot e]?).getD 0).toNat)
     let now := fun r c => (off + r * pitchOf e + c) / 1024 = off / 1024
     (¬ agrees → Answers (.collectivePeerData (.team t) step) s fun u => ended u 1) ∧
     (agrees → cpcOp e = 2 → step.data = [] → Answers (.collectivePeerData (.team t) step) s fun u => ended u 0 ∧ SameMemory s u) ∧
     ∀ bs : List Byte, agrees → step.data.length = n → pre.length = n → srcScratch e = true → 0 < rb → rb ≤ pitchOf e →
       off + e.rows.toNat * pitchOf e ≤ scratchLimit tm → off + e.rows.toNat * pitchOf e ≤ 2 ^ 20 →
       ((cpcOp e = 0 ∨ cpcOp e = 3) ∧ bs = step.data) ∨ (cpcOp e = 1 ∧
         let a := engineSlot s (.team t) (srcSlot e)
         let mine := leNat pre
         let peer := leNat step.data
         (a.fmt = .f32 ∧ n = 4 ∧ (reduceElem a mine (a.dec peer)).2 = false ∧ bs = natLE 4 (reduceElem a mine (a.dec peer)).1) ∨
         (a.fmt = .fx64 ∧ n = 8 ∧ ∃ v : Int, v = (BitVec.ofNat 64 mine).toInt + (BitVec.ofNat 64 peer).toInt ∧ -2 ^ 63 ≤ v ∧ v < 2 ^ 63 ∧
           bs = natLE 8 (BitVec.ofInt 64 v).toNat)) →
       Answers (.collectivePeerData (.team t) step) s fun u => ((∀ r c, r < e.rows.toNat → c < rb → now r c) → ended u 0) ∧
         SameMemory s u ∧ ∃ tm', findTeam u t = some tm' ∧
         (∀ r c, r < e.rows.toNat → c < rb → now r c → some (smGet tm'.scratch (off + r * pitchOf e + c)) = bs[r * rb + c]?) ∧
         ∀ k, (∀ r c, r < e.rows.toNat → c < rb → now r c → k ≠ off + r * pitchOf e + c) → smGet tm'.scratch k = smGet tm.scratch k) ∧
   (∀ s ctx pkg, (∀ c, tabGet s.mm.contexts ctx = some c → c.dying = true) → exec (.cpcAbort ctx pkg) s = .next s) ∧
   ∀ s ctx pkg c, GangsDistinct s → tabGet s.mm.contexts ctx = some c → c.dying = false → Answers (.cpcAbort ctx pkg) s fun u => (ctx, pkg) ∈ u.pl.aborts ∧
     ∀ t gg g f, findGang s t.gang = some gg → gg.ctx = ctx → findEngine s (.team t) = some g → f ∈ g.flight → cpcWaits f = true →
       cpcPeer f.ent = pkg → ∃ g' f', findEngine u (.team t) = some g' ∧ f' ∈ g'.flight ∧ f'.id = f.id ∧ f'.prog = .done 2)

/-! ## Stops, placement, containment and graphs (R268 to R334) -/

/-- R38, R39, R268, R275: a load to another package that lasts the threshold becomes a blocking point; a wait that lasts the launch
record's watchdog limit sets WDOG and stops the team, and with an RWAIT every group that waits on its phase keeps WDOG; PCHK has no
watchdog. A group at another wait stays as it is but for the load, and a stopped one's load is cancelled (R276). That a copy engine's wait
sets WDOG in the group that published its entry, or else the lowest live one, is a reading of log 33. -/
def Obligations.WaitsThatLastTooLongStop : Prop :=
  (∀ s g x, findGroup s g = some x → x.retired = false →
    let late := fun (p : PendLoad) => !p.remote.isEmpty && decide (p.issued + max 1 (dev s).remoteThresh * 4 ≤ s.time)
    let y : Group := { x with loads := x.loads.map fun p => if late p then { p with beyond := true } else p }
    ((∀ p ∈ x.loads, late p = true → p.beyond = true) → exec (.remoteThresholdExpiry g) s = .next s) ∧
    ((∃ p ∈ x.loads, late p = true ∧ p.beyond = false) →
      (x.halted = true → Answers (.remoteThresholdExpiry g) s fun u => OnlyGroup s u g
        { y with loads := y.loads.filter fun p => !p.beyond, cancelled := x.cancelled ++ y.loads.filter PendLoad.beyond }) ∧
      (x.wait ≠ none → x.halted = false → Answers (.remoteThresholdExpiry g) s fun u => OnlyGroup s u g y) ∧
      (x.wait = none → x.halted = false → Answers (.remoteThresholdExpiry g) s fun u => OnlyGroup s u g
        { y with parked := x.parked || isMarked s g,
                 wait := some { kind := .remoteLoad, began := s.time, paused := 0, satAt := none } }))) ∧
  ∀ s t gg tm, GangsDistinct s → findGang s t.gang = some gg → findTeam s t = some tm → gg.state = .resident → tm.stop = none →
    tm.handler = none →
    let lasted := fun (w : Wait) => gg.launch.watchdog * 4000 ≤ s.time - w.began - w.paused
    let wdog := fun (p : Nat) (z : Group) => { z with cause := (z.cause &&& ~~~cHaltb) ||| cWdog, epc := curLink z, skid := 0,
                                                      halted := true, parked := false, frames := none, point := some p
                                                      loads := z.loads.filter fun q => !q.beyond
                                                      cancelled := z.cancelled ++ z.loads.filter PendLoad.beyond }
    (∀ n k x w, tm.groups[n]? = some x → x.wait = some w → x.retired = false → x.halted = false → w.kind ≠ .pchk →
      waitMet s (trefGroup t n) x w = false → (∀ p ∈ waitPeers s x w, recovering s p = false) → lasted w → tm.seq.wait = none →
      (∀ m z, m ≠ n → tm.groups[m]? = some z → z.wait = none) →
      exec (.watchdogExpiry (.group (trefGroup t k))) s = .next (raise s (trefGroup t n) cWdog (curLink x) []
        (match w.kind with | .rwait p _ => some p | _ => none))) ∧
    (∀ n k x w p ph q, tm.groups[n]? = some x → x.wait = some w → x.retired = false → x.halted = false → w.kind = .rwait p ph →
      tm.points[p]? = some q → q.phase ≤ ph → lasted w → tm.seq.wait = none →
      (∀ m z, m ≠ n → tm.groups[m]? = some z → z.halted = false ∧
        (z.wait = none ∨ ∃ v, z.wait = some v ∧ v.kind = .rwait p ph ∧ ¬ lasted v)) →
      Answers (.watchdogExpiry (.group (trefGroup t k))) s fun u =>
        findGroup u (trefGroup t n) = some (wdog p x) ∧
        (∀ m z, m ≠ n → tm.groups[m]? = some z →
          (z.retired = true → findGroup u (trefGroup t m) = some z) ∧
          (z.retired = false → z.wait ≠ none → findGroup u (trefGroup t m) = some (wdog p z)) ∧
          (z.retired = false → z.wait = none → z.parked = false →
            findGroup u (trefGroup t m) = some { z with cause := z.cause ||| cHaltb, skid := 0 })) ∧
        (∃ tm' st, findTeam u t = some tm' ∧ tm'.stop = some st ∧ st.group = n ∧ st.causes = cWdog ∧ st.point = some p) ∧ SameMemory s u) ∧
    (∀ k, tm.seq.wait = none → (∀ z ∈ tm.groups, ∀ w, z.wait = some w → w.kind = .pchk) → exec (.watchdogExpiry (.group (trefGroup t k))) s = .next s) ∧
    (∀ w n x, tm.seq.running = true → tm.seq.wait = some w → seqMet tm w = false → lasted w → causeGroup tm 0 = some n →
      tm.groups[n]? = some x → (∀ z ∈ tm.groups, z.wait = none) →
      exec (.watchdogExpiry (.seq t)) s = .next (raise s (trefGroup t n) cWdog (curLink x) []
        (match w.kind with | .rwait p _ => some p | _ => none))) ∧
    ∀ b code e pub n, tm.engine.waiting = some b → wantedOf s t tm.engine = some (code, e, pub) →
      resourceFree s (.team t) code e = false → gg.launch.watchdog * 4000 ≤ s.time - b → causeGroup tm pub = some n →
      Answers (.watchdogExpiry (.engine t)) s fun u => (∃ z, findGroup u (trefGroup t n) = some z ∧ z.cause.getLsbD 8 = true) ∧
        SameMemory s u ∧ ∃ tm', findTeam u t = some tm' ∧ tm'.engine = { tm.engine with waiting := none }

/-- R276 to R281, R283, R288, R291: a stopped team that has settled (remote loads beyond their threshold are cancelled) takes one
outcome: with POISON its record; else, where a handler is named, the record in the handler area and then the handler in the stopping
group; else a report, for causes within PAGE, PERM and REMOTE that the fold pool has room for; else the end of its context. That the
record is written in one step and the handler starts in a later one, when the record is visible, is a reading of log 40. In a gang
that is being saved for another team's report (the model's reading, log 55): POISON, and causes within PAGE, PERM and REMOTE, are
delivered with the save; others end the context where no handler is named, and are left for the handler after the restore where one
is; a cause that came while the save went on, and that R283 does not report, ends the context. -/
def Obligations.StopsHaveTheirOutcomes : Prop :=
  (∀ s t gg tm st x, GangsDistinct s → findGang s t.gang = some gg → findTeam s t = some tm → gg.state = .resident →
    tm.handler = none → tm.stop = some st → st.report = false → tm.groups[st.group]? = some x → x.retired = false →
    ((∃ z ∈ tm.groups, z.stores ≠ [] ∨ z.tiles ≠ [] ∨ ∃ p ∈ z.loads, p.beyond = false) → exec (.teamStopOutcome t) s = .next s) ∧
    (s.time ≤ st.time → exec (.teamStopOutcome t) s = .next s) ∧
    (st.time < s.time → (∀ z ∈ tm.groups, z.stores = [] ∧ z.tiles = [] ∧ ∀ p ∈ z.loads, p.beyond = true) →
      let poison := x.cause &&& cPoison
      let stopped := fun (z : Group) => if z.retired || z.halted then z
        else { z with halted := true, parked := false, frames := none, epc := if z.frozen.isSome then z.epc else curLink z,
                      loads := [], cancelled := z.cancelled ++ z.loads }
      let others := x.cause &&& ~~~(cHaltb ||| cPage ||| cPerm ||| cRemote)
      let ended := fun (u : State) => (∃ c', tabGet u.mm.contexts gg.ctx = some c' ∧ c'.dying = true) ∧
        ∀ n gg', findGang u n = some gg' → gg'.ctx = gg.ctx → gg'.state = .retired
      (gg.reported = true →
        (st.written ≠ none ∨ x.cause &&& ~~~cHaltb = 0 ∨ (poison = 0 ∧ others ≠ 0 ∧ gg.launch.handler ≠ 0) →
          Answers (.teamStopOutcome t) s fun u => TeamBecomes s u t { tm with groups := tm.groups.map stopped }) ∧
        (st.written = none → x.cause &&& ~~~cHaltb ≠ 0 → poison ≠ 0 ∨ others = 0 → st.late &&& ~~~(cPage ||| cPerm ||| cRemote) = 0 →
          Answers (.teamStopOutcome t) s fun u => ∃ tm', findTeam u t = some tm' ∧ tm'.handler = none ∧
            tm'.stop = some { st with written := some s.time }) ∧
        ∀ c, st.written = none → x.cause &&& ~~~cHaltb ≠ 0 → (poison = 0 ∧ others ≠ 0 ∧ gg.launch.handler = 0) ∨
          ((poison ≠ 0 ∨ others = 0) ∧ st.late &&& ~~~(cPage ||| cPerm ||| cRemote) ≠ 0) → tabGet s.mm.contexts gg.ctx = some c →
          c.dying = false → Answers (.teamStopOutcome t) s ended) ∧
      (gg.reported = false → x.cause &&& ~~~cHaltb = 0 →
        Answers (.teamStopOutcome t) s fun u => TeamBecomes s u t { tm with groups := tm.groups.map stopped }) ∧
      (gg.reported = false → x.cause &&& ~~~cHaltb ≠ 0 →
      (poison ≠ 0 → st.written = none → Answers (.teamStopOutcome t) s fun u => ∃ tm', findTeam u t = some tm' ∧
        tm'.handler = none ∧ tm'.stop = some { st with written := some s.time }) ∧
      (poison = 0 → gg.launch.handler ≠ 0 → st.written = none → (∀ z ∈ tm.groups, z.frontier.length ≤ 16) →
        (∀ bs, st.taken = some bs → bs.length = 128 + 272 * tm.groups.length) →
        areaCause s gg.ctx gg.launch.handlerArea (128 + 272 * tm.groups.length) = 0 →
        Answers (.teamStopOutcome t) s fun u => ∃ tm' w, findTeam u t = some tm' ∧ tm'.handler = none ∧
          tm'.stop = some { st with written := some w } ∧ s.time + 8 ≤ w) ∧
      (∀ w, poison = 0 → gg.launch.handler ≠ 0 → st.written = some w →
        (s.time < w → Answers (.teamStopOutcome t) s fun u => TeamBecomes s u t { tm with groups := tm.groups.map stopped }) ∧
        (w ≤ s.time → Answers (.teamStopOutcome t) s fun u => TeamBecomes s u t
          { tm with handler := some st.group, groups := listMod (tm.groups.map stopped) st.group fun z =>
            { z with frozen := some z.frontier, halted := false, wait := none, parked := false, acq := s.time,
                     frontier := [{ prio := 255, pc := BitVec.ofNat 56 gg.launch.handler, mask := z.live }] } })) ∧
      (poison = 0 → gg.launch.handler = 0 → others = 0 → foldFits s t.gang gg = true →
        Answers (.teamStopOutcome t) s fun u => ∃ gg', findGang u t.gang = some gg' ∧ gg'.reported = true ∧ gg'.state = .resident ∧
          ∀ tm' ∈ gg'.teams, tm'.retired = false → tm'.stop ≠ none) ∧
      ∀ c, poison = 0 → gg.launch.handler = 0 → others ≠ 0 ∨ foldFits s t.gang gg = false →
        tabGet s.mm.contexts gg.ctx = some c → c.dying = false → Answers (.teamStopOutcome t) s ended))) ∧
  ∀ s ctx c, GangsDistinct s → tabGet s.mm.contexts ctx = some c →
    (c.dying = false → (dev s).ctxBusy = true → (dev s).ctxLast = ctx →
      Answers (.contextTermination ctx) s fun u => (∃ c', tabGet u.mm.contexts ctx = some c' ∧ c'.dying = true) ∧
        ∀ n gg, findGang u n = some gg → gg.ctx = ctx → gg.state = .retired) ∧
    (c.dying = true → contextQuiet s ctx = false → exec (.contextTermination ctx) s = .next s) ∧
    (c.dying = true → contextQuiet s ctx = true → Answers (.contextTermination ctx) s fun u => tabGet u.mm.contexts ctx = none ∧
      (∀ v, v ≠ ctx → tabGet u.mm.contexts v = tabGet s.mm.contexts v) ∧ (∀ m ∈ u.mm.execMaps, m.ctx ≠ ctx) ∧
      ((dev s).ctxBusy = true → (dev s).ctxLast = ctx → dev u = { dev s with ctxBusy := false, ctxResult := 0 }) ∧ SameMemory s u)

/-- R6, R7, R27, R203, R278, R279, R285, R306 to R308: a queue's head starts, and a saved gang resumes, on cores that it fits: it
leaves its queues, and every live group has as many register blocks as it owns; it keeps its first identifiers, its registers and
its scratchpad. A gang saved for a report enters its queue at the head as it is restored. A resumed team issues again, with what its
report has resolved cleared. A gang that is not offered, does not fit, or is given lent units that cannot be drained yet, stays; where
no narrow line is held in lent units, a placement leaves every byte of memory as it is. That a reported gang stands outside its queue
until it is restored is a reading of log 56; a ladder body is placed no earlier than it was formed (R14). -/
def Obligations.GangsStartAndResumeWhereTheyFit : Prop :=
  ∀ s n gg l cores, GangsDistinct s → findGang s n = some gg → 0 < gg.launch.yoke →
    let own := cores.take gg.teams.length
    let stands := fun (u : State) => ∃ gg', findGang u n = some gg' ∧ gg'.state = .resident ∧ gg'.ctx = gg.ctx ∧
      gg'.launch = gg.launch ∧ gg'.index = gg.index ∧ gg'.ids = some (gg.ids.getD (l, own)) ∧
      gg'.place = some { cluster := l, cores := own, yoked := cores.drop gg.teams.length } ∧ gg'.teams.length = gg.teams.length ∧
      (∀ (k : Nat) (tm : Team), gg.teams[k]? = some tm → ∃ tm' : Team, gg'.teams[k]? = some tm' ∧
        tm'.groups.length = tm.groups.length ∧ (tm.drains = [] → tm'.scratch = tm.scratch) ∧ tm'.ta = tm.ta ∧ tm'.skips = tm.skips ∧
        ∀ (m : Nat) (x : Group), tm.groups[m]? = some x → ∃ x' : Group, tm'.groups[m]? = some x' ∧ x'.v = x.v ∧ x'.s = x.s ∧ x'.k = x.k ∧
          x'.routes = x.routes ∧ x'.live = x.live ∧ x'.owned = x.owned ∧ x'.retired = x.retired ∧
          (tm.retired = false → x.retired = false → x'.blocks.length = x.owned)) ∧
      (∀ q ∈ u.wk.queues, n ∉ q) ∧ (∀ k : Nat, k ≠ n → findGang u k = findGang s k)
    let held := fun (u : State) r => drainWaits u l (rangeUnits gg) (rangesOf gg cores r)
    (∀ q, headOf s q = some (n, gg) →
      (gg.state = .queued → gg.queuedAt ≤ s.time → offered s q = true → ∀ r, fitOn s l cores gg = some r → held s r = false →
        Answers (.gangPlace q l cores) s fun u => stands u ∧ ((∀ m ∈ s.mm.narrow, m.unit = none) → SameMemory s u)) ∧
      (s.time < gg.queuedAt ∨ offered s q = false ∨ fitOn s l cores gg = none ∨ (∃ r, fitOn s l cores gg = some r ∧ held s r = true) →
        exec (.gangPlace q l cores) s = .next s)) ∧
    (∀ q, gg.state = .saved → s.wk.queues[gg.queue]? = some q →
      (gg.reported = true → n ∉ q → (reenter s n gg).wk.queues[gg.queue]? = some (n :: q)) ∧
      (gg.reported = false ∨ n ∈ q → reenter s n gg = s)) ∧
    (gg.state = .saved →
      let s1 := reenter s n gg
      ((headOf s1 gg.queue).map Prod.fst ≠ some n ∨ offered s1 gg.queue = false ∨ fitOn s1 l cores gg = none ∨
        (∃ r, fitOn s1 l cores gg = some r ∧ held s1 r = true) → exec (.gangRestore n l cores) s = .next s1) ∧
      ∀ r, (headOf s1 gg.queue).map Prod.fst = some n → offered s1 gg.queue = true → fitOn s1 l cores gg = some r → held s1 r = false →
        Answers (.gangRestore n l cores) s fun u => stands u ∧
        ∀ (k : Nat) (tm : Team), gg.teams[k]? = some tm → gg.reported = true → tm.retired = false → tm.handler = none →
          let left := fun (x : Group) => x.cause &&& ~~~(cHaltb ||| cPage ||| cPerm ||| cRemote)
          ∀ st, tm.stop = some st → gg.launch.handler = 0 ∨ st.report = true ∨ st.written ≠ none ∨
            (∀ x ∈ tm.groups, x.retired = false → left x = 0) →
          (∀ x, tm.groups[st.group]? = some x → x.retired = false) →
          ∃ (gg' : Gang) (tm' : Team), findGang u n = some gg' ∧ gg'.reported = false ∧ gg'.teams[k]? = some tm' ∧ tm'.stop = none ∧
            ∀ (m : Nat) (x : Group), tm.groups[m]? = some x → x.retired = false → ∃ x' : Group, tm'.groups[m]? = some x' ∧
              x'.halted = false ∧ x'.wait = none ∧ x'.cause = left x) ∧
    (gg.state ≠ .saved → exec (.gangRestore n l cores) s = .next s)

/-- R284, R286, R291, R307, R309, R310: a head that has waited 1,000 microseconds reserves a cluster; a gang goes into the fold with
its registers, scratchpad and engines, an evicted one to the head of its queue, and one that the fold has no room for loses its
marks; one that holds a line of a locked page waits; the compactor moves a team's range and nothing else of it. What a gang
takes of the fold pool is a reading of log 37. -/
def Obligations.GangsReserveSaveAndMove : Prop :=
  (∀ s q n gg cluster, headOf s q = some (n, gg) →
    (2 ≤ q → tabGet s.wk.reserved n = none → gg.queuedAt + 4000000 ≤ s.time → cluster < 72 →
      Answers (.gangReservation q cluster) s fun u => tabGet u.wk.reserved n = some cluster ∧
        u = { s with wk := { s.wk with reserved := u.wk.reserved } } ∧
        ∀ k, k ≠ n → tabGet u.wk.reserved k = tabGet s.wk.reserved k) ∧
    (q < 2 ∨ tabGet s.wk.reserved n ≠ none ∨ s.time < gg.queuedAt + 4000000 → exec (.gangReservation q cluster) s = .next s)) ∧
  (∀ s n gg, GangsDistinct s → findGang s n = some gg →
    (maySave gg = false ∨ saveWaits s n = true → exec (.gangSave n) s = .next s) ∧
    (maySave gg = true → saveWaits s n = false → gg.reported = false → foldFits s n gg = false → Answers (.gangSave n) s fun u =>
      ∃ gg', findGang u n = some gg' ∧ gg'.marked = false ∧ gg'.marks = [] ∧ gg'.state = gg.state ∧ SameMemory s u) ∧
    (maySave gg = true → saveWaits s n = false → gg.reported = true ∨ foldFits s n gg = true → Answers (.gangSave n) s fun u =>
      (∃ gg', findGang u n = some gg' ∧ gg'.state = .saved ∧ gg'.place = none ∧ gg'.marked = false ∧ gg'.teams.length = gg.teams.length ∧
        ∀ (k : Nat) (tm : Team), gg.teams[k]? = some tm → ∃ tm' : Team, gg'.teams[k]? = some tm' ∧
          tm'.ta = tm.ta ∧ tm'.taFmt = tm.taFmt ∧ tm'.z = tm.z ∧ tm'.skips = tm.skips ∧ tm'.engine.waiting = none ∧
          ((∀ v ∈ gg.teams, v.engine.waiting = none) → tm'.scratch = tm.scratch ∧ tm'.points = tm.points ∧ tm'.rings = tm.rings ∧
            tm'.engine = tm.engine) ∧ tm'.groups.length = tm.groups.length ∧
          ∀ (m : Nat) (x : Group), tm.groups[m]? = some x → x.retired = false → ∃ x' : Group, tm'.groups[m]? = some x' ∧ x'.v = x.v ∧ x'.s = x.s ∧ x'.k = x.k ∧
            x'.routes = x.routes ∧ x'.live = x.live ∧ x'.owned = x.owned ∧ x'.acq = x.acq ∧ x'.blocks = [] ∧
            x'.queue = [] ∧ x'.parked = false ∧ ((∀ v ∈ gg.teams, v.engine.waiting = none) → x'.cause = x.cause)) ∧
      (gg.reported = false → gg.queue < s.wk.queues.length → ∃ q, u.wk.queues[gg.queue]? = some (n :: q)) ∧
      ∀ g ∈ s.mm.narrow, g.gang = n → ∀ h ∈ u.mm.narrow, h.line ≠ g.line)) ∧
  ∀ s t (gg : Gang) (tm : Team) own core base, GangsDistinct s → findGang s t.gang = some gg → findTeam s t = some tm → gg.state = .resident →
    tm.retired = false → tm.handler = none → (gg.place.bind fun p => p.cores[t.team]?) = some own → own ≤ core →
    core - own < tm.scratchAt.length →
    let n := scratchUnits tm.scratchBytes gg.launch.pair
    let held := drainWaits s (clusterOf gg) n [(core, base)]
    0 < n ∧ (base % n = 0 → base + n ≤ scratchArena → held = false →
      (∀ b ∈ scratchTaken (modTeam s t fun x => { x with scratchAt := [] }) (clusterOf gg) core, base + n ≤ b.1 ∨ b.1 + b.2 ≤ base) →
      Answers (.compaction t core base) s fun u => findTeam u t = some { tm with scratchAt := tm.scratchAt.set (core - own) base } ∧
        (∀ v, v ≠ t → findTeam u v = findTeam s v) ∧ ((∀ m ∈ s.mm.narrow, m.unit = none) → SameMemory s u)) ∧
    (base % n ≠ 0 ∨ scratchArena < base + n ∨ held = true → exec (.compaction t core base) s = .next s)

/-- R321 to R323, R325, R331, R332: an uncorrectable error poisons what it lies in: a DRAM row, the LLC's copy of a line where it holds
one, a provisional line, a team; a node whose team has consumed poison is rolled back where it is contained and has not escaped, re-run
where it is idempotent, at most twice, and else fails (its staged lines are then published, but those that a locked page holds, once the engines of its gangs have written what they had taken:
the model's reading, log 68); a memory stack leaves when VACATE finds nothing in it, or at once when it cannot be read. Five points are
the model's readings: an error below dirty data has no effect (log 44), a team's error sets POISON at once in the group of causeGroup
(log 51), a rolled-back grid starts all its gangs again (log 48), the third consumption fails the node (log 49), and a gang that a ladder
has formed ends (log 50). -/
def Obligations.ErrorsPoisonRollBackAndDrop : Prop :=
  (∀ s st pc row bank line, st < 16 → pc < 32 → row < 24576 → bank < 32 → line < 64 →
    let pa := ownPhys s (rowLocal (st * 32 + pc) row bank) + 32 * line
    ((homeOf s (pa / 32)).dirty = true → exec (.uncorrectableError (.dramRow st pc row bank line)) s = .next s) ∧
    ((homeOf s (pa / 32)).dirty = false → Answers (.uncorrectableError (.dramRow st pc row bank line)) s fun u =>
      u = { s with mm := { s.mm with poison := u.mm.poison } } ∧
      ∀ w, w ∈ u.mm.poison ↔ w ∈ s.mm.poison ∨ (pa / 4 ≤ w ∧ w < pa / 4 + 8))) ∧
  (∀ s line,
    ((homeOf s line).llc = none → exec (.uncorrectableError (.llcLine line)) s = .next s) ∧
    ((homeOf s line).llc ≠ none → (homeOf s line).dirty = false → Answers (.uncorrectableError (.llcLine line)) s fun u =>
      u = { s with mm := { s.mm with llcPoison := u.mm.llcPoison } } ∧ ∀ l, l ∈ u.mm.llcPoison ↔ l = line ∨ l ∈ s.mm.llcPoison) ∧
    ((homeOf s line).llc ≠ none → (homeOf s line).dirty = true → Answers (.uncorrectableError (.llcLine line)) s fun u =>
      (homeOf u line).llc = none ∧ (homeOf u line).dirty = false ∧ ∀ w, w ∈ u.mm.poison ↔ w ∈ s.mm.poison ∨ w / 8 = line) ∧
    Answers (.uncorrectableError (.provLine line)) s fun u => SameMemory s u ∧
      u = { s with mm := { s.mm with provisional := u.mm.provisional } } ∧ u.mm.provisional.length = s.mm.provisional.length ∧
      ∀ (k : Nat) (p : Provisional), s.mm.provisional[k]? = some p →
        (p.line ≠ line → u.mm.provisional[k]? = some p) ∧
        (p.line = line → u.mm.provisional[k]? = some { p with poison := List.range 8 })) ∧
  (∀ s t gg tm n, GangsDistinct s → findGang s t.gang = some gg → gg.state = .resident → findTeam s t = some tm → causeGroup tm 0 = some n →
    Answers (.uncorrectableError (.team t)) s fun u => (∃ z, findGroup u (trefGroup t n) = some z ∧ z.cause.getLsbD 5 = true) ∧
      dev u = { dev s with errPoison := (dev s).errPoison + 1 } ∧ SameMemory s u) ∧
  (∀ s g gg tm st w, GangsDistinct s → findGang s g.gang = some gg → findTeam s (grefTeam g) = some tm → tm.stop = some st →
    gg.state = .resident → st.written = some w → decidingCauses tm st &&& cPoison ≠ 0 →
    (gg.node = none → Answers (.poisonConsumed g) s fun u => ∃ gg', findGang u g.gang = some gg' ∧ gg'.state = .retired) ∧
    ∀ n x r, gg.node = some n → tabGet s.wk.replays n.replay = some r → r.nodes[n.node]? = some x → x.kind = 1 →
      (∀ p ∈ s.sw.cmds, p.2.node ≠ some n) →
      let again := fun (u : State) => ∃ y, findNode u n = some y ∧ y.rollbacks = x.rollbacks + 1 ∧ y.gangsLeft = gg.launch.gridGangs ∧
        y.doneAt = none ∧ y.reason = x.reason
      let clean := fun (u : State) => ∀ p ∈ u.mm.provisional, p.node ≠ n
      let published := fun (u : State) => ∀ p ∈ u.mm.provisional, p.node = n → p.bytes ≠ []
      let fails := fun (u : State) => ∃ y, findNode u n = some y ∧ y.reason = some 4
      let contained := gg.launch.contain = true ∧ x.escaped = false
      (contained → x.rollbacks < 2 → Answers (.poisonConsumed g) s fun u => again u ∧ clean u ∧
        (dev u).errRollbacks = (dev s).errRollbacks + 1) ∧
      (¬ (contained ∧ x.rollbacks < 2) → gridRunsOn s n = true → exec (.poisonConsumed g) s = .next s) ∧
      (contained → 2 ≤ x.rollbacks → gridRunsOn s n = false → Answers (.poisonConsumed g) s fun u => fails u ∧ published u) ∧
      (¬ contained → gridRunsOn s n = false → gg.launch.idem = true → x.escaped = false → x.rollbacks < 2 → Answers (.poisonConsumed g) s again) ∧
      (¬ contained → gridRunsOn s n = false → gg.launch.idem = false ∨ x.escaped = true ∨ 2 ≤ x.rollbacks → Answers (.poisonConsumed g) s fails)) ∧
  ∀ s st, st < 16 →
    let leaves := fun (u : State) (detail : Nat) => u.mm.dropped = s.mm.dropped ||| BitVec.ofNat 16 (2 ^ st) ∧
      u.pl.retireLog = s.pl.retireLog ++ [{ kind := 6, stack := st, pos := 0, detail := detail, time := s.time }]
    let last := fun (k : Nat) => Host.Outcome.next (modDev s fun r => { r with repairLast := k })
    (s.mm.dropped.getLsbD st = true → exec (.memoryStackUnreadable st) s = .next s) ∧
    (s.mm.dropped.getLsbD st = false → Answers (.memoryStackUnreadable st) s fun u => leaves u 1 ∧
      tabGet u.mm.unreadable st = some (s.mm.contexts.map Prod.fst)) ∧
    (s.mm.dropped.getLsbD st = true → exec (.vacate (BitVec.ofNat 64 st)) s = last 0) ∧
    (s.mm.dropped.getLsbD st = false → stackMapped s st = true → exec (.vacate (BitVec.ofNat 64 st)) s = last 1) ∧
    (s.mm.dropped.getLsbD st = false → stackMapped s st = false → stackHomes s st = true → exec (.vacate (BitVec.ofNat 64 st)) s = last 2) ∧
    (s.mm.dropped.getLsbD st = false → stackMapped s st = false → stackHomes s st = false →
      Answers (.vacate (BitVec.ofNat 64 st)) s fun u => leaves u 0 ∧ (dev u).repairLast = 0)

/-- R326 to R331: the shepherd drains the core in hand, scans it once nothing stands on it, and goes on to the next; a failed half
or front end enters the retirement record, a failed die drops its stack; a core that does not drain within DRAIN_LIMIT is skipped,
and the shepherd's own marks are withdrawn: a gang that another has marked too stays marked. A failed half is mated with a good half that no
other core uses, or its core is rebound to a whole slab of such halves, or it retires (R329); which spares lie within reach is left to the
part, but the core's own position does, and a mate takes the half of the same letter (log 7). -/
def Obligations.TheShepherdScansAndRepairs : Prop :=
  ∀ s core, GangsDistinct s → core < 320 → (∀ l, l < 72 → (mapEntry s l).moving = none) → (logicalOf s (core / 4)).isSome = true →
    (coreState s core).retired = false → stackDropped s (core / 40) = false →
    (∀ r, core ≠ (dev s).shepCore → inService s (dev s).shepCore = true → exec (.shepherdScan core r) s = .next s) ∧
    (core = (dev s).shepCore →
      (∀ r, coreGangs s core ≠ [] → (coreState s core).draining ≠ none → exec (.shepherdScan core r) s = .next s) ∧
      (∀ r, coreGangs s core ≠ [] → (coreState s core).draining = none → (dev s).shepRun = true →
        Answers (.shepherdScan core r) s fun u => coreState u core = { coreState s core with draining := some s.time } ∧ SameMemory s u ∧
          ∀ n ∈ coreGangs s core, ∃ gg, findGang u n = some gg ∧ gg.marked = true ∧ .shepherd ∈ gg.marks) ∧
      (coreGangs s core = [] → (coreState s core).draining ≠ none ∨ (dev s).shepRun = true →
        let entered := fun (u : State) (kinds : List Nat) => ∃ e es, u.pl.retireLog = s.pl.retireLog ++ e :: es ∧ e.kind ∈ kinds ∧
          e.stack = core / 40 ∧ e.time = s.time
        (Answers (.shepherdScan core .pass) s fun u => coreState u core = { coreState s core with passed := true, draining := none } ∧
          (∀ q ∈ boundHalves s core, halfUsed s core q = false → q ∈ u.pl.goodHalves) ∧ (dev u).shepCore = (nextCore s core).1 ∧ ∀ k r, tabGet s.wk.replays k = some r → ∃ r', tabGet u.wk.replays k = some r' ∧
            r'.cores = r.cores.filter (fun c => c != core) ∧ r'.failedScan = r.failedScan) ∧
        (∀ r h, (r, h) ∈ [(ScanResult.halfA, 0), (.halfB, 1), (.storeA, 0), (.storeB, 1)] →
          let good := fun (hs : List Nat) => spares (noteHalves s core r) core hs
          Answers (.shepherdScan core r) s fun u => (coreState u core).passed = false ∧ ∃ e es,
            u.pl.retireLog = s.pl.retireLog ++ e :: es ∧ e.stack = core / 40 ∧ e.time = s.time ∧ e.pos = core % 40 ∧
            ((e.kind = 1 ∧ ∃ d ∈ good [h], tabGet (coreState u core).mated h = some d ∧ e.detail = d % 40 * 256 + h) ∨
             (e.kind = 2 ∧ core ∉ good [h] ∧ ∃ d ∈ good [0, 1], (coreState u core).slab = d ∧ (coreState u core).mated = []) ∨
             (e.kind = 3 ∧ core ∉ good [h] ∧ core ∉ good [0, 1] ∧ (coreState u core).retired = true))) ∧
        (∀ r, r ∈ [ScanResult.frontEnd, .bothHalves] → Answers (.shepherdScan core r) s fun u => entered u [3] ∧
          (coreState u core).retired = true) ∧
        ∀ cause, (dev s).clusterMap.length = 72 →
          Answers (.shepherdScan core (.dieFault cause)) s fun u => entered u [5] ∧
            ∀ l, l < 72 → stackOf (mapEntry u l).phys = core / 40 → (mapEntry u l).hold = true)) ∧
    ∀ t, (coreState s core).draining = some t →
      let late := t + max 1 (dev s).drainLimit * 4000 ≤ s.time
      (¬ late ∨ coreGangs s core = [] → exec (.shepherdSkip core) s = .next s) ∧
      (late → coreGangs s core ≠ [] → Answers (.shepherdSkip core) s fun u =>
        coreState u core = { coreState s core with draining := none } ∧ (dev u).shepCore = (nextCore s core).1 ∧ SameMemory s u ∧
        ∀ n ∈ coreGangs s core, ∀ gg, findGang s n = some gg →
          (.shepherd ∉ gg.marks → findGang u n = some gg) ∧
          (.shepherd ∈ gg.marks → (∀ m ∈ gg.marks, m = .shepherd) → ∃ gg', findGang u n = some gg' ∧ gg'.marked = false ∧ gg'.marks = []) ∧
          (.shepherd ∈ gg.marks → (∃ m ∈ gg.marks, m ≠ .shepherd) →
            findGang u n = some { gg with marks := gg.marks.filter (· != .shepherd) }))

/-- R295, R296, R306: a node starts once its replay runs and every predecessor has committed; arming data outside its limits fails
it with reason 1; else it does what its kind says: a grid enters its queue, entries go to an engine, a registration or a bank
command is asked for, a ladder is bound or unbound (binding writes nothing to memory: the model's reading, log 67), a word is watched, a
store or a signal is sent; a store's commit follows it by the skew of a release. -/
def Obligations.NodesStartAsTheirKindsSay : Prop :=
  ∀ s n r x, tabGet s.wk.replays n.replay = some r → r.nodes[n.node]? = some x → x.state = .waiting → x.doneAt = none →
    x.reason = none →
    let forms : List (Instr × Nat) := [(.nodeLaunch n, 1), (.nodeCopy n, 2), (.nodeSweep n, 3), (.nodeBank n, 4), (.nodeLadder n, 5),
      (.nodeColl n, 6), (.nodeWaitext n, 7), (.nodeSignal n, 8)]
    let before := (replayEdges s r).filter fun e => e.2 == n.node
    let ready := r.done = false ∧ ∀ e ∈ before, ∃ p, r.nodes[e.1]? = some p ∧ p.state = .committed
    let passed := ∀ e ∈ before, ∀ p, r.nodes[e.1]? = some p → p.doneAt.getD 0 + 100 ≤ s.time
    let v := leNat x.arming
    let y : NodeInst := { x with state := .started, start := s.time, quota := 1024 * (dev s).quota }
    let node := fun (u : State) (z : NodeInst) => findNode u n = some z
    (∀ i k, (i, k) ∈ forms → r.done = true ∨ x.kind ≠ k ∨
        (∃ e ∈ before, ∀ p, r.nodes[e.1]? = some p → p.state ≠ .committed) → exec i s = .next s) ∧
    (ready → passed → ∀ i k, (i, k) ∈ forms → x.kind = k → armingOk k x.arming = false → Answers i s fun u =>
      node u { y with reason := some 1, peer := 0 }) ∧
    (ready → x.kind = 1 → armingOk 1 x.arming = true →
      let l := launchOf x.addr x.arming
      (launchOk s r.ctx l = false → Answers (.nodeLaunch n) s fun u => node u { y with reason := some 1, peer := 0 }) ∧
      ∀ q, launchOk s r.ctx l = true → s.wk.queues[2 * l.prio + laneOf s r]? = some q → Answers (.nodeLaunch n) s fun u =>
        node u { y with gangsLeft := l.gridGangs } ∧ u.mm = s.mm ∧
        u.wk.queues[2 * l.prio + laneOf s r]? = some (q ++ (List.range l.gridGangs).map fun k => tabNext s.wk.gangs + k) ∧
        ∀ k, k < l.gridGangs → ∃ gg, findGang u (tabNext s.wk.gangs + k) = some gg ∧ gg.ctx = r.ctx ∧ gg.launch = l ∧ gg.index = k ∧
          gg.node = some n ∧ gg.state = .queued ∧ gg.teams = List.replicate l.teams (newTeam l s.time)) ∧
    (ready → ∀ i k, (i, k) ∈ [(Instr.nodeCopy n, 2), (.nodeColl n, 6)] → x.kind = k → armingOk k x.arming = true →
      Answers i s fun u => node u { y with engine := { Engine.idle with published := (x.arming.length - 8) / 32 } } ∧ SameMemory s u) ∧
    (ready → x.kind = 3 → armingOk 3 x.arming = true → ∀ ws,
      let d := descOf (leNat (x.arming.take 64)) false
      d.wellFormed = true → programWords s r.ctx d.program 16 = some ws →
      Answers (.nodeSweep n) s fun u => node u y ∧ u.sw = { s.sw with reqs := s.sw.reqs ++ [.register none (some n) r.ctx 0 d ws] }) ∧
    (ready → x.kind = 4 → armingOk 4 x.arming = true → ∀ ws, bankDesc s r.ctx (descOf v true) = some ws →
      Answers (.nodeBank n) s fun u => node u y ∧ tabGet u.sw.cmds s.fresh = some
        { ctx := r.ctx, who := none, node := some n, desc := descOf v true, program := ws, done := [], fault := false }) ∧
    (ready → x.kind = 5 → armingOk 5 x.arming = true →
      let addr := bitsOf v 127 64
      let bound := ladderOf s r.ctx addr (bitsOf v 191 128) (bitsOf v 255 192) (bitsOf v 319 256) (laneOf s r)
      (∀ l, bitsOf v 63 0 = 0 → bound = some l → Answers (.nodeLadder n) s fun u =>
        tabGet u.wk.ladders s.fresh = some l ∧ u.mm = s.mm ∧ ∃ t, node u { y with doneAt := some t } ∧ s.time + 8 ≤ t) ∧
      (bitsOf v 63 0 = 0 ∧ bound = none ∨ bitsOf v 63 0 = 1 ∧ ladderAt s r.ctx addr = none → Answers (.nodeLadder n) s fun u =>
        node u { y with reason := some 1, peer := 0 }) ∧
      ∀ id l, bitsOf v 63 0 = 1 → ladderAt s r.ctx addr = some (id, l) →
        (l.counted < l.nextIndex → Answers (.nodeLadder n) s fun u => node u y ∧ u.wk.ladders = s.wk.ladders) ∧
        (l.nextIndex ≤ l.counted → Answers (.nodeLadder n) s fun u => tabGet u.wk.ladders id = none ∧
          ∃ t, node u { y with doneAt := some t } ∧ s.time + 8 ≤ t)) ∧
    (ready → x.kind = 7 → armingOk 7 x.arming = true →
      (translate s r.ctx (bitsOf v 63 0) = none → Answers (.nodeWaitext n) s fun u => node u { y with reason := some 7, peer := 0 }) ∧
      ∀ l, translate s r.ctx (bitsOf v 63 0) = some l → l.mtype = 0 → isRemote s l.pa = false → readHeld s l = false →
        (∀ m ∈ s.mm.narrow, m.line ≠ l.pa / 32) → (homeOf s (l.pa / 32)).writes = [] →
        let c := extCond v
        let m := leNat (homeRead s l.pa (condBytes c) none)
        Answers (.nodeWaitext n) s fun u => node u
          { y with status := l.pa, doneAt := if condHolds c m (bitsOf v 191 128) then some s.time else none } ∧ SameMemory s u) ∧
    (ready → x.kind = 8 → armingOk 8 x.arming = true →
      let dest := bitsOf v 127 64
      (¬ passed → exec (.nodeSignal n) s = .next s) ∧
      (∀ l, passed → bitsOf v 63 0 = 0 → dest % 8 = 0 → PlainTarget s r.ctx dest l → LinesOk s → Answers (.nodeSignal n) s fun u =>
        sliceLine (lineLatest u (l.pa / 32) none) l.pa 8 = natLE 8 (bitsOf v 191 128) ∧ ∃ t,
          node u { y with status := s.fresh, doneAt := some t } ∧ s.time + 8 ≤ t) ∧
      (passed → bitsOf v 63 0 = 1 → dest < 2 ^ 19 → coordPresent s dest = true → coordUnreachable s dest = false →
        Answers (.nodeSignal n) s fun u => node u y ∧ u.pl.signals = s.pl.signals ++
          [{ ctx := r.ctx, payload := BitVec.ofNat 64 (bitsOf v 191 128), coord := BitVec.ofNat 19 dest, since := none, who := none,
             node := some n, id := s.fresh }]) ∧
      (passed → bitsOf v 63 0 = 1 → 2 ^ 19 ≤ dest ∨ coordPresent s (dest % 2 ^ 19) = false ∨ coordUnreachable s (dest % 2 ^ 19) = true →
        Answers (.nodeSignal n) s fun u => node u { y with reason := some 2, peer := dest % 2 ^ 19 }))

/-- R294, R296, R298 to R301, R304, R315, R318: GLOAD (of a context that is not being terminated: log 69) and KICK, the start of a replay with its patches, and the end of a node: it
fails with its successors cancelled, a grid that has retired publishes, but for the lines that locked pages hold, and waits until its writes are visible, and commits; a replay
is done once every node has ended. That an accepted KICK leaves KERR, and an accepted GLOAD clears LERR, is a reading of log 34. -/
def Obligations.ReplaysStartAndTheirNodesEnd : Prop :=
  (∀ s (v : Word64),
    let ctx := v.toNat / 2 ^ 48
    let addr := v.toNat % 2 ^ 48
    ((dev s).gstatBusy = true → exec (.gload v) s = .next s) ∧
    let refused := fun (e : Nat) => Host.Outcome.next (modDev s fun r => { r with gstatLerr := e })
    ((dev s).gstatBusy = false → (∀ c, tabGet s.mm.contexts ctx = some c → c.dying = true → exec (.gload v) s = refused 5) ∧
      (tabGet s.mm.contexts ctx = none → exec (.gload v) s = refused 5) ∧
      ∀ c, tabGet s.mm.contexts ctx = some c → c.dying = false →
      (∀ e, readGraph s ctx addr = .error e → exec (.gload v) s = refused e) ∧
      (∀ g, readGraph s ctx addr = .ok g → freeHandle s = none → exec (.gload v) s = refused 6) ∧
      ∀ g h, readGraph s ctx addr = .ok g → freeHandle s = some h → Answers (.gload v) s fun u =>
        dev u = { dev s with gstatLerr := 0, gstatHandle := h } ∧ tabGet u.wk.graphs h = some g ∧ tabGet s.wk.graphs h = none ∧
        (∀ k, k ≠ h → tabGet u.wk.graphs k = tabGet s.wk.graphs k) ∧ SameMemory s u)) ∧
  (∀ s (v : Word64),
    let h := v.toNat / 2 ^ 48
    (tabGet s.wk.graphs h = none → exec (.kick v) s = .next (modDev s fun r => { r with gstatKerr := 1 })) ∧
    ∀ g, tabGet s.wk.graphs h = some g →
      (v.toNat % 64 ≠ 0 → exec (.kick v) s = .next (modDev s fun r => { r with gstatKerr := 2 })) ∧
      (v.toNat % 64 = 0 → 64 ≤ g.kicks.length → exec (.kick v) s = .next (modDev s fun r => { r with gstatKerr := 3 })) ∧
      (v.toNat % 64 = 0 → g.kicks.length < 64 → Answers (.kick v) s fun u => dev u = dev s ∧
        tabGet u.wk.graphs h = some { g with kicks := g.kicks ++ [v.toNat % 2 ^ 48] } ∧ SameMemory s u)) ∧
  (∀ s h g ptab rest, tabGet s.wk.graphs h = some g → g.kicks = ptab :: rest →
    (replayRuns s h = true → exec (.replayStart h) s = .next s) ∧
    (∀ ns, replayRuns s h = false → patchedNodes s g ptab = some ns →
      let r : Replay := { handle := h, ctx := g.ctx, seqno := g.seqno + 1, ptab := ptab, nodes := ns, done := false, killed := false,
                          cores := [], failedScan := false, settled := false }
      Answers (.replayStart h) s fun u =>
      tabGet u.wk.graphs h = some { g with kicks := rest, seqno := g.seqno + 1 } ∧ SameMemory s u ∧
      tabGet u.wk.replays (tabNext s.wk.replays) = some r) ∧
    (replayRuns s h = false → patchedNodes s g ptab = none → Answers (.replayStart h) s fun u =>
      tabGet u.wk.graphs h = some { g with kicks := rest, seqno := g.seqno + 1 } ∧ u.wk.replays.length = s.wk.replays.length)) ∧
  (∀ ns e k x, e % 2 ^ 32 = k → ns[k]? = some x →
    let off := e / 2 ^ 32 % 2 ^ 16
    let size := e / 2 ^ 48 % 2 ^ 8
    (size ∈ [1, 2, 4, 8] → off % size = 0 → off + size ≤ x.arming.length → e / 2 ^ 56 % 2 ^ 8 = 0 → ∃ bs,
      applyPatch ns e = some (ns.set k { x with arming := bs }) ∧ bs.length = x.arming.length ∧
      ∀ j, j < bs.length → bs[j]? = if off ≤ j ∧ j < off + size then (natLE 8 (e / 2 ^ 64 % 2 ^ 64))[j - off]? else x.arming[j]?) ∧
    (size ∉ [1, 2, 4, 8] ∨ off % size ≠ 0 ∨ x.arming.length < off + size ∨ e / 2 ^ 56 % 2 ^ 8 ≠ 0 → applyPatch ns e = none)) ∧
  ∀ s n r x, tabGet s.wk.replays n.replay = some r → r.done = false → r.nodes[n.node]? = some x → x.state = .started →
    let ends := fun (u : State) (st : NodeState) (others : Nat → NodeInst → NodeState) => ∃ r', tabGet u.wk.replays n.replay = some r' ∧
      (∃ y, r'.nodes[n.node]? = some y ∧ y.state = st) ∧ r'.nodes.length = r.nodes.length ∧
      (∀ m p, m ≠ n.node → r.nodes[m]? = some p → ∃ y, r'.nodes[m]? = some y ∧ y.state = others m p) ∧
      (r'.done = true ↔ ∀ y ∈ r'.nodes, y.state = .committed ∨ y.state = .failed ∨ y.state = .cancelled)
    let late := x.kind = 7 ∧ x.start + bitsOf (leNat x.arming) 127 96 * 4000 ≤ s.time ∧
      ∀ t, x.doneAt = some t → x.start + bitsOf (leNat x.arming) 127 96 * 4000 < t
    (∀ t, x.reason = none → x.kind ≠ 3 → ¬ late → x.doneAt = some t →
      (s.time < t → exec (.nodeCommit n) s = .next s) ∧
      (t ≤ s.time → Answers (.nodeCommit n) s fun u => ends u .committed fun _ p => p.state)) ∧
    (x.reason ≠ none ∨ late → (∀ e ∈ replayEdges s r, e.1 ≠ n.node) → (∀ m p, r.nodes[m]? = some p → p.state = .waiting →
        ∀ e ∈ replayEdges s r, e.2 = m → ∀ q, r.nodes[e.1]? = some q → q.state ≠ .failed ∧ q.state ≠ .cancelled) →
      Answers (.nodeCommit n) s fun u => ends u .failed fun _ p => p.state) ∧
    (∀ m p, x.reason ≠ none → (n.node, m) ∈ replayEdges s r → n.node ≠ m → r.nodes[m]? = some p → p.state = .waiting →
      Answers (.nodeCommit n) s fun u => ∃ r' y, tabGet u.wk.replays n.replay = some r' ∧ r'.nodes[m]? = some y ∧ y.state = .cancelled) ∧
    (x.reason = none → x.doneAt = none → x.kind = 1 →
      (x.gangsLeft ≠ 0 → exec (.nodeCommit n) s = .next s) ∧
      (let goes := fun (p : Provisional) => p.node = n ∧ p.bytes ≠ [] ∧ frameLocked s (32 * p.line) = false
       x.gangsLeft = 0 →
        ((∃ p ∈ s.mm.provisional, goes p) → Answers (.nodeCommit n) s fun u => (∃ y, findNode u n = some y ∧ y.state = .started) ∧
          (∀ p ∈ u.mm.provisional, ¬ goes p) ∧ (∀ p ∈ s.mm.provisional, ¬ goes p → p ∈ u.mm.provisional) ∧
          ∀ p ∈ s.mm.provisional, goes p → { p with bytes := [], poison := [] } ∈ u.mm.provisional) ∧
        ((∀ p ∈ s.mm.provisional, ¬ goes p) → (∃ p ∈ s.mm.provisional, p.node = n ∧ p.bytes ≠ []) → exec (.nodeCommit n) s = .next s)) ∧
      (x.gangsLeft = 0 → (∀ p ∈ s.mm.provisional, p.node = n → p.bytes = []) → gridPlaced s n = true → Answers (.nodeCommit n) s fun u =>
        ∃ t, findNode u n = some { x with doneAt := some t } ∧ s.time + 8 ≤ t ∧ t ≤ s.time + 100 ∧ SameMemory s u))

/-! ## The window, the host and the fabric (R291 to R294, R311 to R313, R337 to R362) -/

/-- R282, R291, R311 to R313, R353, R354, R357, R361: what a write to each acting register of the window does: EVICT marks gangs or
withdraws marks, INVAL completes once the reads that used older entries have been served, after which its range is translated by the
tables as they stand, and lets held writes go,
CLUSTER_MAP changes an entry, the notice registers set the ring up and give room, a doorbell stores its value, SIGQ binds a queue,
ATTEST_CTL writes a report. R118, R291, R292, R334, R343, R344, R351 to R353, R356, R362: a register that holds what is written
reads it back, a write outside its limits keeps it, a width that it does not take is not performed; the host's write to device
memory places its bytes, at the row where a context maps them SWEPT (R107), changes no executable page (R69), and agents may still use a
valid table entry that it changed. That a host write waits for a locked frame is a reading of log 46. -/
def Obligations.RegisterWritesActAndHold : Prop :=
  ((∀ s (v : Word64), GangsDistinct s → v.toNat % 2 ^ 39 = 0 →
     let named := fun (gg : Gang) => gg.state = .resident ∧ gg.ctx = v.toNat / 2 ^ 48 ∧
       (v.getLsbD 47 = true ∨ clusterOf gg = v.toNat / 2 ^ 40 % 128)
     (v.getLsbD 39 = false → Answers (.evict v) s fun u => SameMemory s u ∧ ∀ n gg, findGang s n = some gg →
       (¬ named gg → findGang u n = some gg) ∧
       (named gg → (∃ gg', findGang u n = some gg' ∧ gg'.marked = true ∧ .other ∈ gg'.marks ∧ gg'.state = .resident) ∧
         ∀ g x, g.gang = n → findGroup s g = some x → (x.wait = none → findGroup u g = some x) ∧
           ∀ w p ph tm q, x.wait = some w → w.kind = .rwait p ph → x.retired = false → x.halted = false → findTeam s (grefTeam g) = some tm →
             tm.points[p]? = some q → q.phase ≤ ph → findGroup u g = some { x with parked := true })) ∧
     (v.getLsbD 39 = true → Answers (.evictWithdraw v) s fun u => SameMemory s u ∧ ∀ n gg, findGang s n = some gg →
       (¬ (named gg ∧ gg.marked = true) → findGang u n = some gg) ∧
       (named gg → gg.marked = true → (∃ gg', findGang u n = some gg' ∧ gg'.marked = false ∧ gg'.marks = []) ∧
         ∀ g x, g.gang = n → findGroup s g = some x → (x.parked = false → findGroup u g = some x) ∧
           ((∀ w, x.wait = some w → w.kind ≠ .pchk) → findGroup u g = some { x with parked := false }) ∧
           ∀ w, x.parked = true → x.wait = some w → w.kind = .pchk →
             let y : Group := { advance x with parked := false, wait := none }
             ((∀ p ∈ x.loads, p.beyond = false) → findGroup u g = some y) ∧
             ((∃ p ∈ x.loads, p.beyond = true) → x.retired = false → x.halted = false → findGroup u g =
               some { y with wait := some { kind := .remoteLoad, began := s.time, paused := 0, satAt := none } })))) ∧
   (∀ s (v : Word64),
     let size := v.toNat / 2 ^ 42 % 64
     let base := v.toNat % 2 ^ 42
     ((dev s).istatDone = true → size ≤ 41 → base % 2 ^ size = 0 → exec (.inval v) s =
       .next (modDev s fun r => { r with istatDone := false, invalReq := some (v.toNat / 2 ^ 48, size, base) })) ∧
     ((dev s).istatDone = false ∨ 41 < size ∨ base % 2 ^ size ≠ 0 → exec (.inval v) s = .next s) ∧
     ((dev s).istatDone = true → exec .invalidationComplete s = .next s) ∧
     (∀ c sz b, (dev s).istatDone = false → (dev s).invalReq = some (c, sz, b) → s.mm.held = [] →
       (∃ p ∈ s.wk.gangs, p.2.ctx = c ∧ p.2.state = .resident ∧ ∃ tm ∈ p.2.teams, ∃ x ∈ tm.groups, ∃ l ∈ x.loads, l.todo ≠ []) →
       exec .invalidationComplete s = .next s) ∧
     ((dev s).istatDone = false →
       (∀ p ∈ s.wk.gangs, ∀ tm ∈ p.2.teams, ∀ x ∈ tm.groups, ∀ l ∈ x.loads, l.todo = []) →
       (s.mm.held = [] → Answers .invalidationComplete s fun u => dev u = { dev s with istatDone := true, invalReq := none } ∧
         SameMemory s u ∧ ∀ c sz b, (dev s).invalReq = some (c, sz, b) →
         (∀ a was, .changed a was ∈ s.mm.tlb → (homeOf s (a / 32)).writes = []) →
         ∀ va pte, va / 2 ^ (16 + sz) = b / 2 ^ sz → entryBefore u pte (unnoticed u c va) = homeNat u pte 8) ∧
       ∀ h bs l, s.mm.held = [h] → h.id ≤ s.fresh → containedOf s h.who = none → h.op = .store bs → 0 < bs.length → l.pa % 32 + bs.length ≤ 32 → s.mm.tlb = [] →
         PlainTarget s h.ctx h.va l → LinesOk s → Answers .invalidationComplete s fun u =>
           dev u = { dev s with istatDone := true, invalReq := none } ∧ u.mm.held = [] ∧
           sliceLine (lineLatest u (l.pa / 32) none) l.pa bs.length = bs)) ∧
   (∀ s l (v : Word) (q : Nat),
     let e := mapEntry s l
     let p := v.toNat % 128
     let moves := e.hold = true ∧ residents s l = [] ∧ (∀ k, k < 72 → k ≠ l → (mapEntry s k).phys ≠ p ∧ (mapEntry s k).moving ≠ some p) ∧ p < 80
     (moves → q = p) → (¬ moves → q = e.phys) →
     let e' : MapEntry := { hold := v.getLsbD 31 || stackDropped s (q / 10), phys := q, moving := none }
     (e.moving ≠ none → exec (.clusterMapWrite l v) s = .next s) ∧
     (e.moving = none → exec (.clusterMapWrite l v) s = .next (modDev s fun r => { r with clusterMap := r.clusterMap.set l e' }))) ∧
   (∀ s (v : Word64), s.wk.notices = [] → ∀ m k : Nat, m = v.toNat / 2 ^ 60 → k = (dev s).noticeBase.toNat / 2 ^ 60 →
     let base : Word64 :=
       BitVec.ofNat 64 ((if m ≤ 12 then m else k) * 2 ^ 60 + (if v.getLsbD 59 then 2 ^ 59 else 0) + v.toNat % 2 ^ 43 / 64 * 64)
     (Answers (.noticeBaseWrite v) s fun u => SameMemory s u ∧
       dev u = { dev s with noticeHead := 0, noticeBase := base, noticeVis := [] }) ∧
     Answers (.noticeTailWrite v) s fun u => SameMemory s u ∧ dev u = { dev s with
       noticeTail := v.toNat % 2 ^ 32
       noticeVis := (dev s).noticeVis.filter fun k => s.time < k
       msix := (msixNow s).reverse ++ (dev s).msix }) ∧
   (∀ s (v : Word64) n, s.wk.notices = [n] → n.area = none →
     let r := { dev s with
       noticeTail := v.toNat % 2 ^ 32
       noticeVis := (dev s).noticeVis.filter fun k => s.time < k
       msix := (msixNow s).reverse ++ (dev s).msix }
     (noticeRoom r = false ∨ sysHolds s (nextEntryAt r) 32 = true → Answers (.noticeTailWrite v) s fun u => dev u = r ∧ u.wk.notices = [n] ∧ SameMemory s u) ∧
     (noticeRoom r = true → sysHolds s (nextEntryAt r) 32 = false → Answers (.noticeTailWrite v) s fun u => u.wk.notices = [] ∧
       ∃ t, s.time + 100 ≤ t ∧ dev u = { r with noticeHead := (r.noticeHead + 1) % 2 ^ 32, noticeVis := r.noticeVis ++ [t] })) ∧
   (∀ s n (v : Word64) t, n < 64 → tabGet (dev s).dbTarget n = some t →
     (t.getLsbD 0 = false → exec (.doorbell n v) s = .next s) ∧
     ∀ l, t.getLsbD 0 = true → PlainTarget s (t.toNat / 2 ^ 48) (t.toNat % 2 ^ 48 / 8 * 8) l → LinesOk s →
       Answers (.doorbell n v) s fun u => sliceLine (lineLatest u (l.pa / 32) none) l.pa 8 = natLE 8 v.toNat ∧ dev u = dev s) ∧
   (∀ s (v : Word64) c, tabGet s.mm.contexts (v.toNat / 2 ^ 48) = some c →
     (v.toNat % 64 ≠ 0 → exec (.sigq v) s = .next s) ∧
     (v.toNat % 64 = 0 → Answers (.sigq v) s fun u => SameMemory s u ∧
       tabGet u.mm.contexts (v.toNat / 2 ^ 48) = some { c with sigq := v.toNat % 2 ^ 48 } ∧
       ∀ k, k ≠ v.toNat / 2 ^ 48 → tabGet u.mm.contexts k = tabGet s.mm.contexts k)) ∧
   ∀ s (v : Word64), (v.getLsbD 0 = false ∨ s.time < (dev s).attestDone ∨ (dev s).attestWait ≠ none → exec (.attestCtl v) s = .next s) ∧
     (v.getLsbD 0 = true → (dev s).attestDone ≤ s.time → (dev s).attestWait = none →
       sysHolds s (dev s).attestAddr (attestReport s).length = true → Answers (.attestCtl v) s fun u => SameMemory s u ∧
         dev u = { dev s with attestWait := some ((dev s).attestAddr, attestReport s) }) ∧
     (v.getLsbD 0 = true → (dev s).attestDone ≤ s.time → (dev s).attestWait = none → (dev s).attestAddr % 32 = 0 → (dev s).nonce.length = 64 → LinesOk s →
       let pa := ownPhys s (dev s).attestAddr
       PlainLine s (pa / 32) → execFrame s pa = false → sweptAt s pa = false → sysHolds s (dev s).attestAddr (attestReport s).length = false →
       Answers (.attestCtl v) s fun u =>
         sliceLine (lineLatest u (pa / 32) none) pa 32 = natLE 4 0x41545351 ++ (dev s).nonce.take 28 ∧
         ∃ t, dev u = { dev s with attestDone := t } ∧ s.time + 100 ≤ t)) ∧
  ((∀ s off (v : Word64), (dev s).bootError = 0 →
     let n := v.toNat
     (off, true) ∈ [(0x200008, decide (1000 ≤ n ∧ n ≤ 3600)), (0x200010, decide (n ≤ (dev s).pkgLimit ∧ n < 2 ^ 16)),
       (0x200018, decide (10 ≤ n ∧ n ≤ 1000)), (0x400000, decide (n < 2 ^ 24)), (0x500008, decide (n < 2 ^ 32)),
       (0x500010, decide (10 ≤ n ∧ n ≤ 1000000)), (0x600140, decide (n < 2 ^ 43 ∧ n % 64 = 0)), (0x000000, decide (n % 8 ≤ 1)),
       (0x0003F0, decide (n % 8 ≤ 1))] →
     Answers (.registerWrite off 8 v) s fun u => windowRead u off 8 = n ∧ SameMemory s u ∧
       u = { s with pl := { s.pl with dev := dev u } }) ∧
   (∀ s off (v : Word64), (dev s).bootError = 0 → v.toNat < 2 ^ 16 →
     (off = 0x200008 ∧ (v.toNat < 1000 ∨ 3600 < v.toNat)) ∨ (off = 0x200018 ∧ (v.toNat < 10 ∨ 1000 < v.toNat)) ∨
       (off = 0x500010 ∧ v.toNat < 10) ∨ (off = 0x200010 ∧ (dev s).pkgLimit < v.toNat) →
     Answers (.registerWrite off 8 v) s fun u => dev u = dev s) ∧
   (∀ s off width (v : Word64), width ≠ 4 → width ≠ 8 → exec (.registerWrite off width v) s = .next s) ∧
   (∀ s off width (v : Word64), off % width ≠ 0 → exec (.registerWrite off width v) s = .next s) ∧
   (∀ s c (v : Word64), (dev s).bootError = 0 → c < 80 →
     let at_ := fun k => 0x300000 + 0x1000 * c + k
     (Answers (.registerWrite (at_ 0x10) 4 v) s fun u => clusterRegs u c =
       { clusterRegs s c with ratio := if v.toNat % 4 = 3 then (clusterRegs s c).ratio else BitVec.ofNat 2 v.toNat }) ∧
     (Answers (.registerWrite (at_ 0x18) 4 v) s fun u => clusterRegs u c = { clusterRegs s c with binBase := BitVec.ofNat 3 v.toNat }) ∧
     Answers (.registerWrite (at_ 0x00) 4 v) s fun u => clusterRegs u c =
       { clusterRegs s c with policy := if v.toNat % 4 < 2 then BitVec.ofNat 2 v.toNat else (clusterRegs s c).policy }) ∧
   ∀ s addr (bytes : List Byte), LinesOk s → Safety.MemoryOk s →
     let pa := ownPhys s addr
     let inLine := bytes ≠ [] ∧ pa % 32 + bytes.length ≤ 32
     (hostReaches s addr bytes.length = false → exec (.hostMemWrite addr bytes) s = .next s) ∧
     (hostReaches s addr bytes.length = true → s.mm.tlb = [] → (∀ k, k < bytes.length → isEntry s ((pa + k) / 8 * 8) = false) →
       (bytes ≠ [] → (∀ k, k < bytes.length → PlainLine s ((pa + k) / 32) ∧ mustHold s (frameLocked s (pa + k)) (pa + k) s.fresh = false ∧
           execFrame s (pa + k) = false ∧ sweptAt s (pa + k) = false) →
         Answers (.hostMemWrite addr bytes) s fun u =>
           (∀ k, k < bytes.length → sliceLine (lineLatest u ((pa + k) / 32) none) (pa + k) 1 = (bytes.drop k).take 1) ∧
           ∀ r a, a < pa ∨ pa + bytes.length ≤ a → byteAt u r a = byteAt s r a) ∧
       (inLine → mustHold s (frameLocked s pa) pa s.fresh = false → execFrame s pa = false → sweptAt s pa = true →
         Answers (.hostMemWrite addr bytes) s fun u => dramRead u pa bytes.length = bytes) ∧
       (inLine → mustHold s (frameLocked s pa) pa s.fresh = true → execFrame s pa = false → Answers (.hostMemWrite addr bytes) s fun u =>
         SameMemory s u ∧ ∃ h, u.mm.held = s.mm.held ++ [h] ∧ h.pa = pa ∧ h.op = .store bytes ∧ h.who = none)) ∧
     (hostReaches s addr bytes.length = true → inLine → execFrame s pa = true → Answers (.hostMemWrite addr bytes) s fun u =>
       SameMemory s u ∧ u.mm.mem = s.mm.mem) ∧
     ∀ old, hostReaches s addr bytes.length = true → pa % 8 = 0 → bytes.length = 8 →
       sliceLine (lineLatest s (pa / 32) none) pa 8 = natLE 8 old → old < 2 ^ 64 → old % 2 = 1 → leNat bytes ≠ old → isEntry s pa = true →
       Answers (.hostMemWrite addr bytes) s fun u => ∀ ctx va, old ∈ oldEntries ctx va pa u.mm.tlb)

/-- R67, R68, R70, R115, R182, R288, R291, R292, R347: contexts are created and named for termination; a map is refused at its first
bad unit or word, and one that is made has only words that decode; an unmap waits for the gangs that fetch from it; a locked page
moves with its bytes and its leaf; without the domain bound the package is in recovery to every other. Readings of the model: reserved
bits of CTXDEF and of its record (log 31), how long a result field stands (log 34), when the leaf of a page changes (log 47), and that
only the exact range of a map is unmapped (log 73). -/
def Obligations.ContextsMapsAndPagesChange : Prop :=
  (∀ s (v : Word64), v.toNat / 2 ^ 43 % 8 = 0 → v.toNat % 64 = 0 →
    let loc := v.toNat % 2 ^ 43
    let num := v.toNat / 2 ^ 46 % 2 ^ 16
    let rec64 := leNat (sysRead s loc 64)
    let n := rec64 % 2 ^ 16
    let answered := fun (res : Nat) => Host.Outcome.next (modDev s fun d => { d with ctxLast := n, ctxResult := res })
    ((dev s).ctxBusy = true → exec (.ctxCreate v) s = .next s ∧ exec (.ctxTerminate v) s = .next s) ∧
    ((dev s).ctxBusy = false → v.toNat / 2 ^ 62 = 0 → num = 0 →
      (localReadable s loc 64 = false → exec (.ctxCreate v) s = answered 5) ∧
      (localReadable s loc 64 = true → contextOk rec64 = false → exec (.ctxCreate v) s = answered 1) ∧
      (localReadable s loc 64 = true → contextOk rec64 = true →
        ((tabGet s.mm.contexts n).isSome = true → exec (.ctxCreate v) s = answered 2) ∧
        (tabGet s.mm.contexts n = none → 1024 ≤ s.mm.contexts.length → exec (.ctxCreate v) s = answered 4) ∧
        (tabGet s.mm.contexts n = none → s.mm.contexts.length < 1024 → Answers (.ctxCreate v) s fun u =>
          dev u = { dev s with ctxLast := n, ctxResult := 0 } ∧ SameMemory s u ∧
          (∀ k, k ≠ n → tabGet u.mm.contexts k = tabGet s.mm.contexts k) ∧ ∃ c a, tabGet u.mm.contexts n = some c ∧
            c.root = rec64 / 2 ^ 64 % 2 ^ 64 ∧ c.fold = rec64 / 2 ^ 256 % 2 ^ 64 ∧ c.foldBytes = rec64 / 2 ^ 320 % 2 ^ 64 ∧ c.sigq = 0 ∧
            c.dying = false ∧ tabGet u.wk.areas c.area = some a ∧ a.addr = rec64 / 2 ^ 128 % 2 ^ 64 ∧
            a.slots = rec64 / 2 ^ 192 % 2 ^ 32 / 8832 ∧ a.next = 0))) ∧
    ((dev s).ctxBusy = false → v.toNat / 2 ^ 62 = 1 → loc = 0 →
      (tabGet s.mm.contexts num = none → exec (.ctxTerminate v) s =
        .next (modDev s fun d => { d with ctxLast := num, ctxBusy := false, ctxResult := 3 })) ∧
      ((tabGet s.mm.contexts num).isSome = true → exec (.ctxTerminate v) s =
        .next (modDev s fun d => { d with ctxLast := num, ctxBusy := true })))) ∧
  (∀ s (v : Word64), v.toNat / 2 ^ 24 % 2 ^ 23 = 0 →
    let units := v.toNat % 2 ^ 24
    let ctx := v.toNat / 2 ^ 48
    let base := (dev s).mapAddr.toNat / 2 ^ 16 % 2 ^ 41 * 65536
    let leaves := mapLeaves s ctx base units units
    let result := fun code off => Host.Outcome.next (modDev s fun d => { d with mapBusy := false, mapCode := code, mapOffset := off })
    let this := fun (m : ExecMap) => m.ctx = ctx ∧ m.vbase = base ∧ m.units = units
    ((dev s).mapBusy = true ∨ units = 0 → exec (.mapRequest v) s = .next s ∧ exec (.unmapRequest v) s = .next s) ∧
    ((dev s).mapBusy = false → 0 < units → v.getLsbD 47 = false →
      (∀ u, leaves = .error u → exec (.mapRequest v) s = result 13 (65536 * u)) ∧
      ∀ ls, leaves = .ok ls →
        let bad := prickAll s (16384 * units) ls 0 { loops := [], run := 0 }
        (∀ off c, bad = some (off, c) → exec (.mapRequest v) s = result c.num off) ∧
        (bad = none → ls.length = units ∧
          (∀ (k : Nat) (l : Leaf) (i : Nat), ls[k]? = some l → i < 16384 →
            ∃ w, decodeWord (if l.kind = 0 then .group else if l.kind = 1 then .matrix else .bank)
              (BitVec.ofNat 32 (homeNat s (l.pa + 4 * i) 4)) = .ok w) ∧
          Answers (.mapRequest v) s fun u => (∃ m, u.mm.execMaps = s.mm.execMaps ++ [m] ∧ this m) ∧
            dev u = { dev s with mapBusy := false, mapCode := 0, mapOffset := 0 } ∧
            ∀ l : Leaf, ls = [l] → l.at_ % 8 = 0 → LinesOk s → PlainLine s (l.at_ / 32) → ∃ e : BitVec 64,
              sliceLine (lineLatest u (l.at_ / 32) none) l.at_ 8 = natLE 8 e.toNat ∧ e.getLsbD 4 = true ∧
              ∀ b, b ≠ 4 → e.getLsbD b = (BitVec.ofNat 64 (homeNat s l.at_ 8)).getLsbD b)) ∧
    ((dev s).mapBusy = false → 0 < units → v.getLsbD 47 = true →
      ((∃ m ∈ s.mm.execMaps, this m) → Answers (.unmapRequest v) s fun u => dev u = { dev s with mapBusy := true } ∧
        u.mm = { s.mm with unmaps := s.mm.unmaps ++ [(ctx, base, units)] }) ∧
      ((∀ m ∈ s.mm.execMaps, ¬ this m) → exec (.unmapRequest v) s = result 13 0))) ∧
  (∀ s ctx base units rest, s.mm.unmaps = (ctx, base, units) :: rest →
    ((∃ p ∈ s.wk.gangs, p.2.ctx = ctx ∧ fetchesFrom p.2 base units = true) → exec .unmapComplete s = .next s) ∧
    ((∀ p ∈ s.wk.gangs, p.2.ctx = ctx → fetchesFrom p.2 base units = false) → Answers .unmapComplete s fun u => u.mm.unmaps = rest ∧
      (∀ m, m ∈ u.mm.execMaps ↔ m ∈ s.mm.execMaps ∧ ¬ (m.ctx = ctx ∧ m.vbase = base ∧ m.units = units)) ∧
      dev u = { dev s with mapBusy := false, mapCode := 0, mapOffset := 0 })) ∧
  (∀ s ctx va frame l, translate s ctx va = some l →
    let src := l.pa - va % l.size
    let dst := ownPhys s (frame * 65536)
    let exe := fun (k : Nat) => execFrame s (dst + 65536 * k)
    let hot := fun (k : Nat) => hotAt s (src + 65536 * k) || hotAt s (dst + 65536 * k)
    (l.mlock = false ∨ l.mtype = 2 ∨ isRemote s l.pa = true ∨ pageSwept s src l.size = true ∨ (∃ k, k < l.size / 65536 ∧ (exe k = true ∨ hot k = true)) →
      exec (.pageMigration ctx va frame) s = .next s) ∧
    (l.mlock = true → l.mtype = 0 → isRemote s l.pa = false → dst % l.size = 0 → hostReaches s (frame * 65536) l.size = true →
      pageSwept s src l.size = false → s.mm.narrow = [] → allStash s = [] → s.mm.provisional = [] → s.mm.held = [] → LinesOk s →
      pageQuiet s src l.size = true → pageQuiet s dst l.size = true → dst < 2 ^ 57 → l.at_ % 8 = 0 →
      (l.at_ + 8 ≤ dst ∨ dst + l.size ≤ l.at_) → (src + l.size ≤ dst ∨ dst + l.size ≤ src) → (∀ k, k < l.size / 65536 → exe k = false ∧ hot k = false) →
      let e := homeNat s l.at_ 8
      Answers (.pageMigration ctx va frame) s fun u => (∀ k, k < l.size → byteAt u none (dst + k) = byteAt s none (src + k)) ∧
        ∃ e', sliceLine (lineLatest u (l.at_ / 32) none) l.at_ 8 = natLE 8 e' ∧ bitsOf e' 56 16 = dst / 2 ^ 16 ∧ bitsOf e' 12 12 = 0 ∧
          e' % 2 ^ 12 = e % 2 ^ 12 ∧ bitsOf e' 15 13 = bitsOf e 15 13 ∧ bitsOf e' 63 57 = bitsOf e 63 57)) ∧
  ∀ s b, ((dev s).sync = b ∨ (dev s).bootStage ≠ 0xFFFF ∨ aloneInDomain s = true → exec (.domainBoundChange b) s = .next s) ∧
    ((dev s).bootStage = 0xFFFF → aloneInDomain s = false → (dev s).sync = true → exec (.domainBoundChange false) s = .next (modDev s fun r => { r with sync := false, syncSince := s.time })) ∧
    ((dev s).bootStage = 0xFFFF → aloneInDomain s = false → (dev s).sync = false → Answers (.domainBoundChange true) s fun u => dev u = { dev s with sync := true } ∧
      u.pl.peers = s.pl.peers.filter fun p => p.2.link)

/-- R337 to R341: a changed bin or ratio comes into use with the lower of the two clocks until the new one is stable; how many bins
the controller lowers is that of its steps past the fourth, one bin a step (the model's reading, log 17). R341, R343: at the end of
a 100 µs window PKG_POWER reads its mean, the controller takes one step where the mean exceeds PKG_LIMIT and undoes one where it
stands 5 % below, POWER follows the third and fourth step, the dispatcher may place ballast only below S − B, the first step and S =
0 mark every ballast gang, the first step undone withdraws its own marks, and a mean above S marks the one placed last. No other gang
changes. -/
def Obligations.ClocksAndPowerStep : Prop :=
  ((∀ s c, c < 80 →
     let r := clusterRegs s c
     let st := computeState s (stackOf c)
     let top := if st = 0 then max r.binBase.toNat (leaseBin s c) else r.binBase.toNat
     let bin := BitVec.ofNat 3 (top - (s.pl.powerStep - 4))
     let ratio := if 2 ≤ st then 0 else r.ratio
     (r.binCur = bin → r.ratioCur = ratio → exec (.clockChange c) s = .next s) ∧
     (r.binCur ≠ bin ∨ r.ratioCur ≠ ratio → Answers (.clockChange c) s fun u =>
       u = { s with pl := { s.pl with clusters := u.pl.clusters } } ∧
       clusterRegs u c = { r with binCur := bin, ratioCur := ratio, changing := true } ∧
       ∀ k, k ≠ c → clusterRegs u k = clusterRegs s k)) ∧
   ∀ s c, ((clusterRegs s c).changing = false → exec (.clockStable c) s = .next s) ∧
     ((clusterRegs s c).changing = true → Answers (.clockStable c) s fun u =>
       u = { s with pl := { s.pl with clusters := u.pl.clusters } } ∧
       clusterRegs u c = { clusterRegs s c with changing := false } ∧ ∀ k, k ≠ c → clusterRegs u k = clusterRegs s k)) ∧
  (∀ s mW, GangsDistinct s →
     (s.time < s.pl.windowEnd → exec (.powerWindowEnd mW) s = .next s) ∧
     (s.pl.windowEnd ≤ s.time →
       let k := s.pl.powerStep
       let limit := (dev s).pkgLimit
       let sp := (dev s).setpoint * 1000
       let band := (dev s).band * 1000
       Answers (.powerWindowEnd mW) s fun u =>
         dev u = { dev s with pkgPower := mW % 2 ^ 32 } ∧ u.pl.windowEnd = s.pl.windowEnd + 400000 ∧
         (limit * 1000 < mW → k < 11 → u.pl.powerStep = k + 1) ∧
         (mW ≤ limit * 950 → u.pl.powerStep = k - 1) ∧
         (limit * 950 < mW → mW ≤ limit * 1000 → u.pl.powerStep = k) ∧
         (u.pl.powerStep ≠ k → ∀ c, c < 80 → (clusterRegs u c).passPower.toNat = min 2 (u.pl.powerStep - 2)) ∧
         (u.pl.ballast = true ↔ sp ≠ 0 ∧ mW + band < sp) ∧
         (∀ n gg, findGang s n = some gg → 2 ≤ gg.queue → .power ∉ gg.marks → findGang u n = some gg) ∧
         (k = 1 → mW ≤ limit * 950 → sp ≠ 0 → mW ≤ sp → ∀ n gg, findGang s n = some gg → .power ∈ gg.marks →
           ((∀ m ∈ gg.marks, m = .power) → ∃ y, findGang u n = some y ∧ y.marked = false ∧ y.marks = []) ∧
           ((∃ m ∈ gg.marks, m ≠ .power) → findGang u n = some { gg with marks := gg.marks.filter (· != .power) })) ∧
         (∀ n gg, findGang s n = some gg → gg.queue < 2 → gg.state = .resident →
           sp = 0 ∨ (limit * 1000 < mW ∧ k = 0) → ∃ y, findGang u n = some y ∧ y.marked = true) ∧
         (sp ≠ 0 → limit * 950 < mW → mW ≤ limit * 1000 →
           (mW ≤ sp → ∀ n, findGang u n = findGang s n) ∧
           ∀ n gg, sp < mW → findGang s n = some gg → gg.queue < 2 → gg.state = .resident → gg.marked = false →
             (∀ m g', m ≠ n → findGang s m = some g' → g'.queue < 2 → g'.state = .resident → g'.marked = false → g'.age < gg.age) →
             (∃ y, findGang u n = some y ∧ y.marked = true) ∧ ∀ m, m ≠ n → findGang u m = findGang s m)))

/-- R348: a compute stack acts on its hottest die. A point is entered at its temperature and left 3 °C below it; THERM follows; at
THERM_STOP every gang on the stack is marked and a notice of kind 3 is given, and at 135 °C all state is lost but the retirement
record, which records it. (TEMP is in sixteenths of a degree; the kind of that record's entry is free, log 7; what is lost is log 53's.) R349: a memory stack
comes to its state at 85, 95, 100 and 105 °C and leaves it 2 °C below; at state 4 a notice of kind 4 is given, and a held write is
performed when the state leaves 4. -/
def Obligations.StacksActAtTheirThermalPoints : Prop :=
  (∀ s sensor temp, sensor < 24 → GangsDistinct s →
     let st := sensor / 3
     let therm := tabPut (dev s).therm sensor temp
     ∀ hot : BitVec 16, (∃ d, d < 3 ∧ tabGet therm (3 * st + d) = some hot) →
       (∀ d v, d < 3 → tabGet therm (3 * st + d) = some v → v.toInt ≤ hot.toInt) →
       let t := hot.toInt
       let old := computeState s st
       (16 * 135 ≤ t → Answers (.computeThermalPoint sensor temp) s fun u => u.mm = MemSys.reset ∧ u.sw = Sweep.reset ∧
         u.wk = Work.reset ∧ dev u = Regs.reset ∧ u.pl.clusters = [] ∧ u.pl.leases = [] ∧
         ∃ e, u.pl.retireLog = s.pl.retireLog ++ [e] ∧ e.stack = st ∧ e.time = s.time) ∧
       (t < 16 * 135 → old ≤ 3 → Answers (.computeThermalPoint sensor temp) s fun u =>
         tabGet (dev u).therm sensor = some temp ∧
         (∀ k p : Nat, (k, p) ∈ [(1, 112), (2, 118), (3, 125)] →
           (k ≤ computeState u st ↔ 16 * (p : Int) ≤ t ∨ (k ≤ old ∧ 16 * ((p : Int) - 3) < t))) ∧
         (∀ q, q < 8 → q ≠ st → computeState u q = computeState s q) ∧
         (computeState u st ≠ old → ∀ k, k < 10 → (clusterRegs u (10 * st + k)).passTherm.toNat = min 2 (computeState u st)) ∧
         (computeState u st = 3 → old ≠ 3 →
           (∀ n gg, findGang s n = some gg → gg.state = .resident → stackOf (physCluster s (clusterOf gg)) = st →
             ∃ y, findGang u n = some y ∧ y.marked = true) ∧
           (noticeRoom (dev s) = false → ∃ m, u.wk.notices = s.wk.notices ++ [m] ∧ m.kind = 3 ∧ m.time = s.time)) ∧
         (computeState u st < 3 ∨ old = 3 → u.wk = s.wk))) ∧
  (∀ s st temp, st < 16 →
     let old := memStackState s st
     let t := temp.toInt
     old ≤ 4 → Answers (.memoryThermalPoint st temp) s fun u =>
       tabGet (dev u).therm (24 + st) = some temp ∧
       (∀ k p : Nat, (k, p) ∈ [(1, 85), (2, 95), (3, 100), (4, 105)] →
         (k ≤ memStackState u st ↔ 16 * (p : Int) ≤ t ∨ (k ≤ old ∧ 16 * ((p : Int) - 2) < t))) ∧
       (∀ q, q < 16 → q ≠ st → memStackState u q = memStackState s q) ∧
       ((old = 4 ↔ memStackState u st = 4) → u = { s with pl := { s.pl with memState := u.pl.memState, dev := dev u } }) ∧
       (old ≠ 4 → memStackState u st = 4 → noticeRoom (dev s) = false →
         ∃ m, u.wk.notices = s.wk.notices ++ [m] ∧ m.kind = 4 ∧ m.time = s.time) ∧
       (old = 4 → memStackState u st ≠ 4 → ∀ h b ctx va l, s.mm.held = [h] → h.op = .store [b] → h.ctx = ctx → h.va = va →
         translate s ctx va = some l → l.mtype = 0 → l.mlock = false → isRemote s l.pa = false → stackAt (localOf l.pa) = st →
         LinesOk s → PlainLine s (l.pa / 32) → execFrame s l.pa = false → containedOf s h.who = none →
         ownedLine s (l.pa / 32) h.id = false → unservedFor s h.who (l.pa / 32) h.id = false →
         u.mm.held = [] ∧ sliceLine (lineLatest u (l.pa / 32) none) l.pa 1 = [b]))

/-- R290, R356: a port's bit of LINK_STAT; a peer that no route reaches is in recovery until one returns; then what was held
proceeds, and the watchdogs of the waits that depend on it have stood still. R290, R304, R356: an episode that lasts RECOVERY_LIMIT
makes the peer unreachable and gives a notice of kind 6; every access to it that is outstanding ends, and its group sets REMOTE (a load
that a stop has cancelled is no longer outstanding: R276); a write to it is performed whole or not at all. -/
def Obligations.LinksAndPeers : Prop :=
  ((∀ s p up, p < 18 → Answers (.fabricPortChange p up) s fun u => dev u = { dev s with linkUp := (dev u).linkUp } ∧
     (dev u).linkUp.getLsbD p = up ∧ (∀ q, q ≠ p → (dev u).linkUp.getLsbD q = (dev s).linkUp.getLsbD q) ∧
     u = { s with pl := { s.pl with dev := dev u } }) ∧
   (∀ s c, (c = ownCoord s ∨ coordPresent s c = false → exec (.linkRecoveryStart c) s = .next s) ∧
     (c ≠ ownCoord s → coordPresent s c = true → Answers (.linkRecoveryStart c) s fun u =>
       u = { s with pl := { s.pl with peers := u.pl.peers } } ∧ coordRecovering u c = true ∧
       (∀ d, d ≠ c → tabGet u.pl.peers d = tabGet s.pl.peers d) ∧
       (tabGet s.pl.peers c = none → (dev s).sync = true →
         tabGet u.pl.peers c = some { since := s.time, unreachable := false, link := true }))) ∧
   (∀ s c, tabGet s.pl.peers c = none → exec (.linkRouteReturn c) s = .next s) ∧
   ∀ s c p, c ≠ ownCoord s → tabGet s.pl.peers c = some p → p.link = true →
     ((dev s).sync = false → Answers (.linkRouteReturn c) s fun u => u = { s with pl := { s.pl with peers := u.pl.peers } } ∧
       coordRecovering u c = coordRecovering s c ∧ tabGet u.pl.peers c = some { p with link := false }) ∧
     ((dev s).sync = true → Answers (.linkRouteReturn c) s fun u => coordRecovering u c = false ∧ dev u = dev s ∧
       (∀ d, d ≠ c → tabGet u.pl.peers d = tabGet s.pl.peers d) ∧
       (s.mm.held = [] → u.mm = { s.mm with monitors := u.mm.monitors } ∧
         (∀ g gg x w k, findGang s g.gang = some gg → gg.state = .resident → findGroup s g = some x → x.wait = some w →
           waitPeers s x w = [k] → coordOf s k = c →
           ∃ sat, findGroup u g = some { x with wait := some { w with paused := w.paused + (s.time - max w.began p.since), satAt := sat } }) ∧
         ∀ g x, findGroup s g = some x → (∀ w, x.wait = some w → ∀ k ∈ waitPeers s x w, coordOf s k ≠ c) →
           ∃ w, findGroup u g = some { x with wait := w }) ∧
       ∀ h b l, s.mm.held = [h] → h.op = .store [b] → translate s h.ctx h.va = some l → l.mtype = 0 → l.mlock = false →
         isRemote s l.pa = true → coordOf s (pkgOf l.pa) = c → LinesOk s → PlainLine s (l.pa / 32) → execFrame s l.pa = false →
         containedOf s h.who = none → ownedLine s (l.pa / 32) h.id = false → unservedFor s h.who (l.pa / 32) h.id = false → u.mm.held = [] ∧ sliceLine (lineLatest u (l.pa / 32) none) l.pa 1 = [b])) ∧
  (∀ s c p, c ≠ ownCoord s → tabGet s.pl.peers c = some p →
     (s.time < p.since + (dev s).recoveryLimit * 4000 ∨ p.unreachable = true → exec (.peerUnreachable c) s = .next s) ∧
     (p.since + (dev s).recoveryLimit * 4000 ≤ s.time → p.unreachable = false → coordPresent s c = true → GangsDistinct s →
       Answers (.peerUnreachable c) s fun u => coordUnreachable u c = true ∧
         (∀ d, d ≠ c → tabGet u.pl.peers d = tabGet s.pl.peers d) ∧
         (noticeRoom (dev s) = false → ∃ m, u.wk.notices = s.wk.notices ++ [m] ∧ m.kind = 6 ∧ m.detail = c) ∧
         ((∀ e ∈ allEngines s, e.2.flight = []) → ∀ h ∈ u.mm.held, h ∈ s.mm.held ∧ ¬ (isRemote s h.pa = true ∧ coordOf s (pkgOf h.pa) = c)) ∧
         (∀ g x, (∀ e ∈ allEngines s, e.2.flight = []) → findGroup s g = some x → x.retired = false →
           (∃ l ∈ x.loads, ∃ k ∈ l.remote, coordOf s k = c) ∨ (∃ w ∈ x.stores, ∃ k ∈ w.remote, coordOf s k = c) →
           ∃ z, findGroup u g = some z ∧ z.cause.getLsbD 14 = true ∧
             (∀ l ∈ z.loads, ∀ k ∈ l.remote, coordOf s k ≠ c) ∧ ∀ w ∈ z.stores, ∀ k ∈ w.remote, coordOf s k ≠ c) ∧
         (∀ g x w k, (∀ e ∈ allEngines s, e.2.flight = []) → findGroup s g = some x → x.retired = false → x.halted = false →
           x.wait = some w → k ∈ waitPeers s x w → coordOf s k = c → ∃ z, findGroup u g = some z ∧ z.cause.getLsbD 14 = true) ∧
         ∀ h b, s.mm.held = [h] → h.op = .store [b] → h.who = none → isRemote s h.pa = true → coordOf s (pkgOf h.pa) = c → LinesOk s →
           PlainLine s (h.pa / 32) → noticeRoom (dev s) = false → (∀ e ∈ allEngines s, e.2.flight = []) →
           let before := sliceLine (lineLatest s (h.pa / 32) none) h.pa 1
           sliceLine (lineLatest u (h.pa / 32) none) h.pa 1 = [b] ∨ sliceLine (lineLatest u (h.pa / 32) none) h.pa 1 = before))

/-- R138, R168, R175, R352, R355: an access of another package of the domain is served at this package's home, in the order of its
line, at the row of a page that a context maps SWEPT (R107), or at a register, and changes no executable page (R69); none is served from
a package that is absent or in recovery. -/
def Obligations.RemoteAccessesAreServed : Prop :=
  ∀ s pkg addr,
    (pkg = ownPkg s ∨ present s pkg = false ∨ recovering s pkg = true → ∀ op, exec (.remoteAccess pkg addr op) s = .next s) ∧
    (pkg ≠ ownPkg s → present s pkg = true → recovering s pkg = false →
      let pa := ownPhys s addr
      (∀ w, hostReaches s addr w = false → exec (.remoteAccess pkg addr (.load w)) s = .next s) ∧
      (∀ w, hostReaches s addr w = true → PlainLine s (pa / 32) → Answers (.remoteAccess pkg addr (.load w)) s fun u =>
        SameMemory s u ∧ u.wk = s.wk ∧ u.pl = s.pl ∧ u.time = s.time ∧ (homeOf s (pa / 32)).lease ≤ (homeOf u (pa / 32)).lease) ∧
      (∀ bs : List Byte, bs ≠ [] → hostReaches s addr bs.length = true → inWindow addr = false → LinesOk s →
        s.mm.tlb = [] → (∀ k, k < bs.length → PlainLine s ((pa + k) / 32) ∧ mustHold s (frameLocked s (pa + k)) (pa + k) s.fresh = false ∧
          isEntry s ((pa + k) / 8 * 8) = false ∧ execFrame s (pa + k) = false ∧ sweptAt s (pa + k) = false) →
        Answers (.remoteAccess pkg addr (.store bs)) s fun u =>
          (∀ k, k < bs.length → sliceLine (lineLatest u ((pa + k) / 32) none) (pa + k) 1 = (bs.drop k).take 1) ∧
          ∀ r a, a < pa ∨ pa + bs.length ≤ a → byteAt u r a = byteAt s r a) ∧
      (∀ bs : List Byte, bs ≠ [] → pa % 32 + bs.length ≤ 32 → hostReaches s addr bs.length = true → inWindow addr = false →
        (execFrame s pa = true → Answers (.remoteAccess pkg addr (.store bs)) s fun u => SameMemory s u ∧ u.mm.mem = s.mm.mem) ∧
        (execFrame s pa = false → sweptAt s pa = true → mustHold s (frameLocked s pa) pa s.fresh = false → s.mm.tlb = [] →
          (∀ k, k < bs.length → isEntry s ((pa + k) / 8 * 8) = false) → Safety.MemoryOk s →
          Answers (.remoteAccess pkg addr (.store bs)) s fun u => dramRead u pa bs.length = bs)) ∧
      (∀ bs : List Byte, inWindow addr = true → addr < 2 ^ 43 → bs.length = 4 ∨ bs.length = 8 → addr % bs.length = 0 →
        deviceWidthOk addr bs.length = true → Answers (.remoteAccess pkg addr (.store bs)) s fun u =>
          u = windowWrite s (addr - Config.windowBase) bs.length (leNat bs)) ∧
      (outsideWaits s pa = false → PlainLine s (pa / 32) → LinesOk s → Safety.MemoryOk s → hostReaches s addr 1 = true → sweptAt s pa = false →
        Answers (.remoteAccess pkg addr (.maintain true false)) s fun u => SameMemory s u ∧ u.wk = s.wk ∧ (homeOf u (pa / 32)).dirty = false) ∧
      (∀ c y (sc : BitVec 2), hostReaches s addr 8 = true → addr % condBytes (condOf c) = 0 → outsideWaits s pa = false → PlainLine s (pa / 32) →
        let v := leNat (homeRead s pa (condBytes (condOf c)) none)
        let others := s.mm.monitors.filter fun k => k.pkg ≠ pkg || k.addr ≠ pa
        sweptAt s pa = false → Answers (.remoteAccess pkg addr (.monitor c y sc)) s fun u => SameMemory s u ∧
          u.mm.monitors = if condHolds (condOf c) v y then s.mm.monitors
            else others ++ [{ pkg := pkg, addr := pa, cond := condOf c, y := y, scope := sc }]) ∧
      (Answers (.remoteAccess pkg addr .disarm) s fun u => SameMemory s u ∧
        u.mm.monitors = s.mm.monitors.filter fun k => k.pkg ≠ pkg || k.addr ≠ pa) ∧
      ∀ x op (y z : Word), addr % 4 = 0 → hostReaches s addr 4 = true → PlainLine s (pa / 32) → mustHold s (frameLocked s pa) pa s.fresh = false → LinesOk s →
        s.mm.tlb = [] → isEntry s (pa / 8 * 8) = false → execFrame s pa = false → sweptAt s pa = false →
        Answers (.remoteAccess pkg addr (.atom x op y z)) s fun u =>
          let old := BitVec.ofNat 32 (leNat (sliceLine (lineLatest s (pa / 32) none) pa 4))
          (x = true → op < 2 → sliceLine (lineLatest u (pa / 32) none) pa 4 = natLE 4 (if op = 0 then y else if old = y then z else old).toNat) ∧
          (x = false → sliceLine (lineLatest u (pa / 32) none) pa 4 = natLE 4 (([old + y, if old.slt y then old else y, if old.slt y then y else old,
            if old.ult y then old else y, if old.ult y then y else old, old &&& y, old ||| y][op]?).getD (old ^^^ y)).toNat))

/-- R162, R357: XSIG to a present coordinate sends one signal and raises the store counter; to an absent or unreachable one it is
not performed and sets REMOTE. R162, R304, R357: XSIG's signal to another package is acknowledged; one for this package enters its
context's queue, the entry and then the tail, is held where the queue is full, and sets REMOTE where none is bound or the queue has
held it for RECOVERY_LIMIT. Which of the signals that wait is delivered is the agenda's, but for one sender and one target the
oldest (one sender means one context too, log 71); a queue that cannot be read
holds its signals as a full one does (log 38). R357: a signal that arrives from another package enters its context's queue, is held where that is full, and is lost where
none is bound; one from a package that is absent or in recovery does not arrive. -/
def Obligations.SignalsAreSentAndDelivered : Prop :=
  (∀ s g x (d : SReg) row col, Issues s g x → Uncontained s g →
     let c := row.toNat * 1024 + col.toNat
     (coordPresent s c = true → coordUnreachable s c = false → x.stores.length < 62 → fenceReady s x 5 = true →
       Answers (.xsig d row col) s fun t => SameMemory s t ∧ (∃ p, GroupBecomes s t g { advance x with stores := x.stores ++ [p] } ∧
         p.holds = 1) ∧ ∃ h, t.pl.signals = s.pl.signals ++ [h] ∧ h.ctx = ctxOf s g ∧ h.payload = sGet x d ∧ h.coord.toNat = c ∧
           h.who = some g ∧ h.since = none) ∧
     (coordPresent s c = false ∨ coordUnreachable s c = true →
       exec (.xsig d row col) s = .next (raise s g cRemote (curLink x) [] none)) ∧
     (coordPresent s c = true → coordUnreachable s c = false → x.stores.length < 62 → fenceReady s x 5 = false →
       Answers (.xsig d row col) s fun t => GroupBecomes s t g x ∧ SameMemory s t ∧ t.pl = s.pl)) ∧
  (∀ s ctx (payload : Word64) (coord : BitVec 19) k h, s.pl.signals[k]? = some h →
     (∀ i z, i < k → s.pl.signals[i]? = some z → ¬ (z.ctx = ctx ∧ z.payload = payload ∧ z.coord = coord)) →
     h.ctx = ctx → h.payload = payload → h.coord = coord →
     let ahead := ∃ i z, i < k ∧ s.pl.signals[i]? = some z ∧ z.ctx = h.ctx ∧ z.who = h.who ∧ z.node = h.node ∧ z.coord = h.coord
     let gone := fun (u : State) => u.pl.signals = s.pl.signals.eraseIdx k
     (ahead ∨ coordRecovering s coord.toNat = true → exec (.signalDelivery ctx payload coord) s = .next s) ∧
     (¬ ahead → coordRecovering s coord.toNat = false →
       (∀ g x, h.who = some g → g.grp ≠ 255 → h.node = none → coord.toNat ≠ ownCoord s → findGroup s g = some x →
         Answers (.signalDelivery ctx payload coord) s fun u => gone u ∧ SameMemory s u ∧ ∃ y, findGroup u g = some y ∧
           ∀ (i : Nat) (p : PendStore), x.stores[i]? = some p → y.stores[i]? =
             some (if p.id = h.id then ({ p with done := max p.done s.time, holds := p.holds - 1 } : PendStore) else p)) ∧
       (∀ g x, h.who = some g → h.node = none → coord.toNat = ownCoord s → queueBound s ctx = none → findGroup s g = some x →
         x.retired = false → GangsDistinct s → g.grp ≠ 255 → Answers (.signalDelivery ctx payload coord) s fun u => gone u ∧
           ∃ y, findGroup u g = some y ∧ y.cause.getLsbD 14 = true) ∧
       (∀ va, coord.toNat = ownCoord s ∨ (h.who = none ∧ h.node = none) → queueBound s ctx = some va → queueAt s ctx va = none →
         Answers (.signalDelivery ctx payload coord) s fun u =>
           u = { s with pl := { s.pl with signals := s.pl.signals.set k { h with since := some (h.since.getD s.time) } } }) ∧
       ∀ va q, coord.toNat = ownCoord s ∨ (h.who = none ∧ h.node = none) → queueBound s ctx = some va → queueAt s ctx va = some q →
         (q.entries ≤ q.tail - q.head → Answers (.signalDelivery ctx payload coord) s fun u =>
           u = { s with pl := { s.pl with signals := u.pl.signals } } ∧
           u.pl.signals = s.pl.signals.set k { h with since := some (h.since.getD s.time) }) ∧
         ∀ l m, q.tail - q.head < q.entries → h.who = none → h.node = none → LinesOk s → va % 64 = 0 →
           PlainTarget s ctx (va + 0x40 + 16 * (q.tail % q.entries)) l → PlainTarget s ctx (va + 8) m → l.pa / 32 ≠ m.pa / 32 →
           Answers (.signalDelivery ctx payload coord) s fun u => gone u ∧
             sliceLine (lineLatest u (l.pa / 32) none) l.pa 16 = natLE 8 payload.toNat ++ natLE 4 coord.toNat ++ natLE 4 q.tail ∧
             sliceLine (lineLatest u (m.pa / 32) none) m.pa 8 = natLE 8 (q.tail + 1) ∧
             (homeOf u (l.pa / 32)).last + 100 ≤ (homeOf u (m.pa / 32)).last) ∧
     let late := ∃ t, h.since = some t ∧ t + (dev s).recoveryLimit * 4000 ≤ s.time
     let outgoing := (h.who ≠ none ∨ h.node ≠ none) ∧ coord.toNat ≠ ownCoord s
     (¬ late → ¬ outgoing → exec (.signalDeliveryDiscard k) s = .next s) ∧
     (late ∨ outgoing → ∀ g x, h.who = some g → h.node = none → findGroup s g = some x → x.retired = false → GangsDistinct s →
       g.grp ≠ 255 → Answers (.signalDeliveryDiscard k) s fun u => gone u ∧ ∃ y, findGroup u g = some y ∧ y.cause.getLsbD 14 = true)) ∧
  (∀ s ctx (payload : Word64) (coord : BitVec 19),
     (∀ z ∈ s.pl.signals, ¬ (z.ctx = ctx ∧ z.payload = payload ∧ z.coord = coord)) →
     (coord.toNat = ownCoord s ∨ coordPresent s coord.toNat = false ∨ coordRecovering s coord.toNat = true →
       exec (.signalDelivery ctx payload coord) s = .next s) ∧
     (coord.toNat ≠ ownCoord s → coordPresent s coord.toNat = true → coordRecovering s coord.toNat = false →
       (∀ z ∈ s.pl.signals, ¬ (z.ctx = ctx ∧ z.who = none ∧ z.node = none ∧ z.coord = coord)) →
       (queueBound s ctx = none → exec (.signalDelivery ctx payload coord) s = .next s) ∧
       ∀ va q, queueBound s ctx = some va → queueAt s ctx va = some q →
         (q.entries ≤ q.tail - q.head → Answers (.signalDelivery ctx payload coord) s fun u =>
           u = { s with pl := { s.pl with signals := u.pl.signals } } ∧ ∃ h, u.pl.signals = s.pl.signals ++ [h] ∧
           h.ctx = ctx ∧ h.payload = payload ∧ h.coord = coord ∧ h.since = some s.time) ∧
         ∀ l m, q.tail - q.head < q.entries → LinesOk s → va % 64 = 0 →
           PlainTarget s ctx (va + 0x40 + 16 * (q.tail % q.entries)) l → PlainTarget s ctx (va + 8) m → l.pa / 32 ≠ m.pa / 32 →
           Answers (.signalDelivery ctx payload coord) s fun u => u.pl.signals = s.pl.signals ∧
             sliceLine (lineLatest u (l.pa / 32) none) l.pa 16 = natLE 8 payload.toNat ++ natLE 4 coord.toNat ++ natLE 4 q.tail ∧
             sliceLine (lineLatest u (m.pa / 32) none) m.pa 8 = natLE 8 (q.tail + 1)))

/-- R313, R333, R347, R360: BOOT acts once. It stops at the stage of the check that fails, or it applies the configuration and the
retirement record, disciplines time, and reads READY; an empty record has no check that fails. (Which check fails, the record and the coordinate are free, log 7.) -/
def Obligations.BootReadiesThePart : Prop :=
  ∀ s, ((dev s).bootStage ≠ 0 → exec .boot s = .next s) ∧
    ((dev s).bootStage = 0 → Answers .boot s fun u =>
      (∃ e, 1 ≤ e ∧ e ≤ 6 ∧ (s.pl.retireLog = [] → e ≠ 4) ∧ u = { s with fresh := s.fresh + 1, pl := { s.pl with dev := { dev s with
        bootStage := if e ≤ 3 then 2 else if e = 4 then 3 else 4, bootError := e } } }) ∨
      ((dev u).bootStage = 0xFFFF ∧ (dev u).bootError = (dev s).bootError ∧ s.time ≤ u.time ∧ u.wk = s.wk ∧ u.sw = s.sw ∧
        u.pl.retireLog = s.pl.retireLog ∧ (dev u).clusterMap.length = 72 ∧
        (dev u).coordRow < 512 ∧ (dev u).coordCol < 1024 ∧
        ((dev u).sync = true ↔ ∀ p, p < 2 ^ 14 → p ≠ ownPkg u → present u p = false) ∧
        (s.pl.retireLog = [] → (∀ m ∈ (dev u).clusterMap, m.phys < 80 ∧ m.hold = false) ∧ ((dev u).clusterMap.map fun m => m.phys).Nodup ∧
          u.mm = s.mm ∧ u.pl.cores = s.pl.cores) ∧
        ∀ e ∈ s.pl.retireLog, e.stack < 16 → e.kind = 6 → u.mm.dropped.getLsbD e.stack = true))
end

