-- ==== Sys2Proof/Laws/Memory.lean ====
section
/-! SUPPORT. The operations that write the DRAM keep the canonical form of memory, and what a byte of it reads as after each; the agents'
operations, once each. -/
namespace Sys2Proof.Machine

/-! ## The three operations that write the DRAM -/

theorem memory_wf_reset : Memory.wf State.reset.mm.mem = true := rfl

theorem memory_wf_dramWrite {s : State} (h : Memory.wf s.mm.mem = true) (pa : Nat) (bs : List Byte) :
    Memory.wf (dramWrite s pa bs).mm.mem = true := smWrite_wf h pa bs

theorem memory_wf_rowWrite {s : State} (h : Memory.wf s.mm.mem = true) (loc : Nat) (r : SMap 8) :
    Memory.wf (rowWrite s loc r).mm.mem = true :=
  smSet_foldl_wf (smCut_wf h _ _) (fun p : Nat × BitVec 8 => ownPhys s loc + p.1) (fun p => p.2) r

theorem memory_wf_loadMemory {s : State} (h : Memory.wf s.mm.mem = true) (kind : Nat) (code : List Byte) :
    Memory.wf (loadMemory s kind code).mem = true := by
  show smWf ((loaderImage s kind code).foldl (fun m p => smWrite m (ownPhys s p.1) p.2) s.mm.mem) = true
  generalize loaderImage s kind code = ps
  generalize hm : s.mm.mem = m at h
  clear hm
  induction ps generalizing m with
  | nil => exact h
  | cons p ps ih => exact ih _ (smWrite_wf h _ _)

/-- A byte of the DRAM after a write: the last write's byte, or what it was. -/
theorem mem_dramWrite {s : State} (h : Memory.wf s.mm.mem = true) (pa : Nat) (bs : List Byte) (j : Nat) :
    smGet (dramWrite s pa bs).mm.mem j = if pa ≤ j ∧ j < pa + bs.length then (bs[j - pa]?).getD 0 else smGet s.mm.mem j :=
  smGet_smWrite h pa j bs

/-- A write to the DRAM changes nothing of the state but memory and its poison. -/
theorem dramWrite_frame (s : State) (pa : Nat) (bs : List Byte) :
    dramWrite s pa bs = { s with mm := { s.mm with mem := (dramWrite s pa bs).mm.mem, poison := (dramWrite s pa bs).mm.poison } } := rfl

/-! ## Who executes -/

/-- A word of the bank program runs in the restore unit, and changes it alone. -/
theorem onRestore_spec {s : State} (h : s.focus = .restore) (f : Restore → Restore) :
    onRestore s f = .next { s with sw := { s.sw with restore := f s.sw.restore } } := by simp [onRestore, h]

/-- A word of the matrix stream runs for the sequencer whose turn it is, with its gang and its team. -/
theorem onSeq_spec {s : State} {t : TRef} {gg : Gang} {tm : Team} (h : s.focus = .seq t) (hg : findGang s t.gang = some gg)
    (ht : findTeam s t = some tm) (f : TRef → Gang → Team → Out) : onSeq s f = f t gg tm := by simp [onSeq, h, hg, ht]

/-- An instruction that is not performed sets its causes with the link of the current entry, and has no other effect (R72). -/
theorem notPerformed_spec (s : State) (g : GRef) (x : Group) (bits : BitVec 32) :
    notPerformed s g x bits = .next (raise s g bits (curLink x) [] none) := rfl

end Sys2Proof.Machine
end

