-- ==== Sys2Proof/Tests/Slice0.lean ====
section
/-! SUPPORT. Tests of the model: words written out from the encodings, ill-formed terms, single steps on small states with results
from the manual, and for each obligation a theorem that its hypotheses are met. -/
namespace Sys2Proof.Tests
set_option Elab.async false
open Sys2Proof Sys2Proof.Machine Sys2Proof.Claims

theorem test_decode_system :
    [1#6 ++ 4#4 ++ 0#6 ++ 18#16,
     1#6 ++ 6#4 ++ 0#17 ++ 8#5,
     1#6 ++ 7#4 ++ 5#7 ++ 0#1 ++ 0#6 ++ 1#8,
     1#6 ++ 8#4 ++ 5#7 ++ 0#7 ++ 9#8,
     1#6 ++ 9#4 ++ 4#7 ++ 5#7 ++ 3#3 ++ 0#5,
     1#6 ++ 5#4 ++ 0#22,
     1#6 ++ 3#4 ++ 0#22].map (fun w => (decodeWord .group w).toOption) =
    [some (.trap 0x12),
     some (.cclr 8),
     some (.srd 5 false 1),
     some (.swr 5 9),
     some (.boost 4 5 3),
     some (.tret),
     some (.pchk)] := by decide +kernel

theorem test_decode_control :
    [2#6 ++ 0#3 ++ 10#8 ++ 3#15,
     3#6 ++ 1#3 ++ 25#8 ++ 4#15,
     4#6 ++ 2#3 ++ 7#8 ++ 32767#15,
     5#6 ++ 0#3 ++ 9#8 ++ 1#15,
     6#6 ++ 0#7 ++ 0#7 ++ 0#7 ++ 0#3 ++ 0#2,
     6#6 ++ 0#7 ++ 9#7 ++ 0#7 ++ 0#3 ++ 1#2].map (fun w => (decodeWord .group w).toOption) =
    [some (.br { prio := 10, off := 3 }),
     some (.bt 1 { prio := 25, off := 4 }),
     some (.bf 2 { prio := 7, off := -1 }),
     some (.call { prio := 9, off := 1 }),
     some (.ret),
     some (.bx 9)] := by decide +kernel

theorem test_decode_sync :
    [7#6 ++ 0#6 ++ 63#6 ++ 2#6 ++ 63#6 ++ 0#2,
     8#6 ++ 0#3 ++ 1#5 ++ 2#8 ++ 0#10,
     8#6 ++ 1#3 ++ 1#5 ++ 0#18,
     8#6 ++ 2#3 ++ 1#5 ++ 0#18,
     8#6 ++ 3#3 ++ 2#3 ++ 4#7 ++ 0#13,
     8#6 ++ 4#3 ++ 2#3 ++ 0#20,
     9#6 ++ 3#3 ++ 1#3 ++ 0#20,
     10#6 ++ 0#7 ++ 2#7 ++ 0#7 ++ 0#3 ++ 0#2,
     10#6 ++ 0#7 ++ 0#7 ++ 0#7 ++ 0#3 ++ 1#2,
     10#6 ++ 0#7 ++ 0#7 ++ 0#7 ++ 0#3 ++ 2#2,
     10#6 ++ 0#7 ++ 7#7 ++ 5#7 ++ 0#3 ++ 3#2,
     11#6 ++ 2#3 ++ 2#2 ++ 1#7 ++ 0#2 ++ 0#7 ++ 0#5].map (fun w => (decodeWord .group w).toOption) =
    [some (.wait 0 63 2 63),
     some (.rinit 1 2),
     some (.arv 1),
     some (.rwait 1),
     some (.qwait 2 4),
     some (.qrel 2),
     some (.fence 3 1),
     some (.wbase 2),
     some (.racq),
     some (.rrel),
     some (.opf 7 5),
     some (.route 2 2 1 0 0)] := by decide +kernel

theorem test_decode_integer :
    [12#6 ++ 4#7 ++ 2#7 ++ 2#7 ++ 0#3 ++ 0#2,
     13#6 ++ 4#7 ++ 5#7 ++ 6#7 ++ 3#3 ++ 3#2,
     14#6 ++ 4#7 ++ 5#7 ++ 6#7 ++ 0#3 ++ 3#2,
     15#6 ++ 4#7 ++ 5#7 ++ 6#7 ++ 0#3 ++ 0#2,
     16#6 ++ 4#7 ++ 5#7 ++ 6#7 ++ 0#3 ++ 1#2,
     16#6 ++ 4#7 ++ 5#7 ++ 6#7 ++ 2#3 ++ 3#2,
     17#6 ++ 4#7 ++ 5#7 ++ 0#7 ++ 0#3 ++ 0#2,
     18#6 ++ 4#7 ++ 5#7 ++ 6#7 ++ 0#3 ++ 0#2,
     19#6 ++ 1#3 ++ 2#4 ++ 2#7 ++ 8#7 ++ 0#5].map (fun w => (decodeWord .group w).toOption) =
    [some (.iadd 4 2 2 0),
     some (.imaxu 4 5 6 3),
     some (.andn 4 5 6 0),
     some (.shl 4 5 6 0),
     some (.imadw 4 5 6 0),
     some (.isel 4 5 6 2),
     some (.clz 4 5 0),
     some (.bfx 4 5 6 0),
     some (.icmp 1 2 2 8 0)] := by decide +kernel

theorem test_decode_immediate :
    [20#6 ++ 6#7 ++ 6#7 ++ 128#12,
     24#6 ++ 4#7 ++ 5#7 ++ 2051#12,
     27#6 ++ 8#7 ++ 6#7 ++ 64#12,
     25#6 ++ 8#7 ++ 5#19,
     26#6 ++ 8#7 ++ 524287#19].map (fun w => (decodeWord .group w).toOption) =
    [some (.iaddi 6 6 128),
     some (.shi 4 5 2 3),
     some (.lea 8 6 64),
     some (.movi 8 5),
     some (.movh 8 0x7FFFF)] := by decide +kernel

theorem test_decode_scalar :
    [28#6 ++ 5#7 ++ 5#7 ++ 6#7 ++ 0#3 ++ 0#2,
     29#6 ++ 5#7 ++ 5#7 ++ 6#7 ++ 0#3 ++ 3#2,
     30#6 ++ 5#7 ++ 6#7 ++ 4095#12,
     31#6 ++ 5#7 ++ 7#19,
     33#6 ++ 5#7 ++ 7#19,
     32#6 ++ 2#3 ++ 6#4 ++ 4#7 ++ 5#7 ++ 0#5].map (fun w => (decodeWord .group w).toOption) =
    [some (.sadd 5 5 6),
     some (.sshr 5 5 6),
     some (.saddi 5 6 (-1)),
     some (.smovi 5 7),
     some (.smovh 5 7),
     some (.scmp 2 6 4 5)] := by decide +kernel

theorem test_decode_lane :
    [34#6 ++ 10#7 ++ 8#7 ++ 2#7 ++ 0#3 ++ 3#2,
     35#6 ++ 10#7 ++ 3#7 ++ 0#7 ++ 0#3 ++ 0#2,
     35#6 ++ 4#7 ++ 8#7 ++ 5#7 ++ 0#3 ++ 1#2,
     35#6 ++ 1#7 ++ 0#7 ++ 0#7 ++ 0#3 ++ 2#2,
     35#6 ++ 2#7 ++ 0#7 ++ 0#7 ++ 0#3 ++ 3#2,
     36#6 ++ 4#7 ++ 8#7 ++ 9#7 ++ 0#3 ++ 0#2,
     36#6 ++ 4#7 ++ 8#7 ++ 0#7 ++ 0#3 ++ 1#2,
     36#6 ++ 4#7 ++ 8#7 ++ 0#7 ++ 5#3 ++ 2#2,
     36#6 ++ 5#7 ++ 8#7 ++ 0#7 ++ 5#3 ++ 3#2].map (fun w => (decodeWord .group w).toOption) =
    [some (.ffmas 10 8 2 0),
     some (.vbcst 10 3),
     some (.vpick 4 8 5),
     some (.movk 1 0),
     some (.vlane 2),
     some (.lshf 4 8 9),
     some (.lvote 4 8 0),
     some (.lred 4 8 5),
     some (.lscan 5 8 5)] := by decide +kernel

theorem test_decode_float :
    [38#6 ++ 4#7 ++ 5#7 ++ 6#7 ++ 3#3 ++ 0#2,
     39#6 ++ 4#7 ++ 5#7 ++ 6#7 ++ 0#3 ++ 3#2,
     40#6 ++ 2#3 ++ 2#4 ++ 4#7 ++ 5#7 ++ 0#5,
     41#6 ++ 4#7 ++ 5#7 ++ 6#7 ++ 0#3 ++ 2#2,
     42#6 ++ 4#7 ++ 5#7 ++ 6#7 ++ 0#3 ++ 3#2,
     43#6 ++ 4#7 ++ 5#7 ++ 8#7 ++ 2#3 ++ 0#2,
     44#6 ++ 4#7 ++ 5#7 ++ 0#7 ++ 0#3 ++ 1#2,
     45#6 ++ 4#7 ++ 5#7 ++ 0#7 ++ 0#3 ++ 3#2,
     46#6 ++ 4#7 ++ 5#7 ++ 0#7 ++ 0#3 ++ 1#2].map (fun w => (decodeWord .group w).toOption) =
    [some (.fadd 4 5 6 3),
     some (.fdiv 4 5 6 0),
     some (.fcmp 2 2 4 5 0),
     some (.hfma2 4 5 6 0),
     some (.bmax2 4 5 6 0),
     some (.fcvt 4 5 8 2),
     some (.frsq 4 5 0),
     some (.ftanh 4 5 0),
     some (.frnd 4 5 0 1)] := by decide +kernel

theorem test_decode_memory :
    [48#6 ++ 8#7 ++ 6#7 ++ 3#3 ++ 1#2 ++ 2#7,
     49#6 ++ 12#7 ++ 6#7 ++ 4#3 ++ 2#2 ++ 2#7,
     50#6 ++ 8#7 ++ 3#7 ++ 4#3 ++ 0#2 ++ 0#7,
     51#6 ++ 9#7 ++ 3#7 ++ 2#3 ++ 0#2 ++ 1#7,
     52#6 ++ 9#7 ++ 6#7 ++ 2#3 ++ 0#2 ++ 3#3 ++ 0#4,
     53#6 ++ 9#7 ++ 6#7 ++ 2#3 ++ 0#2 ++ 3#3 ++ 15#4,
     54#6 ++ 8#7 ++ 6#7 ++ 9#7 ++ 0#3 ++ 1#2,
     55#6 ++ 8#7 ++ 6#7 ++ 10#7 ++ 1#3 ++ 3#2,
     56#6 ++ 0#7 ++ 6#7 ++ 9#7 ++ 0#3 ++ 1#2,
     57#6 ++ 0#7 ++ 6#7 ++ 10#7 ++ 3#3 ++ 1#2,
     58#6 ++ 0#7 ++ 6#7 ++ 9#7 ++ 0#3 ++ 2#2,
     59#6 ++ 0#7 ++ 6#7 ++ 3#7 ++ 0#3 ++ 0#2,
     59#6 ++ 0#7 ++ 0#7 ++ 3#7 ++ 0#3 ++ 2#2,
     62#6 ++ 8#7 ++ 3#7 ++ 2#7 ++ 0#3 ++ 0#2].map (fun w => (decodeWord .group w).toOption) =
    [some (.ld 8 6 3 1 2),
     some (.st 12 6 4 2 2),
     some (.lds 8 3 4 0),
     some (.sts 9 3 2 1),
     some (.lda 9 6 2 3 0),
     some (.stl 9 6 2 3 15),
     some (.atom 8 6 9 0 1),
     some (.atomx 8 6 10 1 3),
     some (.red 6 9 0 1),
     some (.mwait 6 10 3 1),
     some (.cclinv 6 9),
     some (.smap 6 3),
     some (.sflush 3),
     some (.ldt 8 3 2)] := by decide +kernel

theorem test_decode_sweep_and_ladder :
    [60#6 ++ 4#7 ++ 6#7 ++ 0#7 ++ 0#3 ++ 0#2,
     60#6 ++ 0#7 ++ 0#7 ++ 4#7 ++ 0#3 ++ 1#2,
     60#6 ++ 5#7 ++ 8#7 ++ 0#7 ++ 0#3 ++ 2#2,
     60#6 ++ 0#7 ++ 10#7 ++ 0#7 ++ 0#3 ++ 3#2,
     60#6 ++ 0#7 ++ 6#7 ++ 0#7 ++ 4#5,
     61#6 ++ 0#7 ++ 6#7 ++ 8#7 ++ 0#3 ++ 0#2,
     61#6 ++ 0#7 ++ 0#7 ++ 0#7 ++ 0#3 ++ 1#2,
     61#6 ++ 0#7 ++ 0#7 ++ 8#7 ++ 0#3 ++ 2#2,
     61#6 ++ 4#7 ++ 0#7 ++ 2#7 ++ 0#3 ++ 3#2,
     47#6 ++ 4#7 ++ 3#9 ++ 17#10].map (fun w => (decodeWord .group w).toOption) =
    [some (.swreg 4 6),
     some (.swdel 4),
     some (.swpos 5 8),
     some (.swwait 10),
     some (.bkcmd 6),
     some (.ladpush 6 8),
     some (.ladesc),
     some (.laddone 8),
     some (.ladstat 4 2),
     some (.xsig 4 3 17)] := by decide +kernel

theorem test_decode_matrix :
    [0#4 ++ 0#28,
     1#4 ++ 3#3 ++ 0#25,
     2#4 ++ 1#2 ++ 2#3 ++ 3#3 ++ 0#20,
     3#4 ++ 2#3 ++ 1#2 ++ 3#3 ++ 1#3 ++ 2#3 ++ 1#1 ++ 0#13,
     4#4 ++ 0#3 ++ 1#3 ++ 0#1 ++ 1024#21,
     5#4 ++ 1#3 ++ 0#25,
     6#4 ++ 1#5 ++ 0#23,
     7#4 ++ 2#5 ++ 0#23,
     8#4 ++ 4#12 ++ 2#8 ++ 0#8,
     9#4 ++ 3#4 ++ 0#24,
     4#4 ++ 1#3 ++ 2#3 ++ 1#1 ++ 3#3 ++ 0#18].map (fun w => (decodeWord .matrix w).toOption) =
    [some (.mend),
     some (.mzero 3),
     some (.mlda 1 2 3),
     some (.mma 2 1 3 1 2 true),
     some (.mstScratch 0 1 0x400),
     some (.mrel 1),
     some (.marv 1),
     some (.mwt 2),
     some (.mloop 4 2),
     some (.mgang 3),
     some (.mstRing 1 2 3)] := by decide +kernel

theorem test_decode_bank :
    [0#5 ++ 0#3 ++ 0#2 ++ 0#2 ++ 0#2 ++ 0#3 ++ 0#2 ++ 0#13,
     1#5 ++ 0#3 ++ 2#2 ++ 0#2 ++ 0#2 ++ 0#3 ++ 3#2 ++ 0#13,
     2#5 ++ 0#3 ++ 0#2 ++ 1#2 ++ 0#2 ++ 0#3 ++ 2#2 ++ 0#13,
     3#5 ++ 1#3 ++ 1#2 ++ 2#2 ++ 3#2 ++ 0#3 ++ 0#2 ++ 0#13,
     6#5 ++ 2#3 ++ 1#2 ++ 2#2 ++ 3#2 ++ 0#3 ++ 0#2 ++ 0#13,
     7#5 ++ 5#3 ++ 1#2 ++ 2#2 ++ 0#2 ++ 6#3 ++ 0#2 ++ 0#13,
     11#5 ++ 4#3 ++ 1#2 ++ 2#2 ++ 0#2 ++ 6#3 ++ 0#2 ++ 0#13,
     12#5 ++ 4#3 ++ 1#2 ++ 2#2 ++ 0#2 ++ 3#3 ++ 0#2 ++ 0#13,
     13#5 ++ 0#3 ++ 1#2 ++ 2#2 ++ 0#2 ++ 0#3 ++ 0#2 ++ 0#13,
     15#5 ++ 0#3 ++ 3#2 ++ 0#2 ++ 0#2 ++ 0#3 ++ 0#2 ++ 0#13].map (fun w => (decodeWord .bank w).toOption) =
    [some (.xend),
     some (.xld 2 3),
     some (.xst 2 1),
     some (.xadd 1 1 2 3),
     some (.xfma 2 1 2 3),
     some (.xscl 5 1 2 6),
     some (.xclmp 4 1 2 6),
     some (.xcvt 4 1 2 3),
     some (.xrsq 0 1 2),
     some (.xzero 3)] := by decide +kernel

/-! ## Ill-formed words: a term for each check of the maps -/

theorem test_illFormed_registers :
    [Instr.srd 64 false 1, .srd 5 true 0x07, .swr 64 9, .boost 64 0 1, .bx 64, .qwait 0 64, .imadw 5 0 0 0, .icmp 0 0 1 1 0,
      .fcmp 0 0 1 1 0, .lea 1 2 0, .lea 2 1 0, .sadd 0 64 0, .saddi 64 0 0, .smovi 64 0, .scmp 0 0 1 1, .scmp 1 0 64 1,
      .iadds 1 1 64 0, .vbcst 1 64, .vpick 64 1 0, .movk 0 1, .movk 1 8, .lvote 64 1 0, .xsig 64 0 0,
      .ld 8 7 2 0 0, .ld 9 6 3 0 0, .ld 10 6 4 0 0, .st 9 6 3 0 0, .lds 9 3 3 0, .sts 9 3 3 0, .lda 9 6 3 0 0, .stl 8 7 2 0 0,
      .atom 8 7 9 0 0, .atomx 8 6 9 1 0, .red 7 9 0 0, .mwait 6 9 3 0, .mwait 7 9 0 0, .cclean 7 9, .smap 7 3, .swreg 4 7, .swpos 64 6,
      .swdel 64, .swwait 7, .bkcmd 7, .ladpush 6 2, .ladstat 5 0, .ldt 2 3 0, .stt 2 3 0].all fun i => check i == some .regFld := by
  decide +kernel

theorem test_illFormed_immediates :
    [Instr.cclr 20, .rinit 24 1, .rinit 0 0, .arv 24, .rwait 24, .marv 24, .mwt 24, .wbase 5, .route 0 0 0 0 0, .route 1 3 3 0 0,
      .vpick 1 1 64, .ladstat 4 4, .mloop 0 1, .mloop 1 0, .mgang 0, .xclmp 0 0 0 1].all fun i => check i == some .immFld := by
  decide +kernel

theorem test_illFormed_selectors :
    [Instr.fence 6 0, .fence 0 2, .icmp 1 10 1 1 0, .fcmp 1 8 1 1 0, .scmp 1 10 1 1, .lvote 1 1 3, .fcvt 1 1 10 0, .ld 8 6 5 0 0,
      .st 8 6 5 0 0, .lds 8 3 5 0, .lda 8 6 2 6 0, .stl 8 6 5 0 0, .atomx 8 6 10 4 0, .mwait 6 8 4 0, .xadd 6 0 0 0, .xscl 6 0 0 0,
      .xrsq 6 0 0, .xclmp 7 0 0 0, .xcvt 0 0 0 6].all fun i => check i == some .rsvSel := by decide +kernel

theorem test_illFormed_others :
    [check (.srd 1 true 0x11), check (.swr 1 8), check (.ld 8 6 3 3 0), check (.st 8 6 2 1 0), check (.st 8 6 2 3 0), check (.xfma 3 0 0 0)] =
    [some .sreg, some .sreg, some .combo, some .combo, some .combo, some .combo] := by decide +kernel

/-- The decoder names the rule that a word breaks: a reserved major, a field that must be zero, a selector and an immediate. -/
theorem test_refused_words :
    [0x00000000#32, 0x94000000#32, 0xFC000000#32, 0x04800001#32, 0x06800000#32, 0x20040000#32].map (fun w => match decodeWord .group w with
      | .ok _ => 0
      | .error c => c.num) = [1, 1, 1, 3, 2, 7] := by decide +kernel

/-- Byte 0 of an entry is its command; flags, point, slots, source, destination, rows, row bytes, stride and stamp follow (R208, R237). -/
theorem test_decode_copyEntry :
    decodeEntry (0x02 + 0x81 * 2 ^ 8 + 3 * 2 ^ 16 + 0x25 * 2 ^ 24 + 0x10000 * 2 ^ 32 + 0x20 * 2 ^ 96 + 7 * 2 ^ 160 + 64 * 2 ^ 192 + 32 * 2 ^ 208 +
      8 * 2 ^ 224) =
    .cpt { flags := 0x81, point := 3, slots := 0x25, src := 0x10000, dst := 0x20, rows := 7, rowBytes := 64, stride := 32, stampOff := 8 } := by
  decide +kernel

theorem test_decode_tableWords :
    [decodeTableWord 32 0x30202040, decodeTableWord 32 0x16000000, decodeTableWord 256 0x09, decodeTableWord 0 0] =
    [some (.iadd 4 2 2 0), some (.mzero 3), some (.cpn (entryOf 0)), none] := by decide +kernel

/-! ## Small states -/

def gRef : GRef := { gang := 1, team := 0, grp := 0 }
def tRef : TRef := { gang := 1, team := 0 }

/-- Bytes at a local address of the DRAM. -/
def put (s : State) (loc : Nat) (bs : List Byte) : State := modMm s fun m => { m with mem := smWrite m.mem (ownPhys s loc) bs }
/-- A leaf of a page at a local address (R115). -/
def pte (s : State) (loc flags : Nat) : List Byte := natLE 8 (ownPhys s loc / 2 ^ 16 * 2 ^ 16 + flags)

/-- A group of 16 lanes issues. Its context maps 64 KiB pages: 0x10000 NORMAL and writable at local 0x30000, 0x20000 SWEPT, 0x30000 the
register window, 0x40000 NORMAL and read-only, 0x50000 locked. The word at 0x10000 holds 5. -/
def pages : State :=
  let s : State := { loadGroupWord State.reset 0x04000000 with focus := .group gRef }
  put (put s (loaderTable 4 + 8) (pte s 0x30000 0xB ++ pte s 0x40000 0x8B ++ pte s 0x7C000000000 0x10B ++ pte s 0x50000 0x3 ++ pte s 0x60000 0x100B))
    0x30000 (natLE 4 5)

def xOf (s : State) : Group := (findGroup s gRef).getD (newGroup (loaderLaunch 0) 0 0)
def tmOf (s : State) : Team := (findTeam s tRef).getD (newTeam (loaderLaunch 0) 0)
def ggOf (s : State) : Gang := (findGang s 1).getD (loaderGang s (tmOf s) (loaderLaunch 0))
def withX (s : State) (f : Group → Group) : State := modGroup s gRef f
def withTm (s : State) (f : Team → Team) : State := modTeam s tRef f
def withGg (s : State) (f : Gang → Gang) : State := modGang s 1 f

/-- Registers of lanes. -/
def setV (vs : List (Nat × Nat × Nat)) (s : State) : State :=
  withX s fun x => { x with v := vs.foldl (fun m p => smSet m (p.1 * 64 + p.2.1) (BitVec.ofNat 32 p.2.2)) x.v }
def setS (vs : List (Nat × Nat)) (s : State) : State :=
  withX s fun x => { x with s := vs.foldl (fun m p => smSet m p.1 (BitVec.ofNat 64 p.2)) x.s }
/-- Only the lanes of a mask are active. -/
def only (mask : Mask) (s : State) : State := withX s fun x => { x with frontier := [{ prio := 0, pc := 0, mask := mask }] }
/-- One active lane; v6:v7 points at an address. -/
def at_ (va : Nat) : State := only 1 (setV [(6, 0, va)] pages)

/-- The state after an instruction, where it answers one. -/
def after (i : Instr) (s : State) : State := match exec i s with
  | .next t => t
  | _ => s
def lane (s : State) (r l : Nat) : Nat := (vRaw (xOf s) r l).toNat
/-- An address names local NORMAL memory of a data page that group 0 and its team's engine may write now. -/
def goodTarget (s : State) (va : Nat) : Bool := (translate s 1 va).elim false fun l =>
  l.mtype == 0 && l.w && !l.x && !isRemote s l.pa && (List.range (s.fresh + 1)).all fun id => !mustHold s l.mlock l.pa id &&
  !waitsToWrite s l.mlock l.pa (some gRef) id && !waitsToWrite s l.mlock l.pa (some (teamAgent tRef)) id
def physOf (s : State) (va : Nat) : Option Nat := (translate s 1 va).map Leaf.pa
def scal (s : State) (r : Nat) : Nat := (smGet (xOf s).s r).toNat
def causes (s : State) : Nat := (xOf s).cause.toNat
/-- The word that a line's order leaves at an address of the page at 0x10000. -/
def wordAt (s : State) (off : Nat) : Nat :=
  let pa := ownPhys s (0x30000 + off)
  leNat (sliceLine (lineLatest s (pa / 32) none) pa 4)

theorem ok_of {ε α : Type} {e : Except ε α} {v : α} (h : e.toOption = some v) : e = .ok v := by
  cases e <;> simp_all [Except.toOption]

/-! ## Instructions: expected values by hand from the rule named -/

/-- R87: a sum wraps; counts are y[4:0]. -/
theorem test_exec_pairs :
    let s := setV [(4, 0, 0xFFFFFFFF), (5, 0, 1), (6, 0, 33), (4, 1, 0x80000000), (6, 1, 33), (5, 1, 0xFFFFFFFF)] pages
    lane (after (.iadd 8 4 5 0) s) 8 0 = 0 ∧ lane (after (.sar 8 4 6 0) s) 8 1 = 0xC0000000 ∧ lane (after (.shl 8 4 6 0) s) 8 0 = 0xFFFFFFFE ∧
    lane (after (.imulh 8 4 4 0) s) 8 0 = 0 ∧ lane (after (.imulh 8 4 4 0) s) 8 1 = 0x40000000 ∧ lane (after (.imin 8 4 5 0) s) 8 0 = 0xFFFFFFFF ∧
    lane (after (.iminu 8 4 5 0) s) 8 0 = 1 ∧ lane (after (.rot 8 4 6 0) s) 8 1 = 1 ∧ lane (after (.andn 8 4 5 0) s) 8 0 = 0xFFFFFFFE := by
  decide +kernel

/-- R88 to R90: an exact product in a pair, an insert cut at bit 31, the counts of 0. -/
theorem test_exec_thirdOperands :
    let s := setV [(4, 0, 0xFFFFFFFE), (5, 0, 3), (8, 0, 7), (6, 0, 8 * 256 + 28), (9, 0, 0x12345678)] pages
    lane (after (.imadw 10 4 5 0) s) 10 0 = 0xFFFFFFFA ∧ lane (after (.imadw 10 4 5 0) s) 11 0 = 0xFFFFFFFF ∧
    lane (after (.imad 8 4 5 0) s) 8 0 = 1 ∧ lane (after (.isad 8 4 5 0) s) 8 0 = 12 ∧ lane (after (.bfi 9 5 6 0) s) 9 0 = 0x32345678 ∧
    lane (after (.bfx 10 9 6 0) s) 10 0 = 1 ∧ lane (after (.clz 10 12 0) s) 10 0 = 32 ∧ lane (after (.brev 10 5 0) s) 10 0 = 0xC0000000 := by
  decide +kernel

/-- R92: sign extension, the high part of a word, a carry into the high register. -/
theorem test_exec_immediates :
    let s := setV [(4, 0, 5), (6, 0, 0xFFFFFFF0), (7, 0, 1)] pages
    lane (after (.iaddi 8 4 0xFFF) s) 8 0 = 4 ∧ lane (after (.ori 8 4 0xFF0) s) 8 0 = 0xFF5 ∧ lane (after (.movh 4 1) s) 4 0 = 0x2005 ∧
    lane (after (.lea 8 6 16) s) 8 0 = 0 ∧ lane (after (.lea 8 6 16) s) 9 0 = 2 ∧ lane (after (.movi 8 0x7FFFF) s) 8 15 = 0xFFFFFFFF := by
  decide +kernel

/-- R93, R98: counts are sb[5:0], s0 discards, a ballot names the active lanes that hold a value. -/
theorem test_exec_scalars :
    let s := setV [(8, 0, 1), (8, 2, 7), (8, 5, 1)] (setS [(4, 3), (5, 64), (6, 2 ^ 64 - 1)] (only 0xF pages))
    scal (after (.sshl 7 4 5) s) 7 = 3 ∧ scal (after (.smul 7 6 6) s) 7 = 1 ∧ scal (after (.sadd 0 4 4) s) 0 = 0 ∧
    scal (after (.smovh 6 0) s) 6 = 2 ^ 64 - 2 ^ 32 + 2 ^ 13 - 1 ∧ scal (after (.lvote 7 8 0) s) 7 = 5 ∧ scal (after (.lvote 7 8 2) s) 7 = 0 ∧
    scal (after (.vpick 7 8 5) s) 7 = 1 ∧ scal (after (.vpick 7 8 16) s) 7 = 0 := by decide +kernel

/-- R53, R91, R94: signed and unsigned order; only active lanes change. -/
theorem test_exec_predicates :
    let s := setV [(4, 0, 0xFFFFFFFF), (5, 0, 1)] (setS [(4, 2 ^ 64 - 1), (5, 1)] (only 1 pages))
    kGet (xOf (after (.icmp 1 2 4 5 0) s)) 1 = 1 ∧ kGet (xOf (after (.icmp 1 6 4 5 0) s)) 1 = 0 ∧
    kGet (xOf (after (.scmp 2 8 4 5) s)) 2 = 1 ∧ kGet (xOf (after (.movk 3 0) s)) 3 = 1 := by decide +kernel

/-- R100's example: 1.0, 2^24, 1.0 and -2^24 in lanes 0 to 3 of 16. -/
theorem test_exec_reduceAndScan :
    let s := setV [(8, 0, 0x3F800000), (8, 1, 0x4B800000), (8, 2, 0x3F800000), (8, 3, 0xCB800000)] (only 0xF pages)
    lane (after (.lred 4 8 5) s) 4 3 = 0x3F800000 ∧
    (List.range 4).map (lane (after (.lscan 5 8 5) s) 5) = [0x3F800000, 0x4B800000, 0x4B800000, 0] := by decide +kernel

/-- R74, R101, R103 to R106: ties go to even, a third is rounded once, halves are computed apart, a value beyond I32 converts to its least. -/
theorem test_exec_floats :
    let s := setV [(4, 0, 0x4B800000), (5, 0, 0x3F800000), (6, 0, 0x40400000), (7, 0, 0x40800000), (8, 0, 0x3C003C00), (9, 0, 0x4F800000)] pages
    lane (after (.fadd 10 4 5 0) s) 10 0 = 0x4B800000 ∧ lane (after (.fdiv 10 5 6 0) s) 10 0 = 0x3EAAAAAB ∧
    lane (after (.frsq 10 7 0) s) 10 0 = 0x3F000000 ∧ lane (after (.hadd2 10 8 8 0) s) 10 0 = 0x40004000 ∧
    lane (after (.fcvt 10 5 0 0) s) 10 0 = 1 ∧ lane (after (.fcvt 10 9 0 0) s) 10 0 = 0x80000000 ∧ lane (after (.ffmas 10 6 0 0) s) 10 0 = 0 := by decide +kernel

/-- R18, R82: the lanes that branch go to (p, T), the others to the next PC. -/
theorem test_exec_branch :
    let s := withX pages fun x => { x with k := smSet x.k 1 0x1F }
    (xOf (after (.bt 1 { prio := 25, off := 4 }) s)).frontier =
      [{ prio := 25, pc := 16, mask := 0x1F }, { prio := 0, pc := 4, mask := 0xFFE0 }] := by decide +kernel

/-- R77: TRAPI with the link of the entry after it. -/
theorem test_exec_trap : causes (after (.trap 0x12) pages) = 2 ^ 0 * (cTrapi).toNat ∧ (xOf (after (.trap 0x12) pages)).epc = 4 := by
  decide +kernel

/-- R76, R8: the only group retires, and with it its gang. -/
theorem test_exec_exit : (ggOf (after .exit pages)).state = .retired ∧ (xOf (after .exit pages)).live = 0 := by decide +kernel

/-- R35 to R37: the second of two arrivals completes the phase. -/
theorem test_exec_rendezvous :
    let s := after (.arv 1) (after (.arv 1) (after (.rinit 1 2) pages))
    (tmOf s).points[1]? = some { e := 2, count := 0, phase := 1, bitmap := 0 } ∧ (xOf (after (.rwait 1) s)).wait = none := by
  decide +kernel

/-- R138, R146, R147, R149: a store, an atomic's old and new word, and a condition that holds at once. -/
theorem test_exec_memory :
    let s := setV [(9, 0, 7)] (at_ 0x10000)
    wordAt (after (.st 9 6 2 0 0) s) 0 = 7 ∧ wordAt (after (.atom 8 6 9 0 1) s) 0 = 12 ∧
    (xOf (after (.atom 8 6 9 0 1) s)).loads.map PendLoad.writes = [[(8 * 64, 5)]] ∧
    (xOf (after (.mwait 6 9 1 1) s)).wait = none ∧ (xOf (after (.mwait 6 9 0 1) s)).wait.isSome = true := by decide +kernel

/-- R116, R138: ALIGN at an odd address, PAGE at an unmapped one, PERM for a store to a read-only page; nothing is written. -/
theorem test_exec_accessCauses :
    causes (after (.ld 8 6 2 0 0) (at_ 0x10001)) = cAlign.toNat ∧ causes (after (.ld 8 6 2 0 0) (at_ 0x900000)) = cPage.toNat ∧
    causes (after (.st 8 6 2 0 0) (at_ 0x40000)) = cPerm.toNat := by decide +kernel

/-- R142: a word stored to the scratchpad is the word a load takes. -/
theorem test_exec_scratchpad :
    let s := after (.sts 9 3 2 0) (setV [(3, 0, 64), (9, 0, 0x01020304)] (only 1 pages))
    smRange (tmOf s).scratch 64 4 = [4, 3, 2, 1] ∧
    (xOf (after (.lds 8 3 2 0) s)).loads.map PendLoad.writes = [[(8 * 64, 0x01020304)]] := by decide +kernel

/-- R43, R85: RACQ owns one block more, WBASE moves the window, RREL of the last block leaves it. -/
theorem test_exec_window :
    (xOf (after .racq pages)).owned = 2 ∧ (xOf (after (.wbase 2) pages)).wbase = 64 ∧ (xOf (after .rrel pages)).owned = 1 ∧
    causes (after (.iadd 64 0 0 0) pages) = cWindow.toNat := by decide +kernel

/-- R157, R159: a handle that names no registration, and a row that none covers. -/
theorem test_exec_sweep :
    causes (after (.swdel 4) pages) = cSweep.toNat ∧ causes (after (.swwait 6) (at_ 0x20000)) = cSweep.toNat := by decide +kernel

/-- R223, R229: a slab mask within the yoke, and the level of a loop. -/
theorem test_exec_sequencer :
    let s : State := { loadMatrixWord State.reset 0 with focus := .seq tRef }
    (tmOf (after (.mgang 2) s)).seq.mask = 1 ∧
    (tmOf (after (.mloop 4 2) s)).seq.loops = [{ first := 8, stop := 16, left := 3 }] ∧ (tmOf (after .mend s)).seq.running = false := by
  decide +kernel

/-- R163: I8 elements saturate; F32 elements round once; XSEL chooses by the sign of the destination. -/
theorem test_exec_bank :
    let r : Restore := { Restore.idle with x := [[(0, 0x7F), (1, 0x80)], [(0, 1), (1, 0xFF)], [(2, 0x80), (3, 0x3F)], []], running := true }
    let s : State := { State.reset with focus := .restore, sw := { State.reset.sw with restore := r } }
    xGet (after (.xadd 5 3 0 1) s).sw.restore 3 = [(0, 0x7F), (1, 0x80)] ∧ xGet (after (.xadd 0 3 2 2) s).sw.restore 3 = [(3, 0x40)] ∧
    xGet (after (.xzero 0) s).sw.restore 0 = [] := by decide +kernel

/-- R344: a millisecond adds REFILL up to CAP; R337, R348: at the soft point a lease no longer raises CUR. -/
theorem test_exec_plant :
    let s := modDev { State.reset with time := 4000000 } fun r => { r with pool := 49950 }
    (dev (after .boostRefill s)).pool = 50000 ∧
    computeState (after (.computeThermalPoint 3 (BitVec.ofNat 16 (16 * 112))) State.reset) 1 = 1 ∧
    computeState (after (.computeThermalPoint 3 (BitVec.ofNat 16 (16 * 112 - 1))) State.reset) 1 = 0 ∧
    memStackState (after (.memoryThermalPoint 2 (BitVec.ofNat 16 (16 * 105))) State.reset) 2 = 4 := by decide +kernel

/-- A step from reset runs the word that is laid where it fetches. -/
theorem test_step_runsTheWord :
    (match step (State.reset.withFetchWord 32 0x64400005) with
      | .next t => lane t 8 15
      | _ => 0) = 5 := by decide +kernel

/-! ## Witnesses: states and operands that meet the hypotheses of the statements -/

theorem test_witness_DecodeOfEncodeIsTheInstruction :
    streamOf (.iadd 127 0 127 7) = some .group ∧ WellFormed (.iadd 127 0 127 7) ∧ streamOf (.mgang 15) = some .matrix ∧ WellFormed (.mgang 15) ∧
    streamOf (.xclmp 5 3 3 6) = some .bank ∧ WellFormed (.xclmp 5 3 3 6) := by unfold WellFormed; decide +kernel

theorem test_witness_CopyEntriesDecode :
    entryCode (.cpn (entryOf 0)) = some (9, entryOf 0) ∧ entryCode (.unknownCommandEntry 10 (entryOf 0)) = some (10, entryOf 0) ∧
    entryCode (.unknownCommandEntry 0 (entryOf 0)) = some (0, entryOf 0) := by decide +kernel

theorem test_witness_ReservedMajorsAreRefused :
    (0x3F#6 = 0 ∨ 0x3F#6 = 0x25 ∨ 0x3F#6 = 0x3F) ∧ 0xA ≤ (0xA#4).toNat ∧ 0xA ≤ (0xF#4).toNat ∧ 0x10 ≤ (0x10#5).toNat ∧ 0x10 ≤ (0x1F#5).toNat := by
  decide

def loaded : State := loadGroupWord State.reset 0x30202040

/-- The invariants hold where a word is about to run, and the step answers a next state. -/
theorem test_witness_invariants :
    Safety.MemoryOk loaded ∧ LinesOk loaded ∧ RegistersOk loaded ∧ FrontiersOk loaded ∧
    (match step loaded with | .next _ => true | _ => false) = true := by
  refine ⟨?_, ?_, ?_, ?_, by decide +kernel⟩
  · unfold Safety.MemoryOk; decide +kernel
  · unfold LinesOk; decide +kernel
  · unfold RegistersOk RegsOk TeamOk; decide +kernel
  · refine ⟨by unfold GangsDistinct; decide +kernel, ?_⟩
    intro p hp tm ht x hx
    have h : ∀ p ∈ loaded.wk.gangs, ∀ tm ∈ p.2.teams, ∀ x ∈ tm.groups,
        x.frontier = [{ prio := 0, pc := 0, mask := 0xFFFF }] ∧ x.frozen = none := by decide +kernel
    have := h p hp tm ht x hx
    rw [this.1, this.2]
    exact ⟨by unfold FrontierOk; decide +kernel, by simp⟩

theorem test_witness_EveryStepAnswersANextState :
    IsEvent .boot ∧ ∀ a ∈ (loadGroupWord State.reset 0).agenda, ∀ i, a.2 = .event i → IsEvent i := by
  refine ⟨by unfold IsEvent; decide +kernel, ?_⟩
  rintro a ha i hi
  rw [show (loadGroupWord State.reset 0).agenda = [(0, .cycle 0 0)] from rfl] at ha
  simp_all

theorem test_witness_frontEndStep :
    let s := loadGroupWord State.reset 0x30202040
    let now : State := beginCycle { s with agenda := [] } 0 0
    let s1 := afterChoice now 0 0 (byAge now 0 0) ((byAge now 0 0).filter (isReady now 0 0)) (some gRef)
    s.sw.restore.running = false ∧ s.agenda = [(0, .cycle 0 0)] ∧ nextDue s (s.time + 0) = none ∧
    choose now 0 0 (byAge now 0 0) ((byAge now 0 0).filter (isReady now 0 0)) = some gRef ∧ findGroup s1 gRef = some (xOf s1) ∧
    (xOf s1).frontier = [{ prio := 0, pc := 0, mask := 0xFFFF }] ∧ fetchWord s1 (ctxOf s1 gRef) 0 0 = some 0x30202040 ∧
    (decodeWord .group 0x30202040).toOption = some (.iadd 4 2 2 0) := by decide +kernel

theorem test_witness_otherSteps :
    (let s := loadMatrixWord State.reset 0x16000000
     s.sw.restore.running = false ∧ s.agenda = [(0, .seq tRef)] ∧ nextDue s (s.time + 0) = none ∧ findGang s 1 = some (ggOf s) ∧
       findTeam s tRef = some (tmOf s) ∧ (ggOf s).state = .resident ∧ (tmOf s).seq.running = true ∧ (tmOf s).stop = none ∧
       (tmOf s).seq.wait = none ∧ fetchHeld s 1 (tmOf s).seq.pc.toNat = false ∧ fetchWord s 1 (tmOf s).seq.pc.toNat 1 = some 0x16000000) ∧
    (let s := loadEntry State.reset 9
     s.sw.restore.running = false ∧ s.agenda = [(0, .engine (.team tRef))] ∧ nextDue s (s.time + 0) = none ∧
       findEngine s (.team tRef) = some (tmOf s).engine ∧ suspendedOf (tmOf s).engine = none ∧
       (tmOf s).engine.takenIdx < (tmOf s).engine.published ∧ nextEntry s (.team tRef) = some 9) ∧
    (let s := loadBankWord State.reset 0x78000000
     s.sw.restore.running = true ∧ s.sw.restore.program = [0x78000000] ∧ (decodeWord .bank 0x78000000).toOption = some (.xzero 0)) ∧
    (let s : State := { State.reset with agenda := [(1, .event .boot)] }
     s.sw.restore.running = false ∧ nextDue s (s.time + 1) = none) := by decide +kernel

/-- Every register instruction: registers owned up to v63, pairs up to v62, no role; with FPINV enabled and no invalid operation. -/
theorem test_witness_registerResults :
    Issues pages gRef (xOf pages) ∧ RegsOk (xOf pages) ∧ regCauses (xOf pages) true [(63, 1), (0, 1), (63, 1)] = 0 ∧
    regCauses (xOf pages) false [(62, 2), (63, 1)] = 0 ∧ fpinvOn pages gRef = false ∧
    (let s := withGg pages fun gg => { gg with launch := { gg.launch with fpinv := true } }
     Issues s gRef (xOf s) ∧ fpinvOn s gRef = true ∧ ∀ k ∈ activeLanes (xOf s), (f32.add (vGet (xOf s) 4 k).toNat 0).2 = false) ∧
    (7 : KReg) ≠ 0 ∧ (9#4).toNat < 10 := by unfold Issues RegsOk; decide +kernel

theorem test_witness_conversions :
    let s := withGg pages fun gg => { gg with launch := { gg.launch with slots := 0 :: List.replicate 7 0xFFFFFFFFFFFFFFFF } }
    Issues s gRef (xOf s) ∧ RegsOk (xOf s) ∧ slotUnusable 8 (slotOf s gRef 1) = true ∧ slotUnusable 8 (slotOf s gRef 0) = false ∧
    regCauses (xOf s) true [(4, 1), (5, 1), (5, 1)] = 0 := by unfold Issues RegsOk; decide +kernel

theorem test_witness_RoundingGivesTheNearestValue :
    (-300 : Int) ≤ -24 ∧ f32.rne (.num false 0x1000001 (-24)) % 2 ^ 31 < f32.infCode ∧ 0x3F800001 % 2 ^ 31 < f32.infCode := by decide +kernel

theorem test_witness_CausesOfRegisterInstructions :
    (let s := withX pages fun x => { x with copyRole := true }
     Issues s gRef (xOf s) ∧ (xOf s).copyRole = true ∧ regCauses (xOf s) true [(4, 1), (5, 1), (6, 1)] ≠ 0) ∧
    ¬ ((physReg (xOf pages) 64) / 64 < (xOf pages).owned) ∧
    (let s := setV [(4, 0, 0x7F800000), (5, 0, 0xFF800000)] (withGg pages fun gg => { gg with launch := { gg.launch with fpinv := true } })
     Issues s gRef (xOf s) ∧ RegsOk (xOf s) ∧ regCauses (xOf s) true [(6, 1), (4, 1), (5, 1)] = 0 ∧ fpinvOn s gRef = true ∧
       0 ∈ activeLanes (xOf s) ∧ (f32.add (srcA (xOf s) 0 4 0).toNat (srcB (xOf s) 0 5 0).toNat).2 = true) := by
  unfold Issues RegsOk; decide +kernel

theorem test_witness_GroupRecordAndSpecialRegisters :
    isMarked pages gRef = false ∧ (let s := withGg pages fun gg => { gg with marked := true }
      Issues s gRef (xOf s) ∧ isMarked s gRef = true ∧ (xOf s).wait = none) ∧
    (let s := after .racq pages
     Issues s gRef (xOf s) ∧ 1 < (xOf s).owned ∧ physReg (xOf s) 127 / 64 < (xOf s).owned) ∧
    findGang pages 1 = some (ggOf pages) ∧ (ggOf pages).ids = some (0, [0]) ∧ findTeam pages (grefTeam gRef) = some (tmOf pages) := by
  unfold Issues; decide +kernel

/-- A frontier of sixteen entries, the current one of two lanes. -/
def fullFrontier : State := withX pages fun x =>
  { x with k := smSet x.k 1 1
           frontier := { prio := 16, pc := 0, mask := 3 } :: (List.range 15).map fun n =>
             { prio := BitVec.ofNat 8 (15 - n), pc := 64, mask := BitVec.ofNat 64 (2 ^ (n + 2)) } }

theorem test_witness_BranchesMoveTheCurrentEntry :
    FrontierOk (xOf pages).frontier ∧ (xOf pages).frontier = [{ prio := 0, pc := 0, mask := 0xFFFF }] ∧
    Issues fullFrontier gRef (xOf fullFrontier) ∧ FrontierOk (xOf fullFrontier).frontier ∧ (xOf fullFrontier).frontier.length = 16 ∧
    kGet (xOf fullFrontier) 1 &&& 3 = 1 ∧
    (∀ f ∈ (xOf fullFrontier).frontier, (f.prio, f.pc) ≠ (200, 400) ∧ (f.prio, f.pc) ≠ (16, 4)) ∧
    ∃ f ∈ (xOf fullFrontier).frontier, (f.prio, f.pc) = (15, 64) := by unfold FrontierOk Issues; decide +kernel

def stopOf (n : Nat) : Stop :=
  { group := n, causes := 1, time := 0, point := none, phase := 0, gone := 0, shown := 0, report := false, written := none }
/-- A second group of the team. -/
def twoGroups : State := withTm pages fun t => { t with groups := t.groups ++ t.groups }

theorem test_witness_ACauseStopsTheRunningTeam :
    GangsDistinct twoGroups ∧ findGroup twoGroups gRef = some (xOf twoGroups) ∧ findGang twoGroups 1 = some (ggOf twoGroups) ∧
    findTeam twoGroups (grefTeam gRef) = some (tmOf twoGroups) ∧ (ggOf twoGroups).state = .resident ∧ (tmOf twoGroups).stop = none ∧
    (tmOf twoGroups).handler ≠ some 0 ∧
    (let s := withTm twoGroups fun t => { t with stop := some (stopOf 1) }
     GangsDistinct s ∧ (tmOf s).stop ≠ none ∧ (xOf s).halted = false ∧ (xOf s).retired = false ∧ (xOf (withX s fun x => { x with halted := true })).halted = true ∧
       (stopOf 1).time = s.time ∧ (stopOf 1).written = none ∧ (stopOf 1).report = false ∧ (tmOf s).handler = none ∧
       (stopOf 1).time ≠ 1 ∧ (ggOf s).reported = false ∧ (ggOf (withGg s fun gg => { gg with reported := true })).reported = true) ∧
    (ggOf (withGg twoGroups fun gg => { gg with state := .saved })).state ≠ .resident := by unfold GangsDistinct; decide +kernel

theorem test_witness_TrapAndReturnHaveTheirEffects :
    Issues pages gRef (xOf pages) ∧ (tmOf pages).handler ≠ some gRef.grp ∧
    (let s := withTm (withX pages fun x => { x with frozen := some x.frontier }) fun t => { t with handler := some 0, stop := some (stopOf 0) }
     Issues s gRef (xOf s) ∧ (tmOf s).handler = some gRef.grp ∧ (xOf s).retired = false ∧
       (xOf s).frozen = some [{ prio := 0, pc := 0, mask := 0xFFFF }] ∧ FrontierOk [{ prio := 0, pc := 0, mask := 0xFFFF }] ∧
       (∀ z ∈ (tmOf s).groups, z.retired = false → z.cause &&& ~~~cHaltb = 0) ∧
       (xOf (withX s fun x => { x with cause := cPage })).cause &&& ~~~cHaltb ≠ 0 ∧ (ggOf s).reported = false ∧
       (ggOf (withGg s fun gg => { gg with reported := true })).reported = true) := by unfold Issues FrontierOk; decide +kernel

theorem test_witness_ExitRetiresLanesGroupsAndGangs :
    Issues pages gRef (xOf pages) ∧ findGang pages 1 = some (ggOf pages) ∧ (tmOf pages).handler ≠ some 0 ∧ (xOf pages).body = none ∧
    (xOf pages).retired = false ∧ (xOf fullFrontier).frontier.tail ≠ [] ∧
    (∃ z, (tmOf twoGroups).groups[1]? = some z ∧ z.retired = false) ∧ (tmOf pages).groups.length = 1 ∧ (tmOf pages).retired = false ∧
    (tmOf pages).stop = none ∧ (tmOf pages).stash = [] ∧ (tmOf pages).seq.running = false ∧ (tmOf pages).engine.flight = [] ∧
    (tmOf pages).engine.completed = (tmOf pages).engine.published ∧ (ggOf pages).state = .resident ∧ (ggOf pages).teams.length = 1 := by
  refine ⟨?_, ?_, ?_, ?_, ?_, ?_, ⟨(tmOf twoGroups).groups[1]'(by decide +kernel), ?_, ?_⟩, ?_⟩ <;> try unfold Issues
  all_goals decide +kernel

theorem test_witness_WaitsHoldUntilTheirConditions :
    Issues pages gRef (xOf pages) ∧ RegsOk (xOf pages) ∧ findGang pages 1 = some (ggOf pages) ∧ (6#3).toNat ≠ 5 ∧ (5#3).toNat < 6 ∧ (1#3).toNat < 2 ∧
    (xOf pages).owned < 1 + (ggOf pages).launch.maxBlocks ∧ freeBlock pages gRef = some 1 ∧ 0 < (ggOf pages).launch.width ∧
    16 ∣ (ggOf pages).launch.width ∧
    1 + (ggOf pages).launch.maxBlocks ≤ (xOf (withX pages fun x => { x with owned := 4 })).owned ∧
    freeBlock (withX pages fun x => { x with blocks := List.range 192 }) gRef = none ∧ (xOf pages).wait = none := by
  unfold Issues RegsOk; decide +kernel

/-- A yoked gang of 64 lanes on cores 0 and 1: its next block takes two units on each. -/
theorem test_witness_splitBlocks :
    let s := withGg pages fun gg => { gg with
      launch := { gg.launch with yoke := 2, width := 64 }, place := some { cluster := 0, cores := [0], yoked := [1] } }
    2 ≤ (ggOf s).launch.yoke ∧ 32 < (ggOf s).launch.width ∧ yokedCore (ggOf s) 0 = some 1 ∧ (freeBlock s gRef).isSome = true := by
  decide +kernel

/-- A team with an initialised point 23 and a ring 7 of two slots. -/
def synced : State := withTm pages fun t =>
  { t with points := t.points.set 23 { e := 2, count := 1, phase := 1, bitmap := 0 }
           rings := t.rings.set 7 { base := 0x400, slotBytes := 8192, slots := 2, next := 0, take := 1, filled := 1, free := 1, taken := [0],
                                    phases := 2 } }
theorem test_witness_RendezvousAndStageRings :
    GangsDistinct synced ∧ Issues synced gRef (xOf synced) ∧ RegsOk (xOf synced) ∧ findTeam synced (grefTeam gRef) = some (tmOf synced) ∧
    (tmOf synced).points[23]? = some { e := 2, count := 1, phase := 1, bitmap := 0 } ∧
    (tmOf synced).points[0]? = some { e := 0, count := 0, phase := 0, bitmap := 0 } ∧ (xOf synced).wait = none ∧
    tabGet (xOf (withX synced fun x => { x with phases := [(23, 0)] })).phases 23 = some 0 ∧
    (∀ r, tabGet (xOf synced).phases 23 = some r → r + 1 ≠ 1) ∧
    (tmOf synced).rings[7]? = some { base := 0x400, slotBytes := 8192, slots := 2, next := 0, take := 1, filled := 1, free := 1, taken := [0],
                                     phases := 2 } ∧
    mayTake (tmOf synced) 7 (gRef.grp + 1) synced.time = true ∧ (tmOf synced).drains = [] ∧ arrivalHeld (xOf synced) = false ∧
    arrivalHeld (xOf (withX synced fun x => { x with stores := [{ id := 9, done := 0, holds := 1, remote := [], team := true }] })) = true ∧
    (tmOf synced).rings[0]? = some { base := 0, slotBytes := 0, slots := 0, next := 0, take := 0, filled := 0, free := 0, taken := [], phases := 0 } := by
  refine ⟨?_, ?_, ?_, ?_, ?_, ?_, ?_, ?_, ?_, ?_⟩ <;> try unfold GangsDistinct
  all_goals try unfold Issues
  all_goals try unfold RegsOk
  all_goals decide +kernel

/-- No sequencer takes the ring's slot, or one stands at a word that does. -/
theorem test_witness_seqTakes :
    seqTakes synced (grefTeam gRef) 7 = false ∧
    seqTakes { loadMatrixWord State.reset (0b0010#4 ++ 0#2 ++ 7#3 ++ 1#3 ++ 0#20).toNat with focus := .group gRef } (grefTeam gRef) 7 = true := by
  decide +kernel

theorem test_witness_BoostFollowsThePool :
    let s : State := { pages with pl := { pages.pl with leases := [{ ctx := 1, cluster := 0, bin := 6, stop := 8000 }], refillAt := 0 } }
    Issues s gRef (xOf s) ∧ RegsOk (xOf s) ∧ findGang s 1 = some (ggOf s) ∧ physCluster s (clusterOf (ggOf s)) = 0 ∧ (ggOf s).ctx = 1 ∧
    (5#3).toNat ≤ (clusterRegs s 0).binBase.toNat ∧ ¬ ((6#3).toNat ≤ (clusterRegs s 0).binBase.toNat ∨ 1 ≤ computeState s (stackOf 0) ∨
      2 ≤ s.pl.powerStep ∨ (dev s).pool = 0) ∧ sGet (xOf (setS [(4, 70000)] s)) 4 ≠ 0 ∧ s.pl.refillAt ≤ s.time ∧
    s.pl.leases = [{ ctx := (ggOf s).ctx, cluster := 0, bin := 6, stop := 8000 }] ++ [] ∧ (s.pl.leases.map fun l => (l.stop - s.time) / 4000) = [2] ∧
    State.reset.time < State.reset.pl.refillAt := by unfold Issues RegsOk; decide +kernel

/-! ### Memory -/

def leavesOf (s : State) (a : Access) (n : Nat) : List Leaf :=
  ((checkAll s (ctxOf s gRef) ((activeLanes (xOf s)).map (laneAddr (xOf s) 6 0)) n a).toOption).getD []
theorem leavesOf_ok {s : State} {a : Access} {n : Nat}
    (h : (checkAll s (ctxOf s gRef) ((activeLanes (xOf s)).map (laneAddr (xOf s) 6 0)) n a).toOption = some (leavesOf s a n)) :
    checkAll s (ctxOf s gRef) ((activeLanes (xOf s)).map (laneAddr (xOf s) 6 0)) n a = .ok (leavesOf s a n) := ok_of h

/-- One lane of a NORMAL page, of a SWEPT page and of the window. -/
theorem test_witness_LoadsTakeTheirData :
    Issues (at_ 0x10000) gRef (xOf (at_ 0x10000)) ∧ (xOf (at_ 0x10000)).loads.length < 62 ∧
    regCauses (xOf (at_ 0x10000)) false [(8, widthRegs 4), (6, 2)] = 0 ∧
    (∀ p ∈ [(0x10000, 0), (0x1FFFC, 0), (0x20000, 1), (0x2FFFC, 1)],
      let s := at_ p.1
      (checkAll s (ctxOf s gRef) ((activeLanes (xOf s)).map (laneAddr (xOf s) 6 0)) 4 .load).toOption = some (leavesOf s .load 4) ∧
      (leavesOf s .load 4).length = 1 ∧ anyPoison s gRef (leavesOf s .load 4) 4 = false ∧
      coreRoom s gRef (activeLanes (xOf s)).length = true ∧
      ∀ l ∈ leavesOf s .load 4, l.mtype = p.2 ∧ isRemote s l.pa = false ∧ readWaits s gRef l = false) ∧
    (let s := at_ 0x10000
     (checkAll s (ctxOf s gRef) ((activeLanes (xOf s)).map (laneAddr (xOf s) 6 0)) 4 .column).toOption = some (leavesOf s .load 4)) ∧
    (let s := at_ 0x30008
     (checkAll s (ctxOf s gRef) ((activeLanes (xOf s)).map (laneAddr (xOf s) 6 0)) 8 .load).toOption = some (leavesOf s .load 8) ∧
      ∀ l ∈ leavesOf s .load 8, l.mtype = 2 ∧ isRemote s l.pa = false ∧ readWaits s gRef l = false) := by unfold Issues; decide +kernel

/-- A lane of another package's memory, where that package is present. -/
theorem test_witness_remoteLoad (h : Config.present 1 = true) :
    let s := put (at_ 0x60000) (loaderTable 4 + 48) (natLE 8 (2 ^ 43 + 0x30000 + 0xB))
    Issues s gRef (xOf s) ∧ ((translate s 1 0x60000).map fun l => (l.pa, l.mtype)) = some (2 ^ 43 + 0x30000, 0) ∧ isRemote s (2 ^ 43 + 0x30000) = true ∧
    coordPresent s (coordOf s 1) = true := by
  refine ⟨by unfold Issues; decide +kernel, by decide +kernel, by decide +kernel, ?_⟩
  unfold coordPresent
  rw [show coordOf (put (at_ 0x60000) (loaderTable 4 + 48) (natLE 8 (2 ^ 43 + 0x30000 + 0xB))) 1 = 1 by decide +kernel, h, Bool.or_true]

def withTime (n : Nat) (s : State) : State := { s with time := n }
theorem test_witness_StoresWriteTheirBytes :
    LinesOk pages ∧ (xOf pages).wait = none ∧ (xOf pages).stores.length < 62 ∧ instOf pages (some gRef) = none ∧ pages.mm.narrow = [] ∧
    Memory.wf pages.mm.mem = true ∧
    (∀ p ∈ [(0x10000, 0), (0x1FFFC, 0), (0x20000, 1)],
      let s := withTime 100 (at_ p.1)
      Issues s gRef (xOf s) ∧ regCauses (xOf s) false [(9, widthRegs 4), (6, 2)] = 0 ∧ coreRoom s gRef 1 = true ∧ fenceReady s (xOf s) 5 = true ∧
      (checkAll s (ctxOf s gRef) ((activeLanes (xOf s)).map (laneAddr (xOf s) 6 0)) 4 .store).toOption = some (leavesOf s .store 4) ∧
      ∀ l ∈ leavesOf s .store 4, l.mtype = p.2 ∧ isRemote s l.pa = false ∧ waitsToWrite s l.mlock l.pa (some gRef) s.fresh = false ∧
        ∀ k, k < 4 → PlainLine s ((l.pa + k) / 32)) ∧
    fenceReady (at_ 0x10000) (xOf (at_ 0x10000)) 5 = false := by
  unfold LinesOk Issues PlainLine; decide +kernel

def errOf (s : State) (a : Access) (n : Nat) : Nat :=
  match checkAll s (ctxOf s gRef) ((activeLanes (xOf s)).map (laneAddr (xOf s) 6 0)) n a with
  | .ok _ => 0
  | .error b => b.toNat
theorem test_witness_AccessesThatFailAreNotPerformed :
    Issues (at_ 0x10001) gRef (xOf (at_ 0x10001)) ∧ regCauses (xOf (at_ 0x10001)) false [(8, widthRegs 4), (6, 2)] = 0 ∧
    errOf (at_ 0x10001) .load 4 = cAlign.toNat ∧ errOf (at_ 0x900000) .store 4 = cPage.toNat ∧ errOf (at_ 0x40000) .store 4 = cPerm.toNat ∧
    errOf (at_ 0x900001) .load 4 = (cAlign ||| cPage).toNat ∧ errOf (at_ 0x20000) .column 4 = cPerm.toNat ∧
    errOf (at_ 0x20001) .column 4 = (cAlign ||| cPerm).toNat := by unfold Issues; decide +kernel

theorem test_witness_AtomicsPerformTheTable :
    let s := at_ 0x1FFFC
    LinesOk s ∧ Issues s gRef (xOf s) ∧ (xOf s).wait = none ∧ instOf s (some gRef) = none ∧ anyPoison s gRef (leavesOf s .atomic 4) 4 = false ∧
    coreRoom s gRef 1 = true ∧
    (checkAll s (ctxOf s gRef) ((activeLanes (xOf s)).map (laneAddr (xOf s) 6 0)) 4 .atomic).toOption = some (leavesOf s .atomic 4) ∧
    (leavesOf s .atomic 4).length = 1 ∧ activeLanes (xOf s) = [0] ∧
    (∀ l ∈ leavesOf s .atomic 4, isRemote s l.pa = false ∧ waitsToWrite s l.mlock l.pa (some gRef) s.fresh = false ∧ l.mtype = 0 ∧ PlainLine s (l.pa / 32)) ∧
    regCauses (xOf s) false [(6, 2), (10, 2), (8, 1)] = 0 := by unfold LinesOk Issues PlainLine; decide +kernel

theorem test_witness_MwaitCompletesOrArmsAMonitor :
    let s := setV [(10, 0, 5)] (at_ 0x10000)
    Issues s gRef (xOf s) ∧ (xOf s).wait = none ∧ activeLanes (xOf s) = [0] ∧ regCauses (xOf s) false [(6, 2), (10, 2)] = 0 ∧
    (let r := (checkAccess s (ctxOf s gRef) (laneAddr (xOf s) 6 0 0) 4 .mwait).toOption.toList
     r.length = 1 ∧ s.mm.narrow = [] ∧ ∀ l ∈ r, anyPoison s gRef [l] 4 = false ∧ isRemote s l.pa = false ∧ readWaits s gRef l = false ∧ l.mtype = 0 ∧
       leNat (homeRead s l.pa 4 (some gRef)) = 5) := by unfold Issues; decide +kernel

theorem test_witness_ScratchpadAccessesReadAndWrite :
    let s := withGg (setV [(3, 0, 8176), (4, 0, 7168)] (only 1 pages)) fun gg => { gg with launch := { gg.launch with ringEntries := 0 } }
    GangsDistinct s ∧ Issues s gRef (xOf s) ∧ findTeam s (grefTeam gRef) = some (tmOf s) ∧ (tmOf s).stash = [] ∧ TeamOk (tmOf s) ∧
    regCauses (xOf s) false [(8, widthRegs 16), (3, 1)] = 0 ∧
    (∀ o ∈ (activeLanes (xOf s)).map (laneScratch (xOf s) 3 0), o % 16 = 0 ∧ o + 16 ≤ scratchLimit (tmOf s) ∧ o + 16 ≤ 2 ^ 20) ∧
    findGang s 1 = some (ggOf s) ∧ (ggOf s).launch.ringEntries = 0 ∧ activeLanes (xOf s) = [0] ∧ (xOf s).width ≤ 64 ∧
    regCauses (xOf s) false [(8, 4), (4, 1)] = 0 ∧ (xOf s).tiles.length < 62 ∧
    7168 + 16 * (xOf s).width ≤ scratchLimit (tmOf s) := by unfold GangsDistinct Issues TeamOk; decide +kernel

def busy : State := withX pages fun x =>
  { x with loads := [{ id := 1, writes := [(512, 7)], regs := [8], issued := 0, servedAt := 0, todo := [], holds := 0, acquire := true, remote := [],
                       beyond := false }]
           stores := [{ id := 2, done := 5, holds := 0, remote := [] }], tiles := [{ writes := [(513, 9)], regs := [8] }] }
theorem uncontained_of {s : State} {g : GRef} (h : instOf s (some g) = none) (hc : containedOf s (some g) = none) : Uncontained s g :=
  ⟨hc, fun n hn => by rw [h] at hn; cases hn⟩
/-- A leaf of another package's page, with and without a copy in the group's own L1. -/
theorem test_witness_copyServes :
    let l : Leaf := { pa := 2 ^ 43 + 0x30000, size := 65536, at_ := 0, mlock := false, cont := false, lease := 0, mtype := 0, kind := 0, x := false, w := true }
    let s := at_ 0x10000
    let s1 := modMm s fun m => { m with l1 := [{ core := coreIdOf s gRef, line := l.pa / 32, data := List.replicate 32 7, expiry := 100, fill := 50 }] }
    Uncontained s gRef ∧ copyServes s gRef (coreIdOf s gRef) (xOf s).acq 0 l = false ∧ isRemote s l.pa = true ∧
    copyServes s1 gRef (coreIdOf s1 gRef) (xOf s1).acq 0 l = true := by
  exact ⟨uncontained_of (by decide +kernel) (by decide +kernel), by decide +kernel⟩

/-- Stores to a register and, of a contained instance, to a CONT page. -/
def contained : State := 
  let s := put (at_ 0x70000) (loaderTable 4 + 56) (pte (at_ 0x70000) 0x80000 0x80B)
  let nd : NodeInst := { kind := 1, addr := 0, arming := [], state := .started, start := 0, rollbacks := 0, escaped := false, quota := 1024, reason := none,
                         status := 0, peer := 0, gangsLeft := 1, doneAt := none, engine := Engine.idle }
  let r : Replay := { handle := 1, ctx := 1, seqno := 1, ptab := 0, nodes := [nd], done := false, killed := false, cores := [], failedScan := false, settled := false }
  let s := withGg s fun gg => { gg with node := some { replay := 4, node := 0 }, launch := { gg.launch with contain := true } }
  { s with wk := { s.wk with replays := [(4, r)] } }

theorem test_witness_otherStores :
    (let s := at_ 0x30008
     Issues s gRef (xOf s) ∧ (xOf s).wait = none ∧ (checkAll s (ctxOf s gRef) ((activeLanes (xOf s)).map (laneAddr (xOf s) 6 0)) 8 .store).toOption = some (leavesOf s .store 8) ∧
     (leavesOf s .store 8).length = 1 ∧ ∀ l ∈ leavesOf s .store 8, l.mtype = 2 ∧ isRemote s l.pa = false ∧ waitsToWrite s l.mlock l.pa (some gRef) s.fresh = false) ∧
    (let s := contained
     LinesOk s ∧ Issues s gRef (xOf s) ∧ (xOf s).wait = none ∧ coreRoom s gRef 1 = true ∧ Memory.wf s.mm.mem = true ∧
     (checkAll s (ctxOf s gRef) ((activeLanes (xOf s)).map (laneAddr (xOf s) 6 0)) 4 .store).toOption = some (leavesOf s .store 4) ∧
     (leavesOf s .store 4).length = 1 ∧ containedOf s (some gRef) = some { replay := 4, node := 0 } ∧
     ∀ l ∈ leavesOf s .store 4, l.mtype = 0 ∧ l.cont = true ∧ isRemote s l.pa = false ∧ waitsToWrite s l.mlock l.pa (some gRef) s.fresh = false ∧
       overQuota s { replay := 4, node := 0 } (l.pa / 32) = false ∧ ∀ k, k < 4 → PlainLine s ((l.pa + k) / 32)) ∧
    (let s := withTime 100 (at_ 0x10000)
     containedOf s (some gRef) = none ∧ s.mm.monitors = [] ∧ fenceReady s (xOf s) 4 = true ∧
     ∀ p ∈ s.wk.gangs, ∀ tm ∈ p.2.teams, ∀ z ∈ tm.groups, z.wait = none) := by
  unfold LinesOk Issues PlainLine; decide +kernel

/-- Two lanes name one word. -/
theorem test_witness_atomicsInOrder :
    let s := only 3 (setV [(6, 1, 0x1FFFC)] (at_ 0x1FFFC))
    Uncontained s gRef ∧ LinesOk s ∧ Issues s gRef (xOf s) ∧ anyPoison s gRef (leavesOf s .atomic 4) 4 = false ∧ coreRoom s gRef 2 = true ∧
    (checkAll s (ctxOf s gRef) ((activeLanes (xOf s)).map (laneAddr (xOf s) 6 0)) 4 .atomic).toOption = some (leavesOf s .atomic 4) ∧
    activeLanes (xOf s) = [0, 1] ∧ ((leavesOf s .atomic 4).map Leaf.pa) = [ownPhys s 0x3FFFC, ownPhys s 0x3FFFC] ∧
    ∀ l ∈ leavesOf s .atomic 4, isRemote s l.pa = false ∧ waitsToWrite s l.mlock l.pa (some gRef) s.fresh = false ∧ l.mtype = 0 ∧
      PlainLine s (l.pa / 32) := by
  refine ⟨uncontained_of (by decide +kernel) (by decide +kernel), ?_⟩
  unfold LinesOk Issues PlainLine; decide +kernel

/-- A publishing STS of lane 0: without the role, with more entries than its ring holds, before its release, and ready. -/
def publisher (role : Bool) (n time : Nat) : State :=
  withTime time (withX (withGg (setV [(3, 0, 7168), (9, 0, n)] (only 1 pages)) fun gg =>
    { gg with launch := { gg.launch with notify := 7168, ringBase := 6144, ringEntries := 16 } }) fun x => { x with copyRole := role })
theorem test_witness_publishingStores :
    (∀ p ∈ [(false, 1, 100), (true, 17, 100), (true, 1, 4), (true, 1, 100)],
      let s := publisher p.1 p.2.1 p.2.2
      let offs := (activeLanes (xOf s)).map (laneScratch (xOf s) 3 0)
      GangsDistinct s ∧ Issues s gRef (xOf s) ∧ (tmOf s).stash = [] ∧ TeamOk (tmOf s) ∧ regCauses (xOf s) false [(9, widthRegs 4), (3, 1)] = 0 ∧
      (∀ o ∈ offs, o % 4 = 0 ∧ o + 4 ≤ scratchLimit (tmOf s) ∧ o + 4 ≤ 2 ^ 20) ∧ (xOf s).stores.length < 62 ∧ 0 < (ggOf s).launch.ringEntries ∧
      ((((activeLanes (xOf s)).zip offs).filter fun q => decide (q.2 < (ggOf s).launch.notify + 4 ∧ (ggOf s).launch.notify < q.2 + 4)).getLast?) =
        some (0, 7168) ∧ (xOf s).copyRole = p.1 ∧ ((vGet (xOf s) 9 0).toNat + 2 ^ 32 - leNat (smRange (tmOf s).scratch 7168 4)) % 2 ^ 32 = p.2.1 ∧
      (tmOf s).engine.published - (tmOf s).engine.takenIdx = 0 ∧ (xOf s).loads = [] ∧ (xOf s).stores = [] ∧ (xOf s).tiles = [] ∧
      (xOf s).lct + 8 ≤ 100 ∧ ¬ ((xOf s).lct + 8 ≤ 4) ∧ (xOf s).copies + 1 ≤ 62) := by
  unfold GangsDistinct Issues TeamOk; decide +kernel
theorem test_witness_OutstandingAccessesComplete :
    findTeam busy (grefTeam gRef) = some (tmOf busy) ∧ findGroup busy gRef = some (xOf busy) ∧ RegsOk (xOf busy) ∧ (xOf busy).retired = false ∧
    (xOf busy).loads.length = 1 ∧ (xOf busy).tiles.length = 1 ∧ (xOf busy).stores.length = 1 ∧ (xOf busy).wait = none := by
  unfold RegsOk; decide +kernel

theorem test_witness_CacheMaintenanceAndEviction :
    let s := setV [(9, 0, 33)] (after (.st 8 6 2 0 0) (at_ 0x10000))
    LinesOk s ∧ Safety.MemoryOk s ∧ regCauses (xOf s) false [(6, 2), (9, 1)] = 0 ∧ (xOf s).stores.length < 62 ∧ (xOf s).wait = none ∧ coreRoom s gRef 1 = true ∧
    (∀ a ∈ [Access.clean, .invalidate],
      let r := (checkAll s (ctxOf s gRef) ((namedLines (xOf s) 6 9).map (32 * ·)) 1 a).toOption
      r.isSome = true ∧ (r.getD []).length = 2 ∧ ∀ l ∈ r.getD [], l.mtype = 0 ∧ isRemote s l.pa = false ∧ PlainLine s (l.pa / 32) ∧ cacheWaits s gRef (l.pa / 32) = false) ∧
    (homeOf s (ownPhys s 0x30000 / 32)).dirty = true ∧ (homeOf s (ownPhys s 0x30000 / 32)).writes = [] ∧ (homeOf State.reset 0).writes = [] ∧ (homeOf State.reset 0).llc = none := by
  unfold LinesOk Safety.MemoryOk PlainLine; decide +kernel

theorem test_witness_StashInstructionsMapAndWriteBack :
    let s := setV [(3, 0, 0)] (at_ 0x10000)
    let s1 := after (.smap 6 3) s
    GangsDistinct s ∧ LinesOk s ∧ Issues s gRef (xOf s) ∧ (xOf s).wait = none ∧ findGang s 1 = some (ggOf s) ∧ (ggOf s).node = none ∧
    TeamOk (tmOf s) ∧ s.mm.narrow = [] ∧ activeLanes (xOf s) = [0] ∧ regCauses (xOf s) false [(6, 2), (3, 1)] = 0 ∧
    (checkAccess s 1 (laneAddr (xOf s) 6 0 0) 4096 .load).toOption.isSome = true ∧ allStash s = [] ∧ 0 + 4096 ≤ scratchLimit (tmOf s) ∧
    blockBusy (ggOf s).launch 0 = false ∧
    GangsDistinct s1 ∧ LinesOk s1 ∧ TeamOk (tmOf s1) ∧ (xOf s1).wait = none ∧
    allStash s1 = [(grefTeam gRef, { off := 0, va := 0x10000, addr := ownPhys s 0x30000, filled := 0, dirty := 0 })] ∧
    stashLocked s1 (grefTeam gRef) { off := 0, va := 0x10000, addr := ownPhys s 0x30000, filled := 0, dirty := 0 } = false ∧
    (let s2 := put s1 (loaderTable 4 + 8) (pte s 0x30000 0x100B)
     let m : Stash := { off := 0, va := 0x10000, addr := ownPhys s 0x30000, filled := 1, dirty := 1 }
     let s3 := withTm s2 fun t => { t with stash := [m] }
     allStash s3 = [(grefTeam gRef, m)] ∧ stashLocked s3 (grefTeam gRef) m = true ∧ m.dirty ≠ 0 ∧ (xOf s3).stores.length < 62) := by
  unfold GangsDistinct LinesOk Issues TeamOk; decide +kernel

/-- The stash of test_witness_StashInstructionsMapAndWriteBack, filled and dirty, on a page that is locked or not. -/
def stashed (flags : Nat) : State :=
  let s := put (at_ 0x10000) (loaderTable 4 + 8) (pte (at_ 0x10000) 0x30000 flags)
  withTm (setV [(3, 0, 0)] s) fun t => { t with stash := [{ off := 0, va := 0x10000, addr := ownPhys s 0x30000, filled := 1, dirty := 1 }] }
theorem test_witness_stashHeld :
    ∀ p ∈ [(0xB, false), (0x100B, true)],
      let s := stashed p.1
      let m : Stash := { off := 0, va := 0x10000, addr := ownPhys s 0x30000, filled := 1, dirty := 1 }
      GangsDistinct s ∧ LinesOk s ∧ (xOf s).wait = none ∧ TeamOk (tmOf s) ∧ allStash s = [(grefTeam gRef, m)] ∧ m.off + 4096 ≤ scratchLimit (tmOf s) ∧
      m.addr % 4096 = 0 ∧ (∀ i, i < 128 → execFrame s (m.addr + 32 * i) = false) ∧ stashHeld s (grefTeam gRef) m = p.2 ∧
      regCauses (xOf s) false [(3, 1)] = 0 ∧ vGet (xOf s) 3 0 = BitVec.ofNat 32 m.off := by
  unfold GangsDistinct LinesOk TeamOk; decide +kernel


/-! ### The sweep -/

/-- A bank program of XEND alone at 0x60000; a descriptor at 0x10100 (SWREG) and one at 0x10200 (BKCMD), of one row at 0x20000. -/
def sweepy : State :=
  let s := put pages (loaderTable 4 + 48) (pte pages 0x70000 0x53)
  let s := put s 0x30100 (natLE 8 0x20000 ++ natLE 4 1 ++ [1, 0, 0, 0] ++ natLE 8 0x60000)
  let s := put s 0x30200 (natLE 8 0x20000 ++ natLE 4 1 ++ [3, 0, 0, 0] ++ natLE 8 0x60000 ++ List.replicate 40 0 ++ natLE 8 0x10008)
  only 1 (modMm s fun m => { m with execMaps := [{ ctx := 1, vbase := 0, units := 7, frames := [(0, ownPhys s loaderPage / 65536), (6, ownPhys s 0x70000 / 65536)] }] })
def descAt (s : State) (bank : Bool) : Descriptor :=
  ((readDesc s 1 (laneAddr (xOf s) 6 0 0) (some gRef) bank).toOption).getD (descOf 0 bank)
def sreg : State := setV [(6, 0, 0x10100)] sweepy
def bkcmd : State := setV [(6, 0, 0x10200)] sweepy
/-- Registered: the row at 0x20000 is the last that the drover of its pseudo-channel visited, or the next. -/
def regOf : Registration := (acceptReg sreg 1 (descAt sreg false) [0] none).getD
  { handle := 0, ctx := 0, mode := 0, pc := 0, firstOrd := 0, count := 0, offsets := [], program := [], consts := [], applied := [], skipped := [], node := none }
def swept : State := modSw (setV [(6, 0, 0x20000)] sweepy) fun w =>
  { w with regs := [regOf], drovers := [(regOf.pc, { ord := (regOf.firstOrd + 786431) % 786432, pass := 3 })] }

theorem test_witness_SweepInstructionsAndTheDrover :
    Issues sreg gRef (xOf sreg) ∧ RegsOk (xOf sreg) ∧ instOf sreg (some gRef) = none ∧ regCauses (xOf sreg) false [(6, 2)] = 0 ∧
    (readDesc sreg 1 (laneAddr (xOf sreg) 6 0 0) (some gRef) false).toOption = some (descAt sreg false) ∧ (descAt sreg false).wellFormed = true ∧
    programWords sreg 1 (descAt sreg false).program 16 = some [0] ∧ programWords sreg 1 0x70000 16 = none ∧
    (let s := setV [(6, 0, 0x20000)] sweepy
     ((translate s 1 (laneAddr (xOf s) 6 0 0)).map fun l => (l.mtype, isRemote s l.pa)) = some (1, false)) ∧
    (xOf sreg).stores.length < 62 ∧ (xOf sreg).wait = none ∧ sreg.sw.regs = [] ∧
    acceptReg sreg 1 (descAt sreg false) [0] none = some regOf ∧ acceptReg sreg 1 (descOf (2 ^ 64) false) [0] none = none ∧
    queueOf swept regOf.pc regOf.firstOrd = [(regOf, regOf.firstOrd)] ∧ regOf.mode = 1 ∧ appliedAt regOf regOf.firstOrd = none ∧
    appliedAt { regOf with applied := [(regOf.firstOrd, 0)] } regOf.firstOrd = some 0 := by unfold Issues RegsOk; decide +kernel

/-- The handle of a registration stands in a scalar register. -/
theorem test_witness_swdel :
    ((swept.sw.regs.find? fun r => r.ctx == 1 && handleWord r.handle == sGet (sSet (xOf swept) 4 (handleWord regOf.handle)) 4) = some regOf) := by
  have h := sGet_sSet (x := xOf swept) (by unfold RegsOk; decide +kernel) 4 4 (handleWord regOf.handle)
  rw [h, show swept.sw.regs = [regOf] from rfl]
  simp [show regOf.ctx = 1 by decide +kernel]

def asking (q : DroverReq) : State := modSw swept fun w => { w with reqs := [q] }
theorem test_witness_droverRequests :
    findGroup swept gRef = some (xOf swept) ∧ RegsOk (xOf swept) ∧
    (asking (.position gRef 1 63 0x40000)).sw.reqs[0]? = some (.position gRef 1 63 0x40000) ∧
    (asking (.register (some gRef) none 1 1 (descAt sreg false) [0])).sw.reqs[0]? = some (.register (some gRef) none 1 1 (descAt sreg false) [0]) ∧
    (droverOf swept regOf.pc).ord < 2 ^ 31 := by unfold RegsOk; decide +kernel

theorem test_witness_VisitsAndBankCommandsLoadTheRestoreUnit :
    turnOf State.reset 0 0 = none ∧ turnOf swept regOf.pc regOf.firstOrd = some regOf ∧
    ((droverOf swept regOf.pc).ord + 1) % 786432 = regOf.firstOrd ∧
    stripePoisoned swept (stripeRows regOf.pc regOf.firstOrd regOf.offsets) regOf.program = false ∧
    Issues bkcmd gRef (xOf bkcmd) ∧ instOf bkcmd (some gRef) = none ∧ (xOf bkcmd).bankCmds < Config.bankCmdMax ∧
    (readDesc bkcmd 1 (laneAddr (xOf bkcmd) 6 0 0) (some gRef) true).toOption = some (descAt bkcmd true) ∧
    (descAt bkcmd true).wellFormed = true ∧ stampOk bkcmd 1 (descAt bkcmd true).stamp = true ∧ stampOk bkcmd 1 0x900000 = false ∧
    programWords bkcmd 1 (descAt bkcmd true).program 16 = some [0] := by unfold Issues; decide +kernel

def cmd0 : BankCmd := { ctx := 1, who := some gRef, node := none, desc := { descAt bkcmd true with rows := 2 }, program := [0], done := [], fault := false }
def commanded : State := { modSw bkcmd fun w => { w with cmds := [(5, cmd0)] } with fresh := 6 }
theorem test_witness_bankStripe :
    tabGet commanded.sw.cmds 5 = some cmd0 ∧ 5 ≤ commanded.fresh ∧ 1 < cmd0.desc.rows ∧ 1 ∉ cmd0.done ∧ cmd0.stamping = false ∧ cmd0.done.length + 1 < cmd0.desc.rows ∧
    (let r := (commandRows commanded cmd0 1).toList
     r.length = 1 ∧ ∀ rs ∈ r, (∀ p ∈ rs, p.2 = false ∧ memStackState commanded (stackAt p.1) ≠ 4) ∧
       stripePoisoned commanded (rs.map Prod.fst) cmd0.program = false) := by decide +kernel

/-- The second row lies on a hot stack; it holds an error that the program reads; it is not mapped, and the stamp's page is. -/
theorem test_witness_bankStripe_held :
    (let r := ((commandRows commanded cmd0 1).getD []).map Prod.fst
     r ≠ [] ∧
     (let s : State := { commanded with pl := { commanded.pl with memState := r.map fun a => (stackAt a, 4) } }
      ((commandRows s cmd0 1).getD []).any (fun p => memStackState s (stackAt p.1) == 4) = true) ∧
     stripePoisoned (modMm commanded fun m => { m with poison := r.map fun a => ownPhys commanded a / 4 }) r [0x08000000] = true) ∧
    (let c := { cmd0 with desc := { cmd0.desc with lead := 0x900000 } }
     commandRows commanded c 1 = none ∧ c.node = none ∧ c.who = some gRef ∧ findGroup commanded gRef = some (xOf commanded) ∧ LinesOk commanded ∧
       c.desc.stamp = 0x10008 ∧ PlainLine commanded (ownPhys commanded 0x30008 / 32) ∧
       goodTarget commanded 0x10008 = true ∧ physOf commanded 0x10008 = some (ownPhys commanded 0x30008) ∧ ownPhys commanded 0x30008 % 8 = 0) := by unfold LinesOk PlainLine; decide +kernel

/-- The restore unit over a stripe of two rows; the second has been written. -/
def restoring (j : RestoreJob) : State :=
  { modSw commanded fun w => { w with
      regs := [regOf], restore := { Restore.idle with rowAt := [0x40000, 0x40800], rows := [[], [(2047, 1)]], written := [false, true], program := [0],
                                                      running := true, job := j, x := [[(0, 1)], [], [], []] } } with focus := .restore }
theorem test_witness_BankWordsActOnRows :
    let s := restoring (.stripe 5 0)
    s.focus = .restore ∧ s.sw.restore.x.length = 4 ∧ (∀ r ∈ s.sw.restore.x, smWf r = true) ∧ (5#3).toNat < 6 ∧ (2#3).toNat < 3 ∧
    (1#2).toNat < s.sw.restore.rows.length ∧ s.sw.restore.rows.length ≤ (2#2).toNat ∧ s.sw.restore.written.length ≤ (2#2).toNat ∧
    Safety.MemoryOk s ∧ s.sw.restore.rowAt.length = s.sw.restore.rows.length ∧ s.sw.restore.rowAt.length = s.sw.restore.written.length ∧
    s.sw.restore.rowAt.Nodup ∧ (∀ a ∈ s.sw.restore.rowAt, a % 2048 = 0) ∧ (∀ m ∈ s.sw.restore.rows, smWf m = true ∧ ∀ p ∈ m, p.1 < 2048) ∧
    tabGet s.sw.cmds 5 = some cmd0 ∧ cmd0.done.length + 1 < cmd0.desc.rows ∧
    (restoring (.visit regOf.handle regOf.pc regOf.firstOrd)).sw.regs = [regOf] := by unfold Safety.MemoryOk; decide +kernel

/-! ### Ladders, signals, the sequencer -/

def rung0 (q : List (List Word × Nat)) : Rung :=
  { launch := { loaderLaunch 0 with width := 16 }, limit := 1, queue := q, partials := 0, full := 0, entered := q.length, escalated := 0, formed := 0 }
/-- A bound ladder of two rungs; 0x10000 holds its results. -/
def ladder0 : Ladder :=
  { ctx := 1, addr := 0x10100, order := 0, words := 2, window := 16, result := 0x10000, progress := 0x10200, doneList := 0, lane := 0,
    rungs := [rung0 [], rung0 [([1, 7], 0)]], nextIndex := 2, retired := [], counted := 0, passes := [], released := 0 }
def laddered : State :=
  let s := setV [(6, 0, 0x10100)] (at_ 0x10100)
  { s with time := 100000, wk := { s.wk with ladders := [(3, ladder0)] } }
def body0 : Body := { ladder := 3, rung := 0, words := 2, items := [(0, 1)], left := 0 }
def inBody (n : Nat) : State := withX laddered fun x => { x with body := some { body0 with rung := n } }

theorem test_witness_LaddersMoveTheirItems :
    Issues laddered gRef (xOf laddered) ∧ RegsOk (xOf laddered) ∧ instOf laddered (some gRef) = none ∧ (xOf laddered).wait = none ∧
    fenceReady laddered (xOf laddered) 3 = true ∧ (ladderAt laddered 1 (vGet64 (xOf laddered) 6 0).toNat).map Prod.fst = some 3 ∧
    (ladderAt laddered 1 (vGet64 (xOf laddered) 6 0).toNat).map Prod.snd = some ladder0 ∧
    tabGet laddered.wk.ladders 3 = some ladder0 ∧ regCauses (xOf laddered) false [(6, 2), (8, ladder0.words)] = 0 ∧
    pushFits laddered 3 ladder0 gRef laddered.time 1 = true ∧ 1 ≤ ladder0.window ∧
    pushFits laddered 3 { ladder0 with nextIndex := 16 } gRef laddered.time 1 = false ∧
    Issues (inBody 0) gRef (xOf (inBody 0)) ∧ (xOf (inBody 0)).body = some body0 ∧ RegsOk (xOf (inBody 0)) ∧ LinesOk (inBody 0) ∧
    tabGet (inBody 0).wk.ladders 3 = some ladder0 ∧ activeLanes (xOf (inBody 0)) = [0] ∧ itemOf body0 0 = some 1 ∧
    itemOf { body0 with left := 1 } 0 = none ∧ ladder0.rungs.length ≤ 1 + 1 ∧ ladder0.rungs[1]? = some (rung0 [([1, 7], 0)]) ∧
    regCauses (xOf (inBody 0)) false [(1, 1)] = 0 ∧ 1 ≠ ladder0.counted ∧ ladder0.retired = [] ∧
    goodTarget (inBody 0) (ladder0.result + 4) = true ∧ physOf (inBody 0) (ladder0.result + 4) = some (ownPhys laddered 0x30004) ∧ PlainLine (inBody 0) (ownPhys laddered 0x30004 / 32) := by
  unfold Issues RegsOk LinesOk PlainLine; decide +kernel

theorem test_witness_laddone :
    ladder0.order = 0 ∧ itemOf { body0 with items := [(0, 0)] } 0 = some 0 ∧ ladder0.counted = 0 ∧
    goodTarget (inBody 0) ladder0.progress = true ∧ physOf (inBody 0) ladder0.progress = some (ownPhys laddered 0x30200) ∧ PlainLine (inBody 0) (ownPhys laddered 0x30200 / 32) ∧
    ownPhys laddered 0x30200 / 32 ≠ ownPhys laddered 0x30000 / 32 ∧ fenceReady (inBody 0) (xOf (inBody 0)) 3 = true ∧
    fenceReady laddered { xOf laddered with loads := (xOf busy).loads } 3 = false ∧
    (xOf laddered).frames = none ∧ (xOf (withX laddered fun x => { x with frames := some [(0, [5])] })).frames = some [(0, [5])] := by
  unfold PlainLine; decide +kernel

/-- The queue of rung 0 holds all but one of the frames of a full group. -/
def almost : Ladder := { ladder0 with rungs := [rung0 (List.replicate 15 ([1, 7], 0)), rung0 []] }
theorem test_witness_fullGroup :
    let s : State := { laddered with wk := { laddered.wk with ladders := [(3, almost)] } }
    (ladderAt s 1 (vGet64 (xOf s) 6 0).toNat).map Prod.fst = some 3 ∧ tabGet s.wk.ladders 3 = some almost ∧ activeLanes (xOf s) = [0] ∧
    regCauses (xOf s) false [(6, 2), (8, almost.words)] = 0 ∧ fenceReady s (xOf s) 3 = true ∧ pushFits s 3 almost gRef s.time 1 = true ∧
    (rung0 (List.replicate 15 ([1, 7], 0))).launch.width = 16 ∧ GangsDistinct s ∧
    (rung0 [([1, 7], 0)]).queue.length + 1 < (rung0 []).launch.width := by unfold GangsDistinct; decide +kernel

/-- The state in which LADDONE has written the result of the item that stands next, at which the progress word is written. -/
def bodyNext : Body := { body0 with items := [(0, 0)] }
def nextDone : State := withX laddered fun x => { x with body := some bodyNext }
def placedResult : State × Written :=
  let y : Group := { advance (xOf nextDone) with body := some { bodyNext with left := bodyNext.left ||| maskOf [0] } }
  ladWrite { setGroup nextDone gRef y with fresh := nextDone.fresh + 1 } 1 ladder0.result 0 (vGet (xOf nextDone) 1 0).toNat (some gRef)
    (coreIdOf (setGroup nextDone gRef y) gRef) nextDone.fresh
theorem test_witness_progress :
    Uncontained nextDone gRef ∧ Issues nextDone gRef (xOf nextDone) ∧ RegsOk (xOf nextDone) ∧ LinesOk nextDone ∧ (xOf nextDone).wait = none ∧
    activeLanes (xOf nextDone) = [0] ∧ itemOf bodyNext 0 = some ladder0.counted ∧ ladder0.retired = [] ∧
    goodTarget nextDone ladder0.result = true ∧ physOf nextDone ladder0.result = some (ownPhys laddered 0x30000) ∧
    PlainLine nextDone (ownPhys laddered 0x30000 / 32) ∧ placedResult.2 = .at_ 100000 ∧ goodTarget placedResult.1 ladder0.progress = true ∧
    physOf placedResult.1 ladder0.progress = some (ownPhys laddered 0x30200) ∧ PlainLine placedResult.1 (ownPhys laddered 0x30200 / 32) ∧
    ownPhys laddered 0x30200 / 32 ≠ ownPhys laddered 0x30000 / 32 ∧ ladder0.progress % 4 = 0 := by
  refine ⟨uncontained_of (by decide +kernel) (by decide +kernel), ?_⟩
  unfold Issues RegsOk LinesOk PlainLine; decide +kernel

theorem test_witness_ladderGroup :
    (rung0 [([1, 7], 0)]).queue = ([1, 7], 0) :: [] ∧ 0 + (rung0 []).limit * Config.unitsPerNs ≤ laddered.time ∧ GangsDistinct laddered := by
  unfold GangsDistinct; decide +kernel

def xsigAt : State := withTime 100 pages
theorem test_witness_uncontained : ∀ s ∈ [sreg, bkcmd, laddered, inBody 0, xsigAt], Uncontained s gRef := by
  have h : ∀ s ∈ [sreg, bkcmd, laddered, inBody 0, xsigAt], instOf s (some gRef) = none ∧ containedOf s (some gRef) = none := by decide +kernel
  exact fun s hs => uncontained_of (h s hs).1 (h s hs).2

theorem test_witness_XsigSendsOneSignal :
    Issues xsigAt gRef (xOf xsigAt) ∧ instOf xsigAt (some gRef) = none ∧ coordPresent xsigAt (ownCoord xsigAt) = true ∧
    coordUnreachable xsigAt 0 = false ∧ (xOf xsigAt).stores.length < 62 ∧ fenceReady xsigAt (xOf xsigAt) 5 = true ∧
    fenceReady pages (xOf pages) 5 = false ∧
    coordUnreachable { xsigAt with pl := { xsigAt.pl with peers := [(7, { since := 0, unreachable := true, link := false })] } } 7 = true := by
  unfold Issues; decide +kernel

/-- The sequencer of a team with a ring of two slots of 16 KiB; slot format 1 is F16, format 2 is L6. -/
def seqs : State :=
  let s := withTm pages fun t => { t with
    seq := { t.seq with running := true }, scratchBytes := 32768
    points := t.points.set 23 { e := 2, count := 1, phase := 1, bitmap := 0 }
    rings := t.rings.set 7 { base := 0, slotBytes := 16384, slots := 2, next := 1, take := 0, filled := 1, free := 1, taken := [0], phases := 0 }
    taFmt := [some 1, none, none, none] }
  { withGg s fun gg => { gg with launch := { gg.launch with slots := [0, 1, 6, 7, 0, 0, 0, 0] } } with focus := .seq tRef }
theorem test_witness_SequencerWordsHaveTheirEffects :
    GangsDistinct seqs ∧ Sequences seqs tRef (ggOf seqs) (tmOf seqs) ∧ (∃ x ∈ (tmOf seqs).groups, x.retired = false) ∧
    (tmOf seqs).rings[7]? = some { base := 0, slotBytes := 16384, slots := 2, next := 1, take := 0, filled := 1, free := 1, taken := [0], phases := 0 } ∧
    (ringOf (tmOf seqs) 3).slots = 0 ∧ (tmOf seqs).drains = [] ∧ (tmOf seqs).points[23]? = some { e := 2, count := 1, phase := 1, bitmap := 0 } ∧
    (tmOf seqs).points[0]? = some { e := 0, count := 0, phase := 0, bitmap := 0 } ∧ (tmOf seqs).seq.wait = none ∧
    (tabGet (tmOf (withTm seqs fun t => { t with seq := { t.seq with phases := [(23, 0)] } })).seq.phases 23) = some 0 ∧
    tabGet (tmOf seqs).seq.phases 23 = none ∧ (tmOf seqs).seq.loops = [] ∧ causeGroup (tmOf seqs) 0 = some 0 ∧
    (tmOf seqs).groups[0]? = some (xOf seqs) := by unfold GangsDistinct Sequences; decide +kernel

theorem test_witness_MatrixWordsMoveAndMultiplyTiles :
    GangsDistinct seqs ∧ Sequences seqs tRef (ggOf seqs) (tmOf seqs) ∧ TeamOk (tmOf seqs) ∧
    (let f := Slot.ofWord (((ggOf seqs).launch.slots[1]?).getD 0)
     let l6 := Slot.ofWord (((ggOf seqs).launch.slots[2]?).getD 0)
     (tileK f.fmt).isSome = true ∧ l6.fmt = .l6 ∧ (tileK l6.fmt).isSome = true ∧ tileBytes l6.fmt ≤ 16384 ∧ (tmOf seqs).taFmt.length = 4 ∧
     (tileK (Slot.ofWord (((ggOf seqs).launch.slots[0]?).getD 0)).fmt).isNone = true ∧
     mmaK f.fmt f.fmt = some 32 ∧ tileMatches (tmOf seqs) 0 f.fmt = true ∧ 32 * (64 * (ggOf seqs).launch.yoke) * f.fmt.bits / 8 ≤ 16384 ∧
     (ggOf seqs).launch.yoke ≤ 4 ∧ f.fmt ≠ .fx64 ∧ f.fmt ≠ .reserved ∧ mstBytes (ggOf seqs) f ≤ 16384 ∧
     32 * (1#21).toNat + mstBytes (ggOf seqs) f ≤ scratchLimit (tmOf seqs)) ∧
    mayTake (tmOf seqs) 7 0 seqs.time = true ∧
    mayTake (tmOf (withTm seqs fun t => { t with rings := t.rings.set 7 { base := 0, slotBytes := 16384, slots := 2, next := 0, take := 0, filled := 0, free := 0, taken := [0, 1], phases := 0 } })) 7 0 0 = false ∧
    (tmOf seqs).drains = [] ∧ (tmOf seqs).stash = [] ∧ engineClaims seqs tRef 7 = false ∧ drainClaims seqs tRef 7 = false ∧
    (ringOf (tmOf seqs) 3).slots = 0 := by unfold GangsDistinct Sequences TeamOk; decide +kernel

/-- Slots that a matrix word cannot use: of another format than the tile's, a fixed-point one, and rings too small or not declared. -/
theorem test_witness_matrixCauses :
    let s := withGg seqs fun gg => { gg with launch := { gg.launch with slots := [0, 1, 6, 7, 2, 0, 0, 0] } }
    let f := fun n => (Slot.ofWord (((ggOf s).launch.slots[n]?).getD 0)).fmt
    let small := withTm seqs fun t => { t with rings := t.rings.set 7 { base := 0, slotBytes := 64, slots := 2, next := 1, take := 0, filled := 1, free := 1, taken := [0], phases := 0 } }
    Sequences s tRef (ggOf s) (tmOf s) ∧ Sequences small tRef (ggOf small) (tmOf small) ∧
    (tileK (f 1)).isNone = false ∧ f 2 = .l6 ∧ (1#2).toNat % 2 = 1 ∧ f 3 = .fx64 ∧ (tileK (f 3)).isNone = true ∧ mmaK (f 1) (f 3) = none ∧
    mmaK (f 1) (f 1) = some 32 ∧ (tmOf s).taFmt[1]? = some none ∧ (tmOf s).taFmt[0]? = some (some (f 1).num) ∧ (mmaK (f 4) (f 1)).isSome = true ∧ (f 1).num ≠ (f 4).num ∧ (f 1).num ≠ oddHalf ∧
    tileMatches (tmOf s) 0 (f 1) = true ∧ (ringOf (tmOf s) 3).slots = 0 ∧ (ringOf (tmOf small) 7).slotBytes < tileBytes (f 1) ∧
    (ringOf (tmOf small) 7).slotBytes < 32 * (64 * (ggOf small).launch.yoke) * (f 1).bits / 8 ∧ (ringOf (tmOf small) 7).slotBytes < mstBytes (ggOf small) (Slot.ofWord 1) ∧
    f 1 ≠ .fx64 ∧ f 1 ≠ .reserved ∧ scratchLimit (tmOf s) < 32 * (1000#21).toNat + mstBytes (ggOf s) (Slot.ofWord 1) ∧ 32 * (1000#21).toNat < 2 ^ 20 := by
  unfold Sequences; decide +kernel

/-- The team's engine, and a picot, are ready to claim a slot of ring 7. -/
theorem test_witness_ringClaims :
    (let s := withTm seqs fun t => { t with engine := { t.engine with published := 1, pubs := [0] }
                                            scratch := smWrite t.scratch (ggOf seqs).launch.ringBase (natLE 32 (1 + 4 * 2 ^ 8 + 0x10000 * 2 ^ 32 + 0x107 * 2 ^ 96)) }
     (ggOf s).launch.ringEntries ≠ 0 → engineClaims s tRef 7 = true) ∧
    (let p : Picot := { data := [], teams := [0], ring := 7, pub := tRef, idx := 0, ready := true }
     drainClaims { seqs with wk := { seqs.wk with picots := [(0, [some p])] } } tRef 7 = true) := by decide +kernel

theorem test_witness_sumOnce : [(FVal.num false 1 0), (FVal.num true 3 2)].Perm [(FVal.num true 3 2), (FVal.num false 1 0)] :=
  List.Perm.swap _ _ _

/-! ### Copy engines -/

/-- A copy engine with one published entry; ring 7 has two slots of 64 bytes; the bytes at scratchpad 0 name 0x10000, and 4096 holds 1. -/
def engined : State :=
  let s := withTm pages fun t => { t with
    engine := { t.engine with published := 1, pubs := [0] }
    scratch := smWrite (smWrite t.scratch 0 (natLE 8 0x10000)) 4096 (natLE 4 1)
    rings := t.rings.set 7 { base := 64, slotBytes := 64, slots := 2, next := 1, take := 0, filled := 1, free := 1, taken := [], phases := 0 } }
  { withGg s fun gg => { gg with launch := { gg.launch with ringBase := 6144, notify := 7168 } } with focus := .engine (.team tRef) }
def eng : EngineRef := .team tRef
def engOf (s : State) : Engine := (tmOf s).engine
def ent (kind : Nat) (src dst : Nat) : Entry :=
  { flags := BitVec.ofNat 8 (4 * kind), point := 0, slots := 0, src := BitVec.ofNat 64 src, dst := BitVec.ofNat 64 dst, rows := 1, rowBytes := 4, stride := 0,
    stampOff := 0 }

theorem test_witness_CopyEntriesAreTakenInOrder :
    GangsDistinct engined ∧ engined.focus = .engine eng ∧ findEngine engined eng = some (engOf engined) ∧ suspendedOf (engOf engined) = none ∧
    engineRuns engined eng = true ∧ (engOf engined).takenIdx < (engOf engined).published ∧ (engOf engined).flight = [] ∧ (tmOf engined).stash = [] ∧
    (∀ f ∈ (engOf engined).flight, f.id < engined.fresh ∧ cpcWaits f = false) ∧ slotStale engined eng 1 (ent 1 0x10000 0x107) = false ∧
    slotStale engined eng 1 (ent 1 0x10000 0x007) = true ∧ resourceFree engined eng 1 (ent 1 0x10000 0x007) = true ∧
    entryBad engined eng 1 (ent 1 0x10000 0x007) = false ∧ destKind (ent 3 0 0) = 3 ∧
    entryBad engined eng 1 { ent 0 0x10000 0x10020 with point := 24 } = true ∧
    entryBad engined eng 9 { ent 0 0 0 with rows := 0, rowBytes := 0 } = false ∧
    entryBad engined eng 1 (ent 1 0x10000 0x107) = false ∧ resourceFree engined eng 1 (ent 1 0x10000 0x107) = true ∧
    (let s := withTm engined fun t => { t with rings := t.rings.set 7 { base := 64, slotBytes := 64, slots := 2, next := 1, take := 0, filled := 2, free := 0, taken := [], phases := 0 } }
     entryBad s eng 1 (ent 1 0x10000 0x107) = false ∧ resourceFree s eng 1 (ent 1 0x10000 0x107) = false) := by unfold GangsDistinct; decide +kernel

def byteRead (s : State) (noSwept : Bool) (va : Nat) : Option (List Byte) := (readPiece s eng noSwept (.glob va) 1).toOption
theorem test_witness_CopyEntriesMoveTheirData :
    GangsDistinct engined ∧ findGang engined 1 = some (ggOf engined) ∧ findTeam engined tRef = some (tmOf engined) ∧ TeamOk (tmOf engined) ∧
    LinesOk engined ∧ (ggOf engined).node = none ∧ (tmOf engined).drains = [] ∧
    (∀ p ∈ [(ent 1 0x10000 0x107, 1), (ent 2 0x10000 1024, 1), (ent 0 0x10000 0x1001C, 1), ({ ent 2 0x10000 8188 with stride := 32 }, 2), (ent 2 0 1024, 3),
        (ent 2 7 1024, 5), (ent 0 7 0x1001C, 5), (ent 0 0x10000 0, 4), (ent 0 4096 0x1001C, 6), (ent 1 0x10000 0x10007, 7)],
      entryBad engined eng p.2 p.1 = false) ∧
    (∀ k, k < 4 → byteRead engined false (0x10000 + k) = some [((natLE 4 5)[k]?).getD 0] ∧
      byteRead engined true (0x10000 + k) = some [((natLE 4 5)[k]?).getD 0]) ∧
    (let old := smWrite (tmOf engined).scratch (7168 + 4) (natLE 4 1)
     leNat (smRange old 0 8) = 0x10000 ∧ smGet old 4096 = 1 ∧ scratchLimit (tmOf engined) = 8192) ∧
    cptWidth (engineSlot engined eng 0).fmt = 4 ∧
    goodTarget engined 0x1001C = true ∧
    ((translate engined 1 0x1001C).map fun l => (readHeld engined l, errorFor engined (some (teamAgent tRef)) l.pa 4)) = some (false, false) ∧
    (readPiece engined eng false (.glob 0x1001C) 4).toOption = some [0, 0, 0, 0] ∧ reduceSrc (engineSlot engined eng 0).fmt = 4 ∧
    resourceFree engined eng 7 (ent 1 0x10000 0x10007) = true ∧ 64 + 1 * 64 + 64 ≤ scratchLimit (tmOf engined) := by
  unfold GangsDistinct TeamOk LinesOk; decide +kernel

/-- A collective with another package, where one is present. -/
theorem test_witness_collective (h : Config.present 1 = true) :
    entryBad engined eng 8 (ent 0 0x10000 1) = false ∧ coordPresent engined (cpcPeer (ent 0 0x10000 1)) = true ∧
    coordUnreachable engined (cpcPeer (ent 0 0x10000 1)) = false ∧ engined.pl.aborts = [] := by
  refine ⟨by decide +kernel, ?_, by decide +kernel, by decide +kernel⟩
  rw [show cpcPeer (ent 0 0x10000 1) = 1 by decide +kernel]
  unfold coordPresent; rw [h, Bool.or_true]

/-- Entries in flight: a completed one, or a collective that waits. -/
def flying (e : Entry) (p : Progress) (slot : Option (Nat × Nat)) : State :=
  let f : InFlight := { idx := 0, code := 1, ent := e, pub := 0, prog := p, visAt := 10, slot := slot, id := 1, pre := [] }
  withTm engined fun t => { t with
    engine := { t.engine with takenIdx := 1, pubs := [], flight := [f] }
    points := t.points.set 23 { e := 2, count := 1, phase := 1, bitmap := 0 } }
def arrives : Entry := { ent 0 0x10000 0x10020 with flags := 2, point := 23 }
theorem test_witness_CopyEntriesComplete :
    let s := withTime 10 (flying arrives (.done 0) (some (7, 1)))
    GangsDistinct s ∧ findEngine s eng = some (engOf s) ∧ (engOf s).flight.length = 1 ∧ findGang s 1 = some (ggOf s) ∧ (ggOf s).state = .resident ∧
    findTeam s tRef = some (tmOf s) ∧ (tmOf s).stash = [] ∧ (∃ z ∈ (tmOf s).groups, z.retired = false) ∧ 10 ≤ s.time ∧ s.mm.held = [] ∧
    (flying arrives (.done 0) none).time < 10 ∧ entryStamps arrives = false ∧ entryArrives arrives = true ∧ arrives.point.toNat < 24 ∧
    (tmOf s).points[23]? = some { e := 2, count := 1, phase := 1, bitmap := 0 } ∧ entryArrives (ent 0 0 0) = false ∧
    entryStamps { ent 0 0 0 with flags := 1, stampOff := 65528 } = true ∧ LinesOk s ∧ (ggOf s).node = none ∧ causeGroup (tmOf s) 0 = some 0 ∧
    (let s := withGg s fun gg => { gg with launch := { gg.launch with stampPage := 0x10000 } }
     goodTarget s (0x10000 + 65528) = true) := by
  unfold GangsDistinct LinesOk; decide +kernel

def picot0 : Picot := { data := [1, 2, 3, 4], teams := [0], ring := 7, pub := tRef, idx := 0, ready := true }
theorem test_witness_picots :
    let s : State := { engined with wk := { engined.wk with picots := [(0, [none, some picot0])] } }
    GangsDistinct s ∧ tabGet s.wk.picots 0 = some [none, some picot0] ∧ 0 ∈ picot0.teams ∧ findGang s picot0.pub.gang = some (ggOf s) ∧
    (ggOf s).state = .resident ∧ findTeam s { picot0.pub with team := 0 } = some (tmOf s) ∧ (tmOf s).rings.length = 8 ∧ 0 < (ringOf (tmOf s) 7).free ∧
    (tmOf s).drains = [] ∧ (tmOf s).stash = [] ∧ TeamOk (tmOf s) ∧ picot0.data.length ≤ (ringOf (tmOf s) 7).slotBytes ∧
    engineClaims s { picot0.pub with team := 0 } 7 = false := by unfold GangsDistinct TeamOk; decide +kernel

/-- A reduction of one F32 element at scratchpad 4092. -/
def cpcAt : State := flying (ent 0 (2 ^ 63 + 8188) (2 ^ 48 + 1)) (.cpcWait [0, 0, 0x80, 0x3F]) none
theorem test_witness_collectiveData :
    let e := ent 0 (2 ^ 63 + 8188) (2 ^ 48 + 1)
    GangsDistinct cpcAt ∧ findEngine cpcAt eng = some (engOf cpcAt) ∧ ((engOf cpcAt).flight.find? cpcWaits).isSome = true ∧ (tmOf cpcAt).stash = [] ∧
    TeamOk (tmOf cpcAt) ∧ cpcOp e = 1 ∧ srcScratch e = true ∧ e.src.toNat % 2 ^ 32 + e.rows.toNat * pitchOf e ≤ scratchLimit (tmOf cpcAt) ∧
    (engineSlot cpcAt eng (srcSlot e)).fmt = .f32 ∧ entryBytesTotal e = 4 ∧
    reduceElem (engineSlot cpcAt eng 0) 0x3F800000 ((engineSlot cpcAt eng 0).dec 0x40000000) = (0x40400000, false) ∧
    cpcOp (ent 0 0 (2 * 2 ^ 48 + 1)) = 2 ∧ cpcOp (ent 0 0 1) = 0 ∧ ((((engOf cpcAt).flight.find? cpcWaits).map InFlight.prog) = some (.cpcWait [0, 0, 0x80, 0x3F])) ∧
    (let step : PeerStep :=
       { peer := 1, tag := 0, rows := 1, rowBytes := 4, op := 1, slot := (((ggOf cpcAt).launch.slots[srcSlot e]?).getD 0).toNat, data := [0, 0, 0, 0x40] }
     step.rows = e.rows.toNat ∧ step.rowBytes = e.rowBytes.toNat ∧ step.data.length = entryBytesTotal e ∧ { step with rows := 2 }.rows ≠ e.rows.toNat) ∧
    (0 < e.rowBytes.toNat ∧ e.rowBytes.toNat ≤ pitchOf e ∧ e.src.toNat % 2 ^ 32 + e.rows.toNat * pitchOf e ≤ 2 ^ 20) := by
  unfold GangsDistinct TeamOk; decide +kernel

/-- A completed entry whose stamp offset no stamp has. -/
theorem test_witness_badStampOffset :
    let s := withTime 10 (flying { ent 0 0x10000 0x10020 with stampOff := 4 } (.done 0) none)
    GangsDistinct s ∧ findEngine s eng = some (engOf s) ∧ (engOf s).flight.length = 1 ∧ 4 % 8 ≠ 0 ∧ causeGroup (tmOf s) 0 = some 0 ∧
    entryStamps { ent 0 0x10000 0x10020 with stampOff := 4 } = false ∧ entryArrives { ent 0 0x10000 0x10020 with stampOff := 4 } = false ∧
    (∃ z ∈ (tmOf s).groups, z.retired = false) ∧ ∀ f ∈ (engOf s).flight, f.visAt ≤ s.time ∧ ∀ h ∈ s.mm.held, h.id ≠ f.id := by
  unfold GangsDistinct; decide +kernel

/-- A peer's part of a context that is there, with a collective that waits for it, and of one that is being terminated. -/
theorem test_witness_cpcAbort :
    GangsDistinct cpcAt ∧ (tabGet cpcAt.mm.contexts 1).map Context.dying = some false ∧ (ggOf cpcAt).ctx = 1 ∧
    (engOf cpcAt).flight.all (fun f => cpcWaits f && cpcPeer f.ent == 1 && cpcTag f.ent == 0) = true ∧ (engOf cpcAt).flight.length = 1 ∧
    tabGet cpcAt.mm.contexts 7 = none := by unfold GangsDistinct; decide +kernel

/-! ### Waits, stops, placement, repair -/

def waitFor (k : WaitKind) (n : Nat) : Wait := { kind := k, began := n, paused := 0, satAt := none }
/-- Group 0 of two waits at a phase of point 23; 4,000 units have gone by. -/
def lasting (k : WaitKind) : State :=
  let s := withTm twoGroups fun t => { t with groups := listMod t.groups 0 fun x => { x with wait := some (waitFor k 0) }
                                              points := t.points.set 23 { e := 3, count := 1, phase := 1, bitmap := 0 } }
  withTime 4000 s
def farLoad (b : Bool) : PendLoad :=
  { id := 1, writes := [], regs := [8], issued := 0, servedAt := 0, todo := [{ pa := 2 ^ 43, width := 4, keys := [] }], holds := 0, acquire := false,
    remote := [1], beyond := b }
theorem test_witness_WaitsThatLastTooLongStop :
    (let s := withTime 8000 (withX pages fun x => { x with loads := [farLoad false] })
     findGroup s gRef = some (xOf s) ∧ (xOf s).retired = false ∧ (xOf s).halted = false ∧ (xOf s).wait = none ∧
     0 + max 1 (dev s).remoteThresh * 4 ≤ s.time ∧ (farLoad true).beyond = true ∧
     (xOf (withX s fun x => { x with halted := true })).halted = true ∧ (xOf (withX s fun x => { x with wait := some (waitFor .racq 0) })).wait ≠ none) ∧
    (let s := lasting (.rwait 23 1)
     GangsDistinct s ∧ findGang s 1 = some (ggOf s) ∧ findTeam s tRef = some (tmOf s) ∧ (ggOf s).state = .resident ∧ (tmOf s).stop = none ∧
     (tmOf s).handler = none ∧ (tmOf s).groups[0]? = some (xOf s) ∧ (xOf s).wait = some (waitFor (.rwait 23 1) 0) ∧ (xOf s).retired = false ∧
     (xOf s).halted = false ∧ waitMet s (trefGroup tRef 0) (xOf s) (waitFor (.rwait 23 1) 0) = false ∧
     waitPeers s (xOf s) (waitFor (.rwait 23 1) 0) = [] ∧ (ggOf s).launch.watchdog * 4000 ≤ s.time - 0 - 0 ∧ (tmOf s).seq.wait = none ∧
     (∀ z ∈ (tmOf s).groups.drop 1, z.wait = none ∧ z.halted = false) ∧
     (tmOf s).points[23]? = some { e := 3, count := 1, phase := 1, bitmap := 0 }) ∧
    (∀ z ∈ (tmOf (lasting .pchk)).groups, ∀ w ∈ z.wait.toList, w.kind = .pchk) ∧
    (let s := withTime 4000 (withTm pages fun t => { t with seq := { t.seq with running := true, wait := some (waitFor (.mlda 7) 0) } })
     (tmOf s).seq.running = true ∧ seqMet (tmOf s) (waitFor (.mlda 7) 0) = false ∧ causeGroup (tmOf s) 0 = some 0) := by
  unfold GangsDistinct; decide +kernel

theorem test_witness_cancelledLoads :
    let s := withTime 8000 (withX pages fun x => { x with halted := true, loads := [farLoad false] })
    findGroup s gRef = some (xOf s) ∧ (xOf s).retired = false ∧ (xOf s).halted = true ∧
    (∃ p ∈ (xOf s).loads, (!p.remote.isEmpty && decide (p.issued + max 1 (dev s).remoteThresh * 4 ≤ s.time)) = true ∧ p.beyond = false) := by
  decide +kernel

theorem test_witness_engineWatchdog :
    let s := withTime 4000 (withTm engined fun t => { t with
      engine := { t.engine with waiting := some 0 }
      scratch := smWrite t.scratch 6144 (natLE 32 (1 + 4 * 2 ^ 8 + 0x10000 * 2 ^ 32 + 0x107 * 2 ^ 96 + 2 ^ 160 + 4 * 2 ^ 192))
      rings := t.rings.set 7 { base := 64, slotBytes := 64, slots := 2, next := 1, take := 0, filled := 2, free := 0, taken := [], phases := 0 } })
    (tmOf s).engine.waiting = some 0 ∧ (wantedOf s tRef (tmOf s).engine).isSome = true ∧
    (∀ w ∈ (wantedOf s tRef (tmOf s).engine).toList, resourceFree s eng w.1 w.2.1 = false ∧ causeGroup (tmOf s) w.2.2 = some 0) ∧ (ggOf s).launch.watchdog * 4000 ≤ s.time - 0 ∧
    causeGroup (tmOf s) (((tmOf s).engine.pubs.head?).getD 0) = some 0 := by decide +kernel

/-- The team has stopped with a cause in its group 0, and has settled; its launch record may name a handler. -/
def stopped (c : BitVec 32) (handler : Nat) (w : Option Nat) : State :=
  let s := withTm (withX pages fun x => { x with halted := true, cause := c }) fun t => { t with stop := some { stopOf 0 with causes := c, written := w } }
  withGg s fun gg => { gg with launch := { gg.launch with handler := handler, handlerArea := 0x10000 } }
theorem test_witness_StopsHaveTheirOutcomes :
    (∀ p ∈ [(stopped cPoison 0 none, cPoison), (stopped cPage 64 none, cPage), (stopped cFetch 0 none, cFetch)],
      let s := p.1
      GangsDistinct s ∧ findGang s 1 = some (ggOf s) ∧ findTeam s tRef = some (tmOf s) ∧ (ggOf s).state = .resident ∧ (ggOf s).reported = false ∧
      (tmOf s).handler = none ∧ (tmOf s).stop.isSome = true ∧ (∀ st ∈ (tmOf s).stop.toList, st.report = false ∧ st.group = 0) ∧
      (tmOf s).groups = [xOf s] ∧ (xOf s).retired = false ∧ (xOf s).stores = [] ∧ (xOf s).tiles = [] ∧ (xOf s).loads = [] ∧
      (xOf s).cause = p.2 ∧ (xOf s).frontier.length ≤ 16 ∧ areaCause s 1 0x10000 (128 + 272 * 1) = 0) ∧
    cFetch &&& ~~~(cHaltb ||| cPage ||| cPerm ||| cRemote) ≠ 0 ∧ cPage &&& cPoison = 0 ∧ cPoison &&& cPoison ≠ 0 ∧
    (stopped cPage 64 none).time < 5 ∧ foldFits (stopped cPage 0 none) 1 (ggOf (stopped cPage 0 none)) = false ∧
    (let s := modMm (stopped cPage 0 none) fun m => { m with contexts := [(1, { root := loaderTable 0, area := 0, fold := 0x100000, foldBytes := 2 ^ 30, sigq := 0, dying := false })] }
     foldFits s 1 (ggOf s) = true ∧ (xOf s).cause = cPage) ∧
    cPoison &&& ~~~(cHaltb ||| cPage ||| cPerm ||| cRemote) ≠ 0 ∧ cPage &&& ~~~(cHaltb ||| cPage ||| cPerm ||| cRemote) = 0 ∧
    (let s := withGg (stopped cFetch 0 none) fun gg => { gg with reported := true }
     GangsDistinct s ∧ (ggOf s).reported = true ∧ (xOf s).cause &&& ~~~cHaltb ≠ 0 ∧ (xOf s).cause &&& cPoison = 0 ∧
       (tabGet s.mm.contexts 1).map Context.dying = some false) ∧
    (∀ p ∈ (xOf (withX (stopped cFetch 0 none) fun x => { x with loads := [farLoad true] })).loads, p.beyond = true) ∧
    (tabGet pages.mm.contexts 1).map Context.dying = some false ∧ contextQuiet pages 1 = true := by
  unfold GangsDistinct; decide +kernel

/-- The gang stands in its queue, or in the fold. -/
def queuedGang (st : GangState) (reported : Bool) : State :=
  let s := withGg pages fun gg => { gg with state := st, place := none, reported := reported, queuedAt := 0 }
  { s with time := 4000000, wk := { s.wk with queues := (List.replicate 16 []).set 2 [1] } }
theorem test_witness_GangsStartAndResumeWhereTheyFit :
    (let s := withGg (queuedGang .queued false) fun gg => { gg with queue := 2 }
     GangsDistinct s ∧ findGang s 1 = some (ggOf s) ∧ 0 < (ggOf s).launch.yoke ∧ headOf s 2 = some (1, ggOf s) ∧ offered s 2 = true ∧
     (fitOn s 0 [3] (ggOf s)).isSome = true ∧ fitOn s 0 [4] (ggOf s) = none ∧ s.mm.narrow = [] ∧
     (∀ r ∈ (fitOn s 0 [3] (ggOf s)).toList, drainWaits s 0 (rangeUnits (ggOf s)) (rangesOf (ggOf s) [3] r) = false) ∧ (ggOf s).state = .queued ∧ tabGet s.wk.reserved 1 = none ∧
     (ggOf s).queuedAt + 4000000 ≤ s.time) ∧
    (let s := withGg { queuedGang .saved true with wk := { (queuedGang .saved true).wk with queues := List.replicate 16 [] } } fun gg => { gg with queue := 3 }
     let s1 := reenter s 1 (ggOf s)
     (ggOf s).state = .saved ∧ (ggOf s).reported = true ∧ s.wk.queues[3]? = some [] ∧ (headOf s1 3).map Prod.fst = some 1 ∧ offered s1 3 = true ∧
       (fitOn s1 0 [0] (ggOf s)).isSome = true ∧
       ∀ r ∈ (fitOn s1 0 [0] (ggOf s)).toList, drainWaits s1 0 (rangeUnits (ggOf s)) (rangesOf (ggOf s) [0] r) = false) ∧
    (let s := withTm (withX (queuedGang .saved true) fun x => { x with halted := true, cause := cPage }) fun t => { t with stop := some (stopOf 0) }
     (tmOf s).retired = false ∧ (tmOf s).handler = none ∧ (tmOf s).stop ≠ none ∧
       ∀ x ∈ (tmOf s).groups, x.retired = false → x.cause &&& ~~~(cHaltb ||| cPage ||| cPerm ||| cRemote) = 0) := by
  unfold GangsDistinct; decide +kernel

/-- A narrow line in a lent unit: on a locked page it holds a placement back. -/
def narrowAt (va pa unit : Nat) : State := modMm (withGg (queuedGang .queued false) fun gg => { gg with queue := 2 }) fun m =>
  { m with narrow := [{ line := pa / 32, core := 3, gang := 1, team := none, who := gRef, bytes := [(0, 1)], va := va, unit := some unit }] }
theorem test_witness_drainWaits :
    (let s := narrowAt 0x50000 (ownPhys pages 0x60000) 0
     ∀ r ∈ (fitOn s 0 [3] (ggOf s)).toList, drainWaits s 0 (rangeUnits (ggOf s)) (rangesOf (ggOf s) [3] r) = true) ∧
    (let s := narrowAt 0x10000 (ownPhys pages 0x30000) 0
     ∀ r ∈ (fitOn s 0 [3] (ggOf s)).toList, drainWaits s 0 (rangeUnits (ggOf s)) (rangesOf (ggOf s) [3] r) = false) := by decide +kernel

theorem test_witness_GangsReserveSaveAndMove :
    (let s := withX (withGg pages fun gg => { gg with marked := true }) fun x => { x with parked := true, wait := some (waitFor .racq 0) }
     GangsDistinct s ∧ findGang s 1 = some (ggOf s) ∧ maySave (ggOf s) = true ∧ (ggOf s).reported = false ∧ foldFits s 1 (ggOf s) = false ∧
     (ggOf s).queue < s.wk.queues.length ∧ saveWaits s 1 = false ∧ ∀ v ∈ (ggOf s).teams, v.engine.waiting = none) ∧
    maySave (ggOf pages) = false ∧
    (let s := modMm pages fun m => { m with contexts := [(1, { root := loaderTable 0, area := 0, fold := 0x100000, foldBytes := 2 ^ 30, sigq := 0, dying := false })] }
     foldFits s 1 (ggOf s) = true) ∧ drainWaits pages (clusterOf (ggOf pages)) 2 [(0, 62)] = false ∧
    (tmOf pages).retired = false ∧ (tmOf pages).handler = none ∧ ((ggOf pages).place.bind fun p => p.cores[0]?) = some 0 ∧
    0 - 0 < (tmOf pages).scratchAt.length ∧ scratchUnits (tmOf pages).scratchBytes (ggOf pages).launch.pair = 2 ∧ 62 + 2 ≤ scratchArena ∧ 62 % 2 = 0 ∧
    (∀ b ∈ scratchTaken (modTeam pages tRef fun x => { x with scratchAt := [] }) (clusterOf (ggOf pages)) 0, 62 + 2 ≤ b.1 ∨ b.1 + b.2 ≤ 62) := by
  unfold GangsDistinct; decide +kernel

/-- The gang belongs to the first node of a replay. -/
def nodeRun (contain idem escaped : Bool) (n : Nat) : State :=
  let s := stopped cPoison 0 (some 0)
  let nd : NodeInst := { kind := 1, addr := 0, arming := [], state := .started, start := 0, rollbacks := n, escaped := escaped, quota := 0, reason := none,
                         status := 0, peer := 0, gangsLeft := 1, doneAt := none, engine := Engine.idle }
  let r : Replay := { handle := 1, ctx := 1, seqno := 1, ptab := 0, nodes := [nd], done := false, killed := false, cores := [], failedScan := false, settled := false }
  let s := withGg s fun gg => { gg with node := some { replay := 4, node := 0 }, launch := { gg.launch with contain := contain, idem := idem } }
  { s with wk := { s.wk with replays := [(4, r)] } }
theorem test_witness_ErrorsPoisonRollBackAndDrop :
    (homeOf State.reset 0).dirty = false ∧
    (let s := after (.st 8 6 2 0 0) (at_ 0x10000)
     (homeOf s (ownPhys s 0x30000 / 32)).dirty = true ∧ (homeOf s (ownPhys s 0x30000 / 32)).llc ≠ none ∧
      (homeOf (after (.ld 8 6 2 0 0) (at_ 0x10000)) (ownPhys pages 0x30000 / 32)).llc ≠ none ∧
      (homeOf (after (.ld 8 6 2 0 0) (at_ 0x10000)) (ownPhys pages 0x30000 / 32)).dirty = false ∧ (homeOf State.reset 0).llc = none) ∧
    (let s := modMm pages fun m => { m with provisional := [{ node := { replay := 4, node := 0 }, line := 3, bytes := [(0, 1)] }] }
     (s.mm.provisional[0]?).map Provisional.line = some 3) ∧
    causeGroup (tmOf pages) 0 = some 0 ∧
    (∀ p ∈ [(true, false, false, 0), (true, false, false, 2), (false, true, false, 0), (false, true, false, 2), (false, false, false, 0)],
      let s := nodeRun p.1 p.2.1 p.2.2.1 p.2.2.2
      GangsDistinct s ∧ findGang s 1 = some (ggOf s) ∧ findTeam s tRef = some (tmOf s) ∧ (ggOf s).state = .resident ∧
      (∀ st ∈ (tmOf s).stop.toList, st.written = some 0 ∧ decidingCauses (tmOf s) st &&& cPoison ≠ 0) ∧
      (ggOf s).node = some { replay := 4, node := 0 } ∧ ((tabGet s.wk.replays 4).map fun r => r.nodes.map NodeInst.kind) = some [1] ∧ s.sw.cmds = []) ∧
    State.reset.mm.dropped.getLsbD 15 = false ∧ stackMapped pages (stackAt 0x30000) = true ∧ stackMapped State.reset 15 = false ∧ stackHomes State.reset 15 = false ∧
    (modMm State.reset fun m => { m with dropped := 1 }).mm.dropped.getLsbD 0 = true ∧
    stackHomes swept (regOf.pc / 32) = true := by unfold GangsDistinct; decide +kernel

def scanning (d : Option Nat) : State := modCore (modDev pages fun r => { r with shepRun := true, shepCore := 0 }) 0 fun c => { c with draining := d }
theorem test_witness_TheShepherdScansAndRepairs :
    GangsDistinct pages ∧ (∀ l, l < 72 → (mapEntry pages l).moving = none) ∧ (logicalOf pages (0 / 4)).isSome = true ∧
    (coreState pages 0).retired = false ∧ (dev (scanning none)).shepCore = 0 ∧ coreGangs (scanning none) 0 = [1] ∧
    (coreState (scanning (some 0)) 0).draining = some 0 ∧ (coreState (scanning none) 0).draining = none ∧ (dev (scanning none)).shepRun = true ∧
    (let s := modDev State.reset fun r => { r with shepRun := true, shepCore := 0 }
     coreGangs s 0 = [] ∧ (logicalOf s 0).isSome = true ∧ stackDropped s 0 = false ∧ (dev s).clusterMap.length = 72) ∧
    0 + max 1 (dev (scanning (some 0))).drainLimit * 4000 ≤ (withTime (4 * 10 ^ 9) (scanning (some 0))).time ∧
    (∀ ms ∈ [[Marker.shepherd], [Marker.shepherd, .power], [Marker.power]],
      (ggOf (withGg (scanning (some 0)) fun gg => { gg with marked := true, marks := ms })).marks = ms) := by
  unfold GangsDistinct; decide +kernel

/-! ### Graphs -/

/-- A replay of one node of a kind, after a committed predecessor; edges come from graph 1. -/
def nodeAt (kind : Nat) (arming : List Byte) (st : NodeState) (f : NodeInst → NodeInst) : State :=
  let rec1 : NodeRec := { kind := kind, addr := 0x10000, arming := arming }
  let done : NodeInst := { newNode rec1 with state := .committed, doneAt := some 0 }
  let nd : NodeInst := f { newNode rec1 with state := st }
  let r : Replay := { handle := 1, ctx := 1, seqno := 1, ptab := 0x10000, nodes := [done, nd], done := false, killed := false, cores := [],
                      failedScan := false, settled := false }
  let g : Graph := { ctx := 1, lane := 0, nodes := [rec1, rec1], edges := [(0, 1)], kicks := [0x10000], seqno := 1 }
  let s : State := { sweepy with time := 100, focus := .none }
  { s with wk := { s.wk with replays := [(4, r)], graphs := [(1, g)], ladders := [(3, ladder0)] } }
def nRef : NRef := { replay := 4, node := 1 }
def waiting (kind : Nat) (arming : List Byte) : State := nodeAt kind arming .waiting id
def nodeOk (s : State) (kind : Nat) : Bool :=
  ((tabGet s.wk.replays 4).map fun r => !r.done && (replayEdges s r == [(0, 1)])) == some true &&
  ((findNode s nRef).map fun x => x.kind == kind && armingOk kind x.arming && x.state == .waiting && x.doneAt.isNone && x.reason.isNone) == some true
def launchArming : List Byte :=
  let b := fun (off v n : Nat) => v % 2 ^ (8 * n) * 2 ^ (8 * off)
  natLE 256 (b 0x10 16 1 + b 0x11 1 1 + b 0x12 1 1 + b 0x1C 1 4 + b 0x24 1 4)
def copyArming : List Byte := natLE 8 0 ++ natLE 32 9
def collArming : List Byte := natLE 8 0 ++ natLE 32 8
def sweepArming : List Byte := natLE 8 0x20000 ++ natLE 4 1 ++ [1, 0, 0, 0] ++ natLE 8 0x60000 ++ natLE 48 0
def bankArming : List Byte := natLE 8 0x20000 ++ natLE 4 1 ++ [3, 0, 0, 0] ++ natLE 8 0x60000 ++ List.replicate 40 0 ++ natLE 8 0x10008 ++ natLE 56 0
def unbindArming : List Byte := natLE 8 1 ++ natLE 8 0x10100 ++ natLE 24 0
def bindArming : List Byte := natLE 8 0 ++ natLE 8 0x10400 ++ natLE 24 0
def waitArming : List Byte := natLE 8 0x10000 ++ natLE 4 0 ++ natLE 4 1 ++ natLE 8 5
def signalArming (kind dest : Nat) : List Byte := natLE 8 kind ++ natLE 8 dest ++ natLE 8 7
theorem test_witness_NodesStartAsTheirKindsSay :
    (∀ p ∈ [(1, launchArming), (2, copyArming), (3, sweepArming), (4, bankArming), (5, unbindArming), (5, bindArming), (6, collArming), (7, waitArming),
      (8, signalArming 0 0x10008), (8, signalArming 1 0)], nodeOk (waiting p.1 p.2) p.1 = true) ∧
    armingOk 8 (natLE 8 2) = false ∧ (waiting 1 launchArming).time = 0 + 100 ∧
    (let s := waiting 1 launchArming
     launchOk s 1 (launchOf 0x10000 launchArming) = true ∧ launchOk s 1 (launchOf 0x10000 (natLE 256 0)) = false ∧
     (s.wk.queues[0]?) = some [] ∧ (descOf (leNat (sweepArming.take 64)) false).wellFormed = true ∧
     programWords s 1 (descOf (leNat (sweepArming.take 64)) false).program 16 = some [0] ∧
     bankDesc s 1 (descOf (leNat bankArming) true) = some [0] ∧ (ladderAt s 1 0x10100).isSome = true ∧ ladder0.counted < ladder0.nextIndex ∧
     { ladder0 with counted := 2 }.nextIndex ≤ { ladder0 with counted := 2 }.counted ∧
     ladderOf s 1 0x10400 0 0 0 0 = none ∧ translate s 1 0x900000 = none ∧ s.mm.narrow = [] ∧
     ((translate s 1 0x10000).map fun l => (l.mtype, isRemote s l.pa, readHeld s l, (homeOf s (l.pa / 32)).writes.length)) = some (0, false, false, 0) ∧
     coordPresent s 0 = true ∧ coordUnreachable s 0 = false ∧ LinesOk s) := by unfold LinesOk; decide +kernel

/-- A ladder object whose two rungs' templates are the launch records at 0x12000. -/
theorem test_witness_ladderBinds :
    let s := put (waiting 5 bindArming) 0x32000 launchArming
    let obj := natLE 64 (2 + 16 * 2 ^ 32) ++ (natLE 32 (0x12000 + 1 * 2 ^ 64)) ++ natLE 32 (0x12000 + 1 * 2 ^ 64)
    (ladderOf (put s 0x30400 obj) 1 0x10400 0x10000 0x10200 0 0).isSome = true := by decide +kernel

/-- A graph of one COPY node of one CPN entry at 0x10000, its patch table (one patch) at 0x10200. -/
def graphed : State :=
  let hdr := natLE 8 (0x014F4748 + 2 ^ 32) ++ natLE 4 1 ++ natLE 4 0 ++ natLE 8 64 ++ natLE 8 96 ++ natLE 32 168
  let s := put (waiting 2 copyArming) 0x30000 (hdr ++ natLE 32 (2 + 40 * 2 ^ 32 + 128 * 2 ^ 64) ++ natLE 32 0 ++ copyArming)
  put s 0x30200 (natLE 64 1 ++ natLE 16 (0 + 0 * 2 ^ 32 + 8 * 2 ^ 48 + 0x20000 * 2 ^ 64))
def startable : State := { graphed with wk := { graphed.wk with replays := [] } }
theorem test_witness_ReplaysStartAndTheirNodesEnd :
    (dev graphed).gstatBusy = false ∧ (readGraph graphed 1 0x10000).toOption.isSome = true ∧
    (match readGraph graphed 1 0x900000 with | .error e => e == 5 | .ok _ => false) = true ∧
    (freeHandle graphed).isSome = true ∧ (tabGet graphed.mm.contexts 1).map Context.dying = some false ∧ tabGet graphed.mm.contexts 9 = none ∧
    (tabGet graphed.wk.graphs 1).isSome = true ∧ tabGet graphed.wk.graphs 7 = none ∧ (tabGet graphed.wk.graphs 1).map (·.kicks) = some [0x10000] ∧
    replayRuns graphed 1 = true ∧ replayRuns startable 1 = false ∧
    (∀ g ∈ (tabGet startable.wk.graphs 1).toList, (patchedNodes startable g 0x10200).isSome = true ∧ patchedNodes startable g 0x900000 = none) ∧
    (∀ p ∈ [((nodeAt 2 copyArming .started fun x => { x with doneAt := some 100 }), true), (nodeAt 1 launchArming .started id, false),
        ((nodeAt 7 waitArming .started fun x => { x with reason := some 7 }), false)],
      ∀ r ∈ (tabGet p.1.wk.replays 4).toList, r.done = false ∧ ∀ x ∈ (r.nodes[1]?).toList, x.state = .started ∧ x.doneAt.isSome = p.2 ∧
        ((∀ e ∈ replayEdges p.1 r, e.1 ≠ 1) ∧ x.gangsLeft = 0) ∧ gridPlaced p.1 nRef = true) ∧
    (0 % 8 = 0 ∧ 0 + 8 ≤ copyArming.length) := by decide +kernel

/-! ### The window, contexts and maps -/

def held1 : Held := { ctx := 1, va := 0x10004, pa := ownPhys pages 0x30004, op := .store [7], who := none, core := 4096, id := 0 }
def noticed (t : Nat) : State :=
  let s := modDev pages fun r => { r with noticeBase := 0x20000, noticeTail := t, dbTarget := [(63, BitVec.ofNat 64 (2 ^ 48 + 0x10008 + 1)), (0, 0)] }
  { s with wk := { s.wk with notices := [{ kind := 3, area := none, ctx := 0, time := 0, detail := 0, record := [] }] } }
def plainAt (s : State) (va : Nat) : Bool :=
  ((translate s 1 va).map fun l => l.mtype == 0 && l.w && !isRemote s l.pa && !mustHold s l.mlock l.pa s.fresh && (stashAt s (l.pa / 32)).isNone) == some true &&
  s.mm.narrow.isEmpty && s.mm.provisional.isEmpty
theorem test_witness_ActingRegistersAct :
    GangsDistinct pages ∧ ((2 ^ 48 + 2 ^ 47 : Nat) % 2 ^ 39 = 0) ∧ (ggOf pages).state = .resident ∧ (ggOf pages).ctx = 1 ∧ clusterOf (ggOf pages) = 0 ∧
    (dev State.reset).istatDone = true ∧
    (let s := modDev (modMm pages fun m => { m with held := [held1] }) fun r => { r with istatDone := false, invalReq := some (1, 41, 0) }
     (dev s).istatDone = false ∧ s.mm.held = [held1] ∧ s.mm.tlb = [] ∧ plainAt s 0x10004 = true ∧ LinesOk s) ∧
    (mapEntry State.reset 71).moving = none ∧ (mapEntry State.reset 71).hold = false ∧ residents State.reset 0 = [] ∧
    State.reset.wk.notices = [] ∧ (noticed 0).wk.notices.length = 1 ∧ noticeRoom (dev State.reset) = false ∧
    tabGet (dev (noticed 0)).dbTarget 63 = some (BitVec.ofNat 64 (2 ^ 48 + 0x10008 + 1)) ∧ plainAt (noticed 0) 0x10008 = true ∧
    tabGet (dev (noticed 0)).dbTarget 0 = some 0 ∧ (tabGet pages.mm.contexts 1).isSome = true ∧
    (dev State.reset).attestDone ≤ State.reset.time ∧ (dev State.reset).attestAddr % 32 = 0 ∧ (dev State.reset).nonce.length = 64 ∧
    LinesOk State.reset ∧ PlainLine State.reset (ownPhys State.reset 0 / 32) := by
  unfold GangsDistinct LinesOk PlainLine; decide +kernel

/-- The leaf of page 0x10000 is changed and not yet invalidated; an invalidation of every address of context 1 is on its way. -/
def leafAt : Nat := ownPhys pages (loaderTable 4 + 8)
def unsettled : State :=
  modDev (modMm pages fun m => { m with tlb := [.changed leafAt 1] }) fun r => { r with istatDone := false, invalReq := some (1, 41, 0) }
theorem test_witness_invalidation :
    (dev unsettled).istatDone = false ∧ unsettled.mm.held = [] ∧ (dev unsettled).invalReq = some (1, 41, 0) ∧
    (∀ e ∈ unsettled.mm.tlb, e = .changed leafAt 1) ∧ (homeOf unsettled (leafAt / 32)).writes = [] ∧
    oldEntries 1 0x10000 leafAt unsettled.mm.tlb = [1] ∧ 0x10000 / 2 ^ (16 + 41) = 0 / 2 ^ 41 ∧
    (∀ p ∈ unsettled.wk.gangs, ∀ tm ∈ p.2.teams, ∀ x ∈ tm.groups, x.loads = []) ∧
    (let s := withX unsettled fun x => { x with loads := [farLoad false] }
     ∃ p ∈ s.wk.gangs, p.2.ctx = 1 ∧ p.2.state = .resident ∧ ∃ tm ∈ p.2.teams, ∃ x ∈ tm.groups, ∃ l ∈ x.loads, l.todo ≠ []) := by
  decide +kernel

/-- An evicted gang whose group waits at RWAIT, and one that is marked and parked at PCHK, with and without a load beyond. -/
theorem test_witness_evict :
    (let s := lasting (.rwait 23 1)
     (xOf s).wait = some (waitFor (.rwait 23 1) 0) ∧ (xOf s).retired = false ∧ (xOf s).halted = false ∧
       ((tmOf s).points[23]?).map Point.phase = some 1) ∧
    ∀ ls ∈ [[], [farLoad true]],
      let s := withX (withGg pages fun gg => { gg with marked := true, marks := [.other] }) fun x =>
        { x with parked := true, wait := some (waitFor .pchk 0), loads := ls }
      (ggOf s).marked = true ∧ (xOf s).parked = true ∧ (xOf s).retired = false ∧ (xOf s).halted = false ∧ (xOf s).loads = ls := by
  decide +kernel

theorem test_witness_changedEntry :
    leafAt % 8 = 0 ∧ isEntry pages leafAt = true ∧ (leNat (sliceLine (lineLatest pages (leafAt / 32) none) leafAt 8)) % 2 = 1 ∧
    hostReaches pages (loaderTable 4 + 8) 8 = true ∧ LinesOk pages ∧ mustHold pages false leafAt pages.fresh = false ∧ PlainLine pages (leafAt / 32) := by
  unfold LinesOk PlainLine; decide +kernel

/-- R117, R312: a leaf that the host clears is still an old entry of its page, and of no other, until the invalidation ends. -/
theorem test_noteChanges_stale :
    let u := noteChanges pages leafAt (natLE 8 0)
    (oldEntries 1 0x10000 leafAt u.mm.tlb).length = 1 ∧ oldEntries 1 0x10000 (leafAt + 8) u.mm.tlb = [] := by decide +kernel
theorem test_invalidationComplete_tables :
    (match exec .invalidationComplete unsettled with
     | .next u => (oldEntries 1 0x10000 leafAt u.mm.tlb).isEmpty && oldEntries 2 0x10000 leafAt u.mm.tlb == [1]
     | _ => false) = true := by decide +kernel

theorem test_witness_noticeRoom :
    noticeRoom { dev (noticed 0) with noticeBase := BitVec.ofNat 64 (2 ^ 60 + 2 ^ 59 + 64) } = true := by decide +kernel

theorem test_witness_HostWritesReachRegistersAndMemory :
    (dev State.reset).bootError = 0 ∧ (0x200008, true) ∈ [(0x200008, decide (1000 ≤ 3600 ∧ 3600 ≤ 3600))] ∧ (dev State.reset).pkgLimit < 65535 ∧
    LinesOk State.reset ∧ hostReaches State.reset 0x10 4 = true ∧ hostReaches State.reset (2 ^ 43) 4 = false ∧
    State.reset.mm.tlb = [] ∧
    (∀ k, k < 4 → PlainLine State.reset ((ownPhys State.reset 0x10 + k) / 32) ∧ mustHold State.reset false (ownPhys State.reset 0x10 + k) State.reset.fresh = false ∧
      isEntry State.reset ((ownPhys State.reset 0x10 + k) / 8 * 8) = false ∧ execFrame State.reset (ownPhys State.reset 0x10 + k) = false ∧
      sweptAt State.reset (ownPhys State.reset 0x10 + k) = false) := by unfold LinesOk PlainLine; decide +kernel

/-- Writes of the host to a row of a page that context 1 maps SWEPT, and to a page of a recorded map. -/
theorem test_witness_outsideRows :
    pages.mm.tlb = [] ∧ hostReaches pages 0x40000 4 = true ∧ sweptAt pages (ownPhys pages 0x40000) = true ∧
    execFrame pages (ownPhys pages 0x40000) = false ∧ mustHold pages false (ownPhys pages 0x40000) pages.fresh = false ∧
    isEntry pages (ownPhys pages 0x40000) = false ∧ (∀ k, k < 4 → (ownPhys pages 0x40000 + k) / 8 * 8 = ownPhys pages 0x40000) ∧
    ownPhys pages 0x40000 % 32 + 4 ≤ 32 ∧
    execFrame sweepy (ownPhys sweepy 0x70000) = true ∧ hostReaches sweepy 0x70000 4 = true ∧ ownPhys sweepy 0x70000 % 32 + 4 ≤ 32 := by decide +kernel

/-- A context record at local 0x30400: number 2, its tables at 0x10000. -/
def ctxAt : State := put pages 0x30400 (natLE 8 2 ++ natLE 8 0x10000 ++ natLE 8 0x80000 ++ natLE 8 8832 ++ natLE 32 0)
/-- An unlocked plain page 0x70000 of a stream kind, at local 0x80000. -/
def mappable (flags : Nat) (w : Nat) : State := put (put pages (loaderTable 4 + 56) (pte pages 0x80000 flags)) 0x80000 (natLE 4 w)
theorem test_witness_ContextsMapsAndPagesChange :
    (dev ctxAt).ctxBusy = false ∧ localReadable ctxAt 0x30400 64 = true ∧ localReadable ctxAt (2 ^ 43 - 64) 64 = false ∧
    contextOk (leNat (sysRead ctxAt 0x30400 64)) = true ∧ contextOk (leNat (sysRead ctxAt 0x30000 64)) = false ∧ tabGet ctxAt.mm.contexts 2 = none ∧
    (tabGet ctxAt.mm.contexts 1).isSome = true ∧ ctxAt.mm.contexts.length < 1024 ∧ (dev ctxAt).mapBusy = false ∧
    (match mapLeaves (mappable 0x3 0) 1 0x70000 1 1 with | .ok l => l.length == 1 | .error _ => false) = true ∧
    (match mapLeaves pages 1 0x70000 1 1 with | .ok _ => false | .error u => u == 0) = true ∧
    (match mapLeaves (mappable 0x3 0xFF000000) 1 0x70000 1 1 with
      | .ok l => (prickAll (mappable 0x3 0xFF000000) 16384 l 0 { loops := [], run := 0 }).isSome
      | .error _ => false) = true ∧
    (∃ m ∈ pages.mm.execMaps, m.ctx = 1 ∧ m.vbase = 0 ∧ m.units = 1) ∧
    (let s := modMm pages fun m => { m with unmaps := [(1, 0, 1)] }
     s.mm.unmaps = [(1, 0, 1)] ∧ (∃ p ∈ s.wk.gangs, p.2.ctx = 1 ∧ fetchesFrom p.2 0 1 = true) ∧
       ∀ p ∈ (withGg s fun gg => { gg with state := .retired }).wk.gangs, p.2.ctx = 1 → fetchesFrom p.2 0 1 = false) ∧
    (dev State.reset).sync = false ∧ (dev (modDev State.reset fun r => { r with sync := true })).sync = true := by decide +kernel

theorem test_witness_pageMigration :
    ∀ l ∈ (translate pages 1 0x50000).toList, l.mlock = true ∧ l.mtype = 0 ∧ isRemote pages l.pa = false ∧ ownPhys pages (9 * 65536) % l.size = 0 ∧
      hostReaches pages (9 * 65536) l.size = true ∧ pageSwept pages l.pa l.size = false ∧ pages.mm.narrow = [] ∧ allStash pages = [] ∧
      pages.mm.provisional = [] ∧ pages.mm.held = [] ∧ pageQuiet pages l.pa l.size = true ∧
      pageQuiet pages (ownPhys pages (9 * 65536)) l.size = true ∧
      (∀ k, k < l.size / 65536 → execFrame pages (ownPhys pages (9 * 65536) + 65536 * k) = false) ∧ ownPhys pages (9 * 65536) < 2 ^ 57 ∧ l.at_ % 8 = 0 ∧
      l.at_ + 8 ≤ ownPhys pages (9 * 65536) ∧ l.pa + l.size ≤ ownPhys pages (9 * 65536) := by decide +kernel
theorem test_witness_pageMigration_leaf : (translate pages 1 0x50000).isSome = true ∧ LinesOk pages := by unfold LinesOk; decide +kernel

/-! ### Clocks, heat, links, signals, boot -/

theorem test_witness_ClocksAndPowerStep :
    (clusterRegs State.reset 79).binCur = BitVec.ofNat 3 (max (clusterRegs State.reset 79).binBase.toNat (leaseBin State.reset 79)) ∧
    (let s : State := { pages with pl := { pages.pl with clusters := [(0, { clusterRegs pages 0 with binBase := 3, changing := true })] } }
     (clusterRegs s 0).binCur ≠ 3 ∧ (clusterRegs s 0).changing = true ∧ (clusterRegs s 79).changing = false) ∧
    State.reset.time < State.reset.pl.windowEnd ∧
    (let s := withGg { pages with pl := { pages.pl with windowEnd := 0 } } fun gg => { gg with queue := 1 }
     GangsDistinct s ∧ s.pl.windowEnd ≤ s.time ∧ (ggOf s).queue < 2 ∧ (ggOf s).state = .resident ∧ (ggOf s).marked = false ∧ s.pl.powerStep < 11 ∧
       { s with pl := { s.pl with powerStep := 1 } }.pl.powerStep = 1 ∧ (dev (modDev s fun r => { r with setpoint := 100 })).setpoint * 1000 ≠ 0) ∧
    ∀ ms ∈ [[Marker.power], [.power, .other], [.other]], (ggOf (withGg pages fun gg => { gg with queue := 1, marked := true, marks := ms })).marks = ms := by
  unfold GangsDistinct; decide +kernel

theorem test_witness_StacksActAtTheirThermalPoints :
    GangsDistinct pages ∧ (tabGet (tabPut (dev pages).therm 2 (BitVec.ofNat 16 2000)) 2) = some (BitVec.ofNat 16 2000) ∧
    tabGet (tabPut (dev pages).therm 2 (BitVec.ofNat 16 2000)) 1 = none ∧ tabGet (tabPut (dev pages).therm 2 (BitVec.ofNat 16 2000)) 0 = none ∧
    computeState pages 0 ≤ 3 ∧ stackOf (physCluster pages (clusterOf (ggOf pages))) = 0 ∧ (BitVec.ofNat 16 2160).toInt = 16 * 135 ∧
    memStackState pages 15 ≤ 4 ∧ noticeRoom (dev pages) = false := by unfold GangsDistinct; decide +kernel

/-- The memory stack of held1 stands at state 4. -/
def hot : State := { modMm pages fun m => { m with held := [held1] } with pl := { pages.pl with memState := [(stackAt 0x30000, 4)] } }
theorem test_witness_heldWrite :
    memStackState hot (stackAt 0x30000) = 4 ∧ hot.mm.held = [held1] ∧ held1.op = .store [7] ∧ LinesOk hot ∧ ownedLine hot (held1.pa / 32) held1.id = false ∧
    unservedFor hot held1.who (held1.pa / 32) held1.id = false ∧ PlainLine hot (held1.pa / 32) ∧
    ((translate hot 1 held1.va).map fun l => (l.pa == held1.pa, l.mtype, l.mlock, isRemote hot l.pa, stackAt (localOf l.pa) == stackAt 0x30000)) =
      some (true, 0, false, false, true) := by unfold LinesOk PlainLine; decide +kernel

/-- A peer's package: number 1 at coordinate 1, in recovery since 0. -/
def peered (link unreachable sync : Bool) : State :=
  { modDev pages fun r => { r with sync := sync } with pl := { (modDev pages fun r => { r with sync := sync }).pl with
      peers := [(1, { since := 0, unreachable := unreachable, link := link })] }, time := 2000000 }
def farHeld : Held := { held1 with pa := 2 ^ 43 + 0x30004, va := 0x60004, who := none }
theorem test_witness_LinksAndPeers :
    (1 ≠ ownCoord pages) ∧ tabGet (peered true false true).pl.peers 1 = some { since := 0, unreachable := false, link := true } ∧
    (dev (peered true false true)).sync = true ∧ (dev (peered true false false)).sync = false ∧ tabGet State.reset.pl.peers 1 = none ∧
    (let s := withX (peered true false true) fun x => { x with wait := some (waitFor .remoteLoad 0), loads := [farLoad true] }
     findGang s 1 = some (ggOf s) ∧ (ggOf s).state = .resident ∧ findGroup s gRef = some (xOf s) ∧ waitPeers s (xOf s) (waitFor .remoteLoad 0) = [1] ∧
     coordOf s 1 = 1 ∧ s.mm.held = [] ∧ (xOf s).retired = false ∧ (xOf s).halted = false ∧ GangsDistinct s) ∧
    (let s := modMm (peered true false true) fun m => { m with held := [farHeld] }
     s.mm.held = [farHeld] ∧ isRemote s farHeld.pa = true ∧ coordOf s (pkgOf farHeld.pa) = 1 ∧ LinesOk s ∧ PlainLine s (farHeld.pa / 32) ∧
     ownedLine s (farHeld.pa / 32) farHeld.id = false ∧ unservedFor s farHeld.who (farHeld.pa / 32) farHeld.id = false) ∧
    0 + (dev (peered true false true)).recoveryLimit * 4000 ≤ (peered true false true).time ∧ noticeRoom (dev pages) = false ∧
    (∀ e ∈ allEngines pages, e.2.flight = []) := by unfold GangsDistinct LinesOk PlainLine; decide +kernel

/-- Another package of the domain, where one is present. -/
theorem test_witness_otherPackage (h : Config.present 1 = true) :
    coordPresent (peered true false true) 1 = true ∧ present (modDev State.reset fun r => { r with sync := true }) 1 = true ∧
    recovering (modDev State.reset fun r => { r with sync := true }) 1 = false ∧ 1 ≠ ownPkg State.reset := by
  refine ⟨by unfold coordPresent; rw [h, Bool.or_true], ?_, by decide +kernel, by decide +kernel⟩
  unfold present coordPresent
  rw [show coordOf (modDev State.reset fun r => { r with sync := true }) 1 = 1 by decide +kernel, h, Bool.or_true]

theorem test_witness_RemoteAccessesAreServed :
    hostReaches State.reset 0x10 4 = true ∧ hostReaches State.reset (2 ^ 43) 4 = false ∧ inWindow 0x10 = false ∧ LinesOk State.reset ∧
    inWindow 0x40000 = false ∧ inWindow 0x70000 = false ∧
    inWindow (Config.windowBase + 8) = true ∧ deviceWidthOk (Config.windowBase + 8) 8 = true ∧ (Config.windowBase + 8) % 8 = 0 := by
  unfold LinesOk; decide +kernel

/-- A signal of group 0 for this package; context 1 has a queue of 16 entries at 0x10040, or none. -/
def signalled (who : Option GRef) (since : Option Nat) (bound full : Bool) : State :=
  let h : HeldSignal := { ctx := 1, payload := 7, coord := 0, since := since, who := who, node := none, id := 1 }
  let s := put pages 0x30040 (natLE 8 16 ++ natLE 8 (if full then 17 else 1) ++ natLE 8 1)
  let s := modMm s fun m => { m with contexts := [(1, { root := loaderTable 0, area := 0, fold := 0, foldBytes := 0, sigq := if bound then 0x10040 else 0, dying := false })] }
  { modDev s fun r => { r with sync := true } with pl := { (modDev s fun r => { r with sync := true }).pl with signals := [h] } }
theorem test_witness_SignalsAreSentAndDelivered :
    (let s := signalled (some gRef) none false false
     s.pl.signals.length = 1 ∧ coordRecovering s 0 = false ∧ queueBound s 1 = none ∧ findGroup s gRef = some (xOf s) ∧ (xOf s).retired = false ∧
     GangsDistinct s ∧ gRef.grp ≠ 255) ∧
    (let s := signalled none none true false
     queueBound s 1 = some 0x10040 ∧ ((queueAt s 1 0x10040).map fun q => (q.tail - q.head, q.entries)) = some (0, 16) ∧ LinesOk s ∧ 0x10040 % 64 = 0 ∧
     plainAt s (0x10040 + 0x40 + 16) = true ∧ plainAt s (0x10040 + 8) = true ∧ ownPhys s 0x30090 / 32 ≠ ownPhys s 0x30048 / 32) ∧
    (let s := signalled none none true true
     ((queueAt s 1 0x10040).map fun q => (q.tail - q.head, q.entries)) = some (16, 16)) ∧
    (let s : State := { signalled (some gRef) (some 0) true true with time := 2000000 }
     0 + (dev s).recoveryLimit * 4000 ≤ s.time) := by unfold GangsDistinct LinesOk; decide +kernel

/-- An eviction of a line on a stack at its 105 °C point, and of one that is not. -/
theorem test_witness_hotEviction :
    hotAt hot (32 * (held1.pa / 32)) = true ∧ hotAt State.reset 0 = false ∧ Safety.MemoryOk State.reset := by
  unfold Safety.MemoryOk; decide +kernel

/-- A descriptor whose line an earlier store of the group is still held for. -/
def descHeld (s : State) : State := modMm s fun m => { m with held := [{ held1 with pa := ownPhys s (0x30000 + laneAddr (xOf s) 6 0 0 % 65536), who := some gRef }] }
theorem test_witness_descriptorsWait :
    (∀ p ∈ [(sreg, false), (bkcmd, true)],
      let s := p.1
      descWaits s gRef (laneAddr (xOf s) 6 0 (((activeLanes (xOf s)).head?).getD 0)) p.2 = false ∧ instOf s (some gRef) = none ∧
      descWaits (descHeld s) gRef (laneAddr (xOf (descHeld s)) 6 0 (((activeLanes (xOf (descHeld s))).head?).getD 0)) p.2 = true ∧
      (readDesc (descHeld s) 1 (laneAddr (xOf (descHeld s)) 6 0 0) (some gRef) p.2).toOption.isSome = true) := by decide +kernel

theorem test_witness_BootReadiesThePart :
    (dev State.reset).bootStage = 0 ∧ (dev (modDev State.reset fun r => { r with bootStage := 0xFFFF })).bootStage ≠ 0 ∧
    State.reset.pl.retireLog = [] := by decide +kernel

/-! ### Outcomes, spares and writes from outside -/

/-- Stops with late causes, in a gang being saved, and with a record already taken. -/
def saved (c late : BitVec 32) (handler : Nat) : State :=
  withTime 5 (withGg (withTm (stopped c handler none) fun t => { t with stop := t.stop.map fun st => { st with late := late } }) fun gg => { gg with reported := true })
theorem test_witness_savedOutcomes :
    (∀ p ∈ [(cPage, (0 : BitVec 32), 0), (cPoison, 0, 0), (cFetch, 0, 64), (cFetch, 0, 0), (cPage, cFetch, 0), (cPage, cPerm, 0)],
      let s := saved p.1 p.2.1 p.2.2
      GangsDistinct s ∧ findGang s 1 = some (ggOf s) ∧ findTeam s tRef = some (tmOf s) ∧ (ggOf s).state = .resident ∧ (ggOf s).reported = true ∧
      (tmOf s).handler = none ∧ (xOf s).cause = p.1 ∧ (tmOf s).groups.length = 1 ∧ (xOf s).stores = [] ∧ (xOf s).tiles = [] ∧ (xOf s).loads = [] ∧
      (∀ st ∈ (tmOf s).stop.toList, st.time < s.time ∧ st.report = false ∧ st.group = 0 ∧ st.late = p.2.1 ∧ st.written = none) ∧ (tmOf s).stop.isSome = true ∧
      (ggOf s).launch.handler = p.2.2 ∧ (tabGet s.mm.contexts (ggOf s).ctx).map Context.dying = some false) ∧
    cFetch &&& ~~~(cPage ||| cPerm ||| cRemote) ≠ 0 ∧ cPerm &&& ~~~(cPage ||| cPerm ||| cRemote) = 0 ∧
    (let s := withTm (stopped cPage 64 none) fun t => { t with stop := t.stop.map fun st => { st with taken := some (List.replicate 400 0) } }
     ∀ st ∈ (tmOf s).stop.toList, ∀ bs ∈ st.taken.toList, bs.length = 128 + 272 * (tmOf s).groups.length) ∧
    (dev (modDev pages fun r => { r with ctxBusy := true, ctxLast := 1 })).ctxBusy = true ∧
    (let s := modMm pages fun m => { m with contexts := [(1, { root := loaderTable 0, area := 0, fold := 0, foldBytes := 0, sigq := 0, dying := true })], held := [held1] }
     (tabGet s.mm.contexts 1).map Context.dying = some true ∧ contextQuiet s 1 = false ∧ contextQuiet (modMm s fun m => { m with held := [] }) 1 = true) := by
  unfold GangsDistinct; decide +kernel

/-- A gang formed later than now, and one that restores with a cause that its report does not resolve. -/
theorem test_witness_restores :
    (let s := withGg (queuedGang .queued false) fun gg => { gg with queue := 2, queuedAt := 5000000 }
     s.time < (ggOf s).queuedAt ∧ headOf s 2 = some (1, ggOf s)) ∧
    (∀ p ∈ [(cPage, 0, none), (cAlign, 0, none), (cAlign, 64, some 3), (cPage, 64, none)],
      let s := withTm (withGg (withX (queuedGang .saved true) fun x => { x with halted := true, cause := p.1 }) fun gg =>
        { gg with launch := { gg.launch with handler := p.2.1 } }) fun t => { t with stop := some { stopOf 0 with written := p.2.2 } }
      (tmOf s).retired = false ∧ (tmOf s).handler = none ∧ (ggOf s).reported = true ∧ (tmOf s).groups = [xOf s] ∧ (xOf s).retired = false ∧
      ((ggOf s).launch.handler = 0 ∨ p.2.2 ≠ none ∨ (xOf s).cause &&& ~~~(cHaltb ||| cPage ||| cPerm ||| cRemote) = 0)) ∧
    (let s := withGg (queuedGang .saved true) fun gg => { gg with queue := 2 }
     (ggOf s).state = .saved ∧ s.wk.queues[(ggOf s).queue]? = some [1] ∧ 1 ∈ [1]) := by decide +kernel

/-- An engine of the node's gang has entries on their way. -/
theorem test_witness_gridRunsOn :
    (∀ p ∈ [(true, false, false, 2), (false, true, false, 0), (false, false, false, 0)],
      let s := nodeRun p.1 p.2.1 p.2.2.1 p.2.2.2
      gridRunsOn s { replay := 4, node := 0 } = false ∧
      gridRunsOn (withTm s fun t => { t with engine := (engOf (flying arrives (.suspended 4 false) none)) }) { replay := 4, node := 0 } = true) := by
  decide +kernel

/-- Provisional lines that a commit publishes, that a locked page holds, and that are on their way. -/
theorem test_witness_publishing :
    let s := nodeAt 1 launchArming .started id
    let with_ := fun (loc : Nat) (bs : List (Nat × Byte)) => modMm s fun m => { m with provisional := [{ node := nRef, line := ownPhys s loc / 32, bytes := bs }] }
    (∀ p ∈ (with_ 0x30000 [(0, 1)]).mm.provisional, frameLocked (with_ 0x30000 [(0, 1)]) (32 * p.line) = false ∧ p.bytes ≠ []) ∧
    (∀ p ∈ (with_ 0x60000 [(0, 1)]).mm.provisional, frameLocked (with_ 0x60000 [(0, 1)]) (32 * p.line) = true ∧ p.bytes ≠ []) ∧
    s.mm.provisional = [] ∧ gridPlaced s nRef = true ∧
    ∀ r ∈ (tabGet s.wk.replays 4).toList, ∀ x ∈ (r.nodes[1]?).toList, x.kind = 1 ∧ x.gangsLeft = 0 ∧ x.doneAt = none ∧ x.reason = none := by decide +kernel

/-- Spares of the stack of core 0: for one half, for a whole slab, and none. -/
theorem test_witness_spares :
    let s := modDev State.reset fun r => { r with shepRun := true, shepCore := 0 }
    let with_ := fun (hs : List (Nat × Nat)) => { s with pl := { s.pl with goodHalves := hs } }
    inService s 0 = true ∧ inService s 5 = true ∧ 5 ≠ (dev s).shepCore ∧ (coreState s 0).retired = false ∧ stackDropped s (0 / 40) = false ∧
    (boundHalves s 0 = [(0, 0), (0, 1)] ∧ ∀ q ∈ boundHalves s 0, halfUsed s 0 q = false) ∧
    spares (noteHalves (with_ [(38, 0)]) 0 .halfA) 0 [0] = [38] ∧ spares (noteHalves (with_ [(38, 0)]) 0 .halfA) 0 [0, 1] = [] ∧
    spares (noteHalves (with_ [(38, 0), (38, 1)]) 0 .halfA) 0 [0, 1] = [38] ∧ spares (noteHalves s 0 .halfA) 0 [0] = [] := by decide +kernel

/-- The part's own writes: a notice whose line a locked page holds, and one whose line nothing holds; reports that wait and that do not,
whatever the sizes of their keys. -/
theorem test_witness_sysHolds :
    (let r := { dev (noticed 0) with noticeBase := BitVec.ofNat 64 (2 ^ 59 + 0x60000) }
     noticeRoom r = true ∧ sysHolds (noticed 0) (nextEntryAt r) 32 = true ∧
     sysHolds (noticed 0) (nextEntryAt { r with noticeBase := BitVec.ofNat 64 (2 ^ 59 + 0x20000) }) 32 = false) ∧
    (dev (noticed 0)).noticeVis = [] ∧ msixNow { modDev State.reset (fun r => { r with noticeHead := 1, noticeVis := [40] }) with time := 50 } = [40] ∧
    (dev State.reset).attestWait = none ∧ (1#64).getLsbD 0 = true ∧ execFrame State.reset (ownPhys State.reset 0) = false ∧
    sweptAt State.reset (ownPhys State.reset 0) = false ∧ (dev State.reset).attestAddr = 0 := by decide +kernel
theorem test_witness_reports : (∃ n, (noticed 0).wk.notices = [n] ∧ n.area = none) ∧
    sysHolds (modDev pages fun r => { r with attestAddr := 0x60000 }) 0x60000 (attestReport (modDev pages fun r => { r with attestAddr := 0x60000 })).length = true ∧
    ((attestReport State.reset).length ≤ 2048 → sysHolds State.reset 0 (attestReport State.reset).length = false) := by
  refine ⟨⟨_, rfl, rfl⟩, List.any_eq_true.2 ⟨0, ?_, by decide +kernel⟩, fun h => List.any_eq_false.2 fun k hk => ?_⟩
  · rw [List.mem_range]
    have : 4 ≤ (attestReport (modDev pages fun r => { r with attestAddr := 0x60000 })).length := by
      simp only [attestReport, attestBody, List.length_append]
      have : (natLE 4 0x41545351).length = 4 := by decide
      omega
    omega
  · rw [List.mem_range] at hk
    have : ∀ k, k < 65 → homeHolds State.reset (ownPhys State.reset (0 / 32 * 32 + 32 * k)) = false := by decide +kernel
    simpa using this k (by omega)

theorem test_witness_heldHostWrite :
    Safety.MemoryOk pages ∧ hostReaches pages 0x60000 4 = true ∧ mustHold pages (frameLocked pages (ownPhys pages 0x60000)) (ownPhys pages 0x60000) pages.fresh = true ∧
    execFrame pages (ownPhys pages 0x60000) = false ∧ ownPhys pages 0x60000 % 32 + 4 ≤ 32 ∧ pages.mm.tlb = [] ∧ isEntry pages (ownPhys pages 0x60000) = false ∧
    mustHold pages (frameLocked pages (ownPhys pages 0x40000)) (ownPhys pages 0x40000) pages.fresh = false ∧
    containedOf pages held1.who = none ∧ held1.id ≤ pages.fresh := by unfold Safety.MemoryOk; decide +kernel

/-- The domain bound of a package that is not alone. -/
theorem test_witness_domainBound (h : Config.present 1 = true) :
    ∀ b, let s := modDev State.reset fun r => { r with bootStage := 0xFFFF, sync := b }
      (dev s).bootStage = 0xFFFF ∧ aloneInDomain s = false ∧ (dev s).sync = b := by
  intro b
  refine ⟨by cases b <;> decide +kernel, ?_, by cases b <;> decide +kernel⟩
  have hp : present (modDev State.reset fun r => { r with bootStage := 0xFFFF, sync := b }) 1 = true := by
    unfold present coordPresent
    rw [show coordOf (modDev State.reset fun r => { r with bootStage := 0xFFFF, sync := b }) 1 = 1 by cases b <;> decide +kernel, h, Bool.or_true]
  unfold aloneInDomain
  refine List.all_eq_false.2 ⟨1, by simp, ?_⟩
  rw [hp, show ownPkg (modDev State.reset fun r => { r with bootStage := 0xFFFF, sync := b }) = 0 by cases b <;> decide +kernel]
  decide

theorem test_witness_hotMigration :
    let s : State := { pages with pl := { pages.pl with memState := [(stackAt 0x60000, 4)] } }
    ((translate pages 1 0x50000).map fun l => (hotAt pages l.pa, hotAt s l.pa)) = some (false, true) := by decide +kernel

/-- Maintenance, and monitors that are satisfied, armed and disarmed, from another package. -/
theorem test_witness_remoteMaintenance :
    (let pa := ownPhys pages 0x30000
     outsideWaits pages pa = false ∧ PlainLine pages (pa / 32) ∧ LinesOk pages ∧ Safety.MemoryOk pages ∧ hostReaches pages 0x30000 8 = true ∧
     sweptAt pages pa = false ∧ leNat (homeRead pages pa (condBytes (condOf 0)) none) = 5 ∧ 0x30000 % condBytes (condOf 3) = 0 ∧
     mustHold pages (frameLocked pages pa) pa pages.fresh = false ∧ isEntry pages (pa / 8 * 8) = false ∧ execFrame pages pa = false) ∧
    (let k : Monitor := { pkg := 1, addr := ownPhys pages 0x30000, cond := condOf 0, y := 7, scope := 3 }
     ({ pages with mm := { pages.mm with monitors := [k] } } : State).mm.monitors.filter (fun k => k.pkg ≠ 1 || k.addr ≠ ownPhys pages 0x30000) = []) := by
  unfold PlainLine LinesOk Safety.MemoryOk; decide +kernel

/-! ### An executable map that is made: one page of XEND words -/

theorem smGet_above {w b : Nat} (m : SMap w) (h : ∀ p ∈ m, p.1 < b) {k : Nat} (hk : b ≤ k) : smGet m k = 0 := by
  induction m with
  | nil => rfl
  | cons p m ih =>
    have hp := h p (by simp)
    simp only [smGet, show ¬ p.1 = k by omega, if_false]
    exact ih fun q hq => h q (by simp [hq])
theorem smRange_zero {w : Nat} (m : SMap w) {b : Nat} (h : ∀ p ∈ m, p.1 < b) (n k : Nat) (hk : b ≤ k) : smRange m k n = List.replicate n 0 := by
  induction n generalizing k with
  | zero => rfl
  | succ n ih => simp only [smRange, List.replicate_succ, smGet_above m h hk, ih (k + 1) (by omega)]
theorem homeNat_zero {s : State} {b : Nat} (h : ∀ p ∈ s.mm.mem, p.1 < b) (hh : s.mm.homes = []) (hn : s.mm.narrow = []) (hs : allStash s = [])
    (a : Nat) (ha : b + 32 ≤ a) (h4 : a % 4 = 0) : homeNat s a 4 = 0 := by
  have hl : lineView s (a / 32) none = List.replicate 32 0 := by
    simp [lineView, homeOf, hh, tabGet, Home.fresh, seen, dramLine, dramRead, smRange_zero s.mm.mem h 32 (32 * (a / 32)) (by omega), narrowBytes, hn,
      stashBytes, stashAt, hs, provBytes, applyBytes, instOf]
  simp only [homeNat, homeRead, hl, sliceLine, List.drop_replicate, List.take_replicate, show min 4 (32 - a % 32) = 4 by omega]
  rfl
theorem prickPage_zero {s : State} (total pa : Nat) (h : ∀ i, homeNat s (pa + 4 * i) 4 = 0) (n i : Nat) :
    prickPage s 2 total pa n i { loops := [], run := 0 } = .ok { loops := [], run := 0 } := by
  induction n generalizing i with
  | zero => rfl
  | succ n ih =>
    simp only [prickPage, h]
    exact ih (i + 1)

theorem prickAll_zero {s : State} {l : Leaf} (total : Nat) (hk : l.kind = 2) (h : ∀ i, homeNat s (l.pa + 4 * i) 4 = 0) :
    prickAll s total [l] 0 { loops := [], run := 0 } = none := by
  unfold prickAll
  rw [hk, prickPage_zero total l.pa h]
  unfold prickAll
  rfl

def blank : State := mappable 0x43 0
def blankLeaf : Leaf :=
  { pa := 0x80000, size := 65536, at_ := loaderTable 4 + 56, mlock := false, cont := false, lease := 0, mtype := 0, kind := 2, x := false, w := false }
theorem test_witness_mapIsMade : mapLeaves blank 1 0x70000 1 1 = .ok [blankLeaf] ∧
    prickAll blank 16384 [blankLeaf] 0 { loops := [], run := 0 } = none ∧ blankLeaf.at_ % 8 = 0 ∧ LinesOk blank ∧ PlainLine blank (blankLeaf.at_ / 32) := by
  refine ⟨ok_of (by decide +kernel), prickAll_zero 16384 rfl fun i => ?_, by decide +kernel, by unfold LinesOk; decide +kernel, by unfold PlainLine; decide +kernel⟩
  exact homeNat_zero (b := 0x70000) (by decide +kernel) (by decide +kernel) (by decide +kernel) (by decide +kernel) _
    (by simp only [blankLeaf]; omega) (by simp only [blankLeaf]; omega)

end Sys2Proof.Tests
end

section
/-! Every step answers a next state (O8). An outcome completes when it is a next state: first the shared operations and every
instruction, each where the agent that its kind needs is executing; then what the decoder gives each agent; then the agents' turns. -/
namespace Sys2Proof.Progress
open Sys2Proof Sys2Proof.Machine Sys2Proof.Claims

/-- An outcome that is a next state. -/
def Completes (o : Out) : Prop := ∃ t, o = .next t

theorem completes_next (t : State) : Completes (.next t) := ⟨t, rfl⟩

theorem completes_ite {c : Prop} [Decidable c] {a b : Out} (ha : Completes a) (hb : Completes b) :
    Completes (if c then a else b) := by split <;> assumption

theorem consume_completes (s : State) (g : GRef) (x : Group) (ls : List Leaf) (n : Nat) : Completes (consume s g x ls n) := by
  unfold consume
  split <;> exact completes_next _

/-! ## Group-stream words: what each does for the group that is executing -/

section GroupWords
variable {s : State} {g : GRef} {x : Group} (h : Issues s g x)
include h

theorem onGroup_completes {f : GRef → Group → Out} (hf : Completes (f g x)) : Completes (onGroup s f) := by
  rwa [onGroup_issues h]

/-- A group that executes stands in a team of a gang. -/
theorem issues_findTeam : ∃ gg tm, findGang s g.gang = some gg ∧ findTeam s (grefTeam g) = some tm := by
  obtain ⟨-, hx⟩ := h
  unfold findGroup at hx
  split at hx
  · next tm ht =>
    have hg := ht
    unfold findTeam at hg
    split at hg
    · next gg hgg => exact ⟨gg, tm, hgg, ht⟩
    · cases hg
  · cases hx

/-! ### The shared operations -/

theorem groupOp_completes (f : Group → Group) : Completes (groupOp s f) := onGroup_completes h (completes_next _)

theorem vecOp_completes (vec : Bool) (uses : List (VReg × Nat)) (d : VReg) (n : Nat) (f : Group → Nat → List Word × Bool) :
    Completes (vecOp s vec uses d n f) :=
  onGroup_completes h (completes_ite (completes_next _) (completes_next _))

theorem kOp_completes (vec : Bool) (uses : List (VReg × Nat)) (k : KReg) (f : Group → Nat → Bool × Bool) :
    Completes (kOp s vec uses k f) :=
  onGroup_completes h (completes_ite (completes_next _) (completes_next _))

theorem scalarOp_completes (uses : List (VReg × Nat)) (d : SReg) (f : Group → Word64) : Completes (scalarOp s uses d f) :=
  onGroup_completes h (completes_ite (completes_next _) (completes_next _))

theorem branchLanes_completes (m : Group → Mask) (b : Branch) : Completes (branchLanes s m b) :=
  onGroup_completes h (completes_ite (completes_next _) (completes_ite (completes_next _)
    (completes_ite (completes_next _) (completes_next _))))

theorem loadOp_completes (d a : VReg) (w : MWidth) (hint : Nat) (off : Int) (bypass : Bool) :
    Completes (loadOp s d a w hint off bypass) := by
  refine onGroup_completes h ?_
  simp only [notPerformed_spec]
  repeat' first | with_reducible exact completes_next _ | with_reducible exact consume_completes .. | split

theorem storeOp_completes (d a : VReg) (w : MWidth) (off : Int) (scope : Option Nat) : Completes (storeOp s d a w off scope) := by
  refine onGroup_completes h ?_
  simp only [notPerformed_spec]
  repeat' first | with_reducible exact completes_next _ | split

theorem atomOp_completes (d : Option VReg) (a b : VReg) (isX : Bool) (op scope : Nat) :
    Completes (atomOp s d a b isX op scope) := by
  refine onGroup_completes h ?_
  simp only [notPerformed_spec]
  repeat' first | with_reducible exact completes_next _ | with_reducible exact consume_completes .. | split

theorem cacheOp_completes (a b : VReg) (acc : Access) (f : State → Nat → State × Nat) : Completes (cacheOp s a b acc f) := by
  refine onGroup_completes h ?_
  simp only [notPerformed_spec]
  repeat' first | with_reducible exact completes_next _ | split

theorem stashOp_completes (b : VReg) (f : State → TRef → Stash → State × Nat) : Completes (stashOp s b f) := by
  obtain ⟨-, tm, -, ht⟩ := issues_findTeam h
  refine onGroup_completes h ?_
  simp only [ht, notPerformed_spec]
  repeat' first | with_reducible exact completes_next _ | split

/-! ### Words with a meaning of their own -/

theorem execQwait_completes (q : BitVec 3) (d : SReg) : Completes (execQwait q d s) := by
  obtain ⟨-, tm, -, ht⟩ := issues_findTeam h
  refine onGroup_completes h ?_
  simp only [ht, notPerformed_spec]
  repeat' first | with_reducible exact completes_next _ | split

theorem execRacq_completes : Completes (execRacq s) := by
  obtain ⟨gg, -, hg, -⟩ := issues_findTeam h
  refine onGroup_completes h ?_
  simp only [hg, notPerformed_spec]
  repeat' first | with_reducible exact completes_next _ | split

theorem execBoost_completes (d a : SReg) (bin : BitVec 3) : Completes (execBoost d a bin s) := by
  obtain ⟨gg, -, hg, -⟩ := issues_findTeam h
  refine onGroup_completes h ?_
  simp only [hg]
  exact completes_next _

/-- The publication's count is kept as an unknown function: its value turns on a subtraction from 2 ^ 32, which the kernel must not run. -/
theorem execSts_completes (d a : VReg) (w : MWidth) (off : BitVec 7) : Completes (execSts d a w off s) := by
  obtain ⟨gg, tm, hg, ht⟩ := issues_findTeam h
  obtain ⟨count, hcount⟩ : ∃ f, publishCount = f := ⟨_, rfl⟩
  unfold execSts
  rw [hcount]
  refine onGroup_completes h ?_
  simp only [hg, ht, notPerformed_spec]
  repeat' first | with_reducible exact completes_next _ | split

theorem execSmap_completes (a b : VReg) : Completes (execSmap a b s) := by
  obtain ⟨gg, tm, hg, ht⟩ := issues_findTeam h
  refine onGroup_completes h (completes_ite (completes_next _) ?_)
  dsimp only
  split
  · exact completes_next _
  · exact completes_ite (completes_next _) (completes_next _)
  · next herr hok =>
    cases hc : checkAccess s (ctxOf s g) (laneAddr x a 0 (firstLane x)) 4096 .load with
    | error e => exact (herr e tm hc ht).elim
    | ok l => exact (hok l gg tm hc hg ht).elim

/-- A word of the group stream completes where a group executes. -/
theorem exec_completes_of_issues {i : Instr} (hi : streamOf i = some .group) : Completes (exec i s) := by
  cases i with
  | nop | yield | br | call | ret | bx | cclr | wbase | rrel | route | movk => exact groupOp_completes h _
  | bt | bf => exact branchLanes_completes h ..
  | iadd | isub | imul | imulh | imin | imax | iminu | imaxu | and | or | xor | andn | shl | shr | sar | rot
  | imad | imadw | isad | isel | clz | popc | brev | iabs | bfx | bfi
  | iaddi | andi | ori | xori | shi | movi | movh | lea
  | iadds | imuls | fmuls | ffmas | vbcst | vlane | lshf | lred | lscan
  | fadd | fsub | fmul | fmin | fmax | ffma | fcpys | fdiv | hadd2 | hmul2 | hfma2 | hmax2 | badd2 | bmul2 | bfma2 | bmax2
  | frcp | frsq | fsqrt | fexp2 | flog2 | fsin | fcos | ftanh | frnd => exact vecOp_completes h ..
  | icmp | fcmp | scmp => exact kOp_completes h ..
  | sadd | ssub | smul | sand | sor | sxor | sshl | sshr | saddi | smovi | smovh | vpick | lvote =>
    exact scalarOp_completes h ..
  | ld | lda => exact loadOp_completes h ..
  | st | stl => exact storeOp_completes h ..
  | atom | atomx | red => exact atomOp_completes h ..
  | cclean | cinv => exact cacheOp_completes h ..
  | cclinv a b => exact (cacheOp_completes h .. : Completes (execCclinv a b s))
  | sunmap | sflush => exact stashOp_completes h ..
  | trap => exact onGroup_completes h (completes_next _)
  | wait | fence | pchk | tret | opf | pref => exact onGroup_completes h (completes_ite (completes_next _) (completes_next _))
  | fcvt => exact onGroup_completes h (completes_ite (completes_next _) (vecOp_completes h ..))
  | srd => exact onGroup_completes h (completes_ite (vecOp_completes h ..) (completes_next _))
  | qwait => exact execQwait_completes h ..
  | racq => exact execRacq_completes h ..
  | boost => exact execBoost_completes h ..
  | sts => exact execSts_completes h ..
  | smap => exact execSmap_completes h ..
  -- the meaning's tests are split until each branch is a next state
  | rinit | arv | rwait | qrel | swr | exit | lds | ldt | stt | mwait | xsig | swreg | swdel | swpos | swwait | bkcmd | ladpush | ladesc
  | laddone | ladstat =>
    refine onGroup_completes h ?_
    simp only [notPerformed_spec, refusedAt, performedThen, swwaitDone]
    repeat' first | with_reducible exact completes_next _ | with_reducible exact consume_completes .. | split
  | _ => cases hi

end GroupWords

/-! ## Matrix-stream words, bank words and copy-ring entries -/

/-- What the streams' map leaves to its last line is a word of the group stream or of none. -/
theorem eq_group_of_ite {c : Prop} [Decidable c] {k : StreamKind} (h : (if c then none else some StreamKind.group) = some k) :
    k = .group := by
  split at h
  · cases h
  · exact (Option.some.inj h).symm

section MatrixWords
variable {s : State} {t : TRef} {gg : Gang} {tm : Team} (h : Sequences s t gg tm)
include h

theorem onSeq_completes {f : TRef → Gang → Team → Out} (hf : Completes (f t gg tm)) : Completes (onSeq s f) := by
  obtain ⟨hs, hg, ht⟩ := h
  rwa [onSeq_spec hs hg ht]

/-- A word of the matrix stream completes where a sequencer executes. -/
theorem exec_completes_of_sequences {i : Instr} (hi : streamOf i = some .matrix) : Completes (exec i s) := by
  cases i with
  | mend | mzero | mgang | mloop => exact onSeq_completes h (completes_next _)
  | marv => exact onSeq_completes h (completes_ite (completes_next _) (completes_next _))
  | mlda | mstRing =>
    exact onSeq_completes h (completes_ite (completes_next _) (completes_ite (completes_next _) (completes_next _)))
  | mma | mstScratch | mrel | mwt =>
    refine onSeq_completes h ?_
    simp only [seqFail]
    repeat' first | with_reducible exact completes_next _ | split
  | xend | xld | xst | xadd | xsub | xmul | xfma | xscl | xaddc | xmax | xmin | xclmp | xcvt | xrsq | xsel | xzero => cases hi
  | _ =>
    unfold streamOf at hi
    cases eq_group_of_ite hi

end MatrixWords

theorem onRestore_completes {s : State} (h : s.focus = .restore) (f : Restore → Restore) : Completes (onRestore s f) :=
  ⟨_, onRestore_spec h f⟩

theorem bankOp1_completes {s : State} (h : s.focus = .restore) (t : BitVec 3) (xd xa : BitVec 2) (f : Restore → BType → Nat → Nat) :
    Completes (bankOp1 s t xd xa f) := onRestore_completes h _

theorem bankOp2_completes {s : State} (h : s.focus = .restore) (t : BitVec 3) (xd xa xb : BitVec 2) (f : BType → Nat → Nat → Nat) :
    Completes (bankOp2 s t xd xa xb f) := onRestore_completes h _

/-- A bank word completes where the restore unit executes. -/
theorem exec_completes_of_restore {s : State} (h : s.focus = .restore) {i : Instr} (hi : streamOf i = some .bank) :
    Completes (exec i s) := by
  cases i with
  | xend => exact ⟨finishApplication s, by simp only [exec, execXend, h]⟩
  | xscl | xaddc | xclmp | xrsq =>
    unfold exec
    exact bankOp1_completes h ..
  | xadd | xsub | xmul | xmax | xmin => exact bankOp2_completes h ..
  | xld | xst | xfma | xcvt | xsel | xzero =>
    unfold exec
    exact onRestore_completes h _
  | mend | mzero | mlda | mma | mstScratch | mstRing | mrel | marv | mwt | mloop | mgang => cases hi
  | _ =>
    unfold streamOf at hi
    cases eq_group_of_ite hi

section Entries
variable {s : State} {x : EngineRef} {e : Engine} (hs : s.focus = .engine x) (he : findEngine s x = some e)
include hs he

theorem engineTurn_completes (code : Nat) (en : Entry) (bad : Bool) : Completes (engineTurn s code en bad) := by
  simp only [engineTurn, onEngine, hs, he]
  repeat' first | with_reducible exact completes_next _ | split

/-- What an engine takes from its ring completes where that engine executes. -/
theorem exec_entryInstr_completes (code : Nat) (en : Entry) : Completes (exec (entryInstr code en) s) := by
  unfold entryInstr
  split <;> exact engineTurn_completes hs he ..

end Entries

/-! ## Events of the part: they need no agent -/

theorem execReplayStart_completes (handle : Nat) (s : State) : Completes (execReplayStart handle s) := by
  unfold execReplayStart
  repeat' first | with_reducible exact completes_next _ | split

theorem nodeStart_completes (s : State) (n : NRef) (kind : Nat) (act : State → Replay → NodeInst → State) :
    Completes (nodeStart s n kind act) := by
  unfold nodeStart
  split <;> exact completes_next _

theorem execNodeLadder_completes (n : NRef) (s : State) : Completes (execNodeLadder n s) := by
  unfold execNodeLadder
  split
  · exact completes_next _
  · exact nodeStart_completes ..

theorem execNodeSignal_completes (n : NRef) (s : State) : Completes (execNodeSignal n s) := by
  unfold execNodeSignal
  split
  · exact completes_next _
  · exact completes_ite (completes_next _) (nodeStart_completes ..)

/-- An event completes whatever the state. -/
theorem exec_completes_of_isEvent {i : Instr} (h : IsEvent i) (s : State) : Completes (exec i s) := by
  obtain ⟨hs, he⟩ := h
  cases i with
  | boostLeaseEnd | fabricPortChange | l1LineDrop | llcEviction | noticeBaseWrite | noticeTailWrite => exact completes_next _
  | attestCtl | boostRefill | clockChange | clockStable | clusterMapWrite | cpcAbort | ctxCreate | ctxTerminate | doorbell
  | evict | evictWithdraw | hostMemWrite | inval | mapRequest | memoryStackUnreadable | powerWindowEnd | registerWrite
  | sigq => exact completes_ite (completes_next _) (completes_next _)
  | nodeLaunch | nodeCopy | nodeSweep | nodeBank | nodeColl =>
    unfold exec
    exact nodeStart_completes ..
  -- the meaning's tests are split until each branch is a next state
  | unmapRequest | unmapComplete | invalidationComplete | vacate | gload | kick | stashLazyWriteback | ladderStarvationExpiry
  | picotDrain | collectivePeerData | copyEntryComplete | signalDelivery | signalDeliveryDiscard | registrationAccept
  | swposAnswer | sweepVisit | bankStripeApply | contextTermination | teamStopOutcome | gangSave | loadComplete | storeComplete
  | remoteThresholdExpiry | watchdogExpiry | gangPlace | gangReservation | gangRestore | compaction | nodeCommit
  | poisonConsumed | uncorrectableError | shepherdScan | shepherdSkip | computeThermalPoint | memoryThermalPoint | remoteAccess
  | pageMigration | linkRecoveryStart | linkRouteReturn | domainBoundChange | peerUnreachable | boot =>
    unfold exec
    simp only [execUnmapRequest, execUnmapComplete, execInvalidationComplete, execVacate, execGload, execKick,
      execStashLazyWriteback, execLadderStarvationExpiry, execPicotDrain, execCollectivePeerData, execCopyEntryComplete,
      execSignalDelivery, execSignalDeliveryDiscard, execRegistrationAccept, execSwposAnswer, execSweepVisit,
      execBankStripeApply, execContextTermination, execTeamStopOutcome, execGangSave, execLoadComplete, execStoreComplete,
      execRemoteThresholdExpiry, execWatchdogExpiry, execGangPlace, execGangReservation, execGangRestore, execCompaction,
      execNodeCommit, execPoisonConsumed, execUncorrectableError, execShepherdScan, execShepherdSkip, execComputeThermalPoint,
      execMemoryThermalPoint, execRemoteAccess, execPageMigration, execLinkRecoveryStart, execLinkRouteReturn,
      execDomainBoundChange, execPeerUnreachable, execBoot]
    repeat' first | with_reducible exact completes_next _ | split
  | nodeWaitext => exact completes_ite (completes_next _) (nodeStart_completes ..)
  | replayStart => exact execReplayStart_completes ..
  | nodeLadder => exact execNodeLadder_completes ..
  | nodeSignal => exact execNodeSignal_completes ..
  | cp | cpt | cpg | cps | cpf | cpr | cpm | cpc | cpn | unknownCommandEntry => cases he
  | _ =>
    -- a word of a stream: its encoding has a nonzero major, or its stream is named outright
    unfold streamOf encodeWord at hs
    simp [e3, e2, encRrr, encRi, encRl, encBr, encM, encSys, encSync] at hs

/-! ## What the decoder gives each agent -/

section Decoder
variable {k : StreamKind}

/-- A parse that holds gives words of one stream only. -/
def Decodes (k : StreamKind) (r : Except PrickCode Instr) : Prop := ∀ i, r = .ok i → streamOf i = some k

theorem decodes_ok {i : Instr} (h : streamOf i = some k) : Decodes k (.ok i) := by
  rintro j ⟨⟩
  exact h

theorem decodes_error (c : PrickCode) : Decodes k (.error c) := nofun

theorem decodes_ite {c : Prop} [Decidable c] {p q : Except PrickCode Instr} (hp : Decodes k p) (hq : Decodes k q) :
    Decodes k (if c then p else q) := by split <;> assumption

theorem decodes_mbzThen {z : Bool} {i : Instr} (h : streamOf i = some k) : Decodes k (mbzThen z i) :=
  decodes_ite (decodes_ok h) (decodes_error _)

theorem decodes_minor4 {w : Nat} {a b c d : Except PrickCode Instr} (ha : Decodes k a) (hb : Decodes k b) (hc : Decodes k c)
    (hd : Decodes k d) : Decodes k (minor4 w a b c d) := by
  unfold minor4
  split <;> assumption

theorem decodes_parseMatrix (w : Nat) : Decodes .matrix (parseMatrix w) := by
  unfold parseMatrix
  split
  all_goals (repeat' with_reducible first
    | exact decodes_error _
    | apply decodes_ok
    | apply decodes_mbzThen
    | apply decodes_ite)
  all_goals rfl

theorem decodes_parseBank (w : Nat) : Decodes .bank (parseBank w) := by
  simp only [parseBank, bank3, bankC]
  split
  all_goals (repeat' with_reducible first
    | exact decodes_error _
    | apply decodes_mbzThen)
  all_goals rfl

/-- The parse of a group word is followed down to its instruction, whose encoding has a nonzero major. -/
theorem decodes_parseGroup (w : Nat) : Decodes .group (parseGroup w) := by
  simp only [parseGroup, parseSys, parseSync, parseBlocks, parseSweep, parseCmp, rrr, rr0, rrrZ, ri, rl, memHint, memScratch,
    memScope]
  split
  all_goals (repeat' with_reducible first
    | exact decodes_error _
    | apply decodes_ok
    | apply decodes_mbzThen
    | apply decodes_ite
    | apply decodes_minor4
    | split)
  all_goals
    unfold streamOf encodeWord
    simp [e3, e2, encRrr, encRi, encRl, encBr, encM, encSys, encSync]

theorem streamOf_of_decodeWord {w : Word} {i : Instr} (h : decodeWord k w = .ok i) : streamOf i = some k := by
  have hp : parseWord k w.toNat = .ok i := by
    unfold decodeWord at h
    split at h
    · cases h
    · split at h
      · cases h
        assumption
      · cases h
  cases k with
  | group => exact decodes_parseGroup _ i hp
  | matrix => exact decodes_parseMatrix _ i hp
  | bank => exact decodes_parseBank _ i hp

end Decoder

/-! ## The agents' turns -/

theorem completes_endTurn {o : Out} (h : Completes o) : Completes (endTurn o) := by
  obtain ⟨t, rfl⟩ := h
  exact completes_next _

theorem completes_settled {o : Out} (h : Completes o) : Completes (settled o) := by
  obtain ⟨t, rfl⟩ := h
  exact completes_next _

theorem completes_afterIssue {before : State} {g : GRef} {o : Out} (h : Completes o) : Completes (afterIssue before g o) := by
  obtain ⟨t, rfl⟩ := h
  exact completes_next _

/-- A gang that keeps its teams keeps every team where it is found. -/
theorem findTeam_modGang_teams (s : State) (n : Nat) (t : TRef) (f : Gang → Gang) (hf : ∀ gg, (f gg).teams = gg.teams) :
    findTeam (modGang s n f) t = findTeam s t := by
  unfold findTeam
  rw [findGang_modGang]
  by_cases hn : n = t.gang
  · cases findGang s t.gang <;> simp [hn, hf]
  · simp [hn]

theorem findTeam_noteFetch (s : State) (n pc : Nat) (t : TRef) : findTeam (noteFetch s n pc) t = findTeam s t :=
  findTeam_modGang_teams s n t _ fun _ => by split <;> rfl

theorem findGang_noteFetch_some {s : State} {n m : Nat} {gg : Gang} (h : findGang s m = some gg) (pc : Nat) :
    ∃ gg', findGang (noteFetch s n pc) m = some gg' := by
  unfold noteFetch
  rw [findGang_modGang, h]
  split <;> exact ⟨_, rfl⟩

theorem findGroup_noteFetch (s : State) (n pc : Nat) (g : GRef) : findGroup (noteFetch s n pc) g = findGroup s g := by
  unfold findGroup
  rw [findTeam_noteFetch]

theorem isSome_findGroup_modGroup (s : State) (g h : GRef) (f : Group → Group) :
    (findGroup (modGroup s g f) h).isSome = (findGroup s h).isSome := by
  rw [findGroup_modGroup]
  split <;> simp

theorem isSome_findGroup_addBubbles (s : State) (g h : GRef) (x : Group) (i : Instr) :
    (findGroup (addBubbles s g x i) h).isSome = (findGroup s h).isSome := by
  unfold addBubbles
  split
  · rfl
  · exact isSome_findGroup_modGroup ..

theorem isSome_findGroup_beforeIssue (s : State) (g h : GRef) :
    (findGroup (beforeIssue s g) h).isSome = (findGroup s h).isSome := isSome_findGroup_modGroup ..

/-- A group's next instruction is a word of the group stream. -/
theorem streamOf_of_nextInstr {s : State} {g : GRef} {x : Group} {i : Instr} (h : nextInstr s g x = some i) :
    streamOf i = some .group := by
  unfold nextInstr at h
  split at h
  · cases h
  · split at h
    · cases h
    · split at h
      · next hd =>
        cases h
        exact streamOf_of_decodeWord hd
      · cases h

theorem issue_completes (s : State) (g : GRef) : Completes (issue s g) := by
  unfold issue
  split
  · exact completes_next _
  · next x hx =>
    split
    · next i hi =>
      extract_lets s1
      have hfound : (findGroup (beforeIssue s1 g) g).isSome := by
        rw [isSome_findGroup_beforeIssue, findGroup_noteFetch, isSome_findGroup_addBubbles, hx]
        rfl
      obtain ⟨y, hy⟩ := Option.isSome_iff_exists.1 hfound
      obtain ⟨t, ht⟩ := exec_completes_of_issues ⟨rfl, hy⟩ (streamOf_of_nextInstr hi)
      rw [ht]
      exact completes_next _
    · exact completes_next _

theorem frontCycle_completes (s : State) (l core : Nat) : Completes (frontCycle s l core) := by
  unfold frontCycle
  dsimp only
  split
  · exact issue_completes ..
  · exact completes_next _

theorem seqTurn_completes (s : State) (t : TRef) : Completes (seqTurn s t) := by
  unfold seqTurn
  split
  · next gg tm hg ht =>
    refine completes_ite (completes_next _) ?_
    split
    · exact completes_next _
    · split
      · next i hd =>
        obtain ⟨gg', hg'⟩ := findGang_noteFetch_some hg tm.seq.pc.toNat
        have ht' := (findTeam_noteFetch s t.gang tm.seq.pc.toNat t).trans ht
        have hseq : Sequences { noteFetch s t.gang tm.seq.pc.toNat with focus := .seq t } t gg' tm := ⟨rfl, hg', ht'⟩
        exact completes_endTurn (exec_completes_of_sequences hseq (streamOf_of_decodeWord hd))
      · exact completes_next _
  · exact completes_next _

theorem findEngine_focus (s : State) (f : Focus) (x : EngineRef) : findEngine { s with focus := f } x = findEngine s x := by
  cases x <;> rfl

theorem engineStep_completes (s : State) (x : EngineRef) : Completes (engineStep s x) := by
  unfold engineStep
  split
  · exact completes_next _
  · next e he =>
    have run (code : Nat) (en : Entry) : Completes (endTurn (exec (entryInstr code en) { s with focus := .engine x })) :=
      completes_endTurn (exec_entryInstr_completes rfl ((findEngine_focus ..).trans he) ..)
    split
    · exact run ..
    · refine completes_ite (completes_next _) ?_
      split
      · exact run ..
      · exact completes_next _

theorem restoreStep_completes (s : State) : Completes (restoreStep s) := by
  unfold restoreStep
  split
  · exact completes_endTurn (exec_completes_of_restore rfl rfl)
  · extract_lets s1
    split
    · next hd => exact completes_endTurn (exec_completes_of_restore rfl (streamOf_of_decodeWord hd))
    · exact completes_endTurn (exec_completes_of_restore rfl rfl)

/-- Every action completes, an event given by the order of events to come being one of the part's. -/
theorem act_completes (s : State) {a : Action} (h : ∀ i, a = .event i → IsEvent i) : Completes (act s a) := by
  cases a with
  | cycle l core => exact frontCycle_completes s l core
  | seq t => exact seqTurn_completes s t
  | engine x => exact engineStep_completes s x
  | event i => exact completes_ite (completes_next _) (completes_endTurn (exec_completes_of_isEvent (h i rfl) _))

/-! ## The events that fall due -/

theorem isEvent_watchdogsDue (s : State) : ∀ p ∈ watchdogsDue s, IsEvent p.2 := by
  intro p hp
  simp only [watchdogsDue, List.mem_append, List.mem_filterMap, Option.map_eq_some_iff] at hp
  rcases hp with (⟨_, _, _, _, rfl⟩ | ⟨_, _, _, _, rfl⟩) | ⟨_, _, _, _, rfl⟩ <;> exact ⟨rfl, rfl⟩

theorem isEvent_thresholdsDue (s : State) : ∀ p ∈ thresholdsDue s, IsEvent p.2 := by
  intro p hp
  simp only [thresholdsDue, List.mem_flatMap, List.mem_map] at hp
  obtain ⟨_, _, _, _, rfl⟩ := hp
  exact ⟨rfl, rfl⟩

theorem isEvent_starvationDue (s : State) : ∀ p ∈ starvationDue s, IsEvent p.2 := by
  intro p hp
  simp only [starvationDue, List.mem_flatMap, List.mem_filterMap, Option.bind_eq_some_iff, Option.map_eq_some_iff] at hp
  obtain ⟨_, _, _, _, _, _, _, _, rfl⟩ := hp
  exact ⟨rfl, rfl⟩

theorem isEvent_limitsDue (s : State) : ∀ p ∈ limitsDue s, IsEvent p.2 := by
  intro p hp
  simp only [limitsDue, List.mem_append, List.mem_flatMap, List.mem_filterMap, Option.bind_eq_some_iff, Option.map_eq_some_iff,
    Option.ite_none_right_eq_some, Option.some.injEq] at hp
  rcases hp with (⟨_, _, _, _, rfl⟩ | ⟨_, _, _, _, rfl⟩) | ⟨_, _, _, _, _, _, _, rfl⟩ <;> exact ⟨rfl, rfl⟩

theorem isEvent_timersDue (s : State) : ∀ p ∈ timersDue s, IsEvent p.2 := by
  intro p hp
  simp only [timersDue, List.mem_append, List.mem_cons, List.not_mem_nil, or_false, List.mem_map, List.mem_filterMap,
    Option.map_eq_some_iff] at hp
  rcases hp with ((((rfl | rfl) | ⟨_, _, rfl⟩) | ⟨_, _, _, _, rfl⟩) | ⟨_, _, rfl⟩) | ⟨_, _, _, _, rfl⟩ <;> exact ⟨rfl, rfl⟩

theorem isEvent_idlePeerDue (s : State) (target : Nat) : ∀ p ∈ idlePeerDue s target, IsEvent p.2 := by
  intro p hp
  unfold idlePeerDue at hp
  extract_lets t at hp
  split at hp
  · cases hp
  · simp only [Option.mem_toList, Option.map_eq_some_iff] at hp
    obtain ⟨_, _, rfl⟩ := hp
    exact ⟨rfl, rfl⟩

/-- A fold that keeps its value or takes the element at hand ends with its first value or with an element. -/
theorem mem_of_foldl_choose {α : Type} {f : Option α → α → Option α} (hf : ∀ b a, f b a = b ∨ f b a = some a) (l : List α)
    (b : Option α) {x : α} (h : l.foldl f b = some x) : b = some x ∨ x ∈ l := by
  induction l generalizing b with
  | nil => exact .inl h
  | cons a l ih =>
    rcases ih _ h with hb | hx
    · rcases hf b a with e | e
      · exact .inl (e ▸ hb)
      · rw [e] at hb
        cases hb
        exact .inr List.mem_cons_self
    · exact .inr (List.mem_cons_of_mem _ hx)

theorem isEvent_of_nextDue {s : State} {target : Nat} {p : Nat × Instr} (h : nextDue s target = some p) : IsEvent p.2 := by
  unfold nextDue at h
  refine (mem_of_foldl_choose ?_ _ _ h).elim nofun fun hp => ?_
  · rintro (_ | b) a
    · exact .inr rfl
    · dsimp only
      split
      · exact .inr rfl
      · exact .inl rfl
  · simp only [List.mem_append, List.mem_filter] at hp
    rcases hp with ⟨hp | hp, -⟩ | ⟨((hp | hp) | hp) | hp, -⟩
    · exact isEvent_watchdogsDue s p hp
    · exact isEvent_starvationDue s p hp
    · exact isEvent_thresholdsDue s p hp
    · exact isEvent_timersDue s p hp
    · exact isEvent_limitsDue s p hp
    · exact isEvent_idlePeerDue s target p hp

/-! ## The order of events left open -/

theorem isEvent_groupEvents (q : GRef × Gang × Group) : ∀ i ∈ groupEvents q, IsEvent i := by
  intro i hi
  simp only [groupEvents, List.mem_append, List.mem_map] at hi
  rcases hi with ⟨_, _, rfl⟩ | ⟨_, _, rfl⟩ <;> exact ⟨rfl, rfl⟩

theorem isEvent_nodeEvents (s : State) : ∀ i ∈ nodeEvents s, IsEvent i := by
  intro i hi
  simp only [nodeEvents, List.mem_flatMap] at hi
  obtain ⟨p, -, k, -, hi⟩ := hi
  split at hi
  · cases hi
  · simp only [List.mem_cons, List.not_mem_nil, or_false] at hi
    rcases hi with rfl | rfl
    · exact ⟨rfl, rfl⟩
    · split <;> exact ⟨rfl, rfl⟩

theorem isEvent_placeEvents (s : State) (l : Nat) : ∀ i ∈ placeEvents s l, IsEvent i := by
  intro i hi
  simp only [placeEvents, List.mem_append, List.mem_flatMap, List.mem_map] at hi
  rcases hi with ⟨_, _, _, _, _, _, rfl⟩ | ⟨_, _, _, _, rfl⟩
  · split <;> exact ⟨rfl, rfl⟩
  · exact ⟨rfl, rfl⟩

theorem isEvent_partEvents (s : State) (k : Nat) : ∀ i ∈ partEvents s k, IsEvent i := by
  intro i hi
  simp only [partEvents, List.mem_append, List.mem_flatMap, List.mem_map, List.mem_cons, List.not_mem_nil, or_false] at hi
  rcases hi with (((((((((((⟨q, -, hi⟩ | ⟨_, -, rfl | rfl | rfl⟩) | ⟨_, -, rfl⟩) | hi) | hi) | ⟨_, -, rfl⟩) |
    ⟨_, -, _, -, rfl⟩) | ⟨_, -, rfl | rfl⟩) | ⟨_, -, _, -, rfl⟩) | ⟨_, -, _, -, _, -, rfl⟩) | ⟨_, -, rfl⟩) | ⟨_, -, rfl⟩) |
    rfl | rfl | rfl | rfl | rfl | rfl
  · exact isEvent_groupEvents q i hi
  iterate 4 exact ⟨rfl, rfl⟩
  · exact isEvent_nodeEvents s i hi
  · exact isEvent_placeEvents s _ i hi
  all_goals exact ⟨rfl, rfl⟩

theorem agents_ne_nil (s : State) (k : Nat) : agents s k ≠ [] := by
  simp [agents, partEvents]

theorem isEvent_of_mem_agents {s : State} {k : Nat} {i : Instr} (h : .event i ∈ agents s k) : IsEvent i := by
  simp only [agents, List.mem_append, List.mem_map, reduceCtorEq, and_false, exists_false, false_or, Action.event.injEq,
    exists_eq_right] at h
  exact isEvent_partEvents s k i h

theorem isEvent_of_openAction {s : State} {i : Instr} (h : (openAction s).2 = .event i) : IsEvent i := by
  unfold openAction at h
  split at h
  · cases h
    exact ⟨rfl, rfl⟩
  · have hlt := Nat.mod_lt (Config.freeNat s.fresh 907) (List.length_pos_iff.2 (agents_ne_nil s (s.fresh + 1)))
    rw [List.getElem?_eq_getElem hlt, Option.getD_some] at h
    have hmem := List.getElem_mem hlt
    dsimp only at h
    rw [h] at hmem
    exact isEvent_of_mem_agents hmem

theorem isEvent_of_nextAction {s : State} (h : ∀ a ∈ s.agenda, ∀ i, a.2 = .event i → IsEvent i) {i : Instr}
    (hi : (nextAction s).1.2 = .event i) : IsEvent i := by
  unfold nextAction at hi
  split at hi
  · next a rest ha => exact h a (ha ▸ List.mem_cons_self) i hi
  · exact isEvent_of_openAction hi

theorem step_completes (s : State) (h : ∀ a ∈ s.agenda, ∀ i, a.2 = .event i → IsEvent i) : Completes (step s) := by
  unfold step stepOnce
  split
  · exact completes_settled (restoreStep_completes s)
  · extract_lets a target
    split
    · next hdue => exact completes_settled (completes_endTurn (exec_completes_of_isEvent (isEvent_of_nextDue hdue) _))
    · exact completes_settled (act_completes _ fun i hi => isEvent_of_nextAction h hi)

/-- Settles O8: whoever acts next, what it executes is decoded for its own agent or is an event of the part, and every such
instruction answers a next state. -/
theorem everyStepAnswersANextState : Obligations.EveryStepAnswersANextState := step_completes

end Sys2Proof.Progress
end
